-- ==== Sys2Proof/Word.lean ====
section
/-! DEFINITION. The word types of the PX16 and the numbers that name its parts (00_scope.md, "Conventions"). -/

namespace Sys2Proof

/-- A byte of memory, of a request's data or of a press-link frame. -/
abbrev Byte := BitVec 8

/-- A word of a memory-resident format: 8 bytes at an 8-byte-aligned offset (00_scope.md). -/
abbrev Word := BitVec 64

/-- A 36-bit byte address (00_scope.md). -/
abbrev Addr := BitVec 36

/-- A host tag, 0 to 63 (R2). -/
abbrev Tag := Fin 64

/-- A printer port, 0 to 15. -/
abbrev PortId := Fin 16

/-- A ticket slot, 0 to 255. -/
abbrev Slot := Fin 256

/-- A customer account, 0 to 63. -/
abbrev AccountId := Fin 64

/-- A condition of a port, 0 to 3. -/
abbrev CondId := Fin 4

end Sys2Proof
end

