-- ==== Sys2Proof/Syntax.lean ====
section
/-! DEFINITION. The commands of the block: one constructor for each row of spec/opcode_table.json, with the operands the
row's step carries (INVENTORY.md, "Instructions"; log entries 1, 3, 4, 19 and 25). -/

namespace Sys2Proof

/-- A host READ as it arrives at the processor-side port (R1). -/
structure ReadRequest where
  addr : Addr
  size : Nat
  tag : Tag
  deriving DecidableEq, Repr

/-- A host WRITE as it arrives at the processor-side port (R1): one byte enable and one data byte per byte of the size. -/
structure WriteRequest where
  addr : Addr
  size : Nat
  enables : List Bool
  data : List Byte
  tag : Tag
  deriving DecidableEq, Repr

/-- A host WRITE into the control page, its address given as an offset from the anchored base (R185). -/
structure SettingWrite where
  offset : BitVec 16
  size : Nat
  enables : List Bool
  data : List Byte
  tag : Tag
  deriving DecidableEq, Repr

/-- The bytes of an exact word write to the command word, less its code, which the row gives (R186). -/
structure CommandWrite where
  complement : Byte
  argument : Byte
  spare : Byte
  value : BitVec 32
  tag : Tag
  deriving DecidableEq, Repr

/-- The bytes of an exact word write to a slot's post word, less its job code, which the row gives (R190). -/
structure PostWrite where
  slot : Slot
  complement : Byte
  spare : BitVec 48
  tag : Tag
  deriving DecidableEq, Repr

/-- Memory's answer to the granted request named `grant` (log entry 4): OK or ERROR, with the bytes of a read. -/
structure MemoryAnswer where
  grant : Nat
  ok : Bool
  data : List Byte
  deriving DecidableEq, Repr

inductive Instr where
  | resetNAssertion
  | resetNRelease (anchor : Byte)
  | sweepWriteAnswer (grant : Nat) (ok : Bool)
  | read (r : ReadRequest)
  | write (w : WriteRequest)
  | windowSettingWrite (w : SettingWrite)
  | ringRestart (w : SettingWrite)
  | consumeIndexWrite (w : SettingWrite)
  | portEnable (w : SettingWrite)
  | portDisable (w : SettingWrite)
  | portSettingWrite (w : SettingWrite)
  | accountSettingWrite (w : SettingWrite)
  | start (c : CommandWrite)
  | stop (c : CommandWrite)
  | portHold (c : CommandWrite)
  | portRelease (c : CommandWrite)
  | portFlush (c : CommandWrite)
  | portWake (c : CommandWrite)
  | portReset (c : CommandWrite)
  | portResume (c : CommandWrite)
  | quotaSet (c : CommandWrite)
  | quotaAdd (c : CommandWrite)
  | meterClear (c : CommandWrite)
  | alertTake (c : CommandWrite)
  | alertDone (c : CommandWrite)
  | post (w : PostWrite)
  | cancel (w : PostWrite)
  | release (w : PostWrite)
  | memoryGrant
  | passingResponse (a : MemoryAnswer)
  | ticketFetchAnswer (a : MemoryAnswer)
  | lineFetchAnswer (a : MemoryAnswer)
  | activation (p : PortId)
  | wakeCause (p : PortId)
  | dataFrame (p : PortId)
  | pacingWindowEnd (p : PortId)
  | trainAck (p : PortId) (credits : Byte)
  | credit (p : PortId) (grant : Byte)
  | status (p : PortId) (bits : BitVec 16) (count : Byte)
  | badFrame (p : PortId) (bytes : List Byte)
  | trainingTimerExpiry (p : PortId)
  | silenceTimerExpiry (p : PortId)
  | idleTimerExpiry (p : PortId)
  | warmTimerExpiry (p : PortId)
  | recordWritePick
  | alertWriteAnswer (grant : Nat) (ok : Bool)
  | millisecondCountTick
  deriving DecidableEq, Repr

end Sys2Proof
end

