-- ==== Sys2Proof/Decode.lean ====
section
/-! DEFINITION. The commands that words spell by the opcode table's bits. -/

namespace Sys2Proof

/-- The command a word spells by the table's bits. The table gives no row any bits (every row's `fields` is empty), so no
word spells a command. -/
def decodeTableWord (_nbits _w : Nat) : Option Instr := none

end Sys2Proof
end

