-- ==== Sys2Proof/Machine/Bytes.lean ====
section
/-! DEFINITION. Byte order and bit fields (R184): every multi-byte field is little-endian. -/

namespace Sys2Proof.Machine

/-- The number whose bytes are listed, least significant first (R184). -/
def leNat : List Byte → Nat
  | [] => 0
  | b :: bs => b.toNat + 256 * leNat bs

/-- The `k` bytes of a number, least significant first (R184). -/
def leBytes : Nat → Nat → List Byte
  | 0, _ => []
  | k + 1, n => BitVec.ofNat 8 n :: leBytes k (n / 256)

/-- A word from its eight bytes. -/
def wordOfBytes (bs : List Byte) : Word := BitVec.ofNat 64 (leNat bs)

/-- The eight bytes of a word. -/
def wordBytes (w : Word) : List Byte := leBytes 8 w.toNat

/-- The field of `n` bits that begins at bit `lo` of a word. -/
def bits (w : Word) (lo n : Nat) : Nat := (w.toNat >>> lo) % 2 ^ n

/-- A one-bit field. -/
def bit (w : Word) (k : Nat) : Bool := bits w k 1 == 1

/-- Each enabled byte replaced by the written byte (R24, step 1). -/
def mergeBytes : List Byte → List Bool → List Byte → List Byte
  | o :: os, e :: es, d :: ds => (if e then d else o) :: mergeBytes os es ds
  | os, _, _ => os

/-- A word with its enabled bytes replaced by the written bytes (R24, step 1). -/
def mergeWord (old : Word) (enables : List Bool) (data : List Byte) : Word :=
  wordOfBytes (mergeBytes (wordBytes old) enables data)

/-- A list cut or filled with zero bytes to `k` bytes. -/
def padTo (k : Nat) (bs : List Byte) : List Byte := (bs ++ List.replicate k 0).take k

end Sys2Proof.Machine
end

