-- ==== Sys2Proof/Config.lean ====
section
/-! DEFINITION. What is fixed for the part, and the one value the spec leaves free. -/

namespace Sys2Proof.Config

/-- The training timer's interval in milliseconds (R115, R116). -/
def trainingMs : Nat := 250

/-- Memory-side tags (R17). -/
def memoryTags : Nat := 48

/-- Page-list entries of a port (R150). -/
def pageEntries : Nat := 32

/-- Lines of an engine's fetch buffer (R89). -/
def bufferLines : Nat := 32

/-- Outstanding line fetches of an engine (R93). -/
def engineFetches : Nat := 8

/-- The most credits a port may hold (R119). -/
def maxCredits : Nat := 32

/-- The largest `remaining`, reload constant and pages delivered (R41, R155). -/
def maxPages : Nat := 16777215

/-- The largest pages spoiled, and the largest occurrences of a latch (R41, R171). -/
def maxSpoiled : Nat := 65535

/-- The largest job data length (R48). -/
def maxLength : Nat := 67108864

/-- FREE VALUE (DESIGN CHOICE, safe; log entry 11). Where several conditions of one port have edges at one STATUS, the
spec says that each raises its alert (R135) and not which raise is taken first. They are taken by rising key: the
`draw`-th draw's key of condition `c`. Nothing in Lean can find its value. -/
opaque raiseKey (draw c : Nat) : Nat

end Sys2Proof.Config
end

