-- ==== Sys2Proof/Machine/State.lean ====
section
/-! DEFINITION. Everything the spec gives the part, as plain data, and its value at assertion of RESET_N.
INVENTORY.md, "State", lists each piece with its rule and its reset value. -/

namespace Sys2Proof.Machine

/-! ## Control image, command record and global state (02) -/

/-- Global spool state (R35). -/
inductive GlobalState where
  | stopped | running | quiescing
  deriving DecidableEq, Repr

/-- Result of a control command (R33, R186). -/
inductive CommandResult where
  | done | state | arg | nothing | complement
  deriving DecidableEq, Repr

/-- A port's setting word and its four condition words (R185, R188). -/
structure PortSettings where
  word : Word
  conditions : Vector Word 4
  deriving DecidableEq, Repr

/-- The part's copy of the setting areas, word by word (R188). -/
structure Image where
  ticketWindow : Word
  meterWindow : Word
  spoolWindow : Word
  ring : Word
  consume : Word
  markRules : Vector Word 4
  pacing : Vector Word 8
  ports : Vector PortSettings 16
  accounts : Vector Word 64
  deriving DecidableEq, Repr

/-- Global state, command record and refusal count (R30, R34, R35). -/
structure Control where
  global : GlobalState
  lastCode : Byte
  lastResult : CommandResult
  taken : BitVec 16
  refusals : BitVec 32
  deriving DecidableEq, Repr

/-! ## Tickets (03) -/

/-- The states of a ticket (R41, R191). -/
inductive TicketState where
  | free | posting | queued | active | draining | cancelling | failing | done | cancelled | failed
  deriving DecidableEq, Repr

/-- Reject reasons, end reasons and none (R41, R191). -/
inductive Reason where
  | noReason | extent | port | account | copies | rule | memoryReject | complete | cancel | flush | memoryEnd
  deriving DecidableEq, Repr

/-- The fields of R40 as accepted. -/
structure Mirror where
  dataBase : Nat
  length : Nat
  copies : Nat
  markRule : BitVec 3
  urgent : Bool
  notify : Bool
  port : PortId
  account : AccountId
  jobTag : BitVec 32
  deriving DecidableEq, Repr

/-- A copy, a page within it and the offset of the page's first byte (R41, R143). -/
structure ResumePoint where
  copy : Nat
  page : Nat
  offset : Nat
  deriving DecidableEq, Repr

/-- A ticket record (R41). -/
structure Ticket where
  state : TicketState
  reason : Reason
  mirror : Option Mirror
  copy : Nat
  page : Nat
  resume : Option ResumePoint
  delivered : Nat
  spoiled : Nat
  entryCount : Nat
  fetchCount : Nat
  sending : Bool
  deriving DecidableEq, Repr

/-- A memory answer kept with its slot until the slot is judged (R47). -/
structure KeptAnswer where
  ok : Bool
  data : List Byte
  deriving DecidableEq, Repr

/-- An entry of the ticket fetcher's in-flight list (R46, R47). -/
structure InFlight where
  slot : Slot
  answer : Option KeptAnswer
  deriving DecidableEq, Repr

/-- The ticket fetcher's two lists (R46). -/
structure Fetcher where
  queue : List Slot
  inFlight : List InFlight
  deriving DecidableEq, Repr

/-! ## Ports: queue, engine, page list, link, status watch (04, 06, 07, 08, 09) -/

/-- Placement mark of a queue entry (R59). -/
inductive QueueMark where
  | resume | urgent | normal
  deriving DecidableEq, Repr

structure QueueEntry where
  slot : Slot
  mark : QueueMark
  deriving DecidableEq, Repr

/-- The nine engine states (R90). -/
inductive EngineState where
  | idle | sending | waitCredit | waitPace | waitPage | waitQuota | paused | held | jamStop
  deriving DecidableEq, Repr

/-- A mark rule's definition as an engine copied it (R98). -/
structure MarkRule where
  lead : Byte
  mark : Byte
  dontCare : Byte
  deriving DecidableEq, Repr

/-- A line of the fetch buffer: its copy, the offset from `data base` of its first job-data byte, and its job-data
bytes (R92, R94). -/
structure BufferLine where
  copy : Nat
  offset : Nat
  bytes : List Byte
  deriving DecidableEq, Repr

/-- The fetch cursor: the copy and the offset from `data base` of the next job-data byte to be fetched; the line to be
fetched is the one that holds that byte (R89, R92). -/
structure Cursor where
  copy : Nat
  offset : Nat
  deriving DecidableEq, Repr

/-- What an engine holds with a ticket in hand: R89's ticket in hand, mirror copy, rule copy ("no marks" is none),
position, next byte, fetch buffer, fetch cursor (none: the sequence has ended) and mark search. -/
structure Job where
  slot : Slot
  dataBase : Nat
  length : Nat
  copies : Nat
  account : AccountId
  rule : Option MarkRule
  copy : Nat
  page : Nat
  offset : Nat
  next : Nat
  buffer : List BufferLine
  cursor : Option Cursor
  lead : Bool
  deriving DecidableEq, Repr

/-- A running pacing window (R112): its start on the time base (the millisecond count and the microsecond within it), its
length in microseconds, its limit, and the frames sent in it. -/
structure PacerWindow where
  since : BitVec 32
  sinceUs : Nat
  lengthUs : Nat
  limit : Nat
  sent : Nat
  deriving DecidableEq, Repr

/-- Recovery mode (R142, R188). -/
inductive RecoveryMode where
  | auto | operator
  deriving DecidableEq, Repr

/-- A spool engine (R89), with the recorded mode and resume consent of R142 and R147. -/
structure Engine where
  state : EngineState
  job : Option Job
  pacer : Option PacerWindow
  recordedMode : RecoveryMode
  consent : Bool
  deriving DecidableEq, Repr

/-- A page-list entry's state (R102). -/
inductive EntryState where
  | opened | closed
  deriving DecidableEq, Repr

/-- A page-list entry (R102). -/
structure Entry where
  slot : Slot
  account : AccountId
  copy : Nat
  page : Nat
  start : Nat
  state : EntryState
  deriving DecidableEq, Repr

/-- The link states (R115). -/
inductive LinkState where
  | disabled | training | ready | drowsy | waking | offline
  deriving DecidableEq, Repr

/-- A timer: stopped, or running since a reading of the time base (the millisecond count and the microsecond within it) for an
interval in milliseconds (R31, R115). -/
inductive Timer where
  | stopped
  | running (since : BitVec 32) (sinceUs : Nat) (interval : Nat)
  deriving DecidableEq, Repr

/-- The warm timer, which may also have expired since the last WAKE (R115). -/
inductive WarmTimer where
  | stopped
  | running (since : BitVec 32) (sinceUs : Nat) (interval : Nat)
  | expired
  deriving DecidableEq, Repr

/-- A press link's record (R115). -/
structure Link where
  state : LinkState
  credits : Nat
  badRun : Nat
  training : Timer
  silence : Timer
  idle : Timer
  warm : WarmTimer
  onlineSeen : Bool
  framesSent : BitVec 32
  badFrames : BitVec 32
  overflows : BitVec 32
  deriving DecidableEq, Repr

/-- Class of a condition (R133). -/
inductive CondClass where
  | jam | down | supply
  deriving DecidableEq, Repr

/-- A condition's truth and held class (R132). -/
structure HeldCondition where
  truth : Bool
  cls : CondClass
  deriving DecidableEq, Repr

/-- A status watch (R132). -/
structure Watch where
  bits : BitVec 16
  conditions : Vector HeldCondition 4
  deriving DecidableEq, Repr

/-- All that one port holds. -/
structure Port where
  queue : List QueueEntry
  holdFlag : Bool
  quiesceHold : Bool
  engine : Engine
  pages : List Entry
  link : Link
  watch : Watch
  stray : BitVec 32
  deriving DecidableEq, Repr

/-! ## Accounts (09) -/

/-- Quota policy (R155). -/
inductive Policy where
  | none | hold | reload
  deriving DecidableEq, Repr

/-- The kept fields of an account record (R155). -/
structure Account where
  remaining : Nat
  reserved : Nat
  sent : BitVec 32
  delivered : BitVec 32
  spoiled : BitVec 32
  deriving DecidableEq, Repr

/-! ## Alert relay (10) -/

/-- The six alert classes (R170). -/
inductive AlertClass where
  | jam | down | quota | refusal | supply | job
  deriving DecidableEq, Repr

/-- Reasons a REFUSAL alert carries (R8, R193). -/
inductive RefusalReason where
  | shape | subst | ticket | guard | locked | range | complement | arg | state
  deriving DecidableEq, Repr

/-- Cause of a JAM, DOWN or SUPPLY alert (R172). -/
inductive Cause where
  | condition (c : CondId)
  | link
  deriving DecidableEq, Repr

/-- The detail of a raise (R172). -/
inductive Detail where
  | printer (cause : Cause) (bits : BitVec 16) (slot : Option Slot)
  | quota (remaining : Nat) (policy : Policy)
  | refusal (addr : Addr) (reason : RefusalReason) (count : BitVec 32)
  | job (slot : Slot) (jobTag : BitVec 32) (reason : Reason) (delivered spoiled : Nat)
  deriving DecidableEq, Repr

/-- A latch of the backlog (R171). -/
structure Latch where
  cls : AlertClass
  source : Nat
  time : BitVec 32
  occurrences : Nat
  detail : Detail
  deriving DecidableEq, Repr

/-- Ring state (R174). -/
inductive RingState where
  | unset | running | faulted
  deriving DecidableEq, Repr

/-- The alert relay (R171 to R183). `stack` has its top at the head. -/
structure Relay where
  backlog : List Latch
  ringState : RingState
  produced : BitVec 16
  consumed : BitVec 16
  shadow : List AlertClass
  stack : List AlertClass
  inFlight : Option Latch
  attn : Bool
  deriving DecidableEq, Repr

/-! ## The traffic path (01) -/

/-- The mark of an outstanding line fetch (R95). A stopped fetch counts in its ticket's fetch count. -/
inductive FetchMark where
  | current
  | stopped (slot : Slot)
  | stale
  deriving DecidableEq, Repr

/-- Which memory request of a host request: the whole, or a half of a line-crossing one (R5). -/
inductive Half where
  | whole | first | second
  deriving DecidableEq, Repr

/-- Who owns a memory request (R15 to R18). A line fetch names the copy and the offset from `data base` of the first
job-data byte it brings; a record write says whether a restart dropped it (R176). -/
inductive Owner where
  | passing (tag : Tag) (half : Half)
  | record (dropped : Bool)
  | ticketFetch (slot : Slot)
  | lineFetch (port : PortId) (mark : FetchMark) (copy offset : Nat)
  | sweep
  deriving DecidableEq, Repr

/-- A request at the memory-side port. Its line is `addr / 64`. -/
structure MemRequest where
  owner : Owner
  isWrite : Bool
  addr : Nat
  size : Nat
  enables : List Bool
  data : List Byte
  deriving DecidableEq, Repr

/-- A granted request and the name its answer carries (log entry 4). -/
structure Granted where
  id : Nat
  request : MemRequest
  deriving DecidableEq, Repr

/-- Answers kept for the halves of a line-crossing request (R5). -/
inductive Parts where
  | whole
  | halves (first second : Option KeptAnswer)
  deriving DecidableEq, Repr

/-- An outstanding record of the processor-side port: kind, address and size, the substituted words taken at arrival
(one place per word, R14), and the halves answered so far (R5). -/
structure PspRecord where
  isWrite : Bool
  addr : Addr
  size : Nat
  subst : List (Option (List Byte))
  parts : Parts
  deriving DecidableEq, Repr

/-- A host request (R1). -/
inductive HostRequest where
  | read (r : ReadRequest)
  | write (w : WriteRequest)
  deriving DecidableEq, Repr

/-- The processor-side port (R1 to R3). -/
structure Psp where
  records : Vector (Option PspRecord) 64
  accepting : Bool
  held : List HostRequest
  deriving DecidableEq, Repr

/-- The memory arbiter and the memory-side port (R15 to R18). `waiting` is in the order the requests became ready;
`nextGrant` is the model's own (log entry 4). -/
structure Msp where
  waiting : List MemRequest
  outstanding : List Granted
  nextGrant : Nat
  runCount : Nat
  lastEngine : PortId
  deriving DecidableEq, Repr

/-- The start-up sweep (R22, R23). -/
structure Sweep where
  presented : Nat
  answered : Nat
  fault : Bool
  deriving DecidableEq, Repr

/-- Status of an ACK (R1). -/
inductive AckStatus where
  | ok | refused | error
  deriving DecidableEq, Repr

/-- What the part drives on its outputs: a response to the host (R1), a request handed to memory (R17), a frame handed
to a press link as the bytes on the wire (R113, R184). -/
inductive Output where
  | data (tag : Tag) (ok : Bool) (bytes : List Byte)
  | ack (tag : Tag) (status : AckStatus)
  | memory (id : Nat) (request : MemRequest)
  | frame (port : PortId) (bytes : List Byte)
  deriving DecidableEq, Repr

/-! ## The whole part -/

/-- The state of the part. `microseconds` is the 1 µs tick: the microseconds ticked since the millisecond count last rose
(R31; log entry 10). `pending` is the queue of commands waiting, `draws` counts the free values drawn (log
entry 11) and `out` is what the last command drove (log entry 18): these three are the model's own. -/
structure State where
  pending : List Instr
  resetAsserted : Bool
  milliseconds : BitVec 32
  microseconds : Nat
  anchor : BitVec 8
  psp : Psp
  msp : Msp
  sweep : Sweep
  image : Image
  ctl : Control
  tickets : Vector Ticket 256
  fetcher : Fetcher
  guards : Vector Nat 4096
  ports : Vector Port 16
  accounts : Vector Account 64
  relay : Relay
  draws : Nat
  out : List Output
  deriving DecidableEq, Repr

/-- Why a step may fault. The spec names nothing that stops the part: every error is answered and the part goes on
(INVENTORY.md, "Faults"). -/
inductive Fault where
  /-- Raised by no command (log entry 24). Safe: it takes no behaviour away. -/
  | neverRaised
  deriving DecidableEq, Repr

/-- Why a step may be refused. -/
inductive Refusal where
  /-- Raised by `exec` for a command that has no meaning yet; every command has one. Safe: the model stops. -/
  | notModelled (mnemonic : String)
  deriving DecidableEq, Repr

/-! ## Reset values -/

/-- The default condition words 0 to 3 (R188). -/
def defaultConditions : Vector Word 4 :=
  #v[0x0000000000380038#64, 0x0000010000420043#64, 0x0000020000840084#64, 0#64]

/-- The default image (R21, R188). -/
def defaultImage : Image where
  ticketWindow := 0
  meterWindow := 0
  spoolWindow := 0
  ring := 0
  consume := 0
  markRules := Vector.replicate 4 0x0C1B#64
  pacing := Vector.replicate 8 0x0100#64
  ports := Vector.replicate 16 { word := 0x0002003200000300#64, conditions := defaultConditions }
  accounts := Vector.replicate 64 0x0000000100000000#64

/-- A ticket record at assertion of RESET_N (R42). -/
def Ticket.reset : Ticket where
  state := .free
  reason := .noReason
  mirror := none
  copy := 0
  page := 0
  resume := none
  delivered := 0
  spoiled := 0
  entryCount := 0
  fetchCount := 0
  sending := false

/-- An engine at assertion of RESET_N (R89, R149). -/
def Engine.reset : Engine where
  state := .idle
  job := none
  pacer := none
  recordedMode := .auto
  consent := false

/-- A link record at assertion of RESET_N (R115). -/
def Link.reset : Link where
  state := .disabled
  credits := 0
  badRun := 0
  training := .stopped
  silence := .stopped
  idle := .stopped
  warm := .stopped
  onlineSeen := false
  framesSent := 0
  badFrames := 0
  overflows := 0

/-- A status watch at assertion of RESET_N (R132): the held classes are those of the default definitions. -/
def Watch.reset : Watch where
  bits := 0
  conditions := #v[⟨false, .jam⟩, ⟨false, .down⟩, ⟨false, .supply⟩, ⟨false, .jam⟩]

/-- A port at assertion of RESET_N (R59, R70, R89, R115, R132, R150, R154). -/
def Port.reset : Port where
  queue := []
  holdFlag := false
  quiesceHold := false
  engine := Engine.reset
  pages := []
  link := Link.reset
  watch := Watch.reset
  stray := 0

/-- An account record at assertion of RESET_N (R155). -/
def Account.reset : Account where
  remaining := 0
  reserved := 0
  sent := 0
  delivered := 0
  spoiled := 0

/-- The alert relay at assertion of RESET_N (R183). -/
def Relay.reset : Relay where
  backlog := []
  ringState := .unset
  produced := 0
  consumed := 0
  shadow := []
  stack := []
  inFlight := none
  attn := false

/-- The part right after assertion of RESET_N (R3, R18, R20, R21, R42, R59, R76, R89, R115, R132, R150, R155, R183).
`anchor` before the first release is a DESIGN CHOICE (log entry 6), as are the model's own `nextGrant` and `draws`
(log entries 4 and 11). -/
def State.reset : State where
  pending := []
  resetAsserted := true
  milliseconds := 0
  microseconds := 0
  anchor := 0
  psp := { records := Vector.replicate 64 none, accepting := false, held := [] }
  msp := { waiting := [], outstanding := [], nextGrant := 0, runCount := 0, lastEngine := 15 }
  sweep := { presented := 0, answered := 0, fault := false }
  image := defaultImage
  ctl := { global := .stopped, lastCode := 0, lastResult := .done, taken := 0, refusals := 0 }
  tickets := Vector.replicate 256 Ticket.reset
  fetcher := { queue := [], inFlight := [] }
  guards := Vector.replicate 4096 0
  ports := Vector.replicate 16 Port.reset
  accounts := Vector.replicate 64 Account.reset
  relay := Relay.reset
  draws := 0
  out := []

end Sys2Proof.Machine
end

