-- ==== Sys2Proof/Machine/Image.lean ====
section
/-! DEFINITION. The setting words of the control image: where they lie in the control page (R185), their fields (R188),
their unused bits (R195) and their ranges (R24, R27, R111, R131, R133, R167, R173, R196). -/

namespace Sys2Proof.Machine

/-! ## Tables -/

/-- Entry `i` of a table. -/
def tget {α : Type} {n : Nat} (v : Vector α n) (i : Fin n) : α := v[i.val]

/-- A table with entry `i` replaced. -/
def tset {α : Type} {n : Nat} (v : Vector α n) (i : Fin n) (x : α) : Vector α n := v.set i.val x

/-- The sixteen ports in rising order. -/
def allPorts : List PortId := [0, 1, 2, 3, 4, 5, 6, 7, 8, 9, 10, 11, 12, 13, 14, 15]

/-! ## Setting words -/

/-- The setting words (R185). -/
inductive SettingLoc where
  | ticketWindow
  | meterWindow
  | spoolWindow
  | ring
  | consume
  | markRule (n : Fin 4)
  | pacing (n : Fin 8)
  | port (p : PortId)
  | condition (p : PortId) (c : CondId)
  | account (a : AccountId)
  deriving DecidableEq, Repr

/-- The setting word at an offset of the control page, if one lies there (R185). -/
def settingAt (off : Nat) : Option SettingLoc :=
  if off = 0x100 then some .ticketWindow
  else if off = 0x108 then some .meterWindow
  else if off = 0x110 then some .spoolWindow
  else if off = 0x140 then some .ring
  else if off = 0x148 then some .consume
  else if 0x180 ≤ off ∧ off < 0x1A0 then some (.markRule (Fin.ofNat 4 ((off - 0x180) / 8)))
  else if 0x1C0 ≤ off ∧ off < 0x200 then some (.pacing (Fin.ofNat 8 ((off - 0x1C0) / 8)))
  else if 0x200 ≤ off ∧ off < 0x600 then
    let p : PortId := Fin.ofNat 16 ((off - 0x200) / 64)
    let k := (off - 0x200) % 64 / 8
    if k = 0 then some (.port p) else if k ≤ 4 then some (.condition p (Fin.ofNat 4 (k - 1))) else none
  else if 0x600 ≤ off ∧ off < 0x800 then some (.account (Fin.ofNat 64 ((off - 0x600) / 8)))
  else none

/-- A setting word of an image. -/
def Image.get (im : Image) : SettingLoc → Word
  | .ticketWindow => im.ticketWindow
  | .meterWindow => im.meterWindow
  | .spoolWindow => im.spoolWindow
  | .ring => im.ring
  | .consume => im.consume
  | .markRule n => tget im.markRules n
  | .pacing n => tget im.pacing n
  | .port p => (tget im.ports p).word
  | .condition p c => tget (tget im.ports p).conditions c
  | .account a => tget im.accounts a

/-- An image with one setting word replaced. -/
def Image.put (im : Image) (loc : SettingLoc) (w : Word) : Image :=
  match loc with
  | .ticketWindow => { im with ticketWindow := w }
  | .meterWindow => { im with meterWindow := w }
  | .spoolWindow => { im with spoolWindow := w }
  | .ring => { im with ring := w }
  | .consume => { im with consume := w }
  | .markRule n => { im with markRules := tset im.markRules n w }
  | .pacing n => { im with pacing := tset im.pacing n w }
  | .port p => { im with ports := tset im.ports p { tget im.ports p with word := w } }
  | .condition p c =>
    let x := tget im.ports p
    { im with ports := tset im.ports p { x with conditions := tset x.conditions c w } }
  | .account a => { im with accounts := tset im.accounts a w }

/-! ## Fields (R188) -/

/-- A window's or the ring's base: bits 0 to 35. -/
def baseOf (w : Word) : Nat := bits w 0 36

/-- A window's enable: byte 7, bit 0. -/
def windowOn (w : Word) : Bool := bit w 56

/-- The spool window's block size code or the ring's size code: byte 5, bits 0 to 2. -/
def sizeCode (w : Word) : Nat := bits w 40 3

/-- The block size for a spool window word: 16 KiB times 2 to the power of the code (R27, R76). -/
def blockSize (w : Word) : Nat := 16384 * 2 ^ sizeCode w

/-- The spool window's size: 4096 blocks (R27, R76). -/
def spoolSize (w : Word) : Nat := 4096 * blockSize w

/-- The ring's size in records for a ring word (R173). -/
def ringRecords (w : Word) : Nat := 16 * 2 ^ sizeCode w

/-- The ring's extent in bytes (R173). -/
def ringBytes (w : Word) : Nat := 32 * ringRecords w

def consumeOf (w : Word) : BitVec 16 := BitVec.ofNat 16 (bits w 0 16)

def markRuleOf (w : Word) : MarkRule where
  lead := BitVec.ofNat 8 (bits w 0 8)
  mark := BitVec.ofNat 8 (bits w 8 8)
  dontCare := BitVec.ofNat 8 (bits w 16 8)

def pacingFrames (w : Word) : Nat := bits w 0 8
def pacingTicks (w : Word) : Nat := bits w 8 8
def pacingPrescale (w : Word) : Nat := bits w 16 3

/-- The window length of a profile in microseconds: tick count times prescale (R111). Codes 0 to 5 are ×1, ×4, ×16,
×64, ×256 and ×1024. -/
def pacingLengthUs (w : Word) : Nat := pacingTicks w * 4 ^ pacingPrescale w

def portOn (w : Word) : Bool := bit w 0
/-- The frame size in bytes: 64, 128, 192 or 256 (R96). -/
def portFrameSize (w : Word) : Nat := 64 * (bits w 8 2 + 1)
def portProfile (w : Word) : Fin 8 := Fin.ofNat 8 (bits w 16 3)
def portMode (w : Word) : RecoveryMode := if bit w 24 then .operator else .auto
/-- Silence time in milliseconds, from units of 10 ms. -/
def portSilenceMs (w : Word) : Nat := 10 * bits w 32 8
/-- Idle time in milliseconds, from seconds; 0 is never. -/
def portIdleMs (w : Word) : Nat := 1000 * bits w 40 8
/-- Warm time in milliseconds: 0.5 s times 2 to the power of the warm code (R126). -/
def portWarmMs (w : Word) : Nat := 500 * 2 ^ bits w 48 3
def portWakeOnStatus (w : Word) : Bool := bit w 56

def condMask (w : Word) : BitVec 16 := BitVec.ofNat 16 (bits w 0 16)
def condPattern (w : Word) : BitVec 16 := BitVec.ofNat 16 (bits w 16 16)
def condAll (w : Word) : Bool := bit w 32
def condClassCode (w : Word) : Nat := bits w 40 2
/-- A condition's class. Code 3 names none and is never captured (R196); log entry 16. -/
def condClass (w : Word) : CondClass :=
  match condClassCode w with
  | 0 => .jam
  | 1 => .down
  | _ => .supply

def accountOn (w : Word) : Bool := bit w 0
def policyCode (w : Word) : Nat := bits w 8 2
/-- An account's policy. Code 3 names none and is never captured (R196); log entry 16. -/
def accountPolicy (w : Word) : Policy :=
  match policyCode w with
  | 1 => .hold
  | 2 => .reload
  | _ => .none
def reloadConstant (w : Word) : Nat := bits w 32 24

/-! ## Unused bits and ranges -/

/-- The bits of a setting word that carry a field (R188). -/
def fieldMask : SettingLoc → Word
  | .ticketWindow | .meterWindow => 0x0100000FFFFFFFFF#64
  | .spoolWindow => 0x0100070FFFFFFFFF#64
  | .ring => 0x0000070FFFFFFFFF#64
  | .consume => 0x000000000000FFFF#64
  | .markRule _ => 0x0000000000FFFFFF#64
  | .pacing _ => 0x000000000007FFFF#64
  | .port _ => 0x0107FFFF01070301#64
  | .condition _ _ => 0x00000301FFFFFFFF#64
  | .account _ => 0x00FFFFFF00000301#64

/-- Every unused bit of the word is zero (R24, step 4; R195). -/
def unusedZero (loc : SettingLoc) (w : Word) : Bool := w &&& ~~~(fieldMask loc) == 0

/-- The range of the settings in a word, and the checks that join settings within it: window alignment (R27), pacing
(R111), silence time (R131), condition class (R133), policy and reload constant (R167), ring (R173); R196. -/
def inRange (loc : SettingLoc) (w : Word) : Bool :=
  match loc with
  | .ticketWindow => baseOf w % 8192 == 0
  | .meterWindow => baseOf w % 4096 == 0
  | .spoolWindow => decide (sizeCode w ≤ 6) && baseOf w % spoolSize w == 0
  | .ring => decide (sizeCode w ≤ 4) && baseOf w % 32 == 0 && decide (baseOf w + ringBytes w ≤ 2 ^ 36)
  | .consume => true
  | .markRule _ => true
  | .pacing _ => decide (pacingFrames w ≤ 64) && decide (1 ≤ pacingTicks w) && decide (pacingPrescale w ≤ 5)
  | .port _ => decide (1 ≤ bits w 32 8)
  | .condition _ _ => decide (condClassCode w ≤ 2)
  | .account _ => decide (policyCode w ≤ 2) && !(policyCode w == 2 && reloadConstant w == 0)

/-! ## Extents (R27, R28) -/

/-- An extent: its first byte and its length. -/
structure Extent where
  first : Nat
  length : Nat
  deriving DecidableEq, Repr

/-- Two extents share a byte. -/
def Extent.overlaps (a b : Extent) : Bool :=
  decide (a.first < b.first + b.length) && decide (b.first < a.first + a.length)

/-- The control page, fixed by the anchor (R19). -/
def controlBase (anchor : BitVec 8) : Nat := anchor.toNat * 65536

def controlExtent (anchor : BitVec 8) : Extent := ⟨controlBase anchor, 65536⟩

/-- The extents of the enabled windows of an image (R27). -/
def windowExtents (im : Image) : List Extent :=
  (if windowOn im.ticketWindow then [⟨baseOf im.ticketWindow, 8192⟩] else []) ++
  (if windowOn im.meterWindow then [⟨baseOf im.meterWindow, 4096⟩] else []) ++
  (if windowOn im.spoolWindow then [⟨baseOf im.spoolWindow, spoolSize im.spoolWindow⟩] else [])

def ringExtent (im : Image) : Extent := ⟨baseOf im.ring, ringBytes im.ring⟩

/-- No two extents of a list overlap. -/
def pairwiseApart : List Extent → Bool
  | [] => true
  | e :: es => es.all (fun x => !e.overlaps x) && pairwiseApart es

end Sys2Proof.Machine
end

