-- ==== Sys2Proof/Machine/Ops.lean ====
section
/-! DEFINITION. The named reads and updates of State that every meaning goes through, and the small operations over the
page list, the timers and the quiesce that several blocks share. -/

namespace Sys2Proof.Machine

/-! ## Reads and updates of the tables -/

def State.port (s : State) (p : PortId) : Port := tget s.ports p
def State.setPort (s : State) (p : PortId) (x : Port) : State := { s with ports := tset s.ports p x }
def State.modPort (s : State) (p : PortId) (f : Port → Port) : State := s.setPort p (f (s.port p))

def State.ticket (s : State) (t : Slot) : Ticket := tget s.tickets t
def State.setTicket (s : State) (t : Slot) (x : Ticket) : State := { s with tickets := tset s.tickets t x }
def State.modTicket (s : State) (t : Slot) (f : Ticket → Ticket) : State := s.setTicket t (f (s.ticket t))

def State.account (s : State) (a : AccountId) : Account := tget s.accounts a
def State.setAccount (s : State) (a : AccountId) (x : Account) : State := { s with accounts := tset s.accounts a x }
def State.modAccount (s : State) (a : AccountId) (f : Account → Account) : State := s.setAccount a (f (s.account a))

def State.record (s : State) (t : Tag) : Option PspRecord := tget s.psp.records t
def State.setRecord (s : State) (t : Tag) (r : Option PspRecord) : State :=
  { s with psp := { s.psp with records := tset s.psp.records t r } }

def State.guard (s : State) (b : Fin 4096) : Nat := tget s.guards b

def State.modEngine (s : State) (p : PortId) (f : Engine → Engine) : State :=
  s.modPort p fun x => { x with engine := f x.engine }
def State.modLink (s : State) (p : PortId) (f : Link → Link) : State :=
  s.modPort p fun x => { x with link := f x.link }
def State.modWatch (s : State) (p : PortId) (f : Watch → Watch) : State :=
  s.modPort p fun x => { x with watch := f x.watch }
def State.setPages (s : State) (p : PortId) (es : List Entry) : State :=
  s.modPort p fun x => { x with pages := es }
def State.setQueue (s : State) (p : PortId) (q : List QueueEntry) : State :=
  s.modPort p fun x => { x with queue := q }
def State.setJob (s : State) (p : PortId) (j : Option Job) : State :=
  s.modEngine p fun e => { e with job := j }

def State.modMsp (s : State) (f : Msp → Msp) : State := { s with msp := f s.msp }
def State.modRelay (s : State) (f : Relay → Relay) : State := { s with relay := f s.relay }
def State.modCtl (s : State) (f : Control → Control) : State := { s with ctl := f s.ctl }

/-! ## Outputs -/

/-- Something driven on the part's outputs, after what this command has driven already. -/
def State.emit (s : State) (o : Output) : State := { s with out := s.out ++ [o] }

/-- The outputs at the start of a command: nothing driven yet (log entry 18). -/
def State.clearOut (s : State) : State := { s with out := [] }

/-! ## Settings as State holds them -/

def State.portWord (s : State) (p : PortId) : Word := (tget s.image.ports p).word
def State.condWord (s : State) (p : PortId) (c : CondId) : Word := tget (tget s.image.ports p).conditions c
def State.accountWord (s : State) (a : AccountId) : Word := tget s.image.accounts a
def State.policy (s : State) (a : AccountId) : Policy := accountPolicy (s.accountWord a)
def State.controlBase (s : State) : Nat := Machine.controlBase s.anchor

/-- The address of slot `t`: the ticket window base plus 32 times the slot (R39). -/
def State.slotAddr (s : State) (t : Slot) : Nat := baseOf s.image.ticketWindow + 32 * t.val

/-! ## Timers (R31, R115) -/

/-- A timer started now for an interval in milliseconds. -/
def State.startTimer (s : State) (ms : Nat) : Timer := .running s.milliseconds s.microseconds ms

/-- The milliseconds counted since a value of the millisecond count, modulo 2^32 (R31). -/
def State.elapsed (s : State) (since : BitVec 32) : Nat := (s.milliseconds - since).toNat

/-- The microseconds ticked since a reading of the time base (R31; log entry 10). -/
def State.elapsedUs (s : State) (since : BitVec 32) (sinceUs : Nat) : Nat :=
  1000 * s.elapsed since + s.microseconds - sinceUs

/-- An interval in milliseconds since a reading of the time base has elapsed to within 1 ms (R31; log entry 9). -/
def State.intervalDue (s : State) (since : BitVec 32) (sinceUs ms : Nat) : Bool :=
  decide (1000 * ms ≤ s.elapsedUs since sinceUs + 1000)

/-- A timer may expire now (R31). -/
def State.due (s : State) : Timer → Bool
  | .stopped => false
  | .running since sinceUs ms => s.intervalDue since sinceUs ms

/-- The warm timer may expire now (R31). -/
def State.warmDue (s : State) : WarmTimer → Bool
  | .running since sinceUs ms => s.intervalDue since sinceUs ms
  | _ => false

/-- A pacing window may end now: its length has elapsed to within 1 µs (R31, R112). -/
def State.windowDue (s : State) (w : PacerWindow) : Bool :=
  decide (w.lengthUs ≤ s.elapsedUs w.since w.sinceUs + 1)

/-! ## Page lists and the quiesce (R35, R38, R150) -/

/-- The port's open page: the newest entry, when it is OPEN (R102). -/
def Port.openEntry (x : Port) : Option Entry :=
  match x.pages.getLast? with
  | some e => if e.state = .opened then some e else none
  | none => none

def Port.hasOpenPage (x : Port) : Bool := x.openEntry.isSome

/-- Any page of the part is open (R35). -/
def State.anyOpenPage (s : State) : Bool := allPorts.any fun p => (s.port p).hasOpenPage

/-- The report that an open page has ended: while QUIESCING, the last one makes the global state STOPPED (R35, R38). -/
def State.pageEnded (s : State) : State :=
  if s.ctl.global = .quiescing ∧ s.anyOpenPage = false then
    s.modCtl fun c => { c with global := .stopped }
  else s

/-! ## Tickets -/

/-- QUEUED, ACTIVE, DRAINING, CANCELLING or FAILING: the ticket is in use (R80). -/
def TicketState.inUse : TicketState → Bool
  | .queued | .active | .draining | .cancelling | .failing => true
  | .free | .posting | .done | .cancelled | .failed => false

/-- Some ticket satisfies a test. -/
def State.anyTicket (s : State) (f : Ticket → Bool) : Bool := s.tickets.toList.any f

/-- Some ticket in use names the port in its mirror (R130). -/
def State.portInUse (s : State) (p : PortId) : Bool :=
  s.anyTicket fun t => t.state.inUse && (t.mirror.any fun m => m.port == p)

/-- Some ticket in use names the account in its mirror (R165). -/
def State.accountInUse (s : State) (a : AccountId) : Bool :=
  s.anyTicket fun t => t.state.inUse && (t.mirror.any fun m => m.account == a)

/-- The ticket in hand at a port, if any. -/
def State.inHand (s : State) (p : PortId) : Option Slot := (s.port p).engine.job.map Job.slot

end Sys2Proof.Machine
end

