-- ==== Sys2Proof/Machine/Flags.lean ====
section
/-! DEFINITION. The truth values the part computes from its state: conditions and their edges (R134, R135), quota grants
and startable tickets (R64, R156), the dispatch conditions (R65, R69), quietness (R123), and the level of ATTN_N
(R170, R182). -/

namespace Sys2Proof.Machine

/-! ## Conditions (R134, R135) -/

/-- A status bit is watched and equals its pattern bit. -/
def condMatches (mask pattern bits : BitVec 16) : BitVec 16 := mask &&& ~~~(bits ^^^ pattern)

/-- The truth of a condition from its definition and the bits of one STATUS (R134). -/
def condTruth (w : Word) (bits : BitVec 16) : Bool :=
  let m := condMask w
  let hit := condMatches m (condPattern w) bits
  m != 0#16 && (if condAll w then hit == m else hit != 0#16)

/-- The four conditions of a port after an evaluation: truths and held classes replaced at once (R134). -/
def State.evaluated (s : State) (p : PortId) (bits : BitVec 16) : Vector HeldCondition 4 :=
  (tget s.image.ports p).conditions.map fun w => { truth := condTruth w bits, cls := condClass w }

/-- A condition has an edge: true now, and before false or held under a different class (R135). -/
def isEdge (before after : HeldCondition) : Bool :=
  after.truth && (!before.truth || before.cls != after.cls)

/-- Some condition held under the class is true. -/
def Watch.holds (w : Watch) (c : CondClass) : Bool := w.conditions.toList.any fun h => h.truth && h.cls == c

/-! ## Quota (R64, R156) -/

/-- A reserve on the account would be granted (R156); a queued ticket of the account is startable (R64). -/
def State.grants (s : State) (a : AccountId) : Bool :=
  match s.policy a with
  | .hold => decide ((s.account a).reserved < (s.account a).remaining)
  | .none | .reload => true

def State.startable (s : State) (t : Slot) : Bool :=
  match (s.ticket t).mirror with
  | some m => s.grants m.account
  | none => false

/-- The first startable ticket of a port's queue (R66). -/
def State.firstStartable (s : State) (p : PortId) : Option Slot :=
  ((s.port p).queue.find? fun e => s.startable e.slot).map QueueEntry.slot

/-- The conditions that R65 and R69 share, all but the link's: RUNNING, enabled, hold flag clear, engine IDLE. -/
def State.dispatchOpen (s : State) (p : PortId) : Bool :=
  s.ctl.global == .running && portOn (s.portWord p) && !(s.port p).holdFlag && (s.port p).engine.state == .idle

/-- The ticket dispatch activates at a port now (R65, R66). -/
def State.toActivate (s : State) (p : PortId) : Option Slot :=
  if s.dispatchOpen p && (s.port p).link.state == .ready then s.firstStartable p else none

/-- Dispatch's wake cause, but for the link's state (R69). -/
def State.wakeWanted (s : State) (p : PortId) : Bool := s.dispatchOpen p && (s.firstStartable p).isSome

/-! ## Holds and quietness -/

/-- The hold flag or the quiesce hold is set (R70). -/
def Port.onHold (x : Port) : Bool := x.holdFlag || x.quiesceHold

/-- The port is quiet: engine IDLE, queue empty, page list empty (R123). -/
def Port.quiet (x : Port) : Bool := x.engine.state == .idle && x.queue.isEmpty && x.pages.isEmpty

/-! ## Alerts (R170, R182) -/

/-- Rank of a class, 1 the most urgent; also its class code (R170, R193). -/
def AlertClass.rank : AlertClass → Nat
  | .jam => 1
  | .down => 2
  | .quota => 3
  | .refusal => 4
  | .supply => 5
  | .job => 6

def AlertClass.moreUrgent (a b : AlertClass) : Bool := decide (a.rank < b.rank)

/-- The most urgent class of a list. -/
def mostUrgent : List AlertClass → Option AlertClass
  | [] => none
  | c :: cs =>
    match mostUrgent cs with
    | none => some c
    | some d => if d.moreUrgent c then some d else some c

/-- ATTN_N is asserted (R182). -/
def Relay.attnLevel (r : Relay) : Bool :=
  r.ringState == .faulted ||
  match r.stack with
  | [] => !r.shadow.isEmpty
  | top :: _ => r.shadow.any fun c => c.moreUrgent top

end Sys2Proof.Machine
end

