-- ==== Sys2Proof/Machine/Alerts.lean ====
section
/-! DEFINITION. The alert relay: raises and the backlog (R170 to R172), the record's bytes (R193), the ring's restart
(R174, R176), the return of a latch (R177), the consume index (R178) and ATTN_N (R182). -/

namespace Sys2Proof.Machine

/-! ## The backlog (R171)

The backlog is kept sorted by rank and, within a class, by source, so that its head is the latch the ring writer picks
(R175). -/

/-- The place of a class and source in the backlog. -/
def latchKey (c : AlertClass) (source : Nat) : Nat := c.rank * 256 + source

def Latch.key (l : Latch) : Nat := latchKey l.cls l.source

/-- A raise: a new latch with occurrences 1, or one more occurrence of the latch present, stopping at 65,535 (R171). -/
def addRaise (new : Latch) : List Latch → List Latch
  | [] => [new]
  | l :: ls =>
    if new.key < l.key then new :: l :: ls
    else if new.key = l.key then { l with occurrences := min (l.occurrences + 1) Config.maxSpoiled } :: ls
    else l :: addRaise new ls

/-- The return of a picked latch: put back as it was picked, or merged with a latch formed since, whose occurrences are
added, stopping at 65,535 (R177). -/
def putBack (picked : Latch) : List Latch → List Latch
  | [] => [picked]
  | l :: ls =>
    if picked.key < l.key then picked :: l :: ls
    else if picked.key = l.key then
      { picked with occurrences := min (picked.occurrences + l.occurrences) Config.maxSpoiled } :: ls
    else l :: putBack picked ls

/-- A raise reaches the alert relay (R171). -/
def State.raise (s : State) (c : AlertClass) (source : Nat) (d : Detail) : State :=
  s.modRelay fun r =>
    { r with backlog := addRaise ⟨c, source, s.milliseconds, 1, d⟩ r.backlog }

/-- The class of a condition's alert (R135). -/
def CondClass.alert : CondClass → AlertClass
  | .jam => .jam
  | .down => .down
  | .supply => .supply

/-- A DOWN alert with cause LINK: the last status bits the watch holds and the ticket in hand (R117, R122, R135). -/
def State.raiseLinkDown (s : State) (p : PortId) : State :=
  s.raise .down p.val (.printer .link (s.port p).watch.bits (s.inHand p))

/-! ## ATTN_N (R182) -/

/-- ATTN_N judged again. -/
def State.judgeAttn (s : State) : State := s.modRelay fun r => { r with attn := r.attnLevel }

/-! ## The record (R193) -/

def Policy.code : Policy → Nat
  | .none => 0
  | .hold => 1
  | .reload => 2

/-- Refusal reason codes (R193). -/
def RefusalReason.code : RefusalReason → Nat
  | .shape => 1
  | .subst => 2
  | .ticket => 3
  | .guard => 4
  | .locked => 5
  | .range => 6
  | .complement => 7
  | .arg => 8
  | .state => 9

/-- Reason codes of tickets (R191). -/
def Reason.code : Reason → Nat
  | .noReason => 0x00
  | .extent => 0x01
  | .port => 0x02
  | .account => 0x03
  | .copies => 0x04
  | .rule => 0x05
  | .memoryReject => 0x06
  | .complete => 0x81
  | .cancel => 0x82
  | .flush => 0x83
  | .memoryEnd => 0x84

def Cause.code : Cause → Nat
  | .condition c => c.val
  | .link => 0xFF

/-- The sixteen detail bytes of a record (R193). -/
def Detail.bytes : Detail → List Byte
  | .printer cause bits slot =>
    padTo 16 (leBytes 1 cause.code ++ [0#8] ++ leBytes 2 bits.toNat ++
      leBytes 2 (match slot with | some t => t.val | none => 0xFFFF))
  | .quota remaining policy => padTo 16 (leBytes 3 remaining ++ leBytes 1 policy.code)
  | .refusal addr reason count =>
    padTo 16 (leBytes 5 addr.toNat ++ leBytes 1 reason.code ++ [0#8, 0#8] ++ leBytes 4 count.toNat)
  | .job slot jobTag reason delivered spoiled =>
    padTo 16 (leBytes 1 slot.val ++ leBytes 1 reason.code ++ leBytes 2 spoiled ++ leBytes 4 jobTag.toNat ++
      leBytes 3 delivered)

/-- The 32 bytes of a record formed from a latch and the produced count at the pick (R175, R193). -/
def recordBytes (sequence : BitVec 16) (l : Latch) : List Byte :=
  leBytes 2 sequence.toNat ++ leBytes 1 l.cls.rank ++ [0#8] ++ leBytes 2 l.source ++ leBytes 2 l.occurrences ++
    leBytes 4 l.time.toNat ++ [0#8, 0#8, 0#8, 0#8] ++ l.detail.bytes

/-! ## The ring (R173 to R179) -/

/-- Records written and not yet consumed: produced minus consumed, modulo 65,536 (R175). -/
def Relay.unconsumed (r : Relay) : Nat := (r.produced - r.consumed).toNat

/-- The ring writer may present a record write (R175). -/
def State.mayPick (s : State) : Bool :=
  !s.relay.backlog.isEmpty && s.relay.ringState == .running && s.relay.inFlight.isNone &&
    decide (s.relay.unconsumed < ringRecords s.image.ring)

/-- The record write for a latch: 32 bytes at the ring base plus 32 times the produced count modulo the ring size
(R175). -/
def State.recordWrite (s : State) (l : Latch) : MemRequest where
  owner := .record false
  isWrite := true
  addr := baseOf s.image.ring + 32 * (s.relay.produced.toNat % ringRecords s.image.ring)
  size := 32
  enables := List.replicate 32 true
  data := recordBytes s.relay.produced l

/-- The writer picks the latch at the backlog's head and presents its record write (R175). -/
def State.pickRecord (s : State) : State :=
  match s.relay.backlog with
  | [] => s
  | l :: rest =>
    if s.mayPick then
      (s.modMsp fun m => { m with waiting := m.waiting ++ [s.recordWrite l] }).modRelay fun r =>
        { r with backlog := rest, inFlight := some l }
    else s

def Owner.isLiveRecord : Owner → Bool
  | .record dropped => !dropped
  | _ => false

def Owner.isDroppedRecord : Owner → Bool
  | .record dropped => dropped
  | _ => false

/-- A granted record write marked as dropped; any other request as it was (R176). -/
def Granted.dropRecord (g : Granted) : Granted :=
  if g.request.owner.isLiveRecord then { g with request := { g.request with owner := .record true } } else g

/-- A restart deals with the record write in flight: taken back with its latch when it still waits ungranted, dropped
with its latch lost when granted (R176). -/
def State.dropRecordWrite (s : State) : State :=
  match s.relay.inFlight with
  | none => s
  | some l =>
    if s.msp.waiting.any fun r => r.owner.isLiveRecord then
      (s.modMsp fun m => { m with waiting := m.waiting.filter fun r => !r.owner.isLiveRecord }).modRelay fun r =>
        { r with inFlight := none, backlog := putBack l r.backlog }
    else
      (s.modMsp fun m => { m with outstanding := m.outstanding.map Granted.dropRecord }).modRelay fun r =>
        { r with inFlight := none }

/-- The ring restarts (R174). -/
def State.restartRing (s : State) : State :=
  (s.dropRecordWrite.modRelay fun r =>
    { r with ringState := .running, produced := 0, consumed := 0, shadow := [] }).judgeAttn

/-- An accepted consume index: the consumed count becomes the value, and as many entries as the distance leave the head
of the shadow (R178). -/
def State.consumeTo (s : State) (v : BitVec 16) : State :=
  (s.modRelay fun r =>
    { r with consumed := v, shadow := r.shadow.drop (v - r.consumed).toNat }).judgeAttn

/-- Memory answers the record write in flight (R176, R177). -/
def State.recordAnswered (s : State) (ok : Bool) : State :=
  match s.relay.inFlight with
  | none => s
  | some l =>
    (s.modRelay fun r =>
      if ok then { r with inFlight := none, produced := r.produced + 1, shadow := r.shadow ++ [l.cls] }
      else { r with inFlight := none, ringState := .faulted, backlog := putBack l r.backlog }).judgeAttn

/-! ## The service stack (R180, R181) -/

/-- ALERT_TAKE (R180). -/
def State.alertTake (s : State) : State × CommandResult :=
  match mostUrgent s.relay.shadow with
  | none => (s, .nothing)
  | some c =>
    match s.relay.stack with
    | [] => ((s.modRelay fun r => { r with stack := [c] }).judgeAttn, .done)
    | top :: below =>
      if c.moreUrgent top then ((s.modRelay fun r => { r with stack := c :: top :: below }).judgeAttn, .done)
      else (s, .nothing)

/-- ALERT_DONE (R181). -/
def State.alertDone (s : State) : State × CommandResult :=
  match s.relay.stack with
  | [] => (s, .state)
  | _ :: below => ((s.modRelay fun r => { r with stack := below }).judgeAttn, .done)

end Sys2Proof.Machine
end

