-- ==== Sys2Proof/Machine/Formats.lean ====
section
/-! DEFINITION. The words whose reads the part answers from its own state, byte by byte: the command record (R34, R186), the
status block (R29, R187), the ticket status (R58, R191) and the meter window (R168, R192). -/

namespace Sys2Proof.Machine

/-! ## Codes -/

/-- Result codes of the command record (R186). -/
def CommandResult.code : CommandResult → Nat
  | .done => 0
  | .state => 1
  | .arg => 2
  | .nothing => 3
  | .complement => 4

/-- Global state codes (R187). -/
def GlobalState.code : GlobalState → Nat
  | .stopped => 0
  | .running => 1
  | .quiescing => 2

/-- Ring state codes (R187). -/
def RingState.code : RingState → Nat
  | .unset => 0
  | .running => 1
  | .faulted => 2

/-- Ticket state codes (R191). -/
def TicketState.code : TicketState → Nat
  | .free => 0
  | .posting => 1
  | .queued => 2
  | .active => 3
  | .draining => 4
  | .cancelling => 5
  | .failing => 6
  | .done => 7
  | .cancelled => 8
  | .failed => 9

/-- Link state codes (R192). -/
def LinkState.code : LinkState → Nat
  | .disabled => 0
  | .training => 1
  | .ready => 2
  | .drowsy => 3
  | .waking => 4
  | .offline => 5

/-- Engine state codes (R192). -/
def EngineState.code : EngineState → Nat
  | .idle => 0
  | .sending => 1
  | .waitCredit => 2
  | .waitPace => 3
  | .waitPage => 4
  | .waitQuota => 5
  | .paused => 6
  | .held => 7
  | .jamStop => 8

def flagByte (b : Bool) : Byte := if b then 1#8 else 0#8

/-- Eight zero bytes: a word that holds no record. -/
def zeroWord : List Byte := List.replicate 8 0#8

/-! ## The control page -/

/-- The command record (R34, R186). -/
def State.commandRecord (s : State) : List Byte :=
  padTo 8 (s.ctl.lastCode :: leBytes 1 s.ctl.lastResult.code ++ leBytes 2 s.ctl.taken.toNat)

/-- The status block's words 0 to 3 (R29, R187). The stack is kept top first and shown bottom first. -/
def State.statusWord (s : State) : Nat → List Byte
  | 0 => padTo 8 (leBytes 1 s.ctl.global.code ++ leBytes 1 s.anchor.toNat ++ leBytes 1 s.relay.ringState.code ++
      [flagByte s.sweep.fault] ++ leBytes 2 s.relay.backlog.length)
  | 1 => padTo 8 (leBytes 2 s.relay.produced.toNat ++ leBytes 2 s.relay.consumed.toNat ++
      leBytes 1 s.relay.stack.length)
  | 2 => padTo 8 (s.relay.stack.reverse.map fun c => BitVec.ofNat 8 c.rank)
  | 3 => leBytes 4 s.ctl.refusals.toNat ++ leBytes 4 s.milliseconds.toNat
  | _ => zeroWord

/-! ## Ticket status -/

/-- The copy-or-reason field of a ticket's status (R58). -/
def Ticket.copyOrReason (t : Ticket) : Nat :=
  match t.state with
  | .free | .done | .cancelled | .failed => t.reason.code
  | .posting => 0
  | .queued => match t.resume with | some r => r.copy | none => 0
  | .active | .draining | .cancelling | .failing => t.copy

/-- The page a ticket's status shows, before it is cut at 4,095 (R58). -/
def Ticket.shownPage (t : Ticket) : Nat :=
  match t.state with
  | .free | .posting | .done | .cancelled | .failed => 0
  | .queued => match t.resume with | some r => r.page | none => 0
  | .active | .draining | .cancelling | .failing => t.page

/-- A post word as read (R58, R191). -/
def Ticket.statusBytes (t : Ticket) : List Byte :=
  leBytes 2 (t.state.code + 16 * min t.shownPage 4095) ++ leBytes 1 t.copyOrReason ++ leBytes 3 t.delivered ++
    leBytes 2 t.spoiled

/-! ## The meter window -/

/-- Words 0 to 3 of an account record (R168, R192). -/
def State.accountRecord (s : State) (a : AccountId) : Nat → List Byte
  | 0 => padTo 8 ([flagByte (accountOn (s.accountWord a))] ++ leBytes 1 (s.policy a).code ++
      leBytes 2 (s.account a).reserved ++ leBytes 3 (s.account a).remaining)
  | 1 => leBytes 4 (s.account a).sent.toNat ++ leBytes 4 (s.account a).delivered.toNat
  | 2 => padTo 8 (leBytes 4 (s.account a).spoiled.toNat)
  | _ => zeroWord

/-- The four truths of a watch, bit k for condition k (R192). -/
def Watch.truthBits (w : Watch) : Nat :=
  let b (c : CondId) : Nat := if (tget w.conditions c).truth then 2 ^ c.val else 0
  b 0 + b 1 + b 2 + b 3

/-- Words 0 to 3 of a port record (R168, R192). -/
def Port.recordWord (x : Port) : Nat → List Byte
  | 0 => leBytes 1 x.link.state.code ++ leBytes 1 x.engine.state.code ++ leBytes 1 x.link.credits ++
      leBytes 1 x.pages.length ++ leBytes 2 x.queue.length ++ leBytes 2 x.watch.bits.toNat
  | 1 => leBytes 4 x.link.framesSent.toNat ++ leBytes 4 x.link.badFrames.toNat
  | 2 => leBytes 4 x.link.overflows.toNat ++ leBytes 4 x.stray.toNat
  | 3 => padTo 8 (leBytes 1 x.watch.truthBits)
  | _ => zeroWord

/-- The word at an offset of the meter window (R192). -/
def State.meterWord (s : State) (off : Nat) : List Byte :=
  if off < 0x800 then s.accountRecord (Fin.ofNat 64 (off / 32)) (off % 32 / 8)
  else if off < 0xA00 then (s.port (Fin.ofNat 16 ((off - 0x800) / 32))).recordWord (off % 32 / 8)
  else zeroWord

end Sys2Proof.Machine
end

