-- ==== Sys2Proof/Machine/Frames.lean ====
section
/-! DEFINITION. Press-link frames on the wire: their CRC, the frames the part sends, and the judging of the frames it
receives (R113, R114, R184, R194 to R196). -/

namespace Sys2Proof.Machine

/-- One shift of the CRC register, generator 0x1021 (R184). -/
def crcShift (r : BitVec 16) : BitVec 16 :=
  if r.msb then (r <<< 1) ^^^ 0x1021#16 else r <<< 1

/-- A byte entering the CRC register, most significant bit first (R184). -/
def crcByte (r : BitVec 16) (b : Byte) : BitVec 16 :=
  crcShift^[8] (r ^^^ (b.zeroExtend 16 <<< 8))

/-- The CRC of a run of bytes, the register starting at 0xFFFF (R184). -/
def crc (bs : List Byte) : BitVec 16 := bs.foldl crcByte 0xFFFF#16

/-- A frame's kind byte and body closed by its CRC, low byte first (R184). -/
def closeFrame (body : List Byte) : List Byte := body ++ leBytes 2 (crc body).toNat

/-- The frames the part sends (R194). -/
inductive Frame where
  | data (payload : List Byte)
  | cut
  | train
  | drowse
  | wake
  deriving DecidableEq, Repr

/-- Kind byte and body of an outbound frame (R194). -/
def Frame.body : Frame → List Byte
  | .data payload => 0x01#8 :: BitVec.ofNat 8 (payload.length - 1) :: payload
  | .cut => [0x02#8]
  | .train => [0x03#8]
  | .drowse => [0x04#8]
  | .wake => [0x05#8]

/-- An outbound frame's bytes on the wire (R113, R184). -/
def Frame.wire (f : Frame) : List Byte := closeFrame f.body

/-- What a received frame is judged to be (R114). -/
inductive Inbound where
  | trainAck (credits : Nat)
  | credit (grant : Nat)
  | status (bits : BitVec 16) (count : Nat)
  | bad
  deriving DecidableEq, Repr

/-- A received kind byte and body whose CRC was right: its kind, its length and its fields' ranges (R114, R194, R196).
Bits 4 to 7 of a CREDIT or STATUS count byte are ignored (R195). -/
def judgeBody : List Byte → Inbound
  | [k, n] =>
    if k = 0x81#8 ∧ 1 ≤ n.toNat ∧ n.toNat ≤ 32 then .trainAck n.toNat
    else if k = 0x82#8 then .credit (n.toNat % 16)
    else .bad
  | [k, lo, hi, n] =>
    if k = 0x83#8 then .status (BitVec.ofNat 16 (leNat [lo, hi])) (n.toNat % 16) else .bad
  | _ => .bad

/-- The judging of a received frame: its CRC over the bytes before the last two, then its kind, length and fields
(R114, R184). -/
def judgeFrame (bs : List Byte) : Inbound :=
  let body := bs.take (bs.length - 2)
  if bs = closeFrame body then judgeBody body else .bad

end Sys2Proof.Machine
end

