-- ==== Sys2Proof/Machine/Guard.lean ====
section
/-! DEFINITION. The spool guard: the blocks an extent touches (R77), the rise and fall of guard counts (R78, R79), and the
locks that depend on them (R85, R87). -/

namespace Sys2Proof.Machine

/-- The index of the block that holds an address (R76). -/
def blockOf (w : Word) (addr : Nat) : Nat := (addr - baseOf w) / blockSize w

/-- The first and last block an extent touches (R77). -/
def touchedBlocks (w : Word) (dataBase length : Nat) : Nat × Nat :=
  (blockOf w dataBase, blockOf w (dataBase + length - 1))

/-- `f` applied to the entries from `lo` to `hi` of a list whose first entry has index `i`. -/
def bumpFrom (f : Nat → Nat) (lo hi : Nat) : Nat → List Nat → List Nat
  | _, [] => []
  | i, n :: ns => (if lo ≤ i ∧ i ≤ hi then f n else n) :: bumpFrom f lo hi (i + 1) ns

theorem bumpFrom_length (f : Nat → Nat) (lo hi i : Nat) (ns : List Nat) :
    (bumpFrom f lo hi i ns).length = ns.length := by
  induction ns generalizing i with
  | nil => rfl
  | cons n ns ih => simp [bumpFrom, ih]

/-- `f` applied to the guard counts of the blocks from `lo` to `hi`, all at once. -/
def bumpBlocks (f : Nat → Nat) (lo hi : Nat) (v : Vector Nat 4096) : Vector Nat 4096 :=
  ⟨⟨bumpFrom f lo hi 0 v.toList⟩, by simp [bumpFrom_length]⟩

/-- Acceptance: the guard count of every block the mirror's extent touches rises by one (R78). -/
def State.guardRise (s : State) (m : Mirror) : State :=
  let b := touchedBlocks s.image.spoolWindow m.dataBase m.length
  { s with guards := bumpBlocks (· + 1) b.1 b.2 s.guards }

/-- Terminal entry: the guard count of every block the mirror's extent touches falls by one (R79). -/
def State.guardFall (s : State) (m : Mirror) : State :=
  let b := touchedBlocks s.image.spoolWindow m.dataBase m.length
  { s with guards := bumpBlocks (· - 1) b.1 b.2 s.guards }

/-- Every guard count is 0. -/
def State.unguarded (s : State) : Bool := s.guards.toList.all (· == 0)

/-- The spool window lock (R85). -/
def State.spoolLocked (s : State) : Bool := !(s.ctl.global == .stopped && s.unguarded)

/-- The ticket window lock (R87). -/
def State.ticketWindowLocked (s : State) : Bool := s.anyTicket fun t => t.state != .free

end Sys2Proof.Machine
end

