-- ==== Sys2Proof/Machine/Meter.lean ====
section
/-! DEFINITION. The meter unit's claims (R156 to R159) and the quota commands (R160 to R163). -/

namespace Sys2Proof.Machine

/-! ## Claims (R156) -/

/-- A granted reserve. -/
def State.claimReserve (s : State) (a : AccountId) : State :=
  s.modAccount a fun x => { x with reserved := x.reserved + 1 }

def State.claimClose (s : State) (a : AccountId) : State :=
  s.modAccount a fun x => { x with sent := x.sent + 1 }

def State.claimSpoil (s : State) (a : AccountId) : State :=
  s.modAccount a fun x => { x with reserved := x.reserved - 1, spoiled := x.spoiled + 1 }

def State.claimWithdraw (s : State) (a : AccountId) : State :=
  s.modAccount a fun x => { x with reserved := x.reserved - 1 }

/-- `remaining` after a delivery under a policy (R157 to R159). -/
def chargedRemaining (pol : Policy) (reload remaining : Nat) : Nat :=
  match pol with
  | .none => remaining
  | .hold => remaining - 1
  | .reload => if remaining = 1 then reload else remaining - 1

/-- The delivery takes the account from 1 to 0 and raises QUOTA (R158, R159). -/
def reachesZero (pol : Policy) (remaining : Nat) : Bool :=
  match pol with
  | .none => false
  | .hold | .reload => remaining == 1

/-- A deliver claim with the account's policy (R152, R156 to R159). -/
def State.claimDeliver (s : State) (a : AccountId) : State :=
  let pol := s.policy a
  let old := (s.account a).remaining
  let new := chargedRemaining pol (reloadConstant (s.accountWord a)) old
  let s' := s.modAccount a fun x =>
    { x with reserved := x.reserved - 1, delivered := x.delivered + 1, remaining := new }
  if reachesZero pol old then s'.raise .quota a.val (.quota new pol) else s'

/-! ## Quota commands (R160 to R163) -/

/-- The value of QUOTA_SET is allowed by the policy (R161). -/
def State.quotaSetAllowed (s : State) (a : AccountId) (v : Nat) : Bool :=
  match s.policy a with
  | .none => true
  | .hold => decide ((s.account a).reserved ≤ v)
  | .reload => decide (1 ≤ v)

def State.quotaSet (s : State) (a : AccountId) (v : Nat) : State × CommandResult :=
  if s.quotaSetAllowed a v then (s.modAccount a fun x => { x with remaining := v }, .done) else (s, .state)

def State.quotaAdd (s : State) (a : AccountId) (v : Nat) : State × CommandResult :=
  (s.modAccount a fun x => { x with remaining := min (x.remaining + v) Config.maxPages }, .done)

/-- The three meters at 0 (R163). -/
def Account.cleared (x : Account) : Account := { x with sent := 0, delivered := 0, spoiled := 0 }

def State.meterClear (s : State) (a : AccountId) : State × CommandResult := (s.modAccount a Account.cleared, .done)

def State.meterClearAll (s : State) : State × CommandResult :=
  ({ s with accounts := s.accounts.map Account.cleared }, .done)

end Sys2Proof.Machine
end

