-- ==== Sys2Proof/Machine/Tickets.lean ====
section
/-! DEFINITION. Tickets: terminal entry and the drain end (R56, R57), the port queues (R59 to R63), the posting fetch and
its judgement (R46 to R50), and the job commands POST and RELEASE (R45, R55). -/

namespace Sys2Proof.Machine

/-! ## Ending -/

/-- A JOB alert with source the slot (R49, R57, R172). -/
def State.raiseJob (s : State) (t : Slot) (jobTag : BitVec 32) (reason : Reason) (delivered spoiled : Nat) : State :=
  s.raise .job t.val (.job t jobTag reason delivered spoiled)

/-- A ticket enters DONE, CANCELLED or FAILED: its guard counts fall, its end reason is recorded, and a JOB alert is
raised for FAILED and for `notify` (R57, R79). A resume point is discarded (R52). -/
def State.endTicket (s : State) (t : Slot) (st : TicketState) (reason : Reason) : State :=
  let x := s.ticket t
  let s' := s.setTicket t { x with state := st, reason := reason, resume := none }
  match x.mirror with
  | none => s'
  | some m =>
    let s'' := s'.guardFall m
    if st = .failed ∨ m.notify then s''.raiseJob t m.jobTag reason x.delivered x.spoiled else s''

/-- The drain test: a CANCELLING or FAILING ticket with entry count 0, fetch count 0 and sending flag clear ends (R56). -/
def State.drainTest (s : State) (t : Slot) : State :=
  let x := s.ticket t
  if x.entryCount = 0 ∧ x.fetchCount = 0 ∧ x.sending = false then
    match x.state with
    | .cancelling => s.endTicket t .cancelled .cancel
    | .failing => s.endTicket t .failed .memoryEnd
    | _ => s
  else s

/-! ## Port queues -/

/-- An accepted ticket's place: NORMAL at the tail; URGENT behind the last URGENT or RESUME entry, ahead of every NORMAL
one (R61). -/
def joinQueue (t : Slot) (urgent : Bool) (q : List QueueEntry) : List QueueEntry :=
  if urgent then
    q.takeWhile (fun e => e.mark != .normal) ++ ⟨t, .urgent⟩ :: q.dropWhile (fun e => e.mark != .normal)
  else q ++ [⟨t, .normal⟩]

/-- A ticket leaves its queue; the entries behind it close up (R63). -/
def leaveQueue (t : Slot) (q : List QueueEntry) : List QueueEntry := q.filter fun e => e.slot != t

/-- A rewind's batch at the head, marked RESUME (R62). -/
def rejoinQueue (ts : List Slot) (q : List QueueEntry) : List QueueEntry :=
  ts.map (fun t => QueueEntry.mk t .resume) ++ q

/-! ## Posting -/

/-- The fetcher presents the head of its fetch queue when it has no request waiting (R46). -/
def Owner.isTicketFetch : Owner → Bool
  | .ticketFetch _ => true
  | _ => false

def State.ticketFetchRequest (s : State) (t : Slot) : MemRequest where
  owner := .ticketFetch t
  isWrite := false
  addr := s.slotAddr t
  size := 32
  enables := []
  data := []

def State.presentTicketFetch (s : State) : State :=
  match s.fetcher.queue with
  | [] => s
  | t :: _ =>
    if s.msp.waiting.any fun r => r.owner.isTicketFetch then s
    else s.modMsp fun m => { m with waiting := m.waiting ++ [s.ticketFetchRequest t] }

/-- The arbiter granted the fetch of the queue's head: the slot moves to the tail of the in-flight list and the next head
is presented (R46). -/
def State.ticketFetchGranted (s : State) : State :=
  match s.fetcher.queue with
  | [] => s
  | t :: rest =>
    { s with fetcher := { queue := rest, inFlight := s.fetcher.inFlight ++ [InFlight.mk t none] } }.presentTicketFetch

/-- POST taken in FREE (R45). -/
def State.postTicket (s : State) (t : Slot) : State :=
  let s' := s.modTicket t fun x => { x with state := .posting, reason := .noReason }
  { s' with fetcher := { s'.fetcher with queue := s'.fetcher.queue ++ [t] } }.presentTicketFetch

/-- Word `i` of a fetched slot. -/
def slotWord (data : List Byte) (i : Nat) : Word := wordOfBytes ((data.drop (8 * i)).take 8)

/-- The fields of a fetched slot; bits that carry no field are not copied (R40, R189). -/
def parseSlot (data : List Byte) : Mirror where
  dataBase := bits (slotWord data 0) 0 36
  length := bits (slotWord data 1) 0 32
  copies := bits (slotWord data 1) 32 8
  markRule := BitVec.ofNat 3 (bits (slotWord data 1) 40 3)
  urgent := bit (slotWord data 1) 48
  notify := bit (slotWord data 1) 49
  port := Fin.ofNat 16 (bits (slotWord data 2) 0 4)
  account := Fin.ofNat 64 (bits (slotWord data 2) 8 6)
  jobTag := BitVec.ofNat 32 (bits (slotWord data 2) 32 32)

/-- The whole extent lies inside the enabled spool window, and the length is in range (R48, check 2). -/
def extentAccepted (w : Word) (dataBase length : Nat) : Bool :=
  windowOn w && decide (1 ≤ length) && decide (length ≤ Config.maxLength) && decide (baseOf w ≤ dataBase) &&
    decide (dataBase + length ≤ baseOf w + spoolSize w)

/-- The judgement of a posting fetch: the reason of the first check that fails, or none (R48). -/
def State.judgeSlot (s : State) (a : KeptAnswer) : Option Reason :=
  let m := parseSlot a.data
  if !a.ok then some .memoryReject
  else if !extentAccepted s.image.spoolWindow m.dataBase m.length then some .extent
  else if !portOn (s.portWord m.port) then some .port
  else if !accountOn (s.accountWord m.account) then some .account
  else if m.copies = 0 then some .copies
  else if m.markRule = 4#3 ∨ m.markRule = 5#3 ∨ m.markRule = 6#3 then some .rule
  else none

/-- A rejected ticket returns to FREE with its reject reason and raises a JOB alert (R49). -/
def State.rejectTicket (s : State) (t : Slot) (a : KeptAnswer) (reason : Reason) : State :=
  (s.modTicket t fun x => { x with state := .free, reason := reason }).raiseJob t
    (if a.ok then (parseSlot a.data).jobTag else 0) reason 0 0

/-- An accepted ticket becomes QUEUED: mirror, counts, guard counts and queue, all at once (R50, R61, R78). -/
def State.acceptTicket (s : State) (t : Slot) (m : Mirror) : State :=
  let s' := s.setTicket t { Ticket.reset with state := .queued, mirror := some m }
  (s'.guardRise m).modPort m.port fun x => { x with queue := joinQueue t m.urgent x.queue }

/-- A slot is judged (R47, R48). -/
def State.judgeTicket (s : State) (t : Slot) (a : KeptAnswer) : State :=
  match s.judgeSlot a with
  | some reason => s.rejectTicket t a reason
  | none => s.acceptTicket t (parseSlot a.data)

/-- An answer kept with its slot (R47). -/
def keepAnswer (t : Slot) (a : KeptAnswer) (xs : List InFlight) : List InFlight :=
  xs.map fun x => if x.slot = t then { x with answer := some a } else x

/-- RELEASE of a terminal ticket (R55). -/
def State.releaseTicket (s : State) (t : Slot) : State :=
  s.modTicket t fun x =>
    { x with state := .free, reason := .noReason, mirror := none, copy := 0, page := 0, delivered := 0, spoiled := 0 }

end Sys2Proof.Machine
end

