-- ==== Sys2Proof/Machine/Engines.lean ====
section
/-! DEFINITION. The spool engines: framing and the mark search (R96, R99), the gates (R97), line fetches (R92 to R95),
activation and dispatch (R65, R66, R91), the sending of a frame (R101 to R105), the pacer (R112), stopping and withdrawal
(R106, R107), and the settling of a port after an event (R71, R93, R97, R123). -/

namespace Sys2Proof.Machine

/-- A frame handed to a port's link (R113). -/
def State.hand (s : State) (p : PortId) (f : Frame) : State := s.emit (.frame p f.wire)

/-! ## Framing (R96, R98 to R100) -/

/-- A byte matches the mark in every position that is not don't-care (R98). -/
def MarkRule.matches (r : MarkRule) (b : Byte) : Bool := (b ^^^ r.mark) &&& ~~~r.dontCare == 0#8

/-- One byte of the mark search: whether it completes a mark, and whether a lead is pending after it (R99). -/
def markStep (rule : Option MarkRule) (lead : Bool) (b : Byte) : Bool × Bool :=
  match rule with
  | none => (false, false)
  | some r => if lead && r.matches b then (true, false) else (false, b == r.lead)

/-- A frame the engine would send: its bytes, whether it ends its page and its copy, and the mark search after it. -/
structure FramePlan where
  payload : List Byte
  pageEnd : Bool
  copyEnd : Bool
  lead : Bool
  deriving DecidableEq, Repr

/-- The frame R96 forms from the buffered bytes: it ends at the byte that fills it (`room`), completes a mark, or is the
copy's last (`left`); none while the buffer runs out before one of these. -/
def formFrame (rule : Option MarkRule) : (room left : Nat) → (lead : Bool) → List Byte → Option FramePlan
  | _, _, _, [] => none
  | room, left, lead, b :: bs =>
    let m := markStep rule lead b
    if m.1 || left ≤ 1 then some ⟨[b], true, decide (left ≤ 1), m.2⟩
    else if room ≤ 1 then some ⟨[b], false, false, m.2⟩
    else (formFrame rule (room - 1) (left - 1) m.2 bs).map fun f => { f with payload := b :: f.payload }

/-- The buffered bytes of a copy that follow on from an offset, up to the first line that has not arrived (R94). -/
def availableBytes (copy : Nat) : Nat → List BufferLine → List Byte
  | _, [] => []
  | next, l :: ls =>
    if l.copy = copy ∧ l.offset ≤ next ∧ next < l.offset + l.bytes.length then
      l.bytes.drop (next - l.offset) ++ availableBytes copy (l.offset + l.bytes.length) ls
    else []

/-- A line takes its place in the buffer by its position in the sequence (R94). -/
def insertLine (x : BufferLine) : List BufferLine → List BufferLine
  | [] => [x]
  | l :: ls =>
    if x.copy < l.copy ∨ (x.copy = l.copy ∧ x.offset < l.offset) then x :: l :: ls else l :: insertLine x ls

/-- A buffered line leaves the buffer when its last job-data byte has been framed (R94). -/
def dropFramed (copy next : Nat) (ls : List BufferLine) : List BufferLine :=
  ls.filter fun l => !(decide (l.copy < copy) || (l.copy == copy && decide (l.offset + l.bytes.length ≤ next)))

/-- The frame a port's engine would send now (R96); the frame size is the port setting's as it stands. -/
def State.nextFrame (s : State) (p : PortId) (j : Job) : Option FramePlan :=
  formFrame j.rule (portFrameSize (s.portWord p)) (j.length - j.next) j.lead (availableBytes j.copy j.next j.buffer)

/-! ## Gates (R97) -/

/-- The pacing window's allowance is not spent (gate 4). -/
def Engine.paceOpen (e : Engine) : Bool :=
  match e.pacer with
  | none => true
  | some w => decide (w.sent < w.limit)

/-- What the gates answer: the state of the first gate that fails, or the frame that passes them all. -/
inductive GateResult where
  | blocked (st : EngineState)
  | passes (f : FramePlan)
  deriving DecidableEq, Repr

/-- The engine's state that goes with what the gates answer (R97). -/
def GateResult.state : GateResult → EngineState
  | .blocked st => st
  | .passes _ => .sending

/-- The seven gates in order (R97). -/
def State.gates (s : State) (p : PortId) (j : Job) : GateResult :=
  let x := s.port p
  let pageOpen := x.hasOpenPage
  if !pageOpen && x.onHold then .blocked .held
  else if x.link.state != .ready || x.watch.holds .down then .blocked .paused
  else if x.link.credits = 0 then .blocked .waitCredit
  else if !x.engine.paceOpen then .blocked (if pageOpen then .sending else .waitPace)
  else
    match s.nextFrame p j with
    | none => .blocked .sending
    | some f =>
      if pageOpen then .passes f
      else if Config.pageEntries ≤ x.pages.length then .blocked .waitPage
      else if !s.grants j.account then .blocked .waitQuota
      else .passes f

/-- The engine's state as it is judged now: JAM_STOP stays; with a ticket, the first failing gate's state, or SENDING;
with none, HELD under a hold at an enabled port, or IDLE (R71, R90, R97). -/
def State.judged (s : State) (p : PortId) : EngineState :=
  let x := s.port p
  match x.engine.state with
  | .jamStop => .jamStop
  | _ =>
    match x.engine.job with
    | none => if portOn (s.portWord p) && x.onHold then .held else .idle
    | some j => (s.gates p j).state

/-! ## Line fetches (R92 to R95) -/

/-- The line fetches of a port among waiting or granted requests. -/
def MemRequest.isFetchOf (p : PortId) (r : MemRequest) : Bool :=
  match r.owner with
  | .lineFetch q _ _ _ => q == p
  | _ => false

def MemRequest.isCurrentFetchOf (p : PortId) (r : MemRequest) : Bool :=
  match r.owner with
  | .lineFetch q .current _ _ => q == p
  | _ => false

/-- The engine's fetches outstanding, of all three kinds (R93). -/
def State.fetchesOut (s : State) (p : PortId) : Nat :=
  s.msp.waiting.countP (·.isFetchOf p) + s.msp.outstanding.countP (fun g => g.request.isFetchOf p)

def State.currentFetches (s : State) (p : PortId) : Nat :=
  s.msp.waiting.countP (·.isCurrentFetchOf p) + s.msp.outstanding.countP (fun g => g.request.isCurrentFetchOf p)

/-- The cursor after the line that holds its byte: the next line of the pass, the next copy's first line, or the end of
the sequence (R92). -/
def Job.nextCursor (j : Job) (c : Cursor) : Option Cursor :=
  let next := ((j.dataBase + c.offset) / 64 + 1) * 64 - j.dataBase
  if next < j.length then some ⟨c.copy, next⟩
  else if c.copy < j.copies then some ⟨c.copy + 1, 0⟩
  else none

/-- The fetch of the line at a cursor: a 64-byte read at a line-aligned address (R92). -/
def lineRequest (p : PortId) (j : Job) (c : Cursor) : MemRequest where
  owner := .lineFetch p .current c.copy c.offset
  isWrite := false
  addr := (j.dataBase + c.offset) / 64 * 64
  size := 64
  enables := []
  data := []

/-- The line the engine may present now (R93). -/
def State.fetchWanted (s : State) (p : PortId) : Option (Job × Cursor) :=
  let e := (s.port p).engine
  match e.job with
  | none => none
  | some j =>
    match j.cursor with
    | none => none
    | some c =>
      if e.state != .held && decide (j.buffer.length + s.currentFetches p < Config.bufferLines) &&
          decide (s.fetchesOut p < Config.engineFetches) && !(s.msp.waiting.any (·.isFetchOf p)) then some (j, c)
      else none

/-- The engine presents its next line fetch when it may; the ticket's fetch count rises by one (R93). -/
def State.presentFetch (s : State) (p : PortId) : State :=
  match s.fetchWanted p with
  | none => s
  | some (j, c) =>
    ((s.setJob p (some { j with cursor := j.nextCursor c })).modTicket j.slot fun t =>
      { t with fetchCount := t.fetchCount + 1 }).modMsp fun m => { m with waiting := m.waiting ++ [lineRequest p j c] }

/-- The job-data bytes of an answered line: the bytes from the pass's first byte in it to the extent's last (R92). -/
def Job.lineBytes (j : Job) (offset : Nat) (data : List Byte) : List Byte :=
  let skip := (j.dataBase + offset) % 64
  ((padTo 64 data).drop skip).take (j.length - offset)

/-! ## Settling a port after an event -/

/-- The engine's state judged again (R71, R97). -/
def State.judgeEngine (s : State) (p : PortId) : State :=
  s.modEngine p fun e => { e with state := s.judged p }

/-- The idle timer: it runs in READY while the port is quiet and the idle time is not 0, from the event that made it so
(R123). -/
def State.judgeIdle (s : State) (p : PortId) : State :=
  let x := s.port p
  let ms := portIdleMs (s.portWord p)
  let idle :=
    if x.link.state == .ready && x.quiet && ms != 0 then
      match x.link.idle with
      | .stopped => s.startTimer ms
      | running => running
    else .stopped
  s.modLink p fun l => { l with idle := idle }

/-- What follows at one port from any event: the engine's state is judged, a line fetch is presented, and the idle timer
starts or stops. -/
def State.settlePort (s : State) (p : PortId) : State := ((s.judgeEngine p).presentFetch p).judgeIdle p

/-- What follows at every port; in rising order of port (log entry 12). -/
def State.settle (s : State) : State := allPorts.foldl State.settlePort s

/-! ## Activation (R66, R91) -/

/-- The rule copy: rules 0 to 3 as the control image holds them; 7 is "no marks" (R91). -/
def State.ruleCopy (s : State) (rule : BitVec 3) : Option MarkRule :=
  if rule.toNat < 4 then some (markRuleOf (tget s.image.markRules (Fin.ofNat 4 rule.toNat))) else none

/-- The engine's copies and position at activation: the resume point, or copy 1, page 1, offset 0 (R91). -/
def State.jobFor (s : State) (t : Slot) (m : Mirror) (resume : Option ResumePoint) : Job :=
  let r := resume.getD ⟨1, 1, 0⟩
  { slot := t, dataBase := m.dataBase, length := m.length, copies := m.copies, account := m.account,
    rule := s.ruleCopy m.markRule, copy := r.copy, page := r.page, offset := r.offset, next := r.offset,
    buffer := [], cursor := some ⟨r.copy, r.offset⟩, lead := false }

/-- The chosen ticket leaves the queue, becomes ACTIVE and is taken by the engine (R66, R91). -/
def State.activate (s : State) (p : PortId) (t : Slot) : State :=
  let x := s.ticket t
  match x.mirror with
  | none => s
  | some m =>
    let j := s.jobFor t m x.resume
    let s := s.setTicket t
      { x with state := .active, resume := none, sending := true, fetchCount := 0, copy := j.copy, page := j.page }
    let s := s.modPort p fun y =>
      { y with queue := leaveQueue t y.queue, engine := { y.engine with state := .sending, job := some j } }
    s.settlePort p

/-- Dispatch acts at a port: one activation, when its conditions hold (R65, R66). -/
def State.dispatch (s : State) (p : PortId) : State :=
  match s.toActivate p with
  | some t => s.activate p t
  | none => s

/-! ## Sending a frame (R101 to R105, R112, R113) -/

/-- The page opens: a reservation and an OPEN entry at the tail, with the ticket's entry count (R101, R102). -/
def State.openPage (s : State) (p : PortId) (j : Job) : State :=
  let s := s.claimReserve j.account
  let s := s.modPort p fun x =>
    { x with pages := x.pages ++ [⟨j.slot, j.account, j.copy, j.page, j.offset, .opened⟩] }
  s.modTicket j.slot fun t => { t with entryCount := t.entryCount + 1 }

/-- The pacer after one more DATA frame: counted in the running window, or in a new window under the port's profile as
it then stands; an unpaced profile starts none (R112). -/
def State.pacerAfterFrame (s : State) (p : PortId) : Option PacerWindow :=
  match (s.port p).engine.pacer with
  | some w => some { w with sent := w.sent + 1 }
  | none =>
    let profile := tget s.image.pacing (portProfile (s.portWord p))
    if pacingFrames profile = 0 then none
    else some ⟨s.milliseconds, s.microseconds, pacingLengthUs profile, pacingFrames profile, 1⟩

/-- The DATA frame is handed: one credit, the frames-sent counter, the pacer (R112, R113, R119). -/
def State.handData (s : State) (p : PortId) (payload : List Byte) : State :=
  let pacer := s.pacerAfterFrame p
  let s := s.modLink p fun l => { l with credits := l.credits - 1, framesSent := l.framesSent + 1 }
  (s.modEngine p fun e => { e with pacer := pacer }).hand p (.data payload)

/-- The newest entry becomes CLOSED (R103). -/
def closeLast (es : List Entry) : List Entry :=
  match es.getLast? with
  | none => []
  | some e => es.dropLast ++ [{ e with state := .closed }]

/-- The engine's job after a frame within a page (R94, R99). -/
def Job.afterFrame (j : Job) (f : FramePlan) : Job :=
  let next := j.next + f.payload.length
  { j with next := next, lead := f.lead, buffer := dropFramed j.copy next j.buffer }

/-- The engine's job after the frame that ends a page: the next page of the copy, the next copy, or none at the last byte
of the last copy (R103 to R105). -/
def Job.afterPage (j : Job) (f : FramePlan) : Option Job :=
  let k := j.afterFrame f
  if !f.copyEnd then some { k with page := k.page + 1, offset := k.next }
  else if j.copy < j.copies then
    some { k with copy := k.copy + 1, page := 1, offset := 0, next := 0, lead := false,
                  buffer := dropFramed (k.copy + 1) 0 k.buffer }
  else none

/-- The page closes: its entry, the `sent` meter, the report, and the position (R103 to R105). -/
def State.closePage (s : State) (p : PortId) (j : Job) (f : FramePlan) : State :=
  let s := s.modPort p fun x => { x with pages := closeLast x.pages }
  let s := (s.claimClose j.account).pageEnded
  match j.afterPage f with
  | some k => (s.setJob p (some k)).modTicket j.slot fun t => { t with copy := k.copy, page := k.page }
  | none =>
    let s := s.modEngine p fun e => { e with job := none, state := .idle }
    s.modTicket j.slot fun t => { t with state := .draining, sending := false }

/-- The engine sends its next DATA frame when every gate passes; otherwise nothing is sent, and the state is that of the
first gate that fails (R97). -/
def State.sendFrame (s : State) (p : PortId) : State :=
  match (s.port p).engine.job with
  | none => s
  | some j =>
    match s.gates p j with
    | .blocked st => s.modEngine p fun e => { e with state := st }
    | .passes f =>
      let s := if (s.port p).hasOpenPage then s else s.openPage p j
      let s := s.handData p f.payload
      let s := if f.pageEnd then s.closePage p j f else s.setJob p (some (j.afterFrame f))
      s.settle

/-! ## Stopping and withdrawal (R106, R107) -/

/-- An OPEN entry is withdrawn, with CUT when the link is READY (R106). -/
def State.withdrawOpen (s : State) (p : PortId) : State :=
  match (s.port p).openEntry with
  | none => s
  | some e =>
    let ready := (s.port p).link.state == .ready
    let s := s.modPort p fun x => { x with pages := x.pages.dropLast }
    let s := (s.claimWithdraw e.account).modTicket e.slot fun t => { t with entryCount := t.entryCount - 1 }
    (if ready then s.hand p .cut else s).pageEnded

/-- A fetch waiting ungranted is taken back and leaves the ticket's fetch count (R107). -/
def State.takeBackFetch (s : State) (p : PortId) (t : Slot) : State :=
  let n := s.msp.waiting.countP (·.isFetchOf p)
  (s.modMsp fun m => { m with waiting := m.waiting.filter fun r => !r.isFetchOf p }).modTicket t fun x =>
    { x with fetchCount := x.fetchCount - n }

/-- A granted current fetch of the port takes a new mark; any other request stays as it was (R95). -/
def Granted.remark (p : PortId) (mark : FetchMark) (g : Granted) : Granted :=
  match g.request.owner with
  | .lineFetch q .current copy offset =>
    if q = p then { g with request := { g.request with owner := .lineFetch q mark copy offset } } else g
  | _ => g

def State.remarkFetches (s : State) (p : PortId) (mark : FetchMark) : State :=
  s.modMsp fun m => { m with outstanding := m.outstanding.map (Granted.remark p mark) }

/-- The engine has no ticket in hand and the ticket is no longer sent (R107, steps 4 and 5). -/
def State.dropJob (s : State) (p : PortId) (t : Slot) : State :=
  (s.modEngine p fun e => { e with job := none, state := .idle }).modTicket t fun x => { x with sending := false }

/-- The engine stops sending its ticket after CANCEL or a memory error: granted fetches become stopped, and the drain
test is made (R107). -/
def State.stopEngine (s : State) (p : PortId) (t : Slot) : State :=
  ((((s.withdrawOpen p).takeBackFetch p t).remarkFetches p (.stopped t)).dropJob p t).drainTest t

/-! ## Answers to line fetches (R94, R95, R109, R110) -/

/-- A fetch of the ticket is answered or taken back (R93). -/
def State.fetchDone (s : State) (t : Slot) : State :=
  s.modTicket t fun x => { x with fetchCount := x.fetchCount - 1 }

/-- A current fetch answered ERROR: the ticket becomes FAILING and the engine stops (R109). -/
def State.memoryFailure (s : State) (p : PortId) (t : Slot) : State :=
  ((s.modTicket t fun x => { x with state := .failing, reason := .memoryEnd }).stopEngine p t).settle

/-- A line answered OK for the ticket in hand enters the buffer (R94). -/
def State.lineArrives (s : State) (p : PortId) (j : Job) (copy offset : Nat) (data : List Byte) : State :=
  s.setJob p (some { j with buffer := insertLine ⟨copy, offset, j.lineBytes offset data⟩ j.buffer })

/-- Memory answers a line fetch, by its mark (R95). -/
def State.lineAnswered (s : State) (p : PortId) (mark : FetchMark) (copy offset : Nat) (ok : Bool) (data : List Byte) :
    State :=
  match mark with
  | .stale => s.settlePort p
  | .stopped t => ((s.fetchDone t).drainTest t).settlePort p
  | .current =>
    match (s.port p).engine.job with
    | none => s.settlePort p
    | some j =>
      let s := s.fetchDone j.slot
      if ok then (s.lineArrives p j copy offset data).settlePort p else s.memoryFailure p j.slot

end Sys2Proof.Machine
end

