-- ==== Sys2Proof/Machine/Recovery.lean ====
section
/-! DEFINITION. Delivery matching (R151 to R154), the evaluation of conditions (R134 to R136), the jam rewind (R138 to
R143) and the jam stop (R145 to R149). -/

namespace Sys2Proof.Machine

/-! ## Delivery (R151 to R154) -/

/-- The ending test after a delivery (R153). -/
def State.deliveryTest (s : State) (t : Slot) : State :=
  match (s.ticket t).state with
  | .draining => if (s.ticket t).entryCount = 0 then s.endTicket t .done .complete else s
  | .cancelling | .failing => s.drainTest t
  | _ => s

/-- The head entry is delivered: the account, the ticket, the ending (R152, R153). -/
def State.deliverEntry (s : State) (p : PortId) (e : Entry) (rest : List Entry) : State :=
  let s := (s.setPages p rest).claimDeliver e.account
  let s := s.modTicket e.slot fun t =>
    { t with delivered := min (t.delivered + 1) Config.maxPages, entryCount := t.entryCount - 1 }
  s.deliveryTest e.slot

/-- Stray sheets are counted (R154). -/
def State.straySheets (s : State) (p : PortId) (n : Nat) : State :=
  s.modPort p fun x => { x with stray := x.stray + BitVec.ofNat 32 n }

/-- The sheets of one count matched against the page list, first sheet first (R151). -/
def State.deliverSheets (s : State) (p : PortId) : Nat → State
  | 0 => s
  | n + 1 =>
    match (s.port p).pages with
    | [] => s.straySheets p (n + 1)
    | e :: rest =>
      if e.state = .closed then (s.deliverEntry p e rest).deliverSheets p n else s.straySheets p (n + 1)

/-! ## The jam rewind (R138 to R143) -/

/-- The engine stops sending its ticket in hand for a rewind: granted fetches become stale, the ticket's fetch count 0
(R107, R139). -/
def State.rewindStop (s : State) (p : PortId) : State :=
  match (s.port p).engine.job with
  | none => s
  | some j =>
    let s := (((s.withdrawOpen p).takeBackFetch p j.slot).remarkFetches p .stale).dropJob p j.slot
    s.modTicket j.slot fun t => { t with fetchCount := 0 }

/-- An entry is spoiled: a spoil claim, the ticket's entry count and pages spoiled (R140). -/
def State.spoilEntry (s : State) (e : Entry) : State :=
  (s.claimSpoil e.account).modTicket e.slot fun t =>
    { t with entryCount := t.entryCount - 1, spoiled := min (t.spoiled + 1) Config.maxSpoiled }

/-- Every entry of the page list is spoiled, oldest first, and the list is empty (R140). -/
def State.spoilAll (s : State) (p : PortId) : State :=
  ((s.port p).pages.foldl State.spoilEntry s).setPages p []

/-- Slots in order, each at its first place. -/
def uniqueSlots : List Slot → List Slot
  | [] => []
  | t :: ts => t :: (uniqueSlots ts).filter fun u => u != t

/-- The tickets a rewind deals with, in page-list order; the ticket in hand last when it had no entry (R141). -/
def rewindSlots (pages : List Entry) (job : Option Job) : List Slot :=
  uniqueSlots (pages.map Entry.slot ++ (job.map Job.slot).toList)

/-- The resume point of a ticket: its oldest entry's, or the engine's position (R143). -/
def resumePointOf (pages : List Entry) (job : Option Job) (t : Slot) : ResumePoint :=
  match pages.find? (fun e => e.slot == t) with
  | some e => ⟨e.copy, e.page, e.start⟩
  | none =>
    match job with
    | some j => ⟨j.copy, j.page, j.offset⟩
    | none => ⟨1, 1, 0⟩

/-- ACTIVE and DRAINING tickets return to QUEUED (R141). -/
def TicketState.rewinds : TicketState → Bool
  | .active | .draining => true
  | _ => false

/-- One ticket dealt with by its state (R141). -/
def State.rewindTicket (pages : List Entry) (job : Option Job) (s : State) (t : Slot) : State :=
  if (s.ticket t).state.rewinds then
    s.modTicket t fun x =>
      { x with state := .queued, resume := some (resumePointOf pages job t), fetchCount := 0, sending := false }
  else s.drainTest t

/-- The rewind leaves the engine in JAM_STOP, the mode recorded and the consent cleared (R142). -/
def State.enterJamStop (s : State) (p : PortId) : State :=
  let mode := portMode (s.portWord p)
  s.modEngine p fun e => { e with state := .jamStop, job := none, recordedMode := mode, consent := false }

/-- The jam rewind at a port, one event (R138 to R142). -/
def State.rewind (s : State) (p : PortId) : State :=
  let pages := (s.port p).pages
  let job := (s.port p).engine.job
  let slots := rewindSlots pages job
  let s := (s.rewindStop p).spoilAll p
  let back := slots.filter fun t => (s.ticket t).state.rewinds
  let s := slots.foldl (State.rewindTicket pages job) s
  let s := s.modPort p fun x => { x with queue := rejoinQueue back x.queue }
  s.enterJamStop p

/-! ## The jam stop (R145 to R149) -/

/-- The end condition of the jam stop for the mode recorded at the rewind (R146, R147). -/
def Port.jamStopOver (x : Port) : Bool :=
  x.engine.state == .jamStop && x.link.state == .ready && !x.watch.holds .jam &&
    (x.engine.recordedMode == .auto || x.engine.consent)

/-- The jam stop ends when its condition holds: the engine leaves JAM_STOP and the consent clears (R149). -/
def State.judgeJamStop (s : State) (p : PortId) : State :=
  if (s.port p).jamStopOver then s.modEngine p fun e => { e with state := .idle, consent := false } else s

/-- PORT_RESUME (R148). -/
def State.portResume (s : State) (p : PortId) : State × CommandResult :=
  if (s.port p).engine.state = .jamStop ∧ (s.port p).watch.holds .jam = false then
    (((s.modEngine p fun e => { e with consent := true }).judgeJamStop p).settlePort p, .done)
  else (s, .state)

/-! ## Conditions at a STATUS (R132 to R136) -/

/-- An element put into a list by rising key. -/
def insertByKey (key : CondId → Nat) (c : CondId) : List CondId → List CondId
  | [] => [c]
  | d :: ds => if key c ≤ key d then c :: d :: ds else d :: insertByKey key c ds

/-- The conditions with an edge, in the order their raises are taken (R135; log entry 11). -/
def edgesInOrder (draw : Nat) (before after : Vector HeldCondition 4) : List CondId :=
  (([0, 1, 2, 3] : List CondId).filter fun c => isEdge (tget before c) (tget after c)).foldr
    (insertByKey fun c => Config.raiseKey draw c.val) []

/-- One edge's alert: its condition's new class, source the port (R135). -/
def State.raiseEdge (p : PortId) (after : Vector HeldCondition 4) (bits : BitVec 16) (hand : Option Slot)
    (s : State) (c : CondId) : State :=
  s.raise (tget after c).cls.alert p.val (.printer (.condition c) bits hand)

/-- The watch's part of a STATUS: bits and truths, the edges' alerts, and the rewind of a JAM edge (R134 to R136). -/
def State.watchStatus (s : State) (p : PortId) (bits : BitVec 16) : State :=
  let before := (s.port p).watch.conditions
  let after := s.evaluated p bits
  let hand := s.inHand p
  let edges := edgesInOrder s.draws before after
  let s := { s with draws := s.draws + 1 }
  let s := s.modWatch p fun _ => { bits := bits, conditions := after }
  let s := edges.foldl (State.raiseEdge p after bits hand) s
  if edges.any fun c => (tget after c).cls == .jam then s.rewind p else s

/-- A STATUS served: the sheets first, then the bits (R120, R136). -/
def State.serveStatus (s : State) (p : PortId) (bits : BitVec 16) (count : Nat) : State :=
  (s.deliverSheets p count).watchStatus p bits

end Sys2Proof.Machine
end

