-- ==== Sys2Proof/Machine/Links.lean ====
section
/-! DEFINITION. The press links: training (R116 to R118), credits (R119), inbound frames (R114, R120), silence and link loss
(R121, R122), drowse and wake (R123 to R128), port reset (R129), enable and disable (R116, R130). -/

namespace Sys2Proof.Machine

/-! ## Training, loss and wake -/

/-- The link hands TRAIN and the training timer starts for 250 ms (R116 to R118). -/
def State.handTrain (s : State) (p : PortId) : State :=
  let timer := s.startTimer Config.trainingMs
  (s.modLink p fun l => { l with training := timer }).hand p .train

/-- A port's enable captured: TRAINING with credits and consecutive-bad count 0 (R116). -/
def State.enablePort (s : State) (p : PortId) : State :=
  (s.modLink p fun l => { l with state := .training, credits := 0, badRun := 0 }).handTrain p

/-- A port's disable captured: link, engine and status watch (R130, R132). -/
def State.disablePort (s : State) (p : PortId) : State :=
  s.modPort p fun x =>
    { x with
      link := { x.link with state := .disabled, credits := 0, badRun := 0, training := .stopped, silence := .stopped,
                            idle := .stopped, warm := .stopped, onlineSeen := false }
      engine := { x.engine with state := .idle, job := none, pacer := none, consent := false }
      watch := { bits := 0, conditions := x.watch.conditions.map fun c => { c with truth := false } } }

/-- A training failure: OFFLINE, TRAIN again, a DOWN alert with cause LINK (R117). -/
def State.trainingFailure (s : State) (p : PortId) : State :=
  ((s.modLink p fun l => { l with state := .offline, credits := 0 }).handTrain p).raiseLinkDown p

/-- A link loss: OFFLINE, credits and timers, TRAIN, the DOWN alert, the rewind (R122). -/
def State.linkLoss (s : State) (p : PortId) : State :=
  let s := s.modLink p fun l =>
    { l with state := .offline, credits := 0, silence := .stopped, idle := .stopped, warm := .stopped,
             onlineSeen := false }
  (((s.handTrain p).raiseLinkDown p).rewind p).settle

/-- A wake cause taken in DROWSY: WAKING, WAKE, the warm timer (R126). -/
def State.wake (s : State) (p : PortId) : State :=
  let timer : WarmTimer := .running s.milliseconds s.microseconds (portWarmMs (s.portWord p))
  ((s.modLink p fun l => { l with state := .waking, warm := timer, onlineSeen := false }).hand p
    .wake).settlePort p

/-- The silence timer started with the port's silence time as it stands (R121). -/
def State.startSilence (s : State) (p : PortId) : State :=
  let timer := s.startTimer (portSilenceMs (s.portWord p))
  s.modLink p fun l => { l with silence := timer }

/-- The link becomes READY: the jam stop may end, and the port settles (R117, R127, R146). -/
def State.becomeReady (s : State) (p : PortId) : State :=
  ((s.modLink p fun l => { l with state := .ready }).judgeJamStop p).settlePort p

/-! ## Inbound frames (R114, R117 to R120) -/

/-- A good frame: the consecutive-bad count becomes 0 and a running silence timer restarts (R114, R121). -/
def State.goodFrame (s : State) (p : PortId) : State :=
  let timer := s.startTimer (portSilenceMs (s.portWord p))
  s.modLink p fun l =>
    { l with badRun := 0, silence := (match l.silence with | .stopped => .stopped | _ => timer) }

/-- A good TRAIN_ACK: READY from TRAINING or OFFLINE; in the other states it is discarded (R117, R118, R125). -/
def State.takeTrainAck (s : State) (p : PortId) (credits : Nat) : State :=
  match (s.port p).link.state with
  | .training | .offline =>
    ((s.modLink p fun l => { l with credits := credits, training := .stopped }).startSilence p).becomeReady p
  | _ => s

/-- Credits after a grant: a sum above 32 is 32 (R119). -/
def Link.granted (l : Link) (n : Nat) : Link :=
  if Config.maxCredits < l.credits + n then { l with credits := Config.maxCredits, overflows := l.overflows + 1 }
  else { l with credits := l.credits + n }

/-- A good CREDIT in READY, WAKING or DROWSY raises the credits; in TRAINING and OFFLINE it is discarded (R119). -/
def State.takeCredit (s : State) (p : PortId) (n : Nat) : State :=
  match (s.port p).link.state with
  | .ready | .waking | .drowsy => (s.modLink p fun l => l.granted n).settlePort p
  | _ => s

/-- The status bit ONLINE. -/
def onlineBit (bits : BitVec 16) : Bool := bits.getLsbD 0

/-- What a served STATUS does to a WAKING link: ONLINE is seen, and completes the wake when the warm timer has expired
(R120, R127). -/
def State.statusInWaking (s : State) (p : PortId) (bits : BitVec 16) : State :=
  if onlineBit bits then
    let s := s.modLink p fun l => { l with onlineSeen := true }
    if (s.port p).link.warm = .expired then s.becomeReady p else s
  else s

/-- A good STATUS, by the link state (R120, R125, R127). -/
def State.takeStatus (s : State) (p : PortId) (bits : BitVec 16) (count : Nat) : State :=
  match (s.port p).link.state with
  | .ready => ((s.serveStatus p bits count).judgeJamStop p).settle
  | .waking => (((s.serveStatus p bits count).statusInWaking p bits).judgeJamStop p).settle
  | .drowsy =>
    let s := s.serveStatus p bits count
    (if portWakeOnStatus (s.portWord p) then s.wake p else s).settle
  | _ => s

/-- A bad frame: dropped and counted; the eighth in a row acts by the link state (R114). -/
def State.takeBadFrame (s : State) (p : PortId) : State :=
  let run := (s.port p).link.badRun + 1
  let s := s.modLink p fun l => { l with badFrames := l.badFrames + 1, badRun := if run = 8 then 0 else run }
  if run = 8 then
    match (s.port p).link.state with
    | .ready | .waking | .drowsy => s.linkLoss p
    | .training => (s.trainingFailure p).settlePort p
    | _ => s
  else s

/-- A frame received at a port: judged unless the link is DISABLED, then served as the link state gives (R114). -/
def State.receive (s : State) (p : PortId) (bytes : List Byte) : State :=
  if (s.port p).link.state = .disabled then s
  else
    match judgeFrame bytes with
    | .trainAck n => (s.goodFrame p).takeTrainAck p n
    | .credit n => (s.goodFrame p).takeCredit p n
    | .status bits n => (s.goodFrame p).takeStatus p bits n
    | .bad => s.takeBadFrame p

/-! ## Timers (R117, R118, R121, R124, R127) -/

def State.trainingExpires (s : State) (p : PortId) : State :=
  match (s.port p).link.state with
  | .training => (s.trainingFailure p).settlePort p
  | .offline => s.handTrain p
  | _ => s

/-- The idle timer's expiry: DROWSE and DROWSY, unless dispatch has a wake cause at that moment (R69, R124). -/
def State.idleExpires (s : State) (p : PortId) : State :=
  if s.wakeWanted p then (s.modLink p fun l => { l with idle := .stopped }).settlePort p
  else ((s.modLink p fun l => { l with state := .drowsy, idle := .stopped, silence := .stopped }).hand p
    .drowse).settlePort p

/-- The warm timer's expiry in WAKING: the silence timer starts, and the link is READY when ONLINE has been seen
(R127). -/
def State.warmExpires (s : State) (p : PortId) : State :=
  let s := (s.modLink p fun l => { l with warm := .expired }).startSilence p
  if (s.port p).link.onlineSeen then s.becomeReady p else s

/-! ## PORT_WAKE and PORT_RESET (R128, R129) -/

/-- PORT_WAKE (R128). -/
def State.portWake (s : State) (p : PortId) : State × CommandResult :=
  match (s.port p).link.state with
  | .drowsy => (s.wake p, .done)
  | .ready => ((s.modLink p fun l => { l with idle := .stopped }).settlePort p, .done)
  | .waking => (s, .nothing)
  | .disabled | .training | .offline => (s, .state)

/-- The reset step of PORT_RESET (R129, step 2). -/
def State.resetLink (s : State) (p : PortId) : State :=
  let s := s.modPort p fun x =>
    { x with
      link := { x.link with state := .training, credits := 0, badRun := 0, silence := .stopped, idle := .stopped,
                            warm := .stopped, onlineSeen := false, framesSent := 0, badFrames := 0, overflows := 0 }
      engine := { x.engine with pacer := none }
      watch := { x.watch with conditions := x.watch.conditions.map fun c => { c with truth := false } }
      stray := 0 }
  s.handTrain p

/-- PORT_RESET (R129). -/
def State.portReset (s : State) (p : PortId) : State × CommandResult :=
  if (s.port p).link.state = .disabled then (s, .state)
  else (((s.rewind p).resetLink p).settle, .done)

end Sys2Proof.Machine
end

