-- ==== Sys2Proof/Machine/Commands.lean ====
section
/-! DEFINITION. Commands: START and STOP (R36, R37), the port holds and flushes (R70, R73 to R75), the choice of a control
command by its code (R32, R33, R186), and the job commands (R44, R52 to R55). -/

namespace Sys2Proof.Machine

/-! ## START and STOP -/

/-- The quiesce hold of every port (R70, R75). -/
def State.setQuiesceHolds (s : State) (b : Bool) : State :=
  { s with ports := s.ports.map fun x => { x with quiesceHold := b } }

def State.commandStart (s : State) : State × CommandResult :=
  (((s.modCtl fun c => { c with global := .running }).setQuiesceHolds false).settle, .done)

def State.commandStop (s : State) : State × CommandResult :=
  match s.ctl.global with
  | .running =>
    let next : GlobalState := if s.anyOpenPage then .quiescing else .stopped
    (((s.modCtl fun c => { c with global := next }).setQuiesceHolds true).settle, .done)
  | .quiescing | .stopped => (s, .done)

/-! ## Ports -/

def State.setHold (s : State) (p : PortId) (b : Bool) : State := s.modPort p fun x => { x with holdFlag := b }

/-- PORT_HOLD (R70, R71). -/
def State.portHold (s : State) (p : PortId) : State × CommandResult := ((s.setHold p true).settlePort p, .done)

/-- PORT_RELEASE (R73). -/
def State.portRelease (s : State) (p : PortId) : State × CommandResult := ((s.setHold p false).settlePort p, .done)

/-- PORT_FLUSH (R74). -/
def State.portFlush (s : State) (p : PortId) : State × CommandResult :=
  match (s.port p).queue with
  | [] => (s, .nothing)
  | q =>
    ((q.foldl (fun s e => s.endTicket e.slot .cancelled .flush) (s.setQueue p [])).settlePort p, .done)

/-! ## Control commands -/

/-- A port argument (R33). -/
def portArg (b : Byte) : Option PortId := if h : b.toNat < 16 then some ⟨b.toNat, h⟩ else none

/-- An account argument (R33). -/
def accountArg (b : Byte) : Option AccountId := if h : b.toNat < 64 then some ⟨b.toNat, h⟩ else none

/-- A command that takes a port argument (R33). -/
def State.onPort (s : State) (arg : Byte) (f : PortId → State × CommandResult) : State × CommandResult :=
  match portArg arg with
  | some p => f p
  | none => (s, .arg)

/-- A command that takes an account argument (R33). -/
def State.onAccount (s : State) (arg : Byte) (f : AccountId → State × CommandResult) : State × CommandResult :=
  match accountArg arg with
  | some a => f a
  | none => (s, .arg)

/-- A quota command: its value's range, then the account's record, then what follows at the ports (R157, R160). -/
def State.onQuota (s : State) (arg : Byte) (value : Nat) (f : AccountId → State × CommandResult) :
    State × CommandResult :=
  s.onAccount arg fun a =>
    if Config.maxPages < value then (s, .arg) else ((f a).1.settle, (f a).2)

/-- METER_CLEAR of one account, or of all with argument 0xFF (R163). -/
def State.commandMeterClear (s : State) (arg : Byte) : State × CommandResult :=
  if arg = 0xFF#8 then s.meterClearAll else s.onAccount arg s.meterClear

/-- A taken control command performed by its owner, with its result (R33, R186). -/
def State.perform (s : State) (code arg : Byte) (value : Nat) : State × CommandResult :=
  if code = 0x01#8 then s.commandStart
  else if code = 0x02#8 then s.commandStop
  else if code = 0x10#8 then s.onPort arg s.portHold
  else if code = 0x11#8 then s.onPort arg s.portRelease
  else if code = 0x12#8 then s.onPort arg s.portFlush
  else if code = 0x13#8 then s.onPort arg s.portWake
  else if code = 0x14#8 then s.onPort arg s.portReset
  else if code = 0x15#8 then s.onPort arg s.portResume
  else if code = 0x20#8 then s.onQuota arg value fun a => s.quotaSet a value
  else if code = 0x21#8 then s.onQuota arg value fun a => s.quotaAdd a value
  else if code = 0x22#8 then s.commandMeterClear arg
  else if code = 0x30#8 then s.alertTake
  else if code = 0x31#8 then s.alertDone
  else (s, .arg)

/-- A command is performed and recorded: last code, result, commands-taken count (R33, R34). -/
def State.takeCommand (s : State) (code arg : Byte) (value : Nat) : State :=
  let r := s.perform code arg value
  r.1.modCtl fun c => { c with lastCode := code, lastResult := r.2, taken := c.taken + 1 }

/-! ## Job commands -/

/-- A post-word fault: the ticket is unchanged and a REFUSAL alert is raised; the refusal count stays (R44, R172). -/
def State.postFault (s : State) (addr : Addr) (reason : RefusalReason) : State :=
  s.raise .refusal 0 (.refusal addr reason s.ctl.refusals)

/-- CANCEL of a QUEUED ticket (R52). -/
def State.cancelQueued (s : State) (t : Slot) : State :=
  match (s.ticket t).mirror with
  | some m =>
    ((s.modPort m.port fun x => { x with queue := leaveQueue t x.queue }).endTicket t .cancelled
      .cancel).settlePort m.port
  | none => s.endTicket t .cancelled .cancel

/-- CANCEL of an ACTIVE or DRAINING ticket: CANCELLING, and the engine that sends it stops (R53, R107, R108). -/
def State.cancelSent (s : State) (t : Slot) : State :=
  let s := s.modTicket t fun x => { x with state := .cancelling, reason := .cancel }
  match (s.ticket t).mirror with
  | some m => (if s.inHand m.port = some t then s.stopEngine m.port t else s.drainTest t).settle
  | none => s.drainTest t

/-- A job code taken by the ticket table (R44, R190). -/
def State.takeJob (s : State) (t : Slot) (addr : Addr) (code : Byte) : State :=
  let st := (s.ticket t).state
  if code = 0x41#8 then
    match st with
    | .free => s.postTicket t
    | _ => s.postFault addr .state
  else if code = 0x42#8 then
    match st with
    | .queued => s.cancelQueued t
    | .active | .draining => s.cancelSent t
    | _ => s.postFault addr .state
  else if code = 0x43#8 then
    match st with
    | .done | .cancelled | .failed => s.releaseTicket t
    | _ => s.postFault addr .state
  else s.postFault addr .arg

end Sys2Proof.Machine
end

