-- ==== Sys2Proof/Machine/Operands.lean ====
section
/-! DEFINITION. From a row's operands to what arrives at the part: the host write a row stands for (R185, R186, R190; log
entry 3), the words a write touches (R6), and the bytes of an inbound frame (R194; log entry 25). -/

namespace Sys2Proof.Machine

/-! ## Host writes -/

/-- A write at an offset of the anchored control page (R185). The address is formed when the row arrives: of a row given
while RESET_N is asserted, which the port holds until the sweep is done, from the anchor as it then stands, 0 (DESIGN
CHOICE, unsafe; log entry 30). -/
def State.settingRequest (s : State) (w : SettingWrite) : WriteRequest where
  addr := BitVec.ofNat 36 (s.controlBase + w.offset.toNat)
  size := w.size
  enables := w.enables
  data := w.data
  tag := w.tag

/-- The eight bytes of a command word with a code (R186). -/
def commandBytes (code : Byte) (c : CommandWrite) : List Byte :=
  code :: c.complement :: c.argument :: c.spare :: leBytes 4 c.value.toNat

/-- The exact word write of a command word (R9, R186), at the anchor as it stands when the row arrives (DESIGN CHOICE,
unsafe; log entry 30). -/
def State.commandRequest (s : State) (code : Byte) (c : CommandWrite) : WriteRequest where
  addr := BitVec.ofNat 36 s.controlBase
  size := 8
  enables := List.replicate 8 true
  data := commandBytes code c
  tag := c.tag

/-- The address of a slot's post word (R39). -/
def State.postAddr (s : State) (t : Slot) : Nat := s.slotAddr t + 24

/-- The eight bytes of a post word with a job code (R190). -/
def postBytes (code : Byte) (w : PostWrite) : List Byte := code :: w.complement :: leBytes 6 w.spare.toNat

/-- The exact word write of a post word (R9, R190), at the ticket window as it stands when the row arrives (DESIGN CHOICE,
unsafe; log entry 30). -/
def State.postRequest (s : State) (code : Byte) (w : PostWrite) : WriteRequest where
  addr := BitVec.ofNat 36 (s.postAddr w.slot)
  size := 8
  enables := List.replicate 8 true
  data := postBytes code w
  tag := w.tag

/-! ## Words of a write (R6) -/

/-- One word of a write: its address, its eight byte enables and its eight data bytes. -/
structure WordWrite where
  addr : Nat
  enables : List Bool
  data : List Byte
  deriving DecidableEq, Repr

/-- The `k` words of a write from an address. -/
def wordWrites : Nat → Nat → List Bool → List Byte → List WordWrite
  | 0, _, _, _ => []
  | k + 1, addr, es, ds => ⟨addr, es.take 8, padTo 8 ds⟩ :: wordWrites k (addr + 8) (es.drop 8) (ds.drop 8)

/-- Some byte of the word is enabled (R6). -/
def WordWrite.isTouched (w : WordWrite) : Bool := w.enables.any id

/-- The words a write touches (R6). -/
def touchedWords (w : WriteRequest) : List WordWrite :=
  (wordWrites (w.size / 8) w.addr.toNat w.enables w.data).filter WordWrite.isTouched

/-- Some byte of the write is enabled (R6). -/
def anyEnabled (w : WriteRequest) : Bool := (w.enables.take w.size).any id

/-- Size 8 with all eight byte enables set; at a word's address it is an exact word write of that word (R7). -/
def isExactWord (w : WriteRequest) : Bool := w.size == 8 && w.enables == List.replicate 8 true

/-! ## Shape (R1, R5) -/

/-- A size and an address of the right shape (R1). -/
def wellShaped (addr : Addr) (size : Nat) : Bool :=
  decide (8 ≤ size) && decide (size ≤ 64) && size % 8 == 0 && addr.toNat % 8 == 0

/-- The request crosses a 64-byte line (R5). -/
def crossesLine (addr size : Nat) : Bool := addr / 64 != (addr + size - 1) / 64

/-- The bytes of a crossing request in its first line (R5). -/
def firstHalf (addr : Nat) : Nat := 64 - addr % 64

/-- The addresses of the `k` words from an address. -/
def wordAddrs (addr k : Nat) : List Nat := (List.range k).map fun i => addr + 8 * i

/-! ## Inbound frames (R194) -/

def trainAckBytes (credits : Byte) : List Byte := closeFrame [0x81#8, credits]

def creditBytes (grant : Byte) : List Byte := closeFrame [0x82#8, grant]

def statusBytes (bits : BitVec 16) (count : Byte) : List Byte :=
  closeFrame (0x83#8 :: leBytes 2 bits.toNat ++ [count])

end Sys2Proof.Machine
end

