-- ==== Sys2Proof/Machine/Settings.lean ====
section
/-! DEFINITION. Setting writes: the resulting image, the locks, the ranges, and what a capture brings about (R24 to R28,
R85, R87, R130, R164 to R167, R173, R174, R178). -/

namespace Sys2Proof.Machine

/-- A touched setting word with its enabled bytes. -/
structure SettingPart where
  loc : SettingLoc
  enables : List Bool
  data : List Byte
  deriving DecidableEq, Repr

/-- Step 1: the resulting image (R24). -/
def resultingImage (im : Image) (parts : List SettingPart) : Image :=
  parts.foldl (fun x p => x.put p.loc (mergeWord (x.get p.loc) p.enables p.data)) im

/-- Step 2: some setting of the word is changed (R24). -/
def isChanged (old new : Image) (loc : SettingLoc) : Bool :=
  (old.get loc ^^^ new.get loc) &&& fieldMask loc != 0

/-- Some byte of the ring base or the ring size code is written (R173, R174): bytes 0 to 5 of the ring word. -/
def touchesRing (parts : List SettingPart) : Bool :=
  parts.any fun p => p.loc == .ring && (p.enables.take 6).any id

/-- The consume index word is touched: the consume-index check applies to the write, whether or not it writes a byte of the
index (R24, R178; log entry 31). -/
def touchesConsume (parts : List SettingPart) : Bool := parts.any fun p => p.loc == .consume

/-- Some byte of the consume index is written: bytes 0 and 1 of its word. Only then does the consumed count move (R178; log
entry 31). -/
def writesConsume (parts : List SettingPart) : Bool :=
  parts.any fun p => p.loc == .consume && (p.enables.take 2).any id

/-! ## Step 3: locks -/

/-- The lock on a change of policy (R166). -/
def policyLocked (x : Account) (old new : Nat) : Bool :=
  old != new && ((new == 1 && decide (x.remaining < x.reserved)) || (new == 2 && x.remaining == 0))

/-- A changed setting of the word is locked (R24, R85, R87, R130, R165, R166). -/
def State.isLocked (s : State) (new : Image) (loc : SettingLoc) : Bool :=
  let before := s.image.get loc
  let after := new.get loc
  match loc with
  | .spoolWindow => isChanged s.image new loc && s.spoolLocked
  | .ticketWindow => isChanged s.image new loc && s.ticketWindowLocked
  | .port p => portOn before && !portOn after && s.portInUse p
  | .account a =>
    (accountOn before && !accountOn after && s.accountInUse a) ||
      policyLocked (s.account a) (policyCode before) (policyCode after)
  | _ => false

/-! ## Step 4: validity -/

/-- The unused bits of a touched word are zero, and its changed settings are in range; the ring word is checked whenever
it is touched (R24; log entry 15). -/
def partInRange (old new : Image) (p : SettingPart) : Bool :=
  unusedZero p.loc (new.get p.loc) &&
    (!(isChanged old new p.loc || p.loc == .ring) || inRange p.loc (new.get p.loc))

/-- A setting the overlap check depends on (R28). -/
def SettingLoc.placesExtent : SettingLoc → Bool
  | .ticketWindow | .meterWindow | .spoolWindow | .ring => true
  | _ => false

/-- The overlap check is due for a write (R28, R173). -/
def overlapDue (old new : Image) (parts : List SettingPart) : Bool :=
  touchesRing parts || parts.any fun p => p.loc.placesExtent && isChanged old new p.loc

/-- The 32 bytes of each record write dropped by a restart and not yet answered (R28, R176). -/
def State.droppedExtents (s : State) : List Extent :=
  (s.msp.outstanding.filter fun g => g.request.owner.isDroppedRecord).map fun g => ⟨g.request.addr, 32⟩

/-- No two extents overlap in the resulting image, the ring counted when it is set or is being set; dropped record writes
are kept clear of the control page and the windows (R28, R173). -/
def State.extentsApart (s : State) (new : Image) (ringSet : Bool) : Bool :=
  let places := controlExtent s.anchor :: windowExtents new
  pairwiseApart (places ++ if ringSet then [ringExtent new] else []) &&
    s.droppedExtents.all fun e => places.all fun x => !e.overlaps x

/-- The consume index check on the resulting image, against the counts after the restart when the write also restarts the
ring (R24, R178). -/
def State.consumeAccepted (s : State) (new : Image) (restart : Bool) : Bool :=
  let v := consumeOf new.consume
  if restart then v == 0
  else decide ((v - s.relay.consumed).toNat ≤ (s.relay.produced - s.relay.consumed).toNat)

/-- Step 4 as a whole (R24). -/
def State.settingsValid (s : State) (new : Image) (parts : List SettingPart) : Bool :=
  parts.all (partInRange s.image new) &&
    (!overlapDue s.image new parts ||
      s.extentsApart new (touchesRing parts || s.relay.ringState != .unset)) &&
    (!touchesConsume parts || s.consumeAccepted new (touchesRing parts))

/-- The judgement of a setting write: the reason it is refused with, or none (R24). -/
def State.judgeSettings (s : State) (parts : List SettingPart) : Option RefusalReason :=
  let new := resultingImage s.image parts
  if parts.any fun p => s.isLocked new p.loc then some .locked
  else if s.settingsValid new parts then none
  else some .range

/-! ## Capture -/

/-- What the capture of a port's setting word does at its link and engine (R116, R123, R130). -/
def State.portCaptured (s : State) (p : PortId) (before after : Word) : State :=
  if !portOn before && portOn after then s.enablePort p
  else if portOn before && !portOn after then s.disablePort p
  else if portIdleMs before != portIdleMs after then s.modLink p fun l => { l with idle := .stopped }
  else s

/-- What the capture of one touched word does, the new image being in force (R25). -/
def State.partCaptured (old : Image) (s : State) (x : SettingPart) : State :=
  match x.loc with
  | .port p => s.portCaptured p (old.get x.loc) (s.image.get x.loc)
  | _ => s

/-- A write is captured: the image, the ring's restart, the consume index, the ports, and what follows at the ports (R24,
R25, R174, R178). -/
def State.capture (s : State) (parts : List SettingPart) : State :=
  let old := s.image
  let s := { s with image := resultingImage old parts }
  let s := if touchesRing parts then s.restartRing else s
  let s := if writesConsume parts then s.consumeTo (consumeOf s.image.consume) else s
  (parts.foldl (State.partCaptured old) s).settle

end Sys2Proof.Machine
end

