-- ==== Sys2Proof/Machine/Traffic.lean ====
section
/-! DEFINITION. The traffic path: where each word of a request lands (R4, R6), reads (R13, R14), writes and their refusals
(R7 to R12), passing requests and their answers (R5, R15), and the port's opening and its held requests (R1 to R3). -/

namespace Sys2Proof.Machine

/-! ## Places (R4, R6) -/

/-- Where a word lies, with what its owner needs to know of it. -/
inductive Place where
  | commandWord
  | statusBlock (i : Nat)
  | setting (loc : SettingLoc)
  | plain
  | fieldWord (t : Slot)
  | postWord (t : Slot)
  | meter (off : Nat)
  | spool (b : Fin 4096)
  | elsewhere
  deriving DecidableEq, Repr

/-- The word of the control page at an offset (R185). -/
def controlPlace (off : Nat) : Place :=
  if off = 0 then .commandWord
  else if 0x40 ≤ off ∧ off < 0x60 then .statusBlock ((off - 0x40) / 8)
  else
    match settingAt off with
    | some loc => .setting loc
    | none => .plain

/-- The word of the ticket window at an offset (R6, R39). -/
def ticketPlace (off : Nat) : Place :=
  let t : Slot := Fin.ofNat 256 (off / 32)
  if off % 32 / 8 = 3 then .postWord t else .fieldWord t

/-- An address lies in an extent. -/
def Extent.holds (e : Extent) (a : Nat) : Bool := decide (e.first ≤ a) && decide (a < e.first + e.length)

/-- Where a word lies under the window settings as they stand (R4). -/
def State.placeOf (s : State) (a : Nat) : Place :=
  let im := s.image
  if (controlExtent s.anchor).holds a then controlPlace (a - s.controlBase)
  else if windowOn im.ticketWindow && Extent.holds ⟨baseOf im.ticketWindow, 8192⟩ a then
    ticketPlace (a - baseOf im.ticketWindow)
  else if windowOn im.meterWindow && Extent.holds ⟨baseOf im.meterWindow, 4096⟩ a then
    .meter (a - baseOf im.meterWindow)
  else if windowOn im.spoolWindow && Extent.holds ⟨baseOf im.spoolWindow, spoolSize im.spoolWindow⟩ a then
    .spool (Fin.ofNat 4096 (blockOf im.spoolWindow a))
  else .elsewhere

/-- Some byte of a request lies in a place (R5). A request is made of whole words, and a word lies in one place. -/
def State.inAnyPlace (s : State) (addr size : Nat) : Bool :=
  (wordAddrs addr (size / 8)).any fun a => s.placeOf a != .elsewhere

/-! ## Responses -/

def State.dataError (s : State) (tag : Tag) (size : Nat) : State := s.emit (.data tag false (List.replicate size 0#8))

def State.ack (s : State) (tag : Tag) (status : AckStatus) : State := s.emit (.ack tag status)

/-! ## Passing requests (R5, R15) -/

def State.enqueue (s : State) (r : MemRequest) : State :=
  s.modMsp fun m => { m with waiting := m.waiting ++ [r] }

/-- A passing request, whole or as two halves, is placed at the tail of the passing queue (R5, R15). The half with the lower
addresses is placed first (DESIGN CHOICE, unsafe; log entry 13). -/
def State.pass (s : State) (tag : Tag) (isWrite : Bool) (addr size : Nat) (enables : List Bool) (data : List Byte) :
    State :=
  if crossesLine addr size then
    let n := firstHalf addr
    (s.enqueue ⟨.passing tag .first, isWrite, addr, n, enables.take n, data.take n⟩).enqueue
      ⟨.passing tag .second, isWrite, addr + n, size - n, enables.drop n, data.drop n⟩
  else s.enqueue ⟨.passing tag .whole, isWrite, addr, size, enables, data⟩

/-- The answers an outstanding record waits for (R5). -/
def partsFor (addr size : Nat) : Parts := if crossesLine addr size then .halves none none else .whole

/-! ## Reads (R13, R14) -/

/-- The value of a word whose reads the part answers; none for a PASS word (R6). -/
def State.substituted (s : State) (a : Nat) : Option (List Byte) :=
  match s.placeOf a with
  | .commandWord => some s.commandRecord
  | .statusBlock i => some (s.statusWord i)
  | .postWord t => some (s.ticket t).statusBytes
  | .meter off => some (s.meterWord off)
  | _ => none

/-- A read that reaches the classifier: answered, or forwarded with the substituted words taken now (R13, R14). -/
def State.classifyRead (s : State) (r : ReadRequest) : State :=
  let subst := (wordAddrs r.addr.toNat (r.size / 8)).map s.substituted
  if subst.all Option.isSome then s.emit (.data r.tag true (subst.flatMap fun x => x.getD []))
  else
    (s.setRecord r.tag (some ⟨false, r.addr, r.size, subst, partsFor r.addr.toNat r.size⟩)).pass r.tag false
      r.addr.toNat r.size [] []

/-- A host READ taken by the open port (R1, R2, R5). -/
def State.takeRead (s : State) (r : ReadRequest) : State :=
  if !wellShaped r.addr r.size || (s.record r.tag).isSome then s.dataError r.tag r.size
  else if crossesLine r.addr.toNat r.size && s.inAnyPlace r.addr.toNat r.size then s.dataError r.tag r.size
  else s.classifyRead r

/-! ## Writes (R7 to R12) -/

/-- A word whose writes are absorbed (R6). -/
def Place.isAbsorbed : Place → Bool
  | .commandWord | .postWord _ => true
  | _ => false

/-- A word whose writes are refused with SUBST (R6). -/
def Place.isReadOnly : Place → Bool
  | .statusBlock _ | .meter _ => true
  | _ => false

/-- A field word of a ticket that is not FREE (R11). -/
def State.fieldLocked (s : State) : Place → Bool
  | .fieldWord t => (s.ticket t).state != .free
  | _ => false

/-- A word of a guarded spool block (R12, R81). -/
def State.guarded (s : State) : Place → Bool
  | .spool b => s.guard b != 0
  | _ => false

/-- The setting words a write touches (R10). -/
def State.settingParts (s : State) (w : WriteRequest) : List SettingPart :=
  (touchedWords w).filterMap fun x =>
    match s.placeOf x.addr with
    | .setting loc => some ⟨loc, x.enables, x.data⟩
    | _ => none

/-- The first applicable reason a write is refused with, or none (R7, R10). -/
def State.judgeWrite (s : State) (w : WriteRequest) : Option RefusalReason :=
  let places := (touchedWords w).map fun x => s.placeOf x.addr
  if places.any Place.isAbsorbed && !isExactWord w then some .shape
  else if places.any Place.isReadOnly then some .subst
  else if places.any s.fieldLocked then some .ticket
  else if places.any s.guarded then some .guard
  else
    match s.settingParts w with
    | [] => none
    | parts => s.judgeSettings parts

/-- A refused write: the refusal count, the REFUSAL alert, ACK REFUSED (R8, R30, R172). -/
def State.refuse (s : State) (w : WriteRequest) (reason : RefusalReason) : State :=
  let s := s.modCtl fun c => { c with refusals := c.refusals + 1 }
  (s.raise .refusal 0 (.refusal w.addr reason s.ctl.refusals)).ack w.tag .refused

/-- Byte `k` of a write's data. -/
def byteOf (w : WriteRequest) (k : Nat) : Byte := w.data.getD k 0#8

/-- The second byte of an absorbed word is the complement of its first (R9). -/
def complementHolds (w : WriteRequest) : Bool := byteOf w 1 == ~~~(byteOf w 0)

/-- An exact word write to the command word (R9, R32, R33). -/
def State.absorbCommand (s : State) (w : WriteRequest) : State :=
  if complementHolds w then
    (s.takeCommand (byteOf w 0) (byteOf w 2) (leNat ((padTo 8 w.data).drop 4))).ack w.tag .ok
  else
    (s.modCtl fun c => { c with lastCode := byteOf w 0, lastResult := .complement }).refuse w .complement

/-- An exact word write to a slot's post word (R9, R44). -/
def State.absorbPost (s : State) (t : Slot) (w : WriteRequest) : State :=
  if complementHolds w then (s.takeJob t w.addr (byteOf w 0)).ack w.tag .ok else s.refuse w .complement

/-- A write forwarded to memory (R10, R15). -/
def State.forwardWrite (s : State) (w : WriteRequest) : State :=
  (s.setRecord w.tag (some ⟨true, w.addr, w.size, [], partsFor w.addr.toNat w.size⟩)).pass w.tag true w.addr.toNat
    w.size w.enables w.data

/-- A write that is not refused proceeds by its disposition (R7). One that touches an absorbed word is an exact word write
and touches no other. -/
def State.proceed (s : State) (w : WriteRequest) : State :=
  match (touchedWords w).map fun x => s.placeOf x.addr with
  | [.commandWord] => s.absorbCommand w
  | [.postWord t] => s.absorbPost t w
  | _ =>
    match s.settingParts w with
    | [] => s.forwardWrite w
    | parts => (s.capture parts).forwardWrite w

/-- A write within one line that reaches the classifier (R6, R7). -/
def State.classifyWrite (s : State) (w : WriteRequest) : State :=
  match s.judgeWrite w with
  | some reason => s.refuse w reason
  | none => s.proceed w

/-- A host WRITE taken by the open port (R1, R2, R5, R6; log entry 20). -/
def State.takeWrite (s : State) (w : WriteRequest) : State :=
  if !wellShaped w.addr w.size || (s.record w.tag).isSome then s.ack w.tag .error
  else if crossesLine w.addr.toNat w.size then
    if s.inAnyPlace w.addr.toNat w.size then s.ack w.tag .error
    else if anyEnabled w then s.forwardWrite w
    else s.ack w.tag .ok
  else if anyEnabled w then s.classifyWrite w
  else s.ack w.tag .ok

/-! ## The processor-side port (R3) -/

def State.takeRequest (s : State) : HostRequest → State
  | .read r => s.takeRead r
  | .write w => s.takeWrite w

/-- The held requests of the host, at the port's input. -/
def State.setHeld (s : State) (rs : List HostRequest) : State := { s with psp := { s.psp with held := rs } }

/-- A host request arrives: taken, or held at the port's input while the port is closed or an earlier one is held there
(R3; log entry 8). -/
def State.hostRequest (s : State) (r : HostRequest) : State :=
  if s.psp.accepting && s.psp.held.isEmpty then s.takeRequest r else s.setHeld (s.psp.held ++ [r])

/-- The port begins accepting requests (R3, R22). -/
def State.openPort (s : State) : State := { s with psp := { s.psp with accepting := true } }

/-- The request an open port takes from its input next (R3; log entry 8). -/
def State.nextHeld (s : State) : Option HostRequest := if s.psp.accepting then s.psp.held.head? else none

/-- A held request is taken, and the others stay held behind it (R3; log entry 8). -/
def State.takeHeld (s : State) (r : HostRequest) : State := ((s.setHeld []).takeRequest r).setHeld s.psp.held.tail

/-! ## Answers to passing requests (R5, R14, R15) -/

/-- A forwarded read's data with the substituted words in their places; after ERROR the PASS words of a straddling read
are zero (R14, R15). -/
def mergeRead (straddles ok : Bool) : List (Option (List Byte)) → List Byte → List Byte
  | [], _ => []
  | some v :: ws, data => v ++ mergeRead straddles ok ws (data.drop 8)
  | none :: ws, data =>
    (if straddles && !ok then zeroWord else padTo 8 data) ++ mergeRead straddles ok ws (data.drop 8)

/-- The response that closes an outstanding record (R15). -/
def PspRecord.response (r : PspRecord) (tag : Tag) (ok : Bool) (data : List Byte) : Output :=
  if r.isWrite then .ack tag (if ok then .ok else .error)
  else .data tag ok (mergeRead (r.subst.any Option.isSome) ok r.subst data)

/-- The answer kept with its half of the record (R5). -/
def Parts.keep (parts : Parts) (half : Half) (a : KeptAnswer) : Parts :=
  match parts, half with
  | .halves _ second, .first => .halves (some a) second
  | .halves first _, .second => .halves first (some a)
  | p, _ => p

/-- The whole answer, once every part of it has come (R5). -/
def Parts.complete (parts : Parts) (a : KeptAnswer) : Option KeptAnswer :=
  match parts with
  | .whole => some a
  | .halves (some x) (some y) => some ⟨x.ok && y.ok, x.data ++ y.data⟩
  | .halves _ _ => none

/-- Memory answers a passing request (R5, R14, R15). -/
def State.passingAnswered (s : State) (tag : Tag) (half : Half) (a : KeptAnswer) : State :=
  match s.record tag with
  | none => s
  | some r =>
    let parts := r.parts.keep half a
    match parts.complete a with
    | some whole => (s.setRecord tag none).emit (r.response tag whole.ok whole.data)
    | none => s.setRecord tag (some { r with parts := parts })

end Sys2Proof.Machine
end

