-- ==== Sys2Proof/Machine/Arbiter.lean ====
section
/-! DEFINITION. The memory arbiter (R16 to R18), the start-up sweep (R22, R23), and the return of memory's answers to their
requesters (R18, R47, R95, R176). -/

namespace Sys2Proof.Machine

/-! ## The start-up sweep (R22, R185) -/

/-- The offsets of the 28 lines that hold setting areas, in ascending order (R185). -/
def sweepLines : List Nat :=
  [0x100, 0x140, 0x180, 0x1C0] ++ (List.range 16).map (fun i => 0x200 + 64 * i) ++
    (List.range 8).map (fun i => 0x600 + 64 * i)

/-- The eight byte enables of a word of a sweep line: set on setting words (R22). -/
def sweepEnables (off : Nat) : List Bool := List.replicate 8 (settingAt off).isSome

/-- The eight data bytes of a word of a sweep line: the default image's, and zero where no byte is enabled (R21; log
entry 22). -/
def sweepData (off : Nat) : List Byte :=
  match settingAt off with
  | some loc => wordBytes (defaultImage.get loc)
  | none => zeroWord

/-- The sweep write of the line at an offset (R22). -/
def State.sweepRequest (s : State) (off : Nat) : MemRequest where
  owner := .sweep
  isWrite := true
  addr := s.controlBase + off
  size := 64
  enables := (wordAddrs off 8).flatMap sweepEnables
  data := (wordAddrs off 8).flatMap sweepData

/-- The sweep writer presents its next line, if one is left (R22). -/
def State.presentSweep (s : State) : State :=
  match sweepLines[s.sweep.presented]? with
  | none => s
  | some off =>
    ({ s with sweep := { s.sweep with presented := s.sweep.presented + 1 } }).enqueue (s.sweepRequest off)

/-- Memory answers a sweep write; the last answer opens the processor-side port (R22, R23). -/
def State.sweepAnswered (s : State) (ok : Bool) : State :=
  let s := { s with sweep := { s.sweep with answered := s.sweep.answered + 1, fault := s.sweep.fault || !ok } }
  if s.sweep.answered = sweepLines.length then s.openPort else s

/-! ## The choice of a grant (R16, R17) -/

def Owner.isPassing : Owner → Bool
  | .passing _ _ => true
  | _ => false

def Owner.isSweep : Owner → Bool
  | .sweep => true
  | _ => false

def Owner.isRecord : Owner → Bool
  | .record _ => true
  | _ => false

def Owner.isLineFetch : Owner → Bool
  | .lineFetch _ _ _ _ => true
  | _ => false

def MemRequest.line (r : MemRequest) : Nat := r.addr / 64

/-- The waiting requests not held back: those with no earlier waiting request to their line (R16). -/
def unblocked : List Nat → List MemRequest → List MemRequest
  | _, [] => []
  | seen, r :: rs =>
    if seen.contains r.line then unblocked seen rs else r :: unblocked (r.line :: seen) rs

/-- The own requests that count as waiting (R17). -/
def Msp.ownWaiting (m : Msp) : List MemRequest := (unblocked [] m.waiting).filter fun r => !r.owner.isPassing

/-- The head of the passing queue (R15). -/
def Msp.passingHead (m : Msp) : Option MemRequest := m.waiting.find? fun r => r.owner.isPassing

/-- The sixteen ports upward from the one after a port, wrapping (R17). -/
def portsAfter (p : PortId) : List PortId := (List.range 16).map fun i => Fin.ofNat 16 (p.val + 1 + i)

/-- The own request an own grant goes to: alert writer, ticket fetcher, sweep writer, then the engines in rotation
(R17). -/
def ownChoice (last : PortId) (own : List MemRequest) : Option MemRequest :=
  (own.find? fun r => r.owner.isLiveRecord).or <|
    (own.find? fun r => r.owner.isTicketFetch).or <|
      (own.find? fun r => r.owner.isSweep).or <|
        (portsAfter last).findSome? fun p => own.find? fun r => r.isFetchOf p

/-- The request granted for the head of the passing queue: the earliest waiting request to its line (R16). -/
def Msp.forHead (m : Msp) (head : MemRequest) : MemRequest :=
  (m.waiting.find? fun r => r.line == head.line).getD head

/-- The head of the passing queue is held back: an own request to its line became ready earlier (R16). -/
def Msp.isHeld (m : Msp) (head : MemRequest) : Bool := !(m.forHead head).owner.isPassing

/-- The request the arbiter grants next (R17). When the head is held back the earliest request to its line is granted next,
whatever the run count (R16). -/
def Msp.choice (m : Msp) : Option MemRequest :=
  if Config.memoryTags ≤ m.outstanding.length then none
  else
    match m.passingHead with
    | none => ownChoice m.lastEngine m.ownWaiting
    | some head =>
      if m.isHeld head || m.ownWaiting.isEmpty || decide (m.runCount < 4) then some (m.forHead head)
      else ownChoice m.lastEngine m.ownWaiting

/-- The passing run count after a grant (R18). -/
def Msp.runCountAfter (m : Msp) (r : MemRequest) : Nat :=
  if r.owner.isPassing then if m.ownWaiting.isEmpty then 0 else m.runCount + 1 else 0

/-- The last engine granted after a grant (R18). -/
def Msp.lastEngineAfter (m : Msp) (r : MemRequest) : PortId :=
  match r.owner with
  | .lineFetch p _ _ _ => p
  | _ => m.lastEngine

/-- The arbiter's and the port's state after a grant (R17, R18). -/
def Msp.granted (m : Msp) (r : MemRequest) : Msp where
  waiting := m.waiting.erase r
  outstanding := m.outstanding ++ [⟨m.nextGrant, r⟩]
  nextGrant := m.nextGrant + 1
  runCount := m.runCountAfter r
  lastEngine := m.lastEngineAfter r

/-- What a grant lets its requester present next (R22, R46, R93). -/
def State.afterGrant (s : State) : Owner → State
  | .ticketFetch _ => s.ticketFetchGranted
  | .lineFetch p _ _ _ => s.settlePort p
  | .sweep => s.presentSweep
  | .passing _ _ | .record _ => s

/-- One grant: the request leaves for memory (R17). -/
def State.grantNext (s : State) : State :=
  match s.msp.choice with
  | none => s
  | some r =>
    (((s.modMsp fun m => m.granted r).emit (.memory s.msp.nextGrant r))).afterGrant r.owner

/-! ## Answers (R18) -/

/-- An acceptance is a dispatch event at the ticket's port (R61, R65); a rejection is none. -/
def State.dispatchAccepted (s : State) (t : Slot) : State :=
  match (s.ticket t).state, (s.ticket t).mirror with
  | .queued, some m => s.dispatch m.port
  | _, _ => s

/-- The slot at the head of the in-flight list is judged and leaves it (R47). -/
def State.judgeHead (s : State) (t : Slot) (a : KeptAnswer) (rest : List InFlight) : State :=
  { s.judgeTicket t a with fetcher := { s.fetcher with inFlight := rest } }

/-- The heads of the in-flight list whose answers have arrived are judged in POST order and leave the list (R47). Dispatch
acts at an accepted ticket's port before the next head is judged (R61); the last one's activation is a step of its own, as
at any other event (log entries 1 and 32). -/
def State.judgeHeads (s : State) : List InFlight → State
  | [] => s
  | x :: xs =>
    match x.answer with
    | none => s
    | some a =>
      let judged := s.judgeHead x.slot a xs
      let goesOn := xs.head?.any fun y => y.answer.isSome
      (if goesOn then judged.dispatchAccepted x.slot else judged).judgeHeads xs

/-- A posting fetch answered: kept with its slot, and the heads whose answers have come are judged (R47). -/
def State.ticketFetchAnswered (s : State) (t : Slot) (a : KeptAnswer) : State :=
  let answers := keepAnswer t a s.fetcher.inFlight
  ({ s with fetcher := { s.fetcher with inFlight := answers } }.judgeHeads answers).settle

/-- An answer returned to the requester that owns it (R18). -/
def State.answered (s : State) (owner : Owner) (a : KeptAnswer) : State :=
  match owner with
  | .passing tag half => s.passingAnswered tag half a
  | .record dropped => if dropped then s else s.recordAnswered a.ok
  | .ticketFetch t => s.ticketFetchAnswered t a
  | .lineFetch p mark copy offset => s.lineAnswered p mark copy offset a.ok a.data
  | .sweep => s.sweepAnswered a.ok

/-- The bytes of an answer: those of a read, cut or filled to its size (log entry 19). -/
def MemRequest.answerData (r : MemRequest) (data : List Byte) : List Byte :=
  if r.isWrite then [] else padTo r.size data

/-- Memory answers the granted request of a name, one of the kind a row speaks of: the tag is freed and the answer goes to
its requester; an answer to no such request is discarded (R3, R17, R18; log entries 4 and 5). -/
def State.memoryAnswers (s : State) (kind : Owner → Bool) (grant : Nat) (ok : Bool) (data : List Byte) : State :=
  match s.msp.outstanding.find? fun g => g.id == grant && kind g.request.owner with
  | none => s
  | some g =>
    (s.modMsp fun m => { m with outstanding := m.outstanding.filter fun x => x.id != grant }).answered
      g.request.owner ⟨ok, g.request.answerData data⟩

end Sys2Proof.Machine
end

