-- ==== Sys2Proof/Machine/Events.lean ====
section
/-! DEFINITION. Events from outside the request channels: reset (R3, R19, R20), the time base and the timers' expiries (R31,
R112, R115), and dispatch's wake cause (R69). -/

namespace Sys2Proof.Machine

/-! ## Reset -/

/-- Assertion of RESET_N: every block at its reset value. What the part does not hold stays: the commands waiting, the
host's requests held by the memory channel, and the model's own counters (R3, R20; log entries 4, 8 and 11). -/
def State.assertReset (s : State) : State :=
  { State.reset with
    pending := s.pending
    psp := { State.reset.psp with held := s.psp.held }
    msp := { State.reset.msp with nextGrant := s.msp.nextGrant }
    draws := s.draws }

/-- Release of RESET_N: the anchor is sampled, the time base runs, the sweep begins; no effect while RESET_N is released
(R19, R20, R22). -/
def State.releaseReset (s : State) (anchor : BitVec 8) : State :=
  if s.resetAsserted then ({ s with resetAsserted := false, anchor := anchor }).presentSweep else s

/-! ## Time (R31) -/

/-- A whole millisecond has passed: the count rises and the microseconds start over, unless RESET_N holds the time
base. -/
def State.tick (s : State) : State :=
  if s.resetAsserted then s else { s with milliseconds := s.milliseconds + 1, microseconds := 0 }

/-- One microsecond passes, unless RESET_N holds the time base. The last microsecond of a
millisecond passes with the count's rise (DESIGN CHOICE, safe; log entries 2 and 10). -/
def State.idle (s : State) : State :=
  if s.resetAsserted then s else { s with microseconds := min (s.microseconds + 1) 999 }

/-- What comes about with no command waiting: an open port takes the first request held at its input, each in a step of its
own, and with none to take a microsecond passes (DESIGN CHOICE, safe; log entries 2 and 8). -/
def State.unprompted (s : State) : State :=
  match s.nextHeld with
  | some r => s.takeHeld r
  | none => s.idle

/-- The training timer's expiry, once due (R117, R118). -/
def State.trainingTimer (s : State) (p : PortId) : State :=
  if s.due (s.port p).link.training then s.trainingExpires p else s

/-- The silence timer's expiry, once due: a link loss (R121, R122). -/
def State.silenceTimer (s : State) (p : PortId) : State :=
  if s.due (s.port p).link.silence then s.linkLoss p else s

/-- The idle timer's expiry, once due (R124). -/
def State.idleTimer (s : State) (p : PortId) : State :=
  if s.due (s.port p).link.idle then s.idleExpires p else s

/-- The warm timer's expiry, once due (R127). -/
def State.warmTimer (s : State) (p : PortId) : State :=
  if s.warmDue (s.port p).link.warm then s.warmExpires p else s

/-- The running pacing window may end now (R112). -/
def State.paceDue (s : State) (p : PortId) : Bool := (s.port p).engine.pacer.any s.windowDue

/-- The pacing window's end, once due (R112). -/
def State.endWindow (s : State) (p : PortId) : State :=
  if s.paceDue p then (s.modEngine p fun e => { e with pacer := none }).settlePort p else s

/-! ## The wake cause (R69) -/

/-- Dispatch presents a wake cause to a DROWSY link, when its conditions hold (R69, R126). -/
def State.wakeCause (s : State) (p : PortId) : State :=
  if (s.port p).link.state = .drowsy ∧ s.wakeWanted p = true then s.wake p else s

end Sys2Proof.Machine
end

