-- ==== Sys2Proof/Machine/ControlRows.lean ====
section
/-! DEFINITION. Meanings of the control commands: exact word writes to the command word (R9, R32, R33, R186). -/

namespace Sys2Proof.Machine

/-- A write of the command word with a row's code (R186). -/
def State.commandWrite (s : State) (code : Byte) (c : CommandWrite) : State :=
  s.hostRequest (.write (s.commandRequest code c))

/-- START (R36). -/
def execStart (c : CommandWrite) (s : State) : Host.Outcome State Fault Refusal :=
  .next (s.clearOut.commandWrite 0x01#8 c)

/-- STOP (R37). -/
def execStop (c : CommandWrite) (s : State) : Host.Outcome State Fault Refusal :=
  .next (s.clearOut.commandWrite 0x02#8 c)

/-- PORT_HOLD (R70, R71). -/
def execPortHold (c : CommandWrite) (s : State) : Host.Outcome State Fault Refusal :=
  .next (s.clearOut.commandWrite 0x10#8 c)

/-- PORT_RELEASE (R73). -/
def execPortRelease (c : CommandWrite) (s : State) : Host.Outcome State Fault Refusal :=
  .next (s.clearOut.commandWrite 0x11#8 c)

/-- PORT_FLUSH (R74). -/
def execPortFlush (c : CommandWrite) (s : State) : Host.Outcome State Fault Refusal :=
  .next (s.clearOut.commandWrite 0x12#8 c)

/-- PORT_WAKE (R128). -/
def execPortWake (c : CommandWrite) (s : State) : Host.Outcome State Fault Refusal :=
  .next (s.clearOut.commandWrite 0x13#8 c)

/-- PORT_RESET (R129). -/
def execPortReset (c : CommandWrite) (s : State) : Host.Outcome State Fault Refusal :=
  .next (s.clearOut.commandWrite 0x14#8 c)

/-- PORT_RESUME (R148). -/
def execPortResume (c : CommandWrite) (s : State) : Host.Outcome State Fault Refusal :=
  .next (s.clearOut.commandWrite 0x15#8 c)

/-- QUOTA_SET (R161). -/
def execQuotaSet (c : CommandWrite) (s : State) : Host.Outcome State Fault Refusal :=
  .next (s.clearOut.commandWrite 0x20#8 c)

/-- QUOTA_ADD (R162). -/
def execQuotaAdd (c : CommandWrite) (s : State) : Host.Outcome State Fault Refusal :=
  .next (s.clearOut.commandWrite 0x21#8 c)

/-- METER_CLEAR (R163). -/
def execMeterClear (c : CommandWrite) (s : State) : Host.Outcome State Fault Refusal :=
  .next (s.clearOut.commandWrite 0x22#8 c)

/-- ALERT_TAKE (R180). -/
def execAlertTake (c : CommandWrite) (s : State) : Host.Outcome State Fault Refusal :=
  .next (s.clearOut.commandWrite 0x30#8 c)

/-- ALERT_DONE (R181). -/
def execAlertDone (c : CommandWrite) (s : State) : Host.Outcome State Fault Refusal :=
  .next (s.clearOut.commandWrite 0x31#8 c)

end Sys2Proof.Machine
end

