-- ==== Sys2Proof/Machine/HostRows.lean ====
section
/-! DEFINITION. Meanings of the host's reads and writes, and of the writes that have a row of their own (log entry 3). -/

namespace Sys2Proof.Machine

/-- READ (R13). -/
def execRead (r : ReadRequest) (s : State) : Host.Outcome State Fault Refusal :=
  .next (s.clearOut.hostRequest (.read r))

/-- WRITE (R7). -/
def execWrite (w : WriteRequest) (s : State) : Host.Outcome State Fault Refusal :=
  .next (s.clearOut.hostRequest (.write w))

/-- A write of the control page, at its anchored address (R185). -/
def State.settingWrite (s : State) (w : SettingWrite) : State := s.hostRequest (.write (s.settingRequest w))

/-- WINDOW_SETTING_WRITE (R27). -/
def execWindowSettingWrite (w : SettingWrite) (s : State) : Host.Outcome State Fault Refusal :=
  .next (s.clearOut.settingWrite w)

/-- RING_RESTART (R174). -/
def execRingRestart (w : SettingWrite) (s : State) : Host.Outcome State Fault Refusal :=
  .next (s.clearOut.settingWrite w)

/-- CONSUME_INDEX_WRITE (R178). -/
def execConsumeIndexWrite (w : SettingWrite) (s : State) : Host.Outcome State Fault Refusal :=
  .next (s.clearOut.settingWrite w)

/-- PORT_ENABLE (R116). -/
def execPortEnable (w : SettingWrite) (s : State) : Host.Outcome State Fault Refusal :=
  .next (s.clearOut.settingWrite w)

/-- PORT_DISABLE (R130). -/
def execPortDisable (w : SettingWrite) (s : State) : Host.Outcome State Fault Refusal :=
  .next (s.clearOut.settingWrite w)

/-- PORT_SETTING_WRITE (R131). -/
def execPortSettingWrite (w : SettingWrite) (s : State) : Host.Outcome State Fault Refusal :=
  .next (s.clearOut.settingWrite w)

/-- ACCOUNT_SETTING_WRITE (R164). -/
def execAccountSettingWrite (w : SettingWrite) (s : State) : Host.Outcome State Fault Refusal :=
  .next (s.clearOut.settingWrite w)

end Sys2Proof.Machine
end

