-- ==== Sys2Proof/Machine/JobRows.lean ====
section
/-! DEFINITION. Meanings of the job commands: exact word writes to a slot's post word (R9, R44, R190). -/

namespace Sys2Proof.Machine

/-- A write of a slot's post word with a row's job code (R190). -/
def State.postWrite (s : State) (code : Byte) (w : PostWrite) : State :=
  s.hostRequest (.write (s.postRequest code w))

/-- POST (R45). -/
def execPost (w : PostWrite) (s : State) : Host.Outcome State Fault Refusal :=
  .next (s.clearOut.postWrite 0x41#8 w)

/-- CANCEL (R52, R53). -/
def execCancel (w : PostWrite) (s : State) : Host.Outcome State Fault Refusal :=
  .next (s.clearOut.postWrite 0x42#8 w)

/-- RELEASE (R55). -/
def execRelease (w : PostWrite) (s : State) : Host.Outcome State Fault Refusal :=
  .next (s.clearOut.postWrite 0x43#8 w)

end Sys2Proof.Machine
end

