-- ==== Sys2Proof/Machine/MemoryRows.lean ====
section
/-! DEFINITION. Meanings of the memory side's rows: grants, answers, and the ring writer's pick. -/

namespace Sys2Proof.Machine

/-- MEMORY_GRANT (R16, R17). -/
def execMemoryGrant (s : State) : Host.Outcome State Fault Refusal := .next s.clearOut.grantNext

/-- RECORD_WRITE_PICK (R175). -/
def execRecordWritePick (s : State) : Host.Outcome State Fault Refusal := .next s.clearOut.pickRecord

/-- PASSING_RESPONSE (R15). -/
def execPassingResponse (a : MemoryAnswer) (s : State) : Host.Outcome State Fault Refusal :=
  .next (s.clearOut.memoryAnswers Owner.isPassing a.grant a.ok a.data)

/-- TICKET_FETCH_ANSWER (R47). -/
def execTicketFetchAnswer (a : MemoryAnswer) (s : State) : Host.Outcome State Fault Refusal :=
  .next (s.clearOut.memoryAnswers Owner.isTicketFetch a.grant a.ok a.data)

/-- LINE_FETCH_ANSWER (R95). -/
def execLineFetchAnswer (a : MemoryAnswer) (s : State) : Host.Outcome State Fault Refusal :=
  .next (s.clearOut.memoryAnswers Owner.isLineFetch a.grant a.ok a.data)

/-- ALERT_WRITE_ANSWER (R176, R177). -/
def execAlertWriteAnswer (grant : Nat) (ok : Bool) (s : State) : Host.Outcome State Fault Refusal :=
  .next (s.clearOut.memoryAnswers Owner.isRecord grant ok [])

end Sys2Proof.Machine
end

