-- ==== Sys2Proof/Machine/PortRows.lean ====
section
/-! DEFINITION. Meanings of the rows of one port: dispatch, the engine's frames, inbound frames, timers. -/

namespace Sys2Proof.Machine

/-- ACTIVATION (R65, R66, R91). -/
def execActivation (p : PortId) (s : State) : Host.Outcome State Fault Refusal :=
  .next (s.clearOut.dispatch p)

/-- WAKE_CAUSE (R69, R126). -/
def execWakeCause (p : PortId) (s : State) : Host.Outcome State Fault Refusal :=
  .next (s.clearOut.wakeCause p)

/-- DATA_FRAME (R97). -/
def execDataFrame (p : PortId) (s : State) : Host.Outcome State Fault Refusal :=
  .next (s.clearOut.sendFrame p)

/-- PACING_WINDOW_END (R112). -/
def execPacingWindowEnd (p : PortId) (s : State) : Host.Outcome State Fault Refusal :=
  .next (s.clearOut.endWindow p)

/-- TRAINING_TIMER_EXPIRY (R117, R118). -/
def execTrainingTimerExpiry (p : PortId) (s : State) : Host.Outcome State Fault Refusal :=
  .next (s.clearOut.trainingTimer p)

/-- SILENCE_TIMER_EXPIRY (R121, R122). -/
def execSilenceTimerExpiry (p : PortId) (s : State) : Host.Outcome State Fault Refusal :=
  .next (s.clearOut.silenceTimer p)

/-- IDLE_TIMER_EXPIRY (R124). -/
def execIdleTimerExpiry (p : PortId) (s : State) : Host.Outcome State Fault Refusal :=
  .next (s.clearOut.idleTimer p)

/-- WARM_TIMER_EXPIRY (R127). -/
def execWarmTimerExpiry (p : PortId) (s : State) : Host.Outcome State Fault Refusal :=
  .next (s.clearOut.warmTimer p)

/-- TRAIN_ACK (R117, R118). -/
def execTrainAck (p : PortId) (credits : Byte) (s : State) : Host.Outcome State Fault Refusal :=
  .next (s.clearOut.receive p (trainAckBytes credits))

/-- CREDIT (R119). -/
def execCredit (p : PortId) (grant : Byte) (s : State) : Host.Outcome State Fault Refusal :=
  .next (s.clearOut.receive p (creditBytes grant))

/-- STATUS (R120). -/
def execStatus (p : PortId) (bits : BitVec 16) (count : Byte) (s : State) : Host.Outcome State Fault Refusal :=
  .next (s.clearOut.receive p (statusBytes bits count))

/-- BAD_FRAME (R114). -/
def execBadFrame (p : PortId) (bytes : List Byte) (s : State) : Host.Outcome State Fault Refusal :=
  .next (s.clearOut.receive p bytes)

end Sys2Proof.Machine
end

