-- ==== Sys2Proof/Machine/ResetRows.lean ====
section
/-! DEFINITION. Meanings of the reset, sweep and time rows. -/

namespace Sys2Proof.Machine

/-- RESET_N_ASSERTION (R3, R20). -/
def execResetNAssertion (s : State) : Host.Outcome State Fault Refusal := .next s.clearOut.assertReset

/-- RESET_N_RELEASE (R19, R20, R22). -/
def execResetNRelease (anchor : Byte) (s : State) : Host.Outcome State Fault Refusal :=
  .next (s.clearOut.releaseReset anchor)

/-- SWEEP_WRITE_ANSWER (R22, R23). -/
def execSweepWriteAnswer (grant : Nat) (ok : Bool) (s : State) : Host.Outcome State Fault Refusal :=
  .next (s.clearOut.memoryAnswers Owner.isSweep grant ok [])

/-- MILLISECOND_COUNT_TICK (R31). -/
def execMillisecondCountTick (s : State) : Host.Outcome State Fault Refusal := .next s.clearOut.tick

end Sys2Proof.Machine
end

