-- ==== Sys2Proof/Machine/Dispatch.lean ====
section
/-! DEFINITION. The meaning of each command, one arm per constructor. -/

namespace Sys2Proof.Machine

def exec (i : Instr) (s : State) : Host.Outcome State Fault Refusal :=
  match i with
  | .resetNAssertion => Sys2Proof.Machine.execResetNAssertion s
  | .resetNRelease anchor => Sys2Proof.Machine.execResetNRelease anchor s
  | .sweepWriteAnswer grant ok => Sys2Proof.Machine.execSweepWriteAnswer grant ok s
  | .read r => Sys2Proof.Machine.execRead r s
  | .write w => Sys2Proof.Machine.execWrite w s
  | .windowSettingWrite w => Sys2Proof.Machine.execWindowSettingWrite w s
  | .ringRestart w => Sys2Proof.Machine.execRingRestart w s
  | .consumeIndexWrite w => Sys2Proof.Machine.execConsumeIndexWrite w s
  | .portEnable w => Sys2Proof.Machine.execPortEnable w s
  | .portDisable w => Sys2Proof.Machine.execPortDisable w s
  | .portSettingWrite w => Sys2Proof.Machine.execPortSettingWrite w s
  | .accountSettingWrite w => Sys2Proof.Machine.execAccountSettingWrite w s
  | .start c => Sys2Proof.Machine.execStart c s
  | .stop c => Sys2Proof.Machine.execStop c s
  | .portHold c => Sys2Proof.Machine.execPortHold c s
  | .portRelease c => Sys2Proof.Machine.execPortRelease c s
  | .portFlush c => Sys2Proof.Machine.execPortFlush c s
  | .portWake c => Sys2Proof.Machine.execPortWake c s
  | .portReset c => Sys2Proof.Machine.execPortReset c s
  | .portResume c => Sys2Proof.Machine.execPortResume c s
  | .quotaSet c => Sys2Proof.Machine.execQuotaSet c s
  | .quotaAdd c => Sys2Proof.Machine.execQuotaAdd c s
  | .meterClear c => Sys2Proof.Machine.execMeterClear c s
  | .alertTake c => Sys2Proof.Machine.execAlertTake c s
  | .alertDone c => Sys2Proof.Machine.execAlertDone c s
  | .post w => Sys2Proof.Machine.execPost w s
  | .cancel w => Sys2Proof.Machine.execCancel w s
  | .release w => Sys2Proof.Machine.execRelease w s
  | .memoryGrant => Sys2Proof.Machine.execMemoryGrant s
  | .passingResponse a => Sys2Proof.Machine.execPassingResponse a s
  | .ticketFetchAnswer a => Sys2Proof.Machine.execTicketFetchAnswer a s
  | .lineFetchAnswer a => Sys2Proof.Machine.execLineFetchAnswer a s
  | .activation p => Sys2Proof.Machine.execActivation p s
  | .wakeCause p => Sys2Proof.Machine.execWakeCause p s
  | .dataFrame p => Sys2Proof.Machine.execDataFrame p s
  | .pacingWindowEnd p => Sys2Proof.Machine.execPacingWindowEnd p s
  | .trainAck p credits => Sys2Proof.Machine.execTrainAck p credits s
  | .credit p grant => Sys2Proof.Machine.execCredit p grant s
  | .status p bits count => Sys2Proof.Machine.execStatus p bits count s
  | .badFrame p bytes => Sys2Proof.Machine.execBadFrame p bytes s
  | .trainingTimerExpiry p => Sys2Proof.Machine.execTrainingTimerExpiry p s
  | .silenceTimerExpiry p => Sys2Proof.Machine.execSilenceTimerExpiry p s
  | .idleTimerExpiry p => Sys2Proof.Machine.execIdleTimerExpiry p s
  | .warmTimerExpiry p => Sys2Proof.Machine.execWarmTimerExpiry p s
  | .recordWritePick => Sys2Proof.Machine.execRecordWritePick s
  | .alertWriteAnswer grant ok => Sys2Proof.Machine.execAlertWriteAnswer grant ok s
  | .millisecondCountTick => Sys2Proof.Machine.execMillisecondCountTick s

end Sys2Proof.Machine
end

