-- ==== Sys2Proof/Machine/Step.lean ====
section
/-! DEFINITION. One step: the command at the front of the queue is taken; on an empty queue an open
port takes a held request, or one microsecond passes (log entries 1, 2, 8 and 10). -/

namespace Sys2Proof.Machine

def State.withPending (s : State) (q : List Instr) : State := { s with pending := q }

def step (s : State) : Host.Outcome State Fault Refusal :=
  match s.pending with
  | [] => .next s.clearOut.unprompted
  | c :: rest => exec c (s.withPending rest)

/-- The state with the command a word spells put at the front of its queue. No row of the table gives bits, so no word
spells a command and the state is as it was. -/
def State.withFetchWord (s : State) (nbits w : Nat) : State :=
  match decodeTableWord nbits w with
  | some c => s.withPending (c :: s.pending)
  | none => s

end Sys2Proof.Machine
end

