-- ==== Sys2Proof/Safety.lean ====
section
/-! DEFINITION. What statements about every step are made of: the part of a state that the settling of the ports leaves
alone, and the invariants the spec states in words. -/

namespace Sys2Proof.Machine

/-! ## What settling leaves alone

After an event the engines' states are judged again, engines present line fetches, and idle timers start or stop (R71,
R93, R97, R123). `still` is a state with these set aside: engine states other than JAM_STOP, which no judgement enters or
leaves (R145), fetch cursors, idle timers, fetch counts, the line fetches waiting at the arbiter. -/

def Port.still (x : Port) : Port :=
  { x with
    engine := { x.engine with
      state := if x.engine.state = .jamStop then .jamStop else .idle
      job := x.engine.job.map fun j => { j with cursor := none } }
    link := { x.link with idle := .stopped } }

def Ticket.still (t : Ticket) : Ticket := { t with fetchCount := 0 }

def Msp.still (m : Msp) : Msp := { m with waiting := m.waiting.filter fun r => !r.owner.isLineFetch }

def State.still (s : State) : State :=
  { s with ports := s.ports.map Port.still, tickets := s.tickets.map Ticket.still, msp := s.msp.still }

/-! ## What settling does

`v` is the state with an event's own effect, `u` the state it leaves behind. -/

/-- The line fetches of a port that wait at the arbiter, in order. -/
def State.waitingFetches (s : State) (p : PortId) : List MemRequest := s.msp.waiting.filter (·.isFetchOf p)

/-- The engine presents its next line when none of its fetches waits, unless it is HELD, its buffer and current fetches make
up 32 lines, or it has 8 fetches outstanding (R93). -/
def mayPresent (v u : State) (p : PortId) (j : Job) : Prop :=
  (u.port p).engine.state ≠ .held ∧ v.waitingFetches p = [] ∧
    j.buffer.length + (v.msp.outstanding.countP fun g => g.request.isCurrentFetchOf p) < 32 ∧
    (v.msp.outstanding.countP fun g => g.request.isFetchOf p) < 8

/-- What the engines at the ports `acts` present, and nothing else: an engine that may present its next line presents a
64-byte read at a line-aligned address, the ticket's fetch count rises by one, and the cursor moves on to the next line, the
next copy, or the end (R92, R93). -/
def presented (acts : PortId → Prop) (v u : State) : Prop :=
  (v.msp.waiting <+: u.msp.waiting ∧ ∀ t, (∀ p, acts p → v.inHand p ≠ some t) →
    (u.ticket t).fetchCount = (v.ticket t).fetchCount) ∧
  ∀ p,
    ((v.port p).engine.job = none → u.waitingFetches p = v.waitingFetches p) ∧
    ∀ j, (v.port p).engine.job = some j →
      let alone := ∀ q, acts q → q ≠ p → v.inHand q ≠ some j.slot
      (∀ c, j.cursor = some c → acts p → mayPresent v u p j →
        let line := (j.dataBase + c.offset) / 64
        let next := (line + 1) * 64 - j.dataBase
        u.waitingFetches p = [⟨.lineFetch p .current c.copy c.offset, false, line * 64, 64, [], []⟩] ∧
        (u.port p).engine.job = some { j with
          cursor :=
            if next < j.length then some ⟨c.copy, next⟩
            else if c.copy < j.copies then some ⟨c.copy + 1, 0⟩
            else none } ∧
        (alone → (u.ticket j.slot).fetchCount = (v.ticket j.slot).fetchCount + 1)) ∧
      (j.cursor = none ∨ ¬acts p ∨ ¬mayPresent v u p j →
        u.waitingFetches p = v.waitingFetches p ∧ (u.port p).engine.job = some j ∧
        (alone → (u.ticket j.slot).fetchCount = (v.ticket j.slot).fetchCount))

/-- The idle timer has reason to run: the link is READY, the engine IDLE, the queue and the page list are empty, and the
port's idle time is not 0 (R123). -/
def State.drowsing (s : State) (p : PortId) : Prop :=
  (s.port p).link.state = .ready ∧ (s.port p).engine.state = .idle ∧ (s.port p).queue = [] ∧ (s.port p).pages = [] ∧
    portIdleMs (s.portWord p) ≠ 0

/-- The idle timer after an event: it goes on or starts with the idle time as it stands while it has reason to run, and
stops otherwise (R123). -/
def idleFollows (v u : State) (p : PortId) : Prop :=
  (u.drowsing p → (u.port p).link.idle =
    if (v.port p).link.idle = .stopped then .running v.milliseconds v.microseconds (portIdleMs (v.portWord p))
    else (v.port p).link.idle) ∧
  (¬u.drowsing p → (u.port p).link.idle = .stopped)

/-- From `v` to `u` the ports `acts` settle, and nothing else happens: each one's engine takes the state it is judged to have
(TheFirstFailingGateBlocks says which), JAM_STOP neither entered nor left; it presents its next line when it may; and its
idle timer starts, goes on or stops (R71, R93, R97, R123, R145). -/
def settles (acts : PortId → Prop) (v u : State) : Prop :=
  u.still = v.still ∧ presented acts v u ∧
  ∀ p, (acts p → (u.port p).engine.state = v.judged p ∧ idleFollows v u p) ∧
    (¬acts p → (u.port p).engine.state = (v.port p).engine.state ∧ (u.port p).link.idle = (v.port p).link.idle)

/-- Every port settles. -/
def settled (v u : State) : Prop := settles (fun _ => True) v u

/-- One port settles. -/
def settledAt (p : PortId) (v u : State) : Prop := settles (fun q => q = p) v u

/-! ## Answers of memory -/

/-- A granted request is the only one of its name, and `rest` is what else is outstanding (log entry 4). -/
def State.awaits (s : State) (g : Granted) (rest : List Granted) : Prop :=
  ∃ before after, s.msp.outstanding = before ++ g :: after ∧ rest = before ++ after ∧ ∀ x ∈ rest, x.id ≠ g.id

/-! ## Invariants -/

/-- At most 48 memory-side tags are taken, and the passing run count is at most 4 (R17, R18). -/
def State.tagsBounded (s : State) : Prop :=
  s.msp.outstanding.length ≤ Config.memoryTags ∧ s.msp.runCount ≤ 4

/-- Every engine stands in the state its gates give (R71, R97). -/
def State.allJudged (s : State) : Prop := ∀ p, (s.port p).engine.state = s.judged p

/-- The idle timer of a port runs exactly while it has reason to, for the port's idle time (R123). -/
def State.idleTimersJudged (s : State) : Prop :=
  ∀ p, (s.drowsing p → ∃ since us, (s.port p).link.idle = .running since us (portIdleMs (s.portWord p))) ∧
    (¬s.drowsing p → (s.port p).link.idle = .stopped)

/-- No engine with a line left to fetch leaves it while it may present it: a fetch of its port waits, or the engine is HELD,
its buffer and current fetches make up 32 lines, or it has 8 fetches outstanding (R93). -/
def State.linesPresented (s : State) : Prop :=
  ∀ p j, (s.port p).engine.job = some j → j.cursor ≠ none → ¬mayPresent s s p j

/-- Every port is settled: nothing is left of R93, R97 and R123 to happen at it. -/
def State.settledLaw (s : State) : Prop := s.allJudged ∧ s.idleTimersJudged ∧ s.linesPresented

/-- No port holds more than 32 credits (R115, R119). -/
def State.creditsBounded (s : State) : Prop := ∀ p, (s.port p).link.credits ≤ Config.maxCredits

/-- Each class of the service stack is more urgent than the one below it (R180). -/
def State.stackNested (s : State) : Prop := s.relay.stack.Pairwise fun above below => above.rank < below.rank

/-- The backlog holds at most one latch for each class and source, in the order the ring writer picks them (R171, R175). -/
def State.backlogOrdered (s : State) : Prop := s.relay.backlog.Pairwise fun a b => a.key < b.key

/-- How many sources each class has (R170). -/
def AlertClass.sources : AlertClass → Nat
  | .jam | .down | .supply => 16
  | .quota => 64
  | .refusal => 1
  | .job => 256

/-- Every latch of the backlog, and the latch in flight, names one of its class's sources, all of them below 256 (R170). -/
def State.sourcesInRange (s : State) : Prop :=
  (∀ l ∈ s.relay.backlog, l.source < l.cls.sources) ∧ ∀ l, s.relay.inFlight = some l → l.source < l.cls.sources

/-- The entries of one port's page list that carry an account (R156). -/
def Port.entriesOf (x : Port) (a : AccountId) : Nat := x.pages.countP fun e => e.account == a

/-- The page-list entries, across all sixteen ports, that carry an account (R156). -/
def State.entriesOf (s : State) (a : AccountId) : Nat := (allPorts.map fun p => (s.port p).entriesOf a).sum

/-- Only the newest entry of a page list may be OPEN (R102). -/
def Port.opensNewestOnly (x : Port) : Prop := ∀ e ∈ x.pages.dropLast, e.state = .closed

/-- Every page list holds at most 32 entries, of which only the newest may be OPEN (R102, R150). -/
def State.pageListsSound (s : State) : Prop :=
  ∀ p, (s.port p).pages.length ≤ Config.pageEntries ∧ (s.port p).opensNewestOnly

/-- Every engine has at most eight fetches outstanding, of which at most one waits at the arbiter (R93). -/
def State.fetchesBounded (s : State) : Prop :=
  ∀ p, s.fetchesOut p ≤ Config.engineFetches ∧ s.msp.waiting.countP (·.isFetchOf p) ≤ 1

/-- For every account, `reserved` is the number of page-list entries that carry it (R156). -/
def State.reservationsMatch (s : State) : Prop := ∀ a, (s.account a).reserved = s.entriesOf a

/-- No account is overdrawn (R157): `reserved` within `remaining` under HOLD, `remaining` at least 1 under RELOAD with a
constant to reload, and `remaining` within its range. -/
def State.quotaSound (s : State) : Prop :=
  ∀ a, (s.account a).remaining ≤ Config.maxPages ∧
    (s.policy a = .hold → (s.account a).reserved ≤ (s.account a).remaining) ∧
    (s.policy a = .reload → 1 ≤ (s.account a).remaining ∧ reloadConstant (s.accountWord a) ≠ 0)

/-- The class shadow holds one class for each record written and not consumed (R179), and while a record write is in
flight the produced count may rise by one without meeting the consumed count (R175, R176). -/
def State.shadowMatches (s : State) : Prop :=
  s.relay.shadow.length = s.relay.unconsumed ∧ (s.relay.inFlight.isSome = true → s.relay.unconsumed < 65535)

/-- ATTN_N is asserted exactly while the ring is FAULTED or the shadow holds a class more urgent than the top of the
service stack, or any class when the stack is empty (R182). -/
def State.attnJudged (s : State) : Prop :=
  s.relay.attn = true ↔
    s.relay.ringState = .faulted ∨ ∃ c ∈ s.relay.shadow, ∀ top, s.relay.stack.head? = some top → c.rank < top.rank

/-- A ticket's pages delivered and pages spoiled stay within their ranges (R41). -/
def State.pageCountsBounded (s : State) : Prop :=
  ∀ t, (s.ticket t).delivered ≤ Config.maxPages ∧ (s.ticket t).spoiled ≤ Config.maxSpoiled

/-! ### The laws of the tickets -/

/-- A block lies between the first and the last that a mirror's extent touches (R77). -/
def State.touches (s : State) (m : Mirror) (b : Fin 4096) : Bool :=
  let r := touchedBlocks s.image.spoolWindow m.dataBase m.length
  decide (r.1 ≤ b.val ∧ b.val ≤ r.2)

/-- Every block's guard count is the number of tickets in use whose extent touches it (R80). -/
def State.guardLaw (s : State) : Prop :=
  ∀ b, s.guard b =
    s.tickets.toList.countP fun t => t.state.inUse && t.mirror.any fun m => s.touches m b

/-- A ticket stands in a queue exactly when it is QUEUED, in the queue of the port its mirror names, and once (R59). -/
def State.queueLaw (s : State) : Prop :=
  ∀ p, ((s.port p).queue.map QueueEntry.slot).Nodup ∧
    ∀ t, t ∈ (s.port p).queue.map QueueEntry.slot ↔
      (s.ticket t).state = .queued ∧ ∃ m, (s.ticket t).mirror = some m ∧ m.port = p

/-- Where a mark's group stands in a queue (R60). -/
def QueueMark.group : QueueMark → Nat
  | .resume => 0
  | .urgent => 1
  | .normal => 2

/-- Every queue keeps its RESUME entries first, then the URGENT ones, then the NORMAL ones (R60). -/
def State.orderLaw (s : State) : Prop :=
  ∀ p, (s.port p).queue.Pairwise fun a b => a.mark.group ≤ b.mark.group

/-- The fetcher's two lists together hold exactly the POSTING tickets, each once (R46), and the head of the in-flight list
still awaits its answer, since an answered head is judged at once (R47). -/
def State.postingLaw (s : State) : Prop :=
  (s.fetcher.queue ++ s.fetcher.inFlight.map InFlight.slot).Nodup ∧
    (∀ t, t ∈ s.fetcher.queue ++ s.fetcher.inFlight.map InFlight.slot ↔ (s.ticket t).state = .posting) ∧
    ∀ x, s.fetcher.inFlight.head? = some x → x.answer = none

/-- A ticket in use has a mirror whose extent is not empty and lies in the spool window's bounds, which its lock keeps
fixed (R48, R80, R85). -/
def State.extentLaw (s : State) : Prop :=
  ∀ t, (s.ticket t).state.inUse = true → ∃ m, (s.ticket t).mirror = some m ∧
    1 ≤ m.length ∧ baseOf s.image.spoolWindow ≤ m.dataBase ∧
      m.dataBase + m.length ≤ baseOf s.image.spoolWindow + spoolSize s.image.spoolWindow

/-- An engine's ticket in hand is ACTIVE and names its port (R66, R89). -/
def State.handLaw (s : State) : Prop :=
  ∀ p j, (s.port p).engine.job = some j →
    (s.ticket j.slot).state = .active ∧ ∃ m, (s.ticket j.slot).mirror = some m ∧ m.port = p

/-- A page-list entry belongs to a ticket of its port that is past QUEUED and not ended, and a ticket's entry count is the
number of its entries (R41, R102). -/
def State.entryLaw (s : State) : Prop :=
  (∀ p, ∀ e ∈ (s.port p).pages, (s.ticket e.slot).state ∈ [.active, .draining, .cancelling, .failing] ∧
    ∃ m, (s.ticket e.slot).mirror = some m ∧ m.port = p) ∧
  ∀ t, (s.ticket t).state.inUse = true →
    (s.ticket t).entryCount = (allPorts.map fun p => (s.port p).pages.countP fun e => e.slot == t).sum

/-- A port with an open page has a ticket in hand (R97, R102). -/
def Port.pageInHand (x : Port) : Prop := x.hasOpenPage = true → x.engine.job ≠ none

/-- The open page of a port belongs to the ticket in hand there (R102). -/
def State.openLaw (s : State) : Prop := ∀ p e, (s.port p).openEntry = some e → s.inHand p = some e.slot

/-- The laws of R46, R59, R60 and R80, with the places of the tickets they rest on. -/
def State.ticketLaws (s : State) : Prop :=
  s.guardLaw ∧ s.queueLaw ∧ s.orderLaw ∧ s.postingLaw ∧ s.extentLaw ∧ s.handLaw ∧ s.entryLaw

/-! ### The laws of the fetches -/

/-- The line that a request fetches for the ticket in hand at a port (R95). -/
def MemRequest.currentLine (p : PortId) (r : MemRequest) : Option Cursor :=
  match r.owner with
  | .lineFetch q .current copy offset => if q = p then some ⟨copy, offset⟩ else none
  | _ => none

/-- A stopped fetch of a ticket (R95). -/
def Granted.isStoppedFetchOf (t : Slot) (g : Granted) : Bool :=
  match g.request.owner with
  | .lineFetch _ (.stopped k) _ _ => k == t
  | _ => false

/-- The lines a port's current fetches ask for, waiting or granted (R93). -/
def State.currentLines (s : State) (p : PortId) : List Cursor :=
  (s.msp.waiting ++ s.msp.outstanding.map Granted.request).filterMap (·.currentLine p)

/-- Where the line that holds a byte of the extent ends (R92). -/
def Job.lineEnd (j : Job) (offset : Nat) : Nat := ((j.dataBase + offset) / 64 + 1) * 64 - j.dataBase

/-- A line of the sequence not yet framed to its end (R94). -/
def Job.unframed (j : Job) (x : Cursor) : Prop :=
  j.copy < x.copy ∨ (x.copy = j.copy ∧ j.next < j.lineEnd x.offset)

/-- A place of the sequence of R92; a position at or past the extent's end frames nothing. -/
def Job.inSequence (j : Job) (x : Cursor) : Prop :=
  (x.copy ≤ j.copies ∨ x.copy = j.copy) ∧ (x.offset < j.length ∨ j.length ≤ j.next)

/-- Two lines of one copy share no byte (R92). -/
def Job.linesApart (j : Job) (x y : Cursor) : Prop :=
  x.copy ≠ y.copy ∨ j.lineEnd x.offset ≤ y.offset ∨ j.lineEnd y.offset ≤ x.offset

/-- Granted requests have names of their own, each given already (R18; log entry 4). -/
def State.namesLaw (s : State) : Prop :=
  (s.msp.outstanding.map Granted.id).Nodup ∧ ∀ g ∈ s.msp.outstanding, g.id < s.msp.nextGrant

/-- Every line fetch that waits at the arbiter is current, and a port with no ticket in hand has no current fetch (R95,
R107). -/
def State.marksLaw (s : State) : Prop :=
  (∀ r ∈ s.msp.waiting, ∀ p mark copy offset, r.owner = .lineFetch p mark copy offset → mark = .current) ∧
    ∀ p, (s.port p).engine.job = none → s.currentLines p = []

/-- An IDLE engine has no ticket in hand (R90). -/
def State.idleLaw (s : State) : Prop := ∀ p, (s.port p).engine.state = .idle → (s.port p).engine.job = none

/-- A stopped fetch belongs to a CANCELLING or FAILING ticket (R56, R95). -/
def State.stoppedLaw (s : State) : Prop :=
  ∀ t, ∀ g ∈ s.msp.outstanding, g.isStoppedFetchOf t = true →
    (s.ticket t).state = .cancelling ∨ (s.ticket t).state = .failing

/-- A ticket's fetch count is the number of its fetches outstanding: the stopped ones, and the current ones of the engine
that has it in hand (R41, R93). -/
def State.countLaw (s : State) : Prop :=
  ∀ t, (s.ticket t).fetchCount = s.msp.outstanding.countP (·.isStoppedFetchOf t) +
    (allPorts.map fun p => if s.inHand p = some t then (s.currentLines p).length else 0).sum

/-- The current fetches and the buffered lines of an engine are distinct lines of its sequence, none framed to its end, and
the cursor stands behind them all (R92 to R94). -/
def State.sequenceLaw (s : State) : Prop :=
  ∀ p j, (s.port p).engine.job = some j →
    let lines := s.currentLines p ++ j.buffer.map fun l => ⟨l.copy, l.offset⟩
    lines.Pairwise j.linesApart ∧ (∀ x ∈ lines, j.unframed x ∧ j.inSequence x) ∧
    (∀ l ∈ j.buffer, l.offset + l.bytes.length ≤ j.lineEnd l.offset ∧
      (l.bytes = [] ∨ l.offset + l.bytes.length ≤ j.length)) ∧
    ∀ c, j.cursor = some c → j.inSequence c ∧ (j.copy < c.copy ∨ (c.copy = j.copy ∧ j.next ≤ c.offset)) ∧
      ∀ x ∈ lines, x.copy < c.copy ∨ (x.copy = c.copy ∧ j.lineEnd x.offset ≤ c.offset)

/-- A ticket that is QUEUED, FREE, POSTING, DRAINING or in a terminal state has fetch count 0 and a clear sending flag (R41,
R105). -/
def State.restLaw (s : State) : Prop :=
  ∀ t, (s.ticket t).state ∉ [TicketState.active, .cancelling, .failing] →
    (s.ticket t).fetchCount = 0 ∧ (s.ticket t).sending = false

/-- The law of R41 on tickets that nothing is fetched for, with the places of the fetches it rests on. -/
def State.fetchLaws (s : State) : Prop :=
  s.namesLaw ∧ s.marksLaw ∧ s.idleLaw ∧ s.stoppedLaw ∧ s.countLaw ∧ s.sequenceLaw ∧ s.restLaw

/-- While RESET_N is asserted every block holds its reset value (R3, R20). Apart from them stand the commands waiting,
the host's requests held by the memory channel, the model's own counters and the outputs (log entries 4, 8, 11, 18). -/
def State.heldInReset (s : State) : Prop :=
  s.resetAsserted = true →
    s = { State.reset with
      pending := s.pending
      psp := { State.reset.psp with held := s.psp.held }
      msp := { State.reset.msp with nextGrant := s.msp.nextGrant }
      draws := s.draws
      out := s.out }

end Sys2Proof.Machine
end

