-- ==== Sys2Proof/Certificates/Slice0/Obligations.lean ====
section
/-! DEFINITION. What is claimed of the model. The statements follow the numbered rules of spec/; the notes beside them name
the rule, or say that the clause is the model's own choice and name its log entry. -/

namespace Sys2Proof.Machine

/-! ## Words the statements share -/

/-- A host request that comes now is taken now: the processor-side port is open and no earlier request is held at its input
(R3; log entry 8). -/
def State.atHand (s : State) : Prop := s.psp.accepting = true ∧ s.psp.held = []

/-- The part can take a request with a tag: it is at hand and the tag is free (R2, R3). -/
def State.canTake (s : State) (tag : Tag) : Prop := s.atHand ∧ s.record tag = none

/-- The row of the table that a host request is. -/
def HostRequest.row : HostRequest → Instr
  | .read r => .read r
  | .write w => .write w

/-- A command word with the row's code is taken: the port is open, the tag is free, the complement matches (R9, R32). -/
def State.takes (s : State) (code : Byte) (c : CommandWrite) : Prop := s.canTake c.tag ∧ c.complement = ~~~code

/-- What every taken command leaves besides its own effect: the command record and ACK OK (R9, R33). -/
def State.commanded (s : State) (code : Byte) (r : CommandResult) (tag : Tag) : State :=
  { s with
    ctl := { s.ctl with lastCode := code, lastResult := r, taken := s.ctl.taken + 1 }
    out := [.ack tag .ok] }

/-- A port with its hold flag at a value. -/
def State.withHold (s : State) (p : PortId) (b : Bool) : State := s.modPort p fun x => { x with holdFlag := b }

/-- A REFUSAL raise of a write refused at the classifier, as the backlog takes it (R8, R171, R172). -/
def State.withRefusal (s : State) (addr : Addr) (reason : RefusalReason) : List Latch :=
  addRaise ⟨.refusal, 0, s.milliseconds, 1, .refusal addr reason (s.ctl.refusals + 1)⟩ s.relay.backlog

/-- A well-shaped request within one line (R1, R5). -/
def shapedInLine (addr : Addr) (size : Nat) : Prop :=
  size ∈ [8, 16, 24, 32, 40, 48, 56, 64] ∧ addr.toNat % 8 = 0 ∧ addr.toNat % 64 + size ≤ 64

/-- A request forwarded to memory: its tag outstanding, its memory requests at the tail of those waiting (R1, R15). -/
def State.withForward (s : State) (tag : Tag) (r : PspRecord) (rs : List MemRequest) : State :=
  { s with
    psp := { s.psp with records := tset s.psp.records tag (some r) }
    msp := { s.msp with waiting := s.msp.waiting ++ rs }
    out := [] }

/-- A write forwarded whole (R15). -/
def State.withWrite (s : State) (w : WriteRequest) : State :=
  s.withForward w.tag ⟨true, w.addr, w.size, [], .whole⟩
    [⟨.passing w.tag .whole, true, w.addr.toNat, w.size, w.enables, w.data⟩]

/-- A write refused at the classifier: the refusal count, the REFUSAL alert, ACK REFUSED, and nothing else (R8, R30). -/
def State.refusedWith (s : State) (w : WriteRequest) (reason : RefusalReason) : State :=
  { s with
    ctl := { s.ctl with refusals := s.ctl.refusals + 1 }
    relay := { s.relay with backlog := s.withRefusal w.addr reason }
    out := [.ack w.tag .refused] }

/-! ### Setting words -/

/-- Where a setting word lies in the control page (R185). -/
def offsetOf : SettingLoc → Nat
  | .ticketWindow => 0x100
  | .meterWindow => 0x108
  | .spoolWindow => 0x110
  | .ring => 0x140
  | .consume => 0x148
  | .markRule n => 0x180 + 8 * n.val
  | .pacing n => 0x1C0 + 8 * n.val
  | .port p => 0x200 + 64 * p.val
  | .condition p c => 0x208 + 64 * p.val + 8 * c.val
  | .account a => 0x600 + 8 * a.val

/-- A write of one setting word: its byte enables, of which one at least is set, and its bytes. -/
structure WordBytes where
  enables : List Bool
  data : List Byte
  tag : Tag

def WordBytes.given (x : WordBytes) : Prop := x.enables.length = 8 ∧ x.data.length = 8 ∧ true ∈ x.enables

def WordBytes.write (x : WordBytes) (loc : SettingLoc) : SettingWrite :=
  ⟨BitVec.ofNat 16 (offsetOf loc), 8, x.enables, x.data, x.tag⟩

/-- The word's value in the resulting image (R24, step 1). -/
def WordBytes.result (x : WordBytes) (s : State) (loc : SettingLoc) : Word :=
  mergeWord (s.image.get loc) x.enables x.data

/-- A setting word captured, before what the capture brings about (R24). -/
def State.captured (s : State) (x : WordBytes) (loc : SettingLoc) : State :=
  { s with image := s.image.put loc (x.result s loc), out := [] }

/-- A setting write is taken: from `v`, the state with its words captured and what they bring about, every port settles; then
the write is forwarded whole (R10, R24). -/
def State.forwards (s : State) (i : Instr) (w : SettingWrite) (v : State) : Prop :=
  ∃ u, settled v u ∧ exec i s = .next { u.withWrite (s.settingRequest w) with out := v.out }

/-- The value of a word is out of its settings' ranges (R27, R111, R131, R133, R167, R173, R196). -/
def outOfRange (v : Word) : SettingLoc → Prop
  | .ticketWindow => baseOf v % 8192 ≠ 0
  | .meterWindow => baseOf v % 4096 ≠ 0
  | .spoolWindow => 6 < sizeCode v ∨ baseOf v % (4096 * 16384 * 2 ^ sizeCode v) ≠ 0
  | .ring => 4 < sizeCode v ∨ baseOf v % 32 ≠ 0 ∨ 2 ^ 36 < baseOf v + 32 * (16 * 2 ^ sizeCode v)
  | .consume | .markRule _ => False
  | .pacing _ => 64 < pacingFrames v ∨ pacingTicks v = 0 ∨ 5 < pacingPrescale v
  | .port _ => portSilenceMs v = 0
  | .condition _ _ => condClassCode v = 3
  | .account _ => policyCode v = 3 ∨ (policyCode v = 2 ∧ reloadConstant v = 0)

/-- The ticket is in use and named in its mirror by a test (R80). -/
def Ticket.uses (t : Ticket) (f : Mirror → Prop) : Prop :=
  (t.state = .queued ∨ t.state = .active ∨ t.state = .draining ∨ t.state = .cancelling ∨ t.state = .failing) ∧
    ∃ m, t.mirror = some m ∧ f m

/-- A change of a word's value from the image's to `v` is locked (R85, R87, R130, R165, R166). -/
def State.lockHolds (s : State) (v : Word) : SettingLoc → Prop
  | .ticketWindow => ∃ t, (s.ticket t).state ≠ .free
  | .spoolWindow => s.ctl.global ≠ .stopped ∨ ∃ b, s.guard b ≠ 0
  | .port p => portOn (s.portWord p) = true ∧ portOn v = false ∧ ∃ t, (s.ticket t).uses fun m => m.port = p
  | .account a =>
    (accountOn (s.accountWord a) = true ∧ accountOn v = false ∧ ∃ t, (s.ticket t).uses fun m => m.account = a) ∨
      (policyCode (s.accountWord a) ≠ policyCode v ∧
        ((policyCode v = 1 ∧ (s.account a).remaining < (s.account a).reserved) ∨
          (policyCode v = 2 ∧ (s.account a).remaining = 0)))
  | _ => False

/-- The extents that must not overlap (R28): the control page, the enabled windows, the ring when it counts as set. -/
def State.keptApart (s : State) (im : Image) (ringSet : Bool) : List Extent :=
  ⟨s.anchor.toNat * 65536, 65536⟩ :: windowExtents im ++
    if ringSet then [⟨baseOf im.ring, 32 * (16 * 2 ^ sizeCode im.ring)⟩] else []

/-- No two of the extents share a byte, and no dropped record write shares one with the control page or a window (R28). -/
def State.apart (s : State) (im : Image) (ringSet : Bool) : Prop :=
  (s.keptApart im ringSet).Pairwise (fun a b => a.first + a.length ≤ b.first ∨ b.first + b.length ≤ a.first) ∧
    ∀ g ∈ s.msp.outstanding, g.request.owner = .record true → ∀ x ∈ s.keptApart im false,
      g.request.addr + 32 ≤ x.first ∨ x.first + x.length ≤ g.request.addr

/-- The windows in force are in range and apart, as R27 and R28 keep them. -/
def State.windowsSound (s : State) : Prop :=
  (∀ loc ∈ [SettingLoc.ticketWindow, .meterWindow, .spoolWindow], ¬outOfRange (s.image.get loc) loc) ∧ s.apart s.image false

/-- Every setting of the control image is in its range, and no unused bit of it is set (R24, R195, R196). -/
def State.imageSound (s : State) : Prop :=
  ∀ loc, s.image.get loc &&& ~~~(fieldMask loc) = 0 ∧ ¬outOfRange (s.image.get loc) loc

/-- The ring, once set, is clear of the control page and of every window (R28, R173). At most one record write that no restart
has dropped waits or is granted; while there is one the ring is RUNNING, its latch is in flight, and its 32 bytes lie in the
ring. A record write that waits is not dropped (R175, R176). -/
def State.ringSound (s : State) : Prop :=
  let requests := s.msp.waiting ++ s.msp.outstanding.map Granted.request
  s.apart s.image (s.relay.ringState != .unset) ∧
    (∀ r ∈ s.msp.waiting, r.owner ≠ .record true) ∧
    requests.countP (fun r => r.owner == .record false) ≤ 1 ∧
    ∀ r ∈ requests, r.owner = .record false →
      s.relay.ringState = .running ∧ s.relay.inFlight.isSome = true ∧ baseOf s.image.ring ≤ r.addr ∧
        r.addr + 32 ≤ baseOf s.image.ring + 32 * (16 * 2 ^ sizeCode s.image.ring)

/-- An address lies in the bytes of an enabled window (R27). -/
def inWindow (w : Word) (length a : Nat) : Prop := windowOn w = true ∧ baseOf w ≤ a ∧ a < baseOf w + length

/-- Reads of a word at a place pass to memory (R6). -/
def Place.readPasses : Place → Prop
  | .plain | .setting _ | .fieldWord _ | .spool _ | .elsewhere => True
  | .commandWord | .statusBlock _ | .postWord _ | .meter _ => False

/-- The size of a block of the spool window: 16 KiB times 2 to the power of the block size code (R76). -/
def State.blockBytes (s : State) : Nat := 16384 * 2 ^ sizeCode s.image.spoolWindow

/-- An address lies in the control page or in an enabled window (R4). -/
def State.inPlace (s : State) (a : Nat) : Prop :=
  (s.anchor.toNat * 65536 ≤ a ∧ a < s.anchor.toNat * 65536 + 65536) ∨ inWindow s.image.ticketWindow 8192 a ∨
    inWindow s.image.meterWindow 4096 a ∨ inWindow s.image.spoolWindow (4096 * s.blockBytes) a

end Sys2Proof.Machine

open Sys2Proof Sys2Proof.Machine

/-! ## The queue, reset and time -/

/-- A step of a state with a command at the front of its queue is that command's effect on the state with the queue's
rest. -/
def Obligations.StepRunsTheFrontCommand : Prop :=
  ∀ (c : Instr) (q : List Instr) (s : State), step { s with pending := c :: q } = exec c { s with pending := q }

/-- R3, R20: assertion of RESET_N, in any state, returns every block to its reset value; no outstanding request is
answered. What stays (the queue, the requests held outside the port, the model's own counters) is the model's choice (log
entries 4, 8 and 11), and so is the value 0 of the anchor, which no rule gives before its next sample (log entry 6). -/
def Obligations.ResetAssertionReturnsEveryBlock : Prop :=
  ∀ s : State, exec .resetNAssertion s = .next { State.reset with
    pending := s.pending
    psp := { State.reset.psp with held := s.psp.held }
    msp := { State.reset.msp with nextGrant := s.msp.nextGrant }
    draws := s.draws }

/-- R19 to R22: at release of RESET_N the anchor is sampled and the sweep writer presents the page's first line with setting
bytes: the three window words, at their default 0. A change at the pins while released has no effect. The sweep's lines are
the lines of the control page with setting bytes, in ascending order; each write enables exactly the setting words' bytes,
which carry the default image. (The disabled bytes' zero is the model's choice, log entry 22.) -/
def Obligations.ReleaseStartsTheSweep : Prop :=
  (∀ (a : Byte) (s : State),
    (s.resetAsserted = true → s.sweep.presented = 0 → exec (.resetNRelease a) s = .next { s with
      resetAsserted := false
      anchor := a
      sweep := { s.sweep with presented := 1 }
      msp := { s.msp with waiting := s.msp.waiting ++
        [⟨.sweep, true, a.toNat * 65536 + 0x100, 64, List.replicate 24 true ++ List.replicate 40 false,
          List.replicate 64 0⟩] }
      out := [] }) ∧
    (s.resetAsserted = false → exec (.resetNRelease a) s = .next { s with out := [] })) ∧
  (sweepLines.length = 28 ∧ sweepLines.Pairwise (· < ·) ∧
    (∀ k < 1024, 64 * k ∈ sweepLines ↔ ∃ i < 8, (settingAt (64 * k + 8 * i)).isSome = true) ∧
    ∀ (s : State), ∀ off ∈ sweepLines, ∀ i < 8,
      (s.sweepRequest off).addr = s.anchor.toNat * 65536 + off ∧
        ((s.sweepRequest off).enables.drop (8 * i)).take 8 =
          List.replicate 8 (settingAt (off + 8 * i)).isSome ∧
        ((s.sweepRequest off).data.drop (8 * i)).take 8 =
          match settingAt (off + 8 * i) with
          | some loc => wordBytes (defaultImage.get loc)
          | none => List.replicate 8 0)

/-- R3, R22, R23: an answered sweep write frees its tag; ERROR sets the fault flag; the 28th answer opens the
processor-side port. R3: each request held at the open port's input is then taken as the READ or WRITE it is, the first one
at each step with no command waiting, so that any command, a record pick among them (R175), may fall between two of them
(log entry 8). -/
def Obligations.SweepAnswersOpenThePort : Prop :=
  (∀ (g : Granted) (rest : List Granted) (ok : Bool) (s : State), s.awaits g rest → g.request.owner = .sweep →
    let t : State := { s with
      msp := { s.msp with outstanding := rest }
      sweep := { s.sweep with answered := s.sweep.answered + 1, fault := s.sweep.fault || !ok }
      out := [] }
    (s.sweep.answered + 1 ≠ 28 → exec (.sweepWriteAnswer g.id ok) s = .next t) ∧
    (s.sweep.answered + 1 = 28 →
      exec (.sweepWriteAnswer g.id ok) s =
        .next { t with psp := { t.psp with accepting := true } })) ∧
  ∀ (r : HostRequest) (rest : List HostRequest) (s : State), s.pending = [] → s.psp.accepting = true →
    s.psp.held = r :: rest →
    ∃ t, exec r.row { s with psp := { s.psp with held := [] } } = .next t ∧
      step s = .next { t with psp := { t.psp with held := rest } }

/-- R20, R31: the millisecond count rises by one, rolling over, once RESET_N is released, and is held while it is asserted; so
is the 1 µs tick. R112: a pacing window that has run its length, to within 1 µs, is gone at its end, and the engine is
judged again; before its end nothing happens. (That a microsecond passes at a step with no command waiting and no held
request to take, and that the last one of a millisecond passes with the count, is the model's choice: log entries 2 and 10.) -/
def Obligations.TheTimeBaseRuns : Prop :=
  (∀ s : State,
    (s.resetAsserted = false → exec .millisecondCountTick s =
      .next { s with milliseconds := s.milliseconds + 1, microseconds := 0, out := [] }) ∧
    (s.resetAsserted = true → exec .millisecondCountTick s = .next { s with out := [] })) ∧
  (∀ s : State, s.pending = [] → s.psp.accepting = false ∨ s.psp.held = [] →
    (s.resetAsserted = false → step s = .next { s with microseconds := min (s.microseconds + 1) 999, out := [] }) ∧
    (s.resetAsserted = true → step s = .next { s with out := [] })) ∧
  ∀ (p : PortId) (s : State),
    let elapsed (w : PacerWindow) : Nat := 1000 * (s.milliseconds - w.since).toNat + s.microseconds - w.sinceUs
    (∀ w, (s.port p).engine.pacer = some w → w.lengthUs ≤ elapsed w + 1 →
      ∃ u, exec (.pacingWindowEnd p) s = .next u ∧
        settledAt p { s.modEngine p fun e => { e with pacer := none } with out := [] } u) ∧
    ((∀ w, (s.port p).engine.pacer = some w → elapsed w + 1 < w.lengthUs) →
      exec (.pacingWindowEnd p) s = .next { s with out := [] })

/-! ## The traffic path -/

/-- R1, R2, R3, R5, R15: a request of a wrong shape, with a busy tag, or over a line boundary in a place is answered ERROR and
goes no further; before the sweep completes, and behind a request still held, a request is held and not answered. A request over a line boundary, with all
of its bytes elsewhere, passes as two memory requests. The model's choices in it: a request that runs past the top of the
address space is split like any other (log entry 7), both halves of a write are requested also when one of them enables no
byte (log entry 20), the half with the lower addresses is placed in the passing queue first (log entry 13), and held requests
keep the order in which they came (log entry 8). -/
def Obligations.RequestsAreStoppedHeldOrSplit : Prop :=
  (∀ (r : ReadRequest) (w : WriteRequest) (s : State),
    (s.atHand →
      ¬(r.size ∈ [8, 16, 24, 32, 40, 48, 56, 64] ∧ r.addr.toNat % 8 = 0) ∨ s.record r.tag ≠ none ∨
        (r.addr.toNat / 64 ≠ (r.addr.toNat + r.size - 1) / 64 ∧ s.inAnyPlace r.addr.toNat r.size = true) →
      exec (.read r) s = .next { s with out := [.data r.tag false (List.replicate r.size 0)] }) ∧
    (s.atHand →
      ¬(w.size ∈ [8, 16, 24, 32, 40, 48, 56, 64] ∧ w.addr.toNat % 8 = 0) ∨ s.record w.tag ≠ none ∨
        (w.addr.toNat / 64 ≠ (w.addr.toNat + w.size - 1) / 64 ∧ s.inAnyPlace w.addr.toNat w.size = true) →
      exec (.write w) s = .next { s with out := [.ack w.tag .error] }) ∧
    (¬s.atHand →
      exec (.read r) s = .next { s with psp := { s.psp with held := s.psp.held ++ [.read r] }, out := [] } ∧
        exec (.write w) s = .next { s with psp := { s.psp with held := s.psp.held ++ [.write w] }, out := [] })) ∧
  (∀ (r : ReadRequest) (w : WriteRequest) (s : State),
    (s.canTake r.tag → r.size ∈ [8, 16, 24, 32, 40, 48, 56, 64] → r.addr.toNat % 8 = 0 →
      64 < r.addr.toNat % 64 + r.size → s.inAnyPlace r.addr.toNat r.size = false →
      let n := 64 - r.addr.toNat % 64
      exec (.read r) s = .next (s.withForward r.tag
        ⟨false, r.addr, r.size, List.replicate (r.size / 8) none, .halves none none⟩
        [⟨.passing r.tag .first, false, r.addr.toNat, n, [], []⟩,
          ⟨.passing r.tag .second, false, r.addr.toNat + n, r.size - n, [], []⟩])) ∧
    (s.canTake w.tag → w.size ∈ [8, 16, 24, 32, 40, 48, 56, 64] → w.addr.toNat % 8 = 0 →
      64 < w.addr.toNat % 64 + w.size → s.inAnyPlace w.addr.toNat w.size = false →
      (∃ i < w.size, w.enables[i]? = some true) →
      let n := 64 - w.addr.toNat % 64
      exec (.write w) s = .next (s.withForward w.tag ⟨true, w.addr, w.size, [], .halves none none⟩
        [⟨.passing w.tag .first, true, w.addr.toNat, n, w.enables.take n, w.data.take n⟩,
          ⟨.passing w.tag .second, true, w.addr.toNat + n, w.size - n, w.enables.drop n, w.data.drop n⟩])))

/-- R13, R29, R34, R186, R187: reads of the command word and of the status block are answered at once from the part's state
and change nothing. -/
def Obligations.ControlPageReadsShowTheState : Prop :=
  ∀ (tag : Tag) (s : State), s.canTake tag →
    exec (.read ⟨BitVec.ofNat 36 (s.anchor.toNat * 65536), 8, tag⟩) s = .next { s with out := [.data tag true
      ([s.ctl.lastCode,
        match s.ctl.lastResult with | .done => 0 | .state => 1 | .arg => 2 | .nothing => 3 | .complement => 4] ++
        leBytes 2 s.ctl.taken.toNat ++ [0, 0, 0, 0])] } ∧
    exec (.read ⟨BitVec.ofNat 36 (s.anchor.toNat * 65536 + 0x40), 32, tag⟩) s = .next { s with out := [.data tag true
      ([match s.ctl.global with | .stopped => 0 | .running => 1 | .quiescing => 2, s.anchor,
        match s.relay.ringState with | .unset => 0 | .running => 1 | .faulted => 2,
        if s.sweep.fault then 1 else 0] ++ leBytes 2 s.relay.backlog.length ++ [0, 0] ++
        leBytes 2 s.relay.produced.toNat ++ leBytes 2 s.relay.consumed.toNat ++
        leBytes 1 s.relay.stack.length ++ [0, 0, 0] ++
        padTo 8 (s.relay.stack.reverse.map fun c => BitVec.ofNat 8 c.rank) ++
        leBytes 4 s.ctl.refusals.toNat ++ leBytes 4 s.milliseconds.toNat)] }

/-- R13, R39, R58, R168, R191, R192: a read of a post word shows the ticket's status, and a read of a record of the meter
window the account's or the port's record as it stands; the window's rest reads as zero. No read changes anything. -/
def Obligations.ReadsShowTicketsAndMeters : Prop :=
  ∀ (tag : Tag) (s : State), s.canTake tag →
    let shows (addr size : Nat) (bytes : List Byte) : Prop :=
      exec (.read ⟨BitVec.ofNat 36 addr, size, tag⟩) s = .next { s with out := [.data tag true bytes] }
    let page := s.anchor.toNat * 65536
    let tickets := baseOf s.image.ticketWindow
    let meters := baseOf s.image.meterWindow
    (∀ t : Slot, windowOn s.image.ticketWindow = true → tickets % 8192 = 0 →
      page + 65536 ≤ tickets ∨ tickets + 8192 ≤ page →
      let k := s.ticket t
      let code := [TicketState.free, .posting, .queued, .active, .draining, .cancelling, .failing, .done, .cancelled,
        .failed].idxOf k.state
      let reason : Byte := match k.reason with
        | .noReason => 0 | .extent => 1 | .port => 2 | .account => 3 | .copies => 4 | .rule => 5 | .memoryReject => 6
        | .complete => 0x81 | .cancel => 0x82 | .flush => 0x83 | .memoryEnd => 0x84
      let shown : Byte × Nat := match k.state with
        | .free | .done | .cancelled | .failed => (reason, 0)
        | .posting => (0, 0)
        | .queued => match k.resume with | some r => (BitVec.ofNat 8 r.copy, r.page) | none => (0, 0)
        | .active | .draining | .cancelling | .failing => (BitVec.ofNat 8 k.copy, k.page)
      shows (tickets + 32 * t.val + 24) 8
        (leBytes 2 (code + 16 * min shown.2 4095) ++ [shown.1] ++ leBytes 3 k.delivered ++ leBytes 2 k.spoiled)) ∧
    (windowOn s.image.meterWindow = true → meters % 4096 = 0 → page + 65536 ≤ meters ∨ meters + 4096 ≤ page →
      (windowOn s.image.ticketWindow = true → tickets + 8192 ≤ meters ∨ meters + 4096 ≤ tickets) →
      (∀ a : AccountId,
        let k := s.account a
        shows (meters + 32 * a.val) 32
          ([if accountOn (s.accountWord a) then 1#8 else 0#8,
            match s.policy a with | .none => 0#8 | .hold => 1#8 | .reload => 2#8] ++ leBytes 2 k.reserved ++
            leBytes 3 k.remaining ++ [0] ++ leBytes 4 k.sent.toNat ++ leBytes 4 k.delivered.toNat ++
            leBytes 4 k.spoiled.toNat ++ List.replicate 12 0)) ∧
      (∀ p : PortId,
        let x := s.port p
        let truth (c : CondId) : Nat := if (tget x.watch.conditions c).truth then 2 ^ c.val else 0
        shows (meters + 0x800 + 32 * p.val) 32
          ([BitVec.ofNat 8 ([LinkState.disabled, .training, .ready, .drowsy, .waking, .offline].idxOf x.link.state),
            BitVec.ofNat 8 ([EngineState.idle, .sending, .waitCredit, .waitPace, .waitPage, .waitQuota, .paused, .held,
              .jamStop].idxOf x.engine.state),
            BitVec.ofNat 8 x.link.credits, BitVec.ofNat 8 x.pages.length] ++ leBytes 2 x.queue.length ++
            leBytes 2 x.watch.bits.toNat ++ leBytes 4 x.link.framesSent.toNat ++ leBytes 4 x.link.badFrames.toNat ++
            leBytes 4 x.link.overflows.toNat ++ leBytes 4 x.stray.toNat ++
            [BitVec.ofNat 8 (truth 0 + truth 1 + truth 2 + truth 3)] ++ List.replicate 7 0)) ∧
      ∀ k < 48, shows (meters + 0xA00 + 32 * k) 32 (List.replicate 32 0))

/-- R13, R14, R15: a read within a line is answered at once when the part gives every word of it; otherwise it is forwarded
as it came, with the part's words taken at its arrival. R6: the part gives a word, and reads of it do not pass to memory,
exactly when it is the command word, a word of the status block, a post word or a word of the meter window; plain words, the
setting areas, field words, the spool window and all that lies elsewhere pass, and so does a window that is not enabled
(R4). By address (R39, R185), under windows as R27 and R28 keep them (that every step keeps them so: StepsKeepTheBounds). A
read of such words alone is forwarded with nothing of the part's. -/
def Obligations.ReadsAreAnsweredOrForwarded : Prop :=
  (∀ (r : ReadRequest) (s : State), s.canTake r.tag → shapedInLine r.addr r.size →
    let words := (List.range (r.size / 8)).map fun i => s.substituted (r.addr.toNat + 8 * i)
    let forwarded (taken : List (Option (List Byte))) : State := s.withForward r.tag ⟨false, r.addr, r.size, taken, .whole⟩
      [⟨.passing r.tag .whole, false, r.addr.toNat, r.size, [], []⟩]
    (none ∉ words → exec (.read r) s = .next { s with out := [.data r.tag true (words.flatMap fun x => x.getD [])] }) ∧
    (none ∈ words → exec (.read r) s = .next (forwarded words)) ∧
    ((∀ i < r.size / 8, (s.placeOf (r.addr.toNat + 8 * i)).readPasses) →
      exec (.read r) s = .next (forwarded (List.replicate (r.size / 8) none)))) ∧
  ∀ (a : Nat) (s : State),
    (s.substituted a = none ↔ (s.placeOf a).readPasses) ∧
    (s.windowsSound → a % 8 = 0 →
      let page := s.anchor.toNat * 65536
      (s.substituted a ≠ none ↔
        a = page ∨ (∃ i < 4, a = page + 0x40 + 8 * i) ∨
        (windowOn s.image.ticketWindow = true ∧ ∃ t : Slot, a = baseOf s.image.ticketWindow + 32 * t.val + 24) ∨
        inWindow s.image.meterWindow 4096 a))

/-- R6, R11, R12, R15: a write within a line passes as the host sent it when no word it touches is absorbed, read-only, a
setting, a field word of a ticket that is not FREE, or in a guarded block. A write with no byte enabled is answered ACK
OK and touches nothing. R10, R24, R98, R111: a write of a mark rule's word, or of a pacing profile's in its range, is
captured and forwarded, and nothing else changes. R11, R12, R39, R76, R81, by address: a write into the spool window passes
when the guard count of the block it lies in is 0, one of a field word when its slot's ticket is FREE, and one that lies in
no place passes. -/
def Obligations.PlainWritesPass : Prop :=
  (∀ (w : WriteRequest) (s : State), s.canTake w.tag → shapedInLine w.addr w.size →
    ((∃ i < w.size, w.enables[i]? = some true) →
      (∀ i < w.size / 8, (∃ j < 8, w.enables[8 * i + j]? = some true) →
        match s.placeOf (w.addr.toNat + 8 * i) with
        | .plain | .elsewhere => True
        | .fieldWord t => (s.ticket t).state = .free
        | .spool b => s.guard b = 0
        | .commandWord | .statusBlock _ | .setting _ | .postWord _ | .meter _ => False) →
      exec (.write w) s = .next (s.withWrite w)) ∧
    ((∀ i < w.size, w.enables[i]? ≠ some true) → exec (.write w) s = .next { s with out := [.ack w.tag .ok] }) ∧
    (s.windowsSound → (∃ i < w.size, w.enables[i]? = some true) →
      let a := w.addr.toNat
      (∀ b : Fin 4096, inWindow s.image.spoolWindow (4096 * s.blockBytes) a →
        b.val = (a - baseOf s.image.spoolWindow) / s.blockBytes → s.guard b = 0 → exec (.write w) s = .next (s.withWrite w)) ∧
      (∀ (t : Slot) (k : Fin 3), windowOn s.image.ticketWindow = true → w.size = 8 →
        a = baseOf s.image.ticketWindow + 32 * t.val + 8 * k.val → (s.ticket t).state = .free →
        exec (.write w) s = .next (s.withWrite w)) ∧
      (¬s.inPlace a → exec (.write w) s = .next (s.withWrite w)))) ∧
  ∀ (x : WordBytes) (loc : SettingLoc) (s : State), (∃ n, loc = .markRule n) ∨ (∃ n, loc = .pacing n) →
    s.canTake x.tag → x.given → x.result s loc &&& ~~~(fieldMask loc) = 0 → ¬outOfRange (x.result s loc) loc →
    s.forwards (.write (s.settingRequest (x.write loc))) (x.write loc) (s.captured x loc)

/-- R6 to R8, R11, R12, R30: a write within a line is refused for the first reason that applies, of SHAPE, SUBST, TICKET and
GUARD: none of it passes, nothing is captured or performed, the refusal is counted once and raises one REFUSAL. R4, R39, R76,
R81, R185, by address: where each word lies; a write into the spool window is judged on the block it lies in, its offset from
the window's base divided by the block size, and one of a field word on its slot's ticket. -/
def Obligations.RefusedWritesChangeNothing : Prop :=
  (∀ (w : WriteRequest) (s : State), s.canTake w.tag → shapedInLine w.addr w.size →
    let touches (f : Place → Prop) : Prop :=
      ∃ i < w.size / 8, (∃ j < 8, w.enables[8 * i + j]? = some true) ∧ f (s.placeOf (w.addr.toNat + 8 * i))
    let absorbed := touches fun x => x = .commandWord ∨ ∃ t, x = .postWord t
    let readOnly := touches fun x => (∃ i, x = .statusBlock i) ∨ ∃ o, x = .meter o
    let locked := touches fun x => ∃ t, x = .fieldWord t ∧ (s.ticket t).state ≠ .free
    let guarded := touches fun x => ∃ b, x = .spool b ∧ s.guard b ≠ 0
    let exact := w.size = 8 ∧ w.enables = List.replicate 8 true
    (absorbed → ¬exact → exec (.write w) s = .next (s.refusedWith w .shape)) ∧
    (¬absorbed → readOnly → exec (.write w) s = .next (s.refusedWith w .subst)) ∧
    (¬absorbed → ¬readOnly → locked → exec (.write w) s = .next (s.refusedWith w .ticket)) ∧
    (¬absorbed → ¬readOnly → ¬locked → guarded → exec (.write w) s = .next (s.refusedWith w .guard)) ∧
    (s.windowsSound → (∃ i < w.size, w.enables[i]? = some true) →
      let a := w.addr.toNat
      (∀ b : Fin 4096, inWindow s.image.spoolWindow (4096 * s.blockBytes) a →
        b.val = (a - baseOf s.image.spoolWindow) / s.blockBytes → s.guard b ≠ 0 →
        exec (.write w) s = .next (s.refusedWith w .guard)) ∧
      (∀ (t : Slot) (k : Fin 3), windowOn s.image.ticketWindow = true → w.size = 8 →
        a = baseOf s.image.ticketWindow + 32 * t.val + 8 * k.val → (s.ticket t).state ≠ .free →
        exec (.write w) s = .next (s.refusedWith w .ticket)))) ∧
  ∀ (a : Nat) (s : State), s.windowsSound → a % 8 = 0 →
    let page := s.anchor.toNat * 65536
    let im := s.image
    (s.placeOf a = .commandWord ↔ a = page) ∧
    (∀ i, s.placeOf a = .statusBlock i ↔ i < 4 ∧ a = page + 0x40 + 8 * i) ∧
    (∀ loc, s.placeOf a = .setting loc ↔ a = page + offsetOf loc) ∧
    (s.placeOf a = .plain ↔ page ≤ a ∧ a < page + 65536 ∧ a ≠ page ∧ (∀ i < 4, a ≠ page + 0x40 + 8 * i) ∧
      ∀ loc, a ≠ page + offsetOf loc) ∧
    (∀ t, s.placeOf a = .fieldWord t ↔
      windowOn im.ticketWindow = true ∧ ∃ k < 3, a = baseOf im.ticketWindow + 32 * t.val + 8 * k) ∧
    (∀ t, s.placeOf a = .postWord t ↔ windowOn im.ticketWindow = true ∧ a = baseOf im.ticketWindow + 32 * t.val + 24) ∧
    (∀ o, s.placeOf a = .meter o ↔ windowOn im.meterWindow = true ∧ o < 4096 ∧ a = baseOf im.meterWindow + o) ∧
    (∀ b, s.placeOf a = .spool b ↔ inWindow im.spoolWindow (4096 * s.blockBytes) a ∧
      b.val = (a - baseOf im.spoolWindow) / s.blockBytes) ∧
    (s.placeOf a = .elsewhere ↔ ¬s.inPlace a)

/-! ## Settings -/

/-- R10, R24, R25, R27, R28, R85, R87: a window setting word written within its range, unlocked, and overlapping nothing is
captured and forwarded, and nothing else changes; so are the three window words written together, judged on the image that
results from all of them. -/
def Obligations.WindowSettingsAreCaptured : Prop :=
  (∀ (x : WordBytes) (s : State), ∀ loc ∈ [SettingLoc.ticketWindow, .meterWindow, .spoolWindow],
    s.canTake x.tag → x.given →
    let v := x.result s loc
    v &&& ~~~(fieldMask loc) = 0 → (v ≠ s.image.get loc → ¬s.lockHolds v loc) → ¬outOfRange v loc →
    s.apart (s.image.put loc v) (s.relay.ringState != .unset) →
    s.forwards (.windowSettingWrite (x.write loc)) (x.write loc) (s.captured x loc)) ∧
  ∀ (x y z : WordBytes) (s : State), s.canTake x.tag → x.given → y.given → z.given →
    let written : List (SettingLoc × Word) := [(.ticketWindow, x.result s .ticketWindow),
      (.meterWindow, y.result s .meterWindow), (.spoolWindow, z.result s .spoolWindow)]
    let im := written.foldl (fun im w => im.put w.1 w.2) s.image
    let w : SettingWrite :=
      ⟨0x100, 24, x.enables ++ y.enables ++ z.enables, x.data ++ y.data ++ z.data, x.tag⟩
    (∀ w ∈ written, w.2 &&& ~~~(fieldMask w.1) = 0 ∧ (w.2 ≠ s.image.get w.1 → ¬s.lockHolds w.2 w.1) ∧
      ¬outOfRange w.2 w.1) →
    s.apart im (s.relay.ringState != .unset) →
    s.forwards (.windowSettingWrite w) w { s with image := im, out := [] }

/-- R173, R174, R176, R182: a write of the ring base or size code within range and overlapping nothing restarts the ring: it
is RUNNING with both counts 0 and an empty shadow, so ATTN_N is released. A record write in flight is taken back with
its latch when it waits, and dropped with its latch lost when it was granted. -/
def Obligations.RingWritesRestartTheRing : Prop :=
  ∀ (x : WordBytes) (s : State), s.canTake x.tag → x.given → true ∈ x.enables.take 6 →
    let v := x.result s .ring
    let c := s.captured x (.ring)
    let r : Relay := { s.relay with
      ringState := .running, produced := 0, consumed := 0, shadow := [], inFlight := none, attn := false }
    let isRecord (o : Owner) : Bool := o == .record false
    let dropped (g : Granted) : Granted :=
      if isRecord g.request.owner then { g with request := { g.request with owner := .record true } } else g
    v &&& ~~~(fieldMask .ring) = 0 → ¬outOfRange v .ring → s.apart (s.image.put .ring v) true →
    (s.relay.inFlight = none → s.forwards (.ringRestart (x.write .ring)) (x.write .ring) { c with relay := r }) ∧
    ∀ l, s.relay.inFlight = some l →
      ((s.msp.waiting.any fun q => isRecord q.owner) = true →
        s.forwards (.ringRestart (x.write .ring)) (x.write .ring) { c with
          relay := { r with backlog := putBack l s.relay.backlog }
          msp := { s.msp with waiting := s.msp.waiting.filter fun q => !isRecord q.owner } }) ∧
      ((s.msp.waiting.any fun q => isRecord q.owner) = false →
        s.forwards (.ringRestart (x.write .ring)) (x.write .ring) { c with
          relay := r
          msp := { s.msp with outstanding := s.msp.outstanding.map dropped } })

/-- The part after a restart of the ring, `c` being the state with the write captured (R174, R176, R182). -/
def restarted (s c : State) : State :=
  let r : Relay := { s.relay with
    ringState := .running, produced := 0, consumed := 0, shadow := [], inFlight := none, attn := false }
  let isRecord (o : Owner) : Bool := o == .record false
  let dropped (g : Granted) : Granted :=
    if isRecord g.request.owner then { g with request := { g.request with owner := .record true } } else g
  match s.relay.inFlight with
  | none => { c with relay := r }
  | some l =>
    if s.msp.waiting.any fun q => isRecord q.owner then
      { c with
        relay := { r with backlog := putBack l s.relay.backlog }
        msp := { c.msp with waiting := c.msp.waiting.filter fun q => !isRecord q.owner } }
    else { c with relay := r, msp := { c.msp with outstanding := s.msp.outstanding.map dropped } }

/-- R178, R179, R182: a consume index no further from the consumed count than the produced count is captured: the consumed
count becomes the value, and as many classes as the distance leave the head of the shadow. A write that touches the word and
no byte of the index is judged alike (R24), and moves no count (log entry 31). A write of the ring's word and the consume
index's together restarts the ring first, so that only the index 0 is accepted; any other refuses the whole write. -/
def Obligations.ConsumeIndexIsAccepted : Prop :=
  (∀ (x : WordBytes) (s : State), s.canTake x.tag → x.given → true ∈ x.enables.take 2 →
    let v := x.result s .consume
    let d := (consumeOf v - s.relay.consumed).toNat
    let r : Relay := { s.relay with consumed := consumeOf v, shadow := s.relay.shadow.drop d }
    v &&& ~~~(fieldMask .consume) = 0 → d ≤ (s.relay.produced - s.relay.consumed).toNat →
    s.forwards (.consumeIndexWrite (x.write .consume)) (x.write .consume)
      { s.captured x .consume with relay := { r with attn := r.attnLevel } }) ∧
  (∀ (x : WordBytes) (s : State), s.canTake x.tag → x.given → true ∉ x.enables.take 2 →
    let v := x.result s .consume
    v &&& ~~~(fieldMask .consume) = 0 →
    (consumeOf v - s.relay.consumed).toNat ≤ (s.relay.produced - s.relay.consumed).toNat →
    s.forwards (.consumeIndexWrite (x.write .consume)) (x.write .consume) (s.captured x .consume)) ∧
  ∀ (x y : WordBytes) (s : State), s.canTake x.tag → x.given → y.given → true ∈ x.enables.take 6 →
    let v := x.result s .ring
    let k := y.result s .consume
    let w : SettingWrite := ⟨0x140, 16, x.enables ++ y.enables, x.data ++ y.data, x.tag⟩
    ∀ i ∈ [Instr.ringRestart w, .consumeIndexWrite w, .write (s.settingRequest w)],
      (consumeOf k ≠ 0 → exec i s = .next (s.refusedWith (s.settingRequest w) .range)) ∧
      (consumeOf k = 0 → v &&& ~~~(fieldMask .ring) = 0 → k &&& ~~~(fieldMask .consume) = 0 → ¬outOfRange v .ring →
        s.apart (s.image.put .ring v) true →
        s.forwards i w (restarted s { s with image := (s.image.put .ring v).put .consume k, out := [] }))

/-- R116: the capture of a port's enable puts its link into TRAINING, with credits and consecutive-bad count 0, TRAIN handed
and the training timer started for 250 ms. R130, R132: the capture of a port's disable turns its link, engine and status
watch off; the counters and the hold flag are kept, and no frame is handed. -/
def Obligations.EnablesTrainAndDisablesTurnOff : Prop :=
  (∀ (x : WordBytes) (p : PortId) (s : State), s.canTake x.tag → x.given →
    let v := x.result s (.port p)
    portOn (s.portWord p) = false → portOn v = true → v &&& ~~~(fieldMask (.port p)) = 0 → portSilenceMs v ≠ 0 →
    s.forwards (.portEnable (x.write (.port p))) (x.write (.port p)) { (s.captured x (.port p)).modLink p fun l =>
        { l with state := .training, credits := 0, badRun := 0, training := .running s.milliseconds s.microseconds 250 }
      with out := [.frame p Frame.train.wire] }) ∧
  (∀ (x : WordBytes) (p : PortId) (s : State), s.canTake x.tag → x.given →
    let v := x.result s (.port p)
    portOn (s.portWord p) = true → portOn v = false → v &&& ~~~(fieldMask (.port p)) = 0 → portSilenceMs v ≠ 0 →
    (∀ t, ¬(s.ticket t).uses fun m => m.port = p) →
    (∃ t, exec (.portDisable (x.write (.port p))) s = .next t ∧
      (t.port p).engine.state = .idle ∧ (t.port p).link.idle = .stopped) ∧
    s.forwards (.portDisable (x.write (.port p))) (x.write (.port p)) ((s.captured x (.port p)).modPort p fun y =>
      { y with
        link := { y.link with state := .disabled, credits := 0, badRun := 0, training := .stopped,
                              silence := .stopped, idle := .stopped, warm := .stopped, onlineSeen := false }
        engine := { y.engine with state := .idle, job := none, pacer := none, consent := false }
        watch := { bits := 0, conditions := y.watch.conditions.map fun k => { k with truth := false } } }))

/-- R25, R96, R97, R123, R131, R133: a port's settings other than a change of its enable, and its conditions, are captured in
any state. Then the engines are judged again, since a captured frame size changes the frame of R96, and so gate 5 and the
engine's state; and a change of the idle time restarts a running idle timer with the new value, or stops it when that is 0, and
starts it at a quiet READY port when it was 0 before. Past this settling nothing changes at the port. -/
def Obligations.PortSettingsAreCaptured : Prop :=
  ∀ (x : WordBytes) (p : PortId) (s : State), s.canTake x.tag → x.given →
    let v := x.result s (.port p)
    (portOn v = portOn (s.portWord p) → v &&& ~~~(fieldMask (.port p)) = 0 → portSilenceMs v ≠ 0 →
      let c := s.captured x (.port p)
      s.forwards (.portSettingWrite (x.write (.port p))) (x.write (.port p))
        (if portIdleMs v = portIdleMs (s.portWord p) then c else c.modLink p fun l => { l with idle := .stopped }) ∧
      ∃ t, exec (.portSettingWrite (x.write (.port p))) s = .next t ∧
        (portIdleMs v ≠ portIdleMs (s.portWord p) → t.drowsing p →
          (t.port p).link.idle = .running s.milliseconds s.microseconds (portIdleMs v)) ∧
        (portIdleMs v = 0 → (t.port p).link.idle = .stopped)) ∧
    ∀ c : CondId,
      x.result s (.condition p c) &&& ~~~(fieldMask (.condition p c)) = 0 →
      condClassCode (x.result s (.condition p c)) ≠ 3 →
      s.forwards (.portSettingWrite (x.write (.condition p c))) (x.write (.condition p c)) (s.captured x (.condition p c))

/-- R157, R164 to R167: an account's settings, unlocked and in range, are captured; the record is not touched, and the
engines are judged again. -/
def Obligations.AccountSettingsAreCaptured : Prop :=
  ∀ (x : WordBytes) (a : AccountId) (s : State), s.canTake x.tag → x.given →
    let v := x.result s (.account a)
    v &&& ~~~(fieldMask (.account a)) = 0 → ¬s.lockHolds v (.account a) → ¬outOfRange v (.account a) →
    s.forwards (.accountSettingWrite (x.write (.account a))) (x.write (.account a)) (s.captured x (.account a))

/-- The rows that may carry a write of a setting word. -/
def settingRows (w : SettingWrite) (s : State) : List Instr :=
  [.write (s.settingRequest w), .windowSettingWrite w, .ringRestart w, .consumeIndexWrite w, .portEnable w,
    .portDisable w, .portSettingWrite w, .accountSettingWrite w]

/-- R8, R10, R24, R27, R28, R85, R87, R130, R131, R133, R165 to R167, R173, R178: a write of one setting word is refused
whole, LOCKED when it changes a locked setting; otherwise RANGE when an unused bit is set, a changed setting (or the
touched ring word) is out of range, two extents would overlap, or the consume index runs ahead. Nothing of it is
captured or forwarded. -/
def Obligations.BadSettingsAreRefusedWhole : Prop :=
  ∀ (x : WordBytes) (loc : SettingLoc) (s : State), s.canTake x.tag → x.given →
    let v := x.result s loc
    let w := s.settingRequest (x.write loc)
    let changed := (s.image.get loc ^^^ v) &&& fieldMask loc ≠ 0
    let ringTouched := loc = .ring ∧ true ∈ x.enables.take 6
    let locked := changed ∧ s.lockHolds v loc
    let invalid :=
      v &&& ~~~(fieldMask loc) ≠ 0 ∨ ((changed ∨ loc = .ring) ∧ outOfRange v loc) ∨
        ((ringTouched ∨ (changed ∧ loc ∈ [.ticketWindow, .meterWindow, .spoolWindow])) ∧
          ¬s.apart (s.image.put loc v) (loc == .ring || s.relay.ringState != .unset)) ∨
        (loc = .consume ∧
          (s.relay.produced - s.relay.consumed).toNat < (consumeOf v - s.relay.consumed).toNat)
    ∀ i ∈ settingRows (x.write loc) s,
      (locked → exec i s = .next (s.refusedWith w .locked)) ∧
      (¬locked → invalid → exec i s = .next (s.refusedWith w .range))

/-! ## Commands -/

/-- R36, R75: START makes the part RUNNING and clears every quiesce hold. R37, R75: STOP taken while RUNNING sets every
quiesce hold and leaves QUIESCING or STOPPED; otherwise it changes nothing. R71, R73, R93, R145: at either the engines are
judged again, one in JAM_STOP stays there, and one that leaves HELD takes up its line fetches. -/
def Obligations.StartAndStopMoveTheGlobalState : Prop :=
  (∀ (c : CommandWrite) (s : State), s.takes 0x01#8 c →
    ∃ t, exec (.start c) s = .next t ∧ settled { s with
      ctl := { s.ctl with global := .running, lastCode := 0x01, lastResult := .done, taken := s.ctl.taken + 1 }
      ports := s.ports.map fun x => { x with quiesceHold := false }
      out := [.ack c.tag .ok] } t ∧
      ∀ p, (s.port p).engine.state = .jamStop → (t.port p).engine.state = .jamStop) ∧
  (∀ (c : CommandWrite) (s : State), s.takes 0x02#8 c →
    (s.ctl.global = .running →
      ∃ t, exec (.stop c) s = .next t ∧ settled { s with
        ctl := { s.ctl with
          global := if s.anyOpenPage then .quiescing else .stopped
          lastCode := 0x02, lastResult := .done, taken := s.ctl.taken + 1 }
        ports := s.ports.map fun x => { x with quiesceHold := true }
        out := [.ack c.tag .ok] } t ∧
        ∀ p, (s.port p).engine.state = .jamStop → (t.port p).engine.state = .jamStop) ∧
    (s.ctl.global ≠ .running → exec (.stop c) s = .next (s.commanded 0x02 .done c.tag)))

/-- R70, R71, R73, R145: PORT_HOLD sets the hold flag, and an engine with no open page, not in JAM_STOP, at an enabled port is
HELD at once; one in JAM_STOP stays there. PORT_RELEASE clears the flag; a HELD engine with no ticket and no quiesce hold
becomes IDLE, and one with a ticket takes up its line fetches again. -/
def Obligations.HoldAndReleaseMoveTheFlag : Prop :=
  ∀ (c : CommandWrite) (p : PortId) (s : State), c.argument.toNat = p.val →
    (s.takes 0x10#8 c →
      ∃ t, exec (.portHold c) s = .next t ∧
        settledAt p ((s.commanded 0x10 .done c.tag).withHold p true) t ∧
        ((s.port p).engine.state = .jamStop → (t.port p).engine.state = .jamStop) ∧
        ((s.port p).engine.state ≠ .jamStop → (s.port p).hasOpenPage = false → portOn (s.portWord p) = true →
          (t.port p).engine.state = .held)) ∧
    (s.takes 0x11#8 c →
      ∃ t, exec (.portRelease c) s = .next t ∧
        settledAt p ((s.commanded 0x11 .done c.tag).withHold p false) t ∧
        ((s.port p).engine.state = .held → (s.port p).engine.job = none → (s.port p).quiesceHold = false →
          (t.port p).engine.state = .idle))

/-- The JOB raise of a flushed ticket, when its `notify` is on (R57, R74, R172). -/
def addFlushJob (s : State) (t : Slot) (ls : List Latch) : List Latch :=
  match (s.ticket t).mirror with
  | some m =>
    if m.notify then
      addRaise ⟨.job, t.val, s.milliseconds, 1,
        .job t m.jobTag .flush (s.ticket t).delivered (s.ticket t).spoiled⟩ ls
    else ls
  | none => ls

/-- R57, R74, R79: PORT_FLUSH of an empty queue is NOTHING. Otherwise every ticket of the queue becomes CANCELLED with end
reason FLUSH, its guard counts fall, the queue is empty, a JOB alert is raised for each with `notify`, in queue order, and
nothing else changes. -/
def Obligations.FlushCancelsTheQueue : Prop :=
  ∀ (c : CommandWrite) (p : PortId) (s : State), c.argument.toNat = p.val → s.takes 0x12#8 c →
    ((s.port p).queue = [] → exec (.portFlush c) s = .next (s.commanded 0x12 .nothing c.tag)) ∧
    ((s.port p).queue ≠ [] → ((s.port p).queue.map QueueEntry.slot).Nodup →
      let flushed (k : Slot) : Prop := k ∈ (s.port p).queue.map QueueEntry.slot
      ∃ t, exec (.portFlush c) s = .next t ∧ settledAt p { (s.commanded 0x12 .done c.tag).setQueue p [] with
        tickets := .ofFn fun k : Slot =>
          if flushed k then { s.ticket k with state := .cancelled, reason := .flush, resume := none } else s.ticket k
        guards := .ofFn fun b => s.guard b - (s.port p).queue.countP fun e =>
          (s.ticket e.slot).mirror.any fun m =>
            let r := touchedBlocks s.image.spoolWindow m.dataBase m.length
            decide (r.1 ≤ b.val ∧ b.val ≤ r.2)
        relay := { s.relay with
          backlog := (s.port p).queue.foldl (fun ls e => addFlushJob s e.slot ls) s.relay.backlog } } t)

/-- R123, R126, R128: PORT_WAKE by link state; in READY a running idle timer restarts. -/
def Obligations.PortWakeByLinkState : Prop :=
  ∀ (c : CommandWrite) (p : PortId) (s : State), c.argument.toNat = p.val → s.takes 0x13#8 c →
    ((s.port p).link.state = .drowsy →
      ∃ t, exec (.portWake c) s = .next t ∧ settledAt p { (s.commanded 0x13 .done c.tag).modLink p fun l =>
          { l with state := .waking, warm := .running s.milliseconds s.microseconds (portWarmMs (s.portWord p)), onlineSeen := false }
        with out := [.frame p Frame.wake.wire, .ack c.tag .ok] } t) ∧
    ((s.port p).link.state = .ready →
      ∃ t, exec (.portWake c) s = .next t ∧
        settledAt p ((s.commanded 0x13 .done c.tag).modLink p fun l => { l with idle := .stopped }) t ∧
        (t.drowsing p →
          (t.port p).link.idle = .running s.milliseconds s.microseconds (portIdleMs (s.portWord p)))) ∧
    ((s.port p).link.state = .waking → exec (.portWake c) s = .next (s.commanded 0x13 .nothing c.tag)) ∧
    ((s.port p).link.state = .disabled ∨ (s.port p).link.state = .training ∨ (s.port p).link.state = .offline →
      exec (.portWake c) s = .next (s.commanded 0x13 .state c.tag))

/-- R148, R149: PORT_RESUME outside JAM_STOP, or with a JAM truth held, is STATE. Otherwise it is DONE: with the link READY
the jam stop is over and the consent clear, and else the consent is set and waits. -/
def Obligations.PortResumeEndsTheJamStop : Prop :=
  ∀ (c : CommandWrite) (p : PortId) (s : State), c.argument.toNat = p.val → s.takes 0x15#8 c →
    (((s.port p).engine.state ≠ .jamStop ∨ (s.port p).watch.holds .jam = true) →
      exec (.portResume c) s = .next (s.commanded 0x15 .state c.tag)) ∧
    ((s.port p).engine.state = .jamStop → (s.port p).watch.holds .jam = false →
      ∃ t, exec (.portResume c) s = .next t ∧
        settledAt p ((s.commanded 0x15 .done c.tag).modEngine p fun e =>
          if (s.port p).link.state = .ready then { e with state := .idle, consent := false }
          else { e with consent := true }) t ∧
        ((s.port p).link.state ≠ .ready → (t.port p).engine.state = .jamStop) ∧
        ((s.port p).link.state = .ready → (s.port p).engine.job = none →
          (t.port p).engine.state = if portOn (s.portWord p) && (s.port p).onHold then .held else .idle))

/-- R161: QUOTA_SET by policy and value, for an account argument and a value in range. R162: QUOTA_ADD raises `remaining` by
the value and stops at 16,777,215; DONE under every policy; the engines are judged again on the headroom it leaves. -/
def Obligations.QuotaCommandsSetRemaining : Prop :=
  (∀ (c : CommandWrite) (a : AccountId) (s : State), c.argument.toNat = a.val → c.value.toNat ≤ 16777215 →
    s.takes 0x20#8 c →
    ((s.policy a = .none ∨ (s.policy a = .hold ∧ (s.account a).reserved ≤ c.value.toNat) ∨
        (s.policy a = .reload ∧ 1 ≤ c.value.toNat)) →
      ∃ t, exec (.quotaSet c) s = .next t ∧
        settled ((s.commanded 0x20 .done c.tag).modAccount a fun x => { x with remaining := c.value.toNat }) t) ∧
    ((s.policy a = .hold ∧ c.value.toNat < (s.account a).reserved) ∨ (s.policy a = .reload ∧ c.value.toNat = 0) →
      ∃ t, exec (.quotaSet c) s = .next t ∧ settled (s.commanded 0x20 .state c.tag) t)) ∧
  (∀ (c : CommandWrite) (a : AccountId) (s : State), c.argument.toNat = a.val → c.value.toNat ≤ 16777215 →
    s.takes 0x21#8 c →
    ∃ t, exec (.quotaAdd c) s = .next t ∧
      settled ((s.commanded 0x21 .done c.tag).modAccount a fun x =>
        { x with remaining := min (x.remaining + c.value.toNat) 16777215 }) t)

/-- R163: METER_CLEAR sets the three meters of one account, or of all 64, to 0 and changes nothing else. -/
def Obligations.MeterClearZeroesTheMeters : Prop :=
  ∀ (c : CommandWrite) (s : State), s.takes 0x22#8 c →
    (∀ a : AccountId, c.argument.toNat = a.val →
      exec (.meterClear c) s = .next ((s.commanded 0x22 .done c.tag).modAccount a fun x =>
        { x with sent := 0, delivered := 0, spoiled := 0 })) ∧
    (c.argument = 0xFF#8 →
      exec (.meterClear c) s = .next { s.commanded 0x22 .done c.tag with
        accounts := s.accounts.map fun x => { x with sent := 0, delivered := 0, spoiled := 0 } })

/-- R180, R182: ALERT_TAKE pushes the shadow's most urgent class when it is more urgent than the top, or the stack is empty;
otherwise the result is NOTHING. ATTN_N is judged again. -/
def Obligations.AlertTakePushesTheMostUrgent : Prop :=
  ∀ (c : CommandWrite) (s : State), s.takes 0x30#8 c →
    (s.relay.shadow = [] → exec (.alertTake c) s = .next (s.commanded 0x30 .nothing c.tag)) ∧
    ∀ x ∈ s.relay.shadow, (∀ y ∈ s.relay.shadow, x.rank ≤ y.rank) →
      ((s.relay.stack = [] ∨ ∃ top below, s.relay.stack = top :: below ∧ x.rank < top.rank) →
        exec (.alertTake c) s = .next { s.commanded 0x30 .done c.tag with
          relay := { s.relay with stack := x :: s.relay.stack
                                  attn := ({ s.relay with stack := x :: s.relay.stack } : Relay).attnLevel } }) ∧
      ((∃ top below, s.relay.stack = top :: below ∧ top.rank ≤ x.rank) →
        exec (.alertTake c) s = .next (s.commanded 0x30 .nothing c.tag))

/-- R181, R182: ALERT_DONE removes the top class; on an empty stack it changes nothing and the result is STATE. -/
def Obligations.AlertDonePopsTheStack : Prop :=
  ∀ (c : CommandWrite) (s : State), s.takes 0x31#8 c →
    (s.relay.stack = [] → exec (.alertDone c) s = .next (s.commanded 0x31 .state c.tag)) ∧
    ∀ top below, s.relay.stack = top :: below →
      exec (.alertDone c) s = .next { s.commanded 0x31 .done c.tag with
        relay := { s.relay with stack := below, attn := ({ s.relay with stack := below } : Relay).attnLevel } }

/-- The control command rows with their codes (R186). -/
def commandRows : List (Byte × (CommandWrite → Instr)) :=
  [(0x01, .start), (0x02, .stop), (0x10, .portHold), (0x11, .portRelease), (0x12, .portFlush), (0x13, .portWake),
    (0x14, .portReset), (0x15, .portResume), (0x20, .quotaSet), (0x21, .quotaAdd), (0x22, .meterClear),
    (0x30, .alertTake), (0x31, .alertDone)]

/-- R9, R30, R32: a command word whose complement is wrong performs nothing: the record keeps its code and COMPLEMENT, the
commands-taken count stays, and the write is refused. R33, R160, R163: a port argument above 15, an account argument above
63 (but for METER_CLEAR's 0xFF), or a quota value above 16,777,215 is ARG, and nothing is performed. R33, R196: so is a code
that no row has, written to the command word. -/
def Obligations.CommandsTurnedAwayChangeNothingElse : Prop :=
  (∀ row ∈ commandRows, ∀ (c : CommandWrite) (s : State), s.canTake c.tag → c.complement ≠ ~~~row.1 →
    exec (row.2 c) s = .next { s with
      ctl := { s.ctl with lastCode := row.1, lastResult := .complement, refusals := s.ctl.refusals + 1 }
      relay := { s.relay with
        backlog := s.withRefusal (BitVec.ofNat 36 (s.anchor.toNat * 65536)) .complement }
      out := [.ack c.tag .refused] }) ∧
  (∀ (c : CommandWrite) (s : State),
    (∀ row ∈ commandRows, row.1 ∈ [0x10, 0x11, 0x12, 0x13, 0x14, 0x15] → 16 ≤ c.argument.toNat → s.takes row.1 c →
      exec (row.2 c) s = .next (s.commanded row.1 .arg c.tag)) ∧
    (∀ row ∈ commandRows, row.1 ∈ [0x20, 0x21] → 64 ≤ c.argument.toNat ∨ 16777215 < c.value.toNat →
      s.takes row.1 c → exec (row.2 c) s = .next (s.commanded row.1 .arg c.tag)) ∧
    (64 ≤ c.argument.toNat → c.argument ≠ 0xFF#8 → s.takes 0x22#8 c →
      exec (.meterClear c) s = .next (s.commanded 0x22 .arg c.tag))) ∧
  ∀ (code second : Byte) (rest : List Byte) (tag : Tag) (s : State), s.canTake tag → rest.length = 6 →
    code ∉ commandRows.map Prod.fst →
    let page : Addr := BitVec.ofNat 36 (s.anchor.toNat * 65536)
    let w : WriteRequest := ⟨page, 8, List.replicate 8 true, code :: second :: rest, tag⟩
    (second = ~~~code → exec (.write w) s = .next (s.commanded code .arg tag)) ∧
    (second ≠ ~~~code → exec (.write w) s = .next { s with
      ctl := { s.ctl with lastCode := code, lastResult := .complement, refusals := s.ctl.refusals + 1 }
      relay := { s.relay with backlog := s.withRefusal page .complement }
      out := [.ack tag .refused] })

/-! ## Tickets -/

namespace Sys2Proof.Machine

/-- A job code with its complement right is taken at a slot's post word: the port is open, the tag is free, the ticket window
is enabled where its setting may lie (R9, R27, R28, R44). -/
def State.takesJob (s : State) (code : Byte) (w : PostWrite) : Prop :=
  s.canTake w.tag ∧ w.complement = ~~~code ∧ windowOn s.image.ticketWindow = true ∧
    baseOf s.image.ticketWindow % 8192 = 0 ∧
    (s.anchor.toNat * 65536 + 65536 ≤ baseOf s.image.ticketWindow ∨
      baseOf s.image.ticketWindow + 8192 ≤ s.anchor.toNat * 65536)

/-- The address of a slot's post word (R39). -/
def State.postWordAddr (s : State) (t : Slot) : Addr := BitVec.ofNat 36 (baseOf s.image.ticketWindow + 32 * t.val + 24)

/-- A block lies in the extent of a mirror (R77). -/
def State.covers (s : State) (m : Mirror) (b : Fin 4096) : Bool :=
  let size := 16384 * 2 ^ sizeCode s.image.spoolWindow
  let base := baseOf s.image.spoolWindow
  decide ((m.dataBase - base) / size ≤ b.val ∧ b.val ≤ (m.dataBase + m.length - 1 - base) / size)

/-- The backlog after a ticket's ending: a JOB raise when `raised` (R57, R172). -/
def State.withJobAlert (s : State) (t : Slot) (m : Mirror) (reason : Reason) (raised : Bool) : List Latch :=
  if raised then
    addRaise ⟨.job, t.val, s.milliseconds, 1,
      .job t m.jobTag reason (s.ticket t).delivered (s.ticket t).spoiled⟩ s.relay.backlog
  else s.relay.backlog

end Sys2Proof.Machine

/-- R44 to R46: POST in FREE makes the ticket POSTING and places its slot at the tail of the fetch queue; the fetcher reads
the head's 32 bytes when it has no request waiting. R55: RELEASE in DONE, CANCELLED or FAILED makes the ticket FREE with
reason none, mirror absent, position copy 0 page 0 and both page counts 0. -/
def Obligations.PostAndReleaseMoveTheTicket : Prop :=
  (∀ (w : PostWrite) (s : State), s.takesJob 0x41#8 w → (s.ticket w.slot).state = .free →
    let head := s.fetcher.queue.headD w.slot
    exec (.post w) s = .next { s with
      tickets := tset s.tickets w.slot { s.ticket w.slot with state := .posting, reason := .noReason }
      fetcher := { s.fetcher with queue := s.fetcher.queue ++ [w.slot] }
      msp := { s.msp with
        waiting :=
          if s.msp.waiting.any (fun r => r.owner.isTicketFetch) then s.msp.waiting
          else s.msp.waiting ++
            [⟨.ticketFetch head, false, baseOf s.image.ticketWindow + 32 * head.val, 32, [], []⟩] }
      out := [.ack w.tag .ok] }) ∧
  (∀ (w : PostWrite) (s : State), s.takesJob 0x43#8 w → (s.ticket w.slot).state ∈ [.done, .cancelled, .failed] →
    exec (.release w) s = .next { s with
      tickets := tset s.tickets w.slot { s.ticket w.slot with
        state := .free, reason := .noReason, mirror := none, copy := 0, page := 0, delivered := 0, spoiled := 0 }
      out := [.ack w.tag .ok] })

/-- R52, R57, R63, R79: CANCEL in QUEUED takes the ticket out of its queue and ends it CANCELLED; the queue's other tickets
keep their order, its guard counts fall, its mirror and counts stay, and `notify` raises a JOB alert. -/
def Obligations.CancelEndsAQueuedTicket : Prop :=
  ∀ (w : PostWrite) (m : Mirror) (s : State), s.takesJob 0x42#8 w → (s.ticket w.slot).state = .queued →
    (s.ticket w.slot).mirror = some m →
    ∃ t, exec (.cancel w) s = .next t ∧
      settledAt m.port { s.modPort m.port fun x => { x with queue := x.queue.filter fun e => e.slot != w.slot } with
        tickets := tset s.tickets w.slot { s.ticket w.slot with state := .cancelled, reason := .cancel, resume := none }
        guards := .ofFn fun b => if s.covers m b then s.guard b - 1 else s.guard b
        relay := { s.relay with backlog := s.withJobAlert w.slot m .cancel m.notify }
        out := [.ack w.tag .ok] } t

/-- R53, R56, R107, R108: CANCEL in ACTIVE or DRAINING makes the ticket CANCELLING with end reason CANCEL. An engine that
holds it stops: its open page is withdrawn, with CUT when the link is READY; its waiting fetch is taken back, its
granted ones become stopped, and it has no ticket. The ticket's fetch count falls by the fetch taken back, and it is CANCELLED
at once when nothing is left to drain. -/
def Obligations.CancelStopsASentTicket : Prop :=
  ∀ (w : PostWrite) (m : Mirror) (s : State), s.takesJob 0x42#8 w →
    (s.ticket w.slot).state = .active ∨ (s.ticket w.slot).state = .draining → (s.ticket w.slot).mirror = some m →
    (s.inHand m.port ≠ some w.slot → (s.ticket w.slot).entryCount ≠ 0 →
      ∃ t, exec (.cancel w) s = .next t ∧ settled { s with
        tickets := tset s.tickets w.slot { s.ticket w.slot with state := .cancelling, reason := .cancel }
        out := [.ack w.tag .ok] } t) ∧
    (s.inHand m.port = some w.slot → (∀ e, (s.port m.port).openEntry = some e → e.slot = w.slot) →
      (s.port m.port).opensNewestOnly →
      let isOpen := (s.port m.port).openEntry.isSome
      let entries := (s.ticket w.slot).entryCount - if isOpen then 1 else 0
      let fetches := (s.ticket w.slot).fetchCount - s.msp.waiting.countP (·.isFetchOf m.port)
      let drained : Bool := decide (entries = 0 ∧ fetches = 0)
      ∃ t, exec (.cancel w) s = .next t ∧ settled { s with
        ctl := { s.ctl with
          global := if isOpen ∧ s.ctl.global = .quiescing ∧ ∀ q, q ≠ m.port → (s.port q).hasOpenPage = false
            then .stopped else s.ctl.global }
        ports := tset s.ports m.port { s.port m.port with
          pages := if isOpen then (s.port m.port).pages.dropLast else (s.port m.port).pages
          engine := { (s.port m.port).engine with state := .idle, job := none } }
        accounts := .ofFn fun a => if (s.port m.port).openEntry.any fun e => e.account == a then
          { s.account a with reserved := (s.account a).reserved - 1 } else s.account a
        tickets := tset s.tickets w.slot { s.ticket w.slot with
          state := if drained then .cancelled else .cancelling
          reason := .cancel
          entryCount := entries
          fetchCount := fetches
          sending := false
          resume := if drained then none else (s.ticket w.slot).resume }
        guards := .ofFn fun b => if drained && s.covers m b then s.guard b - 1 else s.guard b
        msp := { s.msp with
          waiting := s.msp.waiting.filter fun r => !r.isFetchOf m.port
          outstanding := s.msp.outstanding.map (Granted.remark m.port (.stopped w.slot)) }
        relay := { s.relay with backlog := s.withJobAlert w.slot m .cancel (drained && m.notify) }
        out := (if isOpen && (s.port m.port).link.state == .ready then [.frame m.port Frame.cut.wire] else []) ++
          [.ack w.tag .ok] } t)

/-- R9, R30, R44, R54: a job code in a state that does not take it is a post-word fault: ACK OK, a REFUSAL with reason STATE,
and nothing else. One whose complement is wrong is refused. A code that is none of the three, written to a post word, is a
post-word fault with reason ARG. -/
def Obligations.JobCodesOutOfPlaceChangeNoTicket : Prop :=
  (∀ row ∈ [((0x41 : Byte), Instr.post, [TicketState.free]), (0x42, .cancel, [.queued, .active, .draining]),
      (0x43, .release, [.done, .cancelled, .failed])],
    ∀ (w : PostWrite) (s : State), s.takesJob row.1 { w with complement := ~~~row.1 } →
    (w.complement = ~~~row.1 → (s.ticket w.slot).state ∉ row.2.2 →
      exec (row.2.1 w) s = .next { s with
        relay := { s.relay with
          backlog := addRaise ⟨.refusal, 0, s.milliseconds, 1,
            .refusal (s.postWordAddr w.slot) .state s.ctl.refusals⟩ s.relay.backlog }
        out := [.ack w.tag .ok] }) ∧
    (w.complement ≠ ~~~row.1 →
      exec (row.2.1 w) s = .next { s with
        ctl := { s.ctl with refusals := s.ctl.refusals + 1 }
        relay := { s.relay with backlog := s.withRefusal (s.postWordAddr w.slot) .complement }
        out := [.ack w.tag .refused] })) ∧
  ∀ (code second : Byte) (rest : List Byte) (k : Slot) (tag : Tag) (s : State), rest.length = 6 →
    code ∉ [(0x41 : Byte), 0x42, 0x43] → s.takesJob code ⟨k, ~~~code, 0, tag⟩ →
    let w : WriteRequest := ⟨s.postWordAddr k, 8, List.replicate 8 true, code :: second :: rest, tag⟩
    (second = ~~~code → exec (.write w) s = .next { s with
      relay := { s.relay with
        backlog := addRaise ⟨.refusal, 0, s.milliseconds, 1, .refusal (s.postWordAddr k) .arg s.ctl.refusals⟩
          s.relay.backlog }
      out := [.ack tag .ok] }) ∧
    (second ≠ ~~~code → exec (.write w) s = .next (s.refusedWith w .complement))

/-! ## The memory side -/

namespace Sys2Proof.Machine

/-- A waiting request is not held back: no request to its line became ready before it (R16). -/
def Msp.isFirst (m : Msp) (i : Nat) (r : MemRequest) : Prop :=
  m.waiting[i]? = some r ∧ ∀ j < i, ∀ q, m.waiting[j]? = some q → q.addr / 64 ≠ r.addr / 64

/-- The head of the passing queue (R15). -/
def Msp.isHead (m : Msp) (i : Nat) (r : MemRequest) : Prop :=
  m.waiting[i]? = some r ∧ r.owner.isPassing = true ∧
    ∀ j < i, ∀ q, m.waiting[j]? = some q → q.owner.isPassing = false

/-- The order of the part's own requesters, after the last engine granted (R17). -/
def ownRank (last : PortId) : Owner → Nat
  | .record _ => 0
  | .ticketFetch _ => 1
  | .sweep => 2
  | .lineFetch p _ _ _ => 3 + (p.val + 15 - last.val) % 16
  | .passing _ _ => 19

end Sys2Proof.Machine

/-- R16, R17: the choice of a grant. With 48 tags taken there is none. The head of the passing queue has its turn while no own
request counts as waiting or the run count is below 4; when it is held back, the earliest request to its line is granted
in its place, whatever the run count. Otherwise the first own requester in order. -/
def Obligations.GrantsFollowTheArbiter : Prop :=
  ∀ m : Msp, (∀ r ∈ m.waiting, r.owner ≠ .record true) →
    let ownWaits := ∃ i r, m.isFirst i r ∧ r.owner.isPassing = false
    (48 ≤ m.outstanding.length → m.choice = none) ∧ (m.waiting = [] → m.choice = none) ∧
    (m.outstanding.length < 48 →
      (∀ i r, m.isHead i r → ¬ownWaits ∨ m.runCount < 4 ∨ ¬m.isFirst i r →
        ∃ j q, j ≤ i ∧ m.isFirst j q ∧ q.addr / 64 = r.addr / 64 ∧ m.choice = some q) ∧
      (ownWaits → (∀ i r, m.isHead i r → 4 ≤ m.runCount ∧ m.isFirst i r) →
        ∃ i r, m.isFirst i r ∧ r.owner.isPassing = false ∧ m.choice = some r ∧
          ∀ j q, m.isFirst j q → q.owner.isPassing = false → ownRank m.lastEngine r.owner ≤ ownRank m.lastEngine q.owner))

/-- R17, R18, R22, R46, R93: a grant hands the chosen request to memory, takes a tag, and sets the run count and the last
engine; the requester then presents its next request. -/
def Obligations.AGrantHandsTheRequest : Prop :=
  ∀ (s : State) (r : MemRequest),
    (s.msp.choice = none → exec .memoryGrant s = .next { s with out := [] }) ∧
    (s.msp.choice = some r →
      let ownWaits : Bool := !s.msp.ownWaiting.isEmpty
      let slotRead (h : Slot) : MemRequest :=
        ⟨.ticketFetch h, false, baseOf s.image.ticketWindow + 32 * h.val, 32, [], []⟩
      let t : State := { s with
        msp := {
          waiting := s.msp.waiting.erase r
          outstanding := s.msp.outstanding ++ [⟨s.msp.nextGrant, r⟩]
          nextGrant := s.msp.nextGrant + 1
          runCount := if r.owner.isPassing && ownWaits then s.msp.runCount + 1 else 0
          lastEngine := match r.owner with | .lineFetch p _ _ _ => p | _ => s.msp.lastEngine }
        out := [.memory s.msp.nextGrant r] }
      (r.owner.isPassing = true ∨ r.owner.isRecord = true → exec .memoryGrant s = .next t) ∧
      (∀ p mark copy off, r.owner = .lineFetch p mark copy off → ∃ u, exec .memoryGrant s = .next u ∧ settledAt p t u) ∧
      (∀ k rest, r.owner.isTicketFetch = true → s.fetcher.queue = k :: rest →
        t.msp.waiting.any (fun q => q.owner.isTicketFetch) = false →
        exec .memoryGrant s = .next { t with
          fetcher := { queue := rest, inFlight := s.fetcher.inFlight ++ [⟨k, none⟩] }
          msp := { t.msp with waiting := t.msp.waiting ++ rest.head?.toList.map slotRead } }) ∧
      (r.owner.isSweep = true → exec .memoryGrant s = .next { t with
        sweep := { s.sweep with
          presented := if s.sweep.presented < 28 then s.sweep.presented + 1 else s.sweep.presented }
        msp := { t.msp with waiting :=
          t.msp.waiting ++ (sweepLines[s.sweep.presented]?).toList.map s.sweepRequest } }))

/-- R92, R93: when an engine's fetch is granted it presents the next line of the sequence, a 64-byte read at a line-aligned
address, unless it is HELD, its buffer and current fetches make up 32 lines, or it has 8 fetches outstanding; the ticket's
fetch count rises by one, and the cursor moves on to the next line, the next copy, or the end. -/
def Obligations.EnginesPresentTheNextLine : Prop :=
  ∀ (r : MemRequest) (p : PortId) (mark : FetchMark) (copy off : Nat) (j : Job) (c : Cursor) (s : State),
    s.msp.choice = some r → r.owner = .lineFetch p mark copy off → (s.port p).engine.job = some j →
    j.cursor = some c → (∀ q ∈ s.msp.waiting.erase r, q.isFetchOf p = false) →
    let current := s.msp.outstanding.countP (fun g => g.request.isCurrentFetchOf p) + if mark = .current then 1 else 0
    let all := s.msp.outstanding.countP (fun g => g.request.isFetchOf p) + 1
    let line := (j.dataBase + c.offset) / 64
    let next := (line + 1) * 64 - j.dataBase
    ∃ u, exec .memoryGrant s = .next u ∧
      (s.judged p ≠ .held → j.buffer.length + current < 32 → all < 8 →
        u.msp.waiting = s.msp.waiting.erase r ++
          [⟨.lineFetch p .current c.copy c.offset, false, line * 64, 64, [], []⟩] ∧
        (u.ticket j.slot).fetchCount = (s.ticket j.slot).fetchCount + 1 ∧
        (u.port p).engine.job = some { j with
          cursor :=
            if next < j.length then some ⟨c.copy, next⟩
            else if c.copy < j.copies then some ⟨c.copy + 1, 0⟩
            else none }) ∧
      (s.judged p = .held ∨ 32 ≤ j.buffer.length + current ∨ 8 ≤ all →
        u.msp.waiting = s.msp.waiting.erase r ∧ u.tickets = s.tickets ∧ (u.port p).engine.job = some j)

/-- R5, R14, R15: an answer to a passing request is relayed under the host's tag and frees it: a write's status; a read's
data, word by word: the eight bytes taken at arrival for a substituted word, memory's eight bytes for a PASS word, and zero
for a PASS word of a straddling read after ERROR. A half is kept until both have come; the two parts' data are joined in
address order, and ERROR in either is ERROR. (Data shorter or longer than its request is log entry 19.) -/
def Obligations.PassingAnswersAreRelayed : Prop :=
  ∀ (a : MemoryAnswer) (g : Granted) (rest : List Granted) (tag : Tag) (half : Half) (r : PspRecord) (s : State),
    s.awaits g rest → a.grant = g.id → g.request.owner = .passing tag half → s.record tag = some r →
    g.request.isWrite = r.isWrite →
    let data := if r.isWrite then [] else padTo g.request.size a.data
    let t : State := { s with msp := { s.msp with outstanding := rest }, out := [] }
    let straddles : Bool := r.subst.any Option.isSome
    let shown (ok : Bool) (bytes : List Byte) (i : Nat) : List Byte :=
      match r.subst[i]? with
      | some (some taken) => taken
      | _ => if straddles && !ok then List.replicate 8 0 else padTo 8 (bytes.drop (8 * i))
    let closed (ok : Bool) (bytes : List Byte) : State := { t with
      psp := { s.psp with records := tset s.psp.records tag none }
      out := [if r.isWrite then .ack tag (if ok then .ok else .error)
        else .data tag ok ((List.range r.subst.length).flatMap (shown ok bytes))] }
    let kept (parts : Parts) : State := { t with
      psp := { s.psp with records := tset s.psp.records tag (some { r with parts := parts }) } }
    (r.parts = .whole → exec (.passingResponse a) s = .next (closed a.ok data)) ∧
    ∀ x y, r.parts = .halves x y →
      (half = .first → y = none → exec (.passingResponse a) s = .next (kept (.halves (some ⟨a.ok, data⟩) none))) ∧
      (half = .second → x = none → exec (.passingResponse a) s = .next (kept (.halves none (some ⟨a.ok, data⟩)))) ∧
      (∀ z, half = .first → y = some z →
        exec (.passingResponse a) s = .next (closed (a.ok && z.ok) (data ++ z.data))) ∧
      (∀ z, half = .second → x = some z →
        exec (.passingResponse a) s = .next (closed (z.ok && a.ok) (z.data ++ data)))

namespace Sys2Proof.Machine

/-- The reason of the first check that a posting fetch's answer fails, or none (R48). -/
def State.firstFailing (s : State) (a : KeptAnswer) : Reason :=
  let m := parseSlot a.data
  let window := s.image.spoolWindow
  if a.ok = false then .memoryReject
  else if windowOn window = false ∨ m.length = 0 ∨ 67108864 < m.length ∨ m.dataBase < baseOf window ∨
    baseOf window + spoolSize window < m.dataBase + m.length then .extent
  else if portOn (s.portWord m.port) = false then .port
  else if accountOn (s.accountWord m.account) = false then .account
  else if m.copies = 0 then .copies
  else if m.markRule = 4#3 ∨ m.markRule = 5#3 ∨ m.markRule = 6#3 then .rule
  else .noReason

/-- One judgement: a rejected ticket is FREE with its reason and a JOB alert; an accepted one is QUEUED with its mirror,
its guard counts up by one, and its place in its port's queue (R49, R50, R61, R78). -/
def State.afterJudging (s : State) (k : Slot) (a : KeptAnswer) : State :=
  let m := parseSlot a.data
  let reason := s.firstFailing a
  if reason ≠ .noReason then
    { s with
      tickets := tset s.tickets k { s.ticket k with state := .free, reason := reason }
      relay := { s.relay with
        backlog := addRaise ⟨.job, k.val, s.milliseconds, 1,
          .job k (if a.ok then m.jobTag else 0) reason 0 0⟩ s.relay.backlog } }
  else
    { s.modPort m.port fun x =>
        { x with
          queue :=
            if m.urgent then
              x.queue.takeWhile (fun e => e.mark != .normal) ++ ⟨k, .urgent⟩ ::
                x.queue.dropWhile (fun e => e.mark != .normal)
            else x.queue ++ [⟨k, .normal⟩] } with
      tickets := tset s.tickets k { Ticket.reset with state := .queued, mirror := some m }
      guards := .ofFn fun b => if s.covers m b then s.guard b + 1 else s.guard b }

/-- The slots whose answers have come, judged one after another in POST order. Between two judgements dispatch acts at the
port of a ticket just accepted, as ACTIVATION does (R47, R61, R65). -/
def State.afterRun (s : State) : List (Slot × KeptAnswer) → State
  | [] => s
  | [(k, a)] => s.afterJudging k a
  | (k, a) :: next :: run =>
    let v := s.afterJudging k a
    let acted :=
      if s.firstFailing a = .noReason then
        match exec (.activation (parseSlot a.data).port) v with
        | .next u => u
        | _ => v
      else v
    acted.afterRun (next :: run)

end Sys2Proof.Machine

/-- R47 to R50, R61, R78: an answered posting fetch at any place of the in-flight list behind the unanswered head is only kept
(that an in-flight list's head is unanswered every step keeps: StepsKeepTheTicketLaws). At the head it is judged, and so,
one after another, is every next head whose answer has come: by the first check that fails the ticket returns to FREE with
that reason and a JOB alert; when none fails it is QUEUED with its mirror, its guard counts up by one, and its place in its
port's queue. Dispatch acts at an accepted ticket's port before the next head is judged. (That the last accepted ticket's
activation is a step of its own is the model's choice: log entry 32.) -/
def Obligations.PostingFetchesAreJudgedInOrder : Prop :=
  ∀ (a : MemoryAnswer) (g : Granted) (rest : List Granted) (k : Slot) (run : List (Slot × KeptAnswer))
    (xs : List InFlight) (s : State),
    s.awaits g rest → a.grant = g.id → g.request.owner = .ticketFetch k → g.request.isWrite = false →
    g.request.size = 32 → (∀ x ∈ xs, x.slot ≠ k) → (∀ x ∈ run, x.1 ≠ k) →
    (∀ x, xs.head? = some x → x.answer = none) →
    let here : KeptAnswer := ⟨a.ok, padTo 32 a.data⟩
    let behind : List InFlight := (run.map fun x => ⟨x.1, some x.2⟩) ++ xs
    let t : State := { s with msp := { s.msp with outstanding := rest }, out := [] }
    (∀ y ahead, y.answer = none → (∀ x ∈ y :: ahead, x.slot ≠ k) →
      s.fetcher.inFlight = y :: (ahead ++ ⟨k, none⟩ :: behind) →
      ∃ u, exec (.ticketFetchAnswer a) s = .next u ∧
        settled { t with fetcher := { s.fetcher with inFlight := y :: (ahead ++ ⟨k, some here⟩ :: behind) } } u) ∧
    (s.fetcher.inFlight = ⟨k, none⟩ :: behind →
      ∃ u, exec (.ticketFetchAnswer a) s = .next u ∧
        settled (State.afterRun { t with fetcher := { s.fetcher with inFlight := xs } } ((k, here) :: run)) u)

/-- R40, R189: a fetched slot's fields, from its bytes, little-endian; bits that carry no field are not copied. -/
def Obligations.SlotBytesCarryTheFields : Prop :=
  ∀ (b0 b1 b2 b3 b4 b5 b6 b7 l0 l1 l2 l3 n r u z p a x y t0 t1 t2 t3 : Byte)
    (rest : List Byte),
    let m := parseSlot ([b0, b1, b2, b3, b4, b5, b6, b7, l0, l1, l2, l3, n, r, u, z, p, a, x, y, t0, t1, t2, t3] ++
      rest)
    m.dataBase = b0.toNat + 256 * (b1.toNat + 256 * (b2.toNat + 256 * (b3.toNat + 256 * (b4.toNat % 16)))) ∧
    m.length = l0.toNat + 256 * (l1.toNat + 256 * (l2.toNat + 256 * l3.toNat)) ∧
    m.copies = n.toNat ∧ m.markRule.toNat = r.toNat % 8 ∧ m.urgent = u.getLsbD 0 ∧ m.notify = u.getLsbD 1 ∧
    m.port.val = p.toNat % 16 ∧ m.account.val = a.toNat % 64 ∧
    m.jobTag.toNat = t0.toNat + 256 * (t1.toNat + 256 * (t2.toNat + 256 * t3.toNat))

/-- R93 to R95, R107, R109, R110: a current line answered OK enters the buffer and lowers the ticket's fetch count by one. At any
answer the engine presents its next line as soon as its limits allow, which raises the count again. A current line answered ERROR makes the ticket FAILING with end
reason MEMORY and stops its engine: its open page is withdrawn, with CUT when the link is READY, its waiting fetch is taken
back, its granted ones become stopped, and the ticket is FAILED at once when nothing is left to drain. A stopped line only
lowers its ticket's fetch count, and may complete its drain; a stale one is discarded. -/
def Obligations.LineAnswersActByTheirMark : Prop :=
  ∀ (f : MemoryAnswer) (g : Granted) (rest : List Granted) (p : PortId) (mark : FetchMark) (copy off : Nat)
    (s : State), s.awaits g rest → f.grant = g.id → g.request.owner = .lineFetch p mark copy off →
    g.request.isWrite = false → g.request.size = 64 →
    let t : State := { s with msp := { s.msp with outstanding := rest }, out := [] }
    (mark = .stale → ∃ u, exec (.lineFetchAnswer f) s = .next u ∧ settledAt p t u) ∧
    (∀ k, mark = .stopped k →
      let counted : Ticket := { s.ticket k with fetchCount := (s.ticket k).fetchCount - 1 }
      let draining : Prop := (s.ticket k).state = .cancelling ∨ (s.ticket k).state = .failing
      let drained : Prop := (s.ticket k).entryCount = 0 ∧ (s.ticket k).fetchCount ≤ 1 ∧ (s.ticket k).sending = false
      (¬draining ∨ ¬drained →
        ∃ u, exec (.lineFetchAnswer f) s = .next u ∧ settledAt p { t with tickets := tset s.tickets k counted } u) ∧
      ∀ m, draining → drained → (s.ticket k).mirror = some m →
        let failed := (s.ticket k).state == .failing
        let reason : Reason := if failed then .memoryEnd else .cancel
        ∃ u, exec (.lineFetchAnswer f) s = .next u ∧ settledAt p { t with
          tickets := tset s.tickets k { counted with
            state := if failed then .failed else .cancelled, reason := reason, resume := none }
          guards := .ofFn fun b => if s.covers m b then s.guard b - 1 else s.guard b
          relay := { s.relay with backlog := s.withJobAlert k m reason (failed || m.notify) } } u) ∧
    (∀ j, mark = .current → (s.port p).engine.job = some j → f.ok = true →
      let skip := (j.dataBase + off) % 64
      let line : BufferLine := ⟨copy, off, ((padTo 64 f.data).drop skip).take (j.length - off)⟩
      ∃ u, exec (.lineFetchAnswer f) s = .next u ∧
        settledAt p { t.setJob p (some { j with buffer := insertLine line j.buffer }) with
          tickets := tset s.tickets j.slot
            { s.ticket j.slot with fetchCount := (s.ticket j.slot).fetchCount - 1 } } u) ∧
    (∀ j m, mark = .current → (s.port p).engine.job = some j → f.ok = false → (s.ticket j.slot).mirror = some m →
      (∀ e, (s.port p).openEntry = some e → e.slot = j.slot) → (s.port p).opensNewestOnly →
      let k := j.slot
      let isOpen := (s.port p).openEntry.isSome
      let entries := (s.ticket k).entryCount - if isOpen then 1 else 0
      let fetches := (s.ticket k).fetchCount - 1 - s.msp.waiting.countP (·.isFetchOf p)
      let drained : Bool := decide (entries = 0 ∧ fetches = 0)
      ∃ u, exec (.lineFetchAnswer f) s = .next u ∧ settled { s with
        ctl := { s.ctl with
          global := if isOpen ∧ s.ctl.global = .quiescing ∧ ∀ q, q ≠ p → (s.port q).hasOpenPage = false
            then .stopped else s.ctl.global }
        ports := tset s.ports p { s.port p with
          pages := if isOpen then (s.port p).pages.dropLast else (s.port p).pages
          engine := { (s.port p).engine with state := .idle, job := none } }
        accounts := .ofFn fun a => if (s.port p).openEntry.any fun e => e.account == a then
          { s.account a with reserved := (s.account a).reserved - 1 } else s.account a
        tickets := tset s.tickets k { s.ticket k with
          state := if drained then .failed else .failing
          reason := .memoryEnd
          entryCount := entries
          fetchCount := fetches
          sending := false
          resume := if drained then none else (s.ticket k).resume }
        guards := .ofFn fun b => if drained && s.covers m b then s.guard b - 1 else s.guard b
        msp := { s.msp with
          waiting := s.msp.waiting.filter fun r => !r.isFetchOf p
          outstanding := rest.map (Granted.remark p (.stopped k)) }
        relay := { s.relay with backlog := s.withJobAlert k m .memoryEnd drained }
        out := if isOpen && (s.port p).link.state == .ready then [.frame p Frame.cut.wire] else [] } u)

/-- R175, R193: the ring writer picks the first latch of the backlog when the ring is RUNNING, no record write is in flight and
the ring has room: the latch leaves the backlog, and the 32 bytes of its record are presented at the produced count's slot.
In a backlog in the order that every step keeps, with sources in their range, it is the latch of the most urgent class, and
of that class the one with the lowest source. The sixteen detail bytes are those of its class. -/
def Obligations.TheWriterPicksTheFirstLatch : Prop :=
  (∀ s : State,
    let records := 16 * 2 ^ sizeCode s.image.ring
    let mayPick := s.relay.ringState = .running ∧ s.relay.inFlight = none ∧
      (s.relay.produced - s.relay.consumed).toNat < records
    (∀ l rest, s.relay.backlog = l :: rest → mayPick →
      exec .recordWritePick s = .next { s with
        msp := { s.msp with
          waiting := s.msp.waiting ++ [⟨.record false, true, baseOf s.image.ring + 32 * (s.relay.produced.toNat % records), 32,
            List.replicate 32 true,
            leBytes 2 s.relay.produced.toNat ++ [BitVec.ofNat 8 l.cls.rank, 0] ++ leBytes 2 l.source ++
              leBytes 2 l.occurrences ++ leBytes 4 l.time.toNat ++ [0, 0, 0, 0] ++ l.detail.bytes⟩] }
        relay := { s.relay with backlog := rest, inFlight := some l }
        out := [] } ∧
      (s.backlogOrdered → (∀ k ∈ s.relay.backlog, k.source < 256) → ∀ k ∈ rest,
        l.cls.rank < k.cls.rank ∨ (l.cls = k.cls ∧ l.source < k.source))) ∧
    (s.relay.backlog = [] ∨ ¬mayPick → exec .recordWritePick s = .next { s with out := [] })) ∧
  ((∀ (cause : Cause) (bits : BitVec 16) (slot : Option Slot),
    (Detail.printer cause bits slot).bytes =
      [match cause with | .condition c => BitVec.ofNat 8 c.val | .link => 0xFF#8, 0] ++ leBytes 2 bits.toNat ++
        (match slot with | some k => [BitVec.ofNat 8 k.val, 0#8] | none => [0xFF#8, 0xFF#8]) ++ List.replicate 10 0) ∧
  (∀ (remaining : Nat) (policy : Policy),
    (Detail.quota remaining policy).bytes = leBytes 3 remaining ++
      [match policy with | .none => 0#8 | .hold => 1#8 | .reload => 2#8] ++ List.replicate 12 0) ∧
  (∀ (addr : Addr) (reason : RefusalReason) (count : BitVec 32),
    (Detail.refusal addr reason count).bytes = leBytes 5 addr.toNat ++
      [match reason with
        | .shape => 1#8 | .subst => 2#8 | .ticket => 3#8 | .guard => 4#8 | .locked => 5#8 | .range => 6#8
        | .complement => 7#8 | .arg => 8#8 | .state => 9#8, 0, 0] ++ leBytes 4 count.toNat ++ List.replicate 4 0) ∧
  ∀ (k : Slot) (jobTag : BitVec 32) (reason : Reason) (delivered spoiled : Nat),
    (Detail.job k jobTag reason delivered spoiled).bytes =
      [BitVec.ofNat 8 k.val, match reason with
        | .noReason => 0#8 | .extent => 1#8 | .port => 2#8 | .account => 3#8 | .copies => 4#8 | .rule => 5#8
        | .memoryReject => 6#8 | .complete => 0x81#8 | .cancel => 0x82#8 | .flush => 0x83#8 | .memoryEnd => 0x84#8] ++
        leBytes 2 spoiled ++ leBytes 4 jobTag.toNat ++ leBytes 3 delivered ++ List.replicate 5 0)

/-- R176, R177, R179, R182: an answered record write is no longer in flight. OK: the produced count rises and the class joins
the shadow's tail. ERROR: the ring is FAULTED and the latch returns to the backlog. The answer to a dropped write is
discarded. ATTN_N is judged again. R171, R177: a raise or a returning latch whose class and source the backlog does not hold
joins it; a raise of one it holds is one more occurrence, and a returning latch keeps its own time and detail and adds the
occurrences of the latch formed since, each stopping at 65,535. -/
def Obligations.RecordAnswersCompleteOrFault : Prop :=
  (∀ (g : Granted) (rest : List Granted) (ok dropped : Bool) (s : State), s.awaits g rest →
    g.request.owner = .record dropped →
    let t : State := { s with msp := { s.msp with outstanding := rest }, out := [] }
    (dropped = true → exec (.alertWriteAnswer g.id ok) s = .next t) ∧
    ∀ l, dropped = false → s.relay.inFlight = some l →
      (ok = true →
        let r : Relay := { s.relay with
          inFlight := none, produced := s.relay.produced + 1, shadow := s.relay.shadow ++ [l.cls] }
        exec (.alertWriteAnswer g.id ok) s = .next { t with relay := { r with attn := r.attnLevel } }) ∧
      (ok = false →
        exec (.alertWriteAnswer g.id ok) s = .next { t with relay := { s.relay with
          inFlight := none, ringState := .faulted, backlog := putBack l s.relay.backlog, attn := true } })) ∧
  ∀ (new : Latch) (ls : List Latch), ls.Pairwise (fun a b => a.key < b.key) → (∀ l ∈ new :: ls, l.source < 256) →
    let same (l : Latch) : Bool := l.cls == new.cls && l.source == new.source
    let joins (result : List Latch) : Prop := result.Perm (new :: ls) ∧ result.Pairwise fun a b => a.key < b.key
    (ls.any same = false → joins (addRaise new ls) ∧ joins (putBack new ls)) ∧
    (ls.any same = true →
      addRaise new ls = ls.map (fun l =>
        if same l then { l with occurrences := min (l.occurrences + 1) 65535 } else l) ∧
      putBack new ls = ls.map fun l =>
        if same l then { new with occurrences := min (new.occurrences + l.occurrences) 65535 } else l)

/-! ## Dispatch and the engines -/

namespace Sys2Proof.Machine

/-- A queued ticket is startable: its account would grant a reservation (R64, R156). -/
def State.canStart (s : State) (t : Slot) : Prop :=
  ∃ m, (s.ticket t).mirror = some m ∧
    (s.policy m.account = .hold → (s.account m.account).reserved < (s.account m.account).remaining)

/-- The conditions of R65 and R69, but for the link's state and a startable ticket. -/
def State.dispatches (s : State) (p : PortId) : Prop :=
  s.ctl.global = .running ∧ portOn (s.portWord p) = true ∧ (s.port p).holdFlag = false ∧
    (s.port p).engine.state = .idle

/-- What an engine takes at activation (R91). -/
def State.takenJob (s : State) (t : Slot) (m : Mirror) : Job :=
  let r := match (s.ticket t).resume with | some r => r | none => ⟨1, 1, 0⟩
  { slot := t, dataBase := m.dataBase, length := m.length, copies := m.copies, account := m.account,
    rule := if m.markRule.toNat < 4 then some (markRuleOf (tget s.image.markRules (Fin.ofNat 4 m.markRule.toNat)))
      else none,
    copy := r.copy, page := r.page, offset := r.offset, next := r.offset, buffer := [], cursor := none, lead := false }

end Sys2Proof.Machine

/-- R64 to R66, R69, R91, R126: with R65's conditions dispatch activates the first startable ticket in queue order: it leaves
the queue, becomes ACTIVE, and the engine takes it at its resume point or its start. R91 to R93: the cursor starts at the line
that holds the position's byte in the position's copy, and that line is presented at once, with the fetch count 1, unless
the engine is HELD, a fetch of the port still waits, or eight are outstanding. When the link is DROWSY instead,
dispatch's wake cause makes it WAKING. Otherwise nothing happens. -/
def Obligations.DispatchStartsTheFirstStartable : Prop :=
  ∀ (p : PortId) (s : State),
    (∀ ahead t mark behind m, s.dispatches p → (s.port p).link.state = .ready →
      (s.port p).queue = ahead ++ ⟨t, mark⟩ :: behind → (∀ e ∈ ahead, ¬s.canStart e.slot) → s.canStart t →
      (s.ticket t).mirror = some m →
      let j := s.takenJob t m
      ∃ u, exec (.activation p) s = .next u ∧
        settledAt p { s.modPort p fun x =>
            { x with queue := x.queue.filter fun e => e.slot != t, engine := { x.engine with
              job := some { j with cursor := some ⟨j.copy, j.next⟩ } } } with
          tickets := tset s.tickets t { s.ticket t with
            state := .active, resume := none, fetchCount := 0, sending := true, copy := j.copy, page := j.page }
          out := [] } u ∧
        let line := (j.dataBase + j.next) / 64
        let second := (line + 1) * 64 - j.dataBase
        let held := (s.port p).quiesceHold = true ∧ (s.port p).hasOpenPage = false
        let fetches := s.msp.outstanding.countP fun g => g.request.isFetchOf p
        (¬held → (∀ q ∈ s.msp.waiting, q.isFetchOf p = false) → fetches < 8 →
          u.msp.waiting = s.msp.waiting ++
            [⟨.lineFetch p .current j.copy j.next, false, line * 64, 64, [], []⟩] ∧
          (u.ticket t).fetchCount = 1 ∧
          (u.port p).engine.job = some { j with
            cursor :=
              if second < j.length then some ⟨j.copy, second⟩
              else if j.copy < j.copies then some ⟨j.copy + 1, 0⟩
              else none }) ∧
        (held ∨ (∃ q ∈ s.msp.waiting, q.isFetchOf p = true) ∨ 8 ≤ fetches →
          u.msp.waiting = s.msp.waiting ∧ (u.ticket t).fetchCount = 0 ∧
          (u.port p).engine.job = some { j with cursor := some ⟨j.copy, j.next⟩ })) ∧
    (¬(s.dispatches p ∧ (s.port p).link.state = .ready ∧ ∃ e ∈ (s.port p).queue, s.canStart e.slot) →
      exec (.activation p) s = .next { s with out := [] }) ∧
    (s.dispatches p → (s.port p).link.state = .drowsy → (∃ e ∈ (s.port p).queue, s.canStart e.slot) →
      ∃ u, exec (.wakeCause p) s = .next u ∧ settledAt p { s.modLink p fun l =>
          { l with state := .waking, warm := .running s.milliseconds s.microseconds (portWarmMs (s.portWord p)), onlineSeen := false }
        with out := [.frame p Frame.wake.wire] } u) ∧
    (¬(s.dispatches p ∧ (s.port p).link.state = .drowsy ∧ ∃ e ∈ (s.port p).queue, s.canStart e.slot) →
      exec (.wakeCause p) s = .next { s with out := [] })

/-- R97: whenever a gate fails nothing is sent, and the engine is in the state of the first gate that fails. R71, R90, R97, R145:
the state an engine is judged to have, at every event that settles its port: JAM_STOP exactly when it is in JAM_STOP; with no
ticket in hand HELD under a hold at an enabled port, and otherwise IDLE; with a ticket that of the first gate that fails, and
SENDING when all pass. (What `nextFrame` is stands in FramesEndAtTheRightByte.) -/
def Obligations.TheFirstFailingGateBlocks : Prop :=
  (∀ (p : PortId) (s : State),
    (s.judged p = .jamStop ↔ (s.port p).engine.state = .jamStop) ∧
    ((s.port p).engine.state ≠ .jamStop → (s.port p).engine.job = none →
      s.judged p =
        if portOn (s.portWord p) = true ∧ ((s.port p).holdFlag = true ∨ (s.port p).quiesceHold = true) then .held
        else .idle)) ∧
  ∀ (p : PortId) (j : Job) (s : State), (s.port p).engine.job = some j →
    let x := s.port p
    let isOpen := x.hasOpenPage
    let judged (st : EngineState) : Prop := x.engine.state ≠ .jamStop → s.judged p = st
    let blocks (st : EngineState) : Prop := judged st ∧ exec (.dataFrame p) s =
      .next { s.modEngine p fun e => { e with state := st } with out := [] }
    let hold := isOpen = true ∨ (x.holdFlag = false ∧ x.quiesceHold = false)
    let printer := x.link.state = .ready ∧ x.watch.holds .down = false
    let credit := 1 ≤ x.link.credits
    let pace := ∀ w, x.engine.pacer = some w → w.sent < w.limit
    let data := s.nextFrame p j ≠ none
    let room := isOpen = true ∨ x.pages.length < 32
    let quota := isOpen = true ∨
      (s.policy j.account = .hold → (s.account j.account).reserved < (s.account j.account).remaining)
    (¬hold → blocks .held) ∧
    (hold → ¬printer → blocks .paused) ∧
    (hold → printer → ¬credit → blocks .waitCredit) ∧
    (hold → printer → credit → ¬pace → blocks (if isOpen then .sending else .waitPace)) ∧
    (hold → printer → credit → pace → ¬data → blocks .sending) ∧
    (hold → printer → credit → pace → data → ¬room → blocks .waitPage) ∧
    (hold → printer → credit → pace → data → room → ¬quota → blocks .waitQuota) ∧
    (hold → printer → credit → pace → data → room → quota → judged .sending)

namespace Sys2Proof.Machine

/-- The CRC register after the first `k` bits of a run of bytes, each byte entering most significant bit first: it starts at
0xFFFF, and moves up one place at each bit, with the generator 0x1021 added when its top bit and the bit entering differ
(R184). -/
def crcRegister (bytes : List Byte) : Nat → BitVec 16
  | 0 => 0xFFFF#16
  | k + 1 =>
    let register := crcRegister bytes k
    let entering := (bytes.getD (k / 8) 0).getLsbD (7 - k % 8)
    if register.getLsbD 15 = entering then register <<< 1 else (register <<< 1) ^^^ 0x1021#16

/-- The two CRC bytes that close a kind byte and body, low byte first (R184). -/
def checkBytes (body : List Byte) : List Byte :=
  let crc := crcRegister body (8 * body.length)
  [crc.extractLsb' 0 8, crc.extractLsb' 8 8]

/-- A frame on the wire: its kind byte and body, closed by their CRC (R184). -/
def onWire (body : List Byte) : List Byte := body ++ checkBytes body

end Sys2Proof.Machine

/-- R184, R194: the bytes on the wire of each frame the part hands to a link are its kind byte, its body and their CRC, low byte
first; a DATA frame's body is its payload's length less one and the payload, which is never empty and never above 256 bytes.
R96, R101 to R105, R112, R113, R119: with every gate passed the next frame is sent. A frame that begins a page opens its
entry and reserves a page for the account; one that ends a page closes the entry and moves the position on to the next
page, the next copy, or the ticket's DRAINING. Each uses one credit and is counted by the pacer and the link. R93: a
frame that empties a place of the buffer lets the engine present its next line. R38: while QUIESCING the end of the last open
page makes the global state STOPPED. (What `nextFrame` and `dropFramed` are stands in FramesEndAtTheRightByte.) -/
def Obligations.AFrameIsSent : Prop :=
  ((∀ payload : List Byte, 1 ≤ payload.length → payload.length ≤ 256 →
      ∃ n : Byte, n.toNat + 1 = payload.length ∧ (Frame.data payload).wire = onWire (0x01 :: n :: payload)) ∧
    Frame.cut.wire = onWire [0x02] ∧ Frame.train.wire = onWire [0x03] ∧ Frame.drowse.wire = onWire [0x04] ∧
    Frame.wake.wire = onWire [0x05]) ∧
  ∀ (p : PortId) (j : Job) (f : FramePlan) (s : State), (s.port p).engine.job = some j →
    let x := s.port p
    let isOpen := x.hasOpenPage
    isOpen = true ∨ (x.holdFlag = false ∧ x.quiesceHold = false) → x.link.state = .ready →
    x.watch.holds .down = false → 1 ≤ x.link.credits →
    (∀ w, x.engine.pacer = some w → w.sent < w.limit) → s.nextFrame p j = some f →
    isOpen = true ∨ x.pages.length < 32 →
    isOpen = true ∨ (s.policy j.account = .hold →
      (s.account j.account).reserved < (s.account j.account).remaining) →
    let profile := tget s.image.pacing (portProfile (s.portWord p))
    let next := j.next + f.payload.length
    let framed := { j with next := next, lead := f.lead, buffer := dropFramed j.copy next j.buffer }
    let after : Option Job :=
      if !f.pageEnd then some framed
      else if !f.copyEnd then some { framed with page := j.page + 1, offset := next }
      else if j.copy < j.copies then
        some { framed with copy := j.copy + 1, page := 1, offset := 0, next := 0, lead := false,
                           buffer := dropFramed (j.copy + 1) 0 framed.buffer }
      else none
    let entries := if isOpen then x.pages else x.pages ++ [⟨j.slot, j.account, j.copy, j.page, j.offset, .opened⟩]
    1 ≤ f.payload.length ∧ f.payload.length ≤ 256 ∧ ∃ u, exec (.dataFrame p) s = .next u ∧ settled { s with
      ctl := { s.ctl with
        global := if f.pageEnd ∧ s.ctl.global = .quiescing ∧ ∀ q, q ≠ p → (s.port q).hasOpenPage = false
          then .stopped else s.ctl.global }
      ports := tset s.ports p { x with
        pages := if f.pageEnd then closeLast entries else entries
        link := { x.link with credits := x.link.credits - 1, framesSent := x.link.framesSent + 1 }
        engine := { x.engine with
          state := if after = none then .idle else x.engine.state
          job := after
          pacer := match x.engine.pacer with
            | some w => some { w with sent := w.sent + 1 }
            | none =>
              if pacingFrames profile = 0 then none
              else some ⟨s.milliseconds, s.microseconds, pacingLengthUs profile, pacingFrames profile, 1⟩ } }
      accounts := tset s.accounts j.account { s.account j.account with
        reserved := (s.account j.account).reserved + if isOpen then 0 else 1
        sent := (s.account j.account).sent + if f.pageEnd then 1 else 0 }
      tickets := tset s.tickets j.slot { s.ticket j.slot with
        entryCount := (s.ticket j.slot).entryCount + if isOpen then 0 else 1
        state := if after = none then .draining else (s.ticket j.slot).state
        sending := if after = none then false else (s.ticket j.slot).sending
        copy := match after with | some k => if f.pageEnd then k.copy else (s.ticket j.slot).copy | none => (s.ticket j.slot).copy
        page := match after with | some k => if f.pageEnd then k.page else (s.ticket j.slot).page | none => (s.ticket j.slot).page }
      out := [.frame p (Frame.data f.payload).wire] } u

/-- R96, R98, R99: under "no marks" a frame takes the bytes up to the frame size or the copy's end, and waits for them. Under
a mark rule the first lead byte followed by a matching byte ends it and its page. `pend` is the mark search before each
byte: a lead pending at the frame's start, after each lead byte that does not complete a mark, and otherwise not. The frame
ends at the first byte that finds a lead pending and matches; with none in it, at the frame size or the copy's end, with the
search as it then stands. R94: the frame an engine forms (`nextFrame`) is of the frame size in the port's word as it stands,
from the buffered bytes of the position's copy at the next byte on, in sequence order up to the first byte that no line of
the buffer holds. A line enters the buffer at its place in the sequence and leaves it when its last byte has been framed. -/
def Obligations.FramesEndAtTheRightByte : Prop :=
  (∀ (room left : Nat) (lead : Bool) (bytes : List Byte), 1 ≤ room → 1 ≤ left →
    let n := min room left
    (bytes.length < n → formFrame none room left lead bytes = none) ∧
    (n ≤ bytes.length →
      formFrame none room left lead bytes = some ⟨bytes.take n, decide (left ≤ room), decide (left ≤ room), false⟩) ∧
    ∀ (r : MarkRule) (before : List Byte) (mark : Byte) (after : List Byte), r.lead ∉ before → r.matches mark = true →
      before.length + 2 ≤ n →
      formFrame (some r) room left false (before ++ r.lead :: mark :: after) =
        some ⟨before ++ [r.lead, mark], true, decide (left = before.length + 2), false⟩) ∧
  (∀ (r : MarkRule) (room left : Nat) (lead : Bool) (bytes : List Byte) (pend : Nat → Bool), 1 ≤ room → 1 ≤ left →
    let n := min room left
    let marked (b : Byte) : Bool :=
      (List.finRange 8).all fun i => r.dontCare.getLsbD i || b.getLsbD i == r.mark.getLsbD i
    let completes (k : Nat) : Prop := pend k = true ∧ ∃ b, bytes[k]? = some b ∧ marked b = true
    pend 0 = lead → (∀ k b, bytes[k]? = some b → pend (k + 1) = (b == r.lead && !(pend k && marked b))) →
    (∀ k < n, completes k → (∀ i < k, ¬completes i) →
      formFrame (some r) room left lead bytes = some ⟨bytes.take (k + 1), true, decide (left = k + 1), false⟩) ∧
    ((∀ k < n, ¬completes k) →
      (n ≤ bytes.length → formFrame (some r) room left lead bytes =
        some ⟨bytes.take n, decide (left ≤ room), decide (left ≤ room), pend n⟩) ∧
      (bytes.length < n → formFrame (some r) room left lead bytes = none))) ∧
  (∀ (p : PortId) (j : Job) (s : State),
    let size :=
      match (s.portWord p).getLsbD 9, (s.portWord p).getLsbD 8 with
      | false, false => 64
      | false, true => 128
      | true, false => 192
      | true, true => 256
    s.nextFrame p j = formFrame j.rule size (j.length - j.next) j.lead (availableBytes j.copy j.next j.buffer)) ∧
  (∀ (copy next stop : Nat) (byteAt : Nat → Byte) (ls : List BufferLine),
    let holds (l : BufferLine) (i : Nat) : Prop := l.copy = copy ∧ l.offset ≤ i ∧ i < l.offset + l.bytes.length
    ls.Pairwise (fun a b => a.copy < b.copy ∨ (a.copy = b.copy ∧ a.offset + a.bytes.length ≤ b.offset)) →
    (∀ l ∈ ls, l.bytes ≠ [] ∧ (copy < l.copy ∨ (l.copy = copy ∧ next < l.offset + l.bytes.length))) →
    (∀ l ∈ ls, l.copy = copy → ∀ i b, l.bytes[i]? = some b → byteAt (l.offset + i) = b) →
    next ≤ stop → (∀ i, next ≤ i → i < stop → ∃ l ∈ ls, holds l i) → (∀ l ∈ ls, ¬holds l stop) →
    availableBytes copy next ls = (List.range (stop - next)).map fun i => byteAt (next + i)) ∧
  (∀ (x : BufferLine) (ls : List BufferLine),
    let before (a b : BufferLine) : Prop := a.copy < b.copy ∨ (a.copy = b.copy ∧ a.offset < b.offset)
    ls.Pairwise before → (∀ l ∈ ls, l.copy ≠ x.copy ∨ l.offset ≠ x.offset) →
    (insertLine x ls).Perm (x :: ls) ∧ (insertLine x ls).Pairwise before) ∧
  ∀ (copy next : Nat) (ls : List BufferLine),
    dropFramed copy next ls =
      ls.filter fun l => decide (copy < l.copy ∨ (l.copy = copy ∧ next < l.offset + l.bytes.length))

/-! ## The links -/

namespace Sys2Proof.Machine

/-- A good frame's mark on the link: the consecutive-bad count 0, and a running silence timer restarted (R114, R121). -/
def State.heard (s : State) (p : PortId) : State :=
  { s.modLink p fun l => { l with
      badRun := 0
      silence := if l.silence = .stopped then .stopped
        else .running s.milliseconds s.microseconds (portSilenceMs (s.portWord p)) } with out := [] }

/-- The jam stop's end condition, but for the link's state (R146, R147). -/
def Port.mayResume (x : Port) : Prop :=
  x.engine.state = .jamStop ∧ x.watch.holds .jam = false ∧ (x.engine.recordedMode = .auto ∨ x.engine.consent = true)

/-- The link of a port is READY and what follows: the jam stop ends exactly when its condition holds, and then the consent
clears; the ports `acts` settle (R117, R127, R145 to R147, R149). `v` is the state with the link's own changes. -/
def becameReady (acts : PortId → Prop) (v u : State) (p : PortId) : Prop :=
  ((v.port p).mayResume →
    settles acts (v.modEngine p fun e => { e with state := .idle, consent := false }) u ∧
      (u.port p).engine.state ≠ .jamStop) ∧
  (¬(v.port p).mayResume → settles acts v u ∧
    ((u.port p).engine.state = .jamStop ↔ (v.port p).engine.state = .jamStop))

end Sys2Proof.Machine

/-- R114, R117 to R119: TRAIN_ACK with 1 to 32 credits makes a TRAINING or OFFLINE link READY with those credits, where
the jam stop ends exactly when its condition holds (R145 to R147); elsewhere it only counts as a good frame, and a DISABLED
link hears nothing. Credits out of range make a bad frame. CREDIT in READY,
WAKING or DROWSY raises the credits by its grant; a sum above 32 is 32 and counts an overflow. In TRAINING and OFFLINE it
only counts as a good frame. -/
def Obligations.TrainAcksAndCreditsAreServed : Prop :=
  (∀ (p : PortId) (n : Byte) (s : State),
    (1 ≤ n.toNat → n.toNat ≤ 32 →
      ((s.port p).link.state = .training ∨ (s.port p).link.state = .offline →
        ∃ u, exec (.trainAck p n) s = .next u ∧
          becameReady (· = p) ((s.heard p).modLink p fun l =>
            { l with state := .ready, credits := n.toNat, training := .stopped,
                     silence := .running s.milliseconds s.microseconds (portSilenceMs (s.portWord p)) }) u p) ∧
      ((s.port p).link.state = .ready ∨ (s.port p).link.state = .waking ∨ (s.port p).link.state = .drowsy →
        exec (.trainAck p n) s = .next (s.heard p))) ∧
    ((s.port p).link.state = .disabled → exec (.trainAck p n) s = .next { s with out := [] }) ∧
    (n.toNat = 0 ∨ 32 < n.toNat → exec (.trainAck p n) s = exec (.badFrame p (closeFrame [0x81#8, n])) s ∧
      judgeFrame (closeFrame [0x81#8, n]) = .bad)) ∧
  (∀ (p : PortId) (n : Byte) (s : State),
    ((s.port p).link.state = .ready ∨ (s.port p).link.state = .waking ∨ (s.port p).link.state = .drowsy →
      let sum := (s.port p).link.credits + n.toNat % 16
      ∃ u, exec (.credit p n) s = .next u ∧ settledAt p ((s.heard p).modLink p fun l =>
        { l with credits := min sum 32, overflows := if 32 < sum then l.overflows + 1 else l.overflows }) u) ∧
    ((s.port p).link.state = .training ∨ (s.port p).link.state = .offline →
      exec (.credit p n) s = .next (s.heard p)) ∧
    ((s.port p).link.state = .disabled → exec (.credit p n) s = .next { s with out := [] }))

namespace Sys2Proof.Machine

/-- The four conditions after an evaluation of sixteen bits (R134). -/
def State.truths (s : State) (p : PortId) (bits : BitVec 16) : Vector HeldCondition 4 :=
  (tget s.image.ports p).conditions.map fun w =>
    let watched (k : Fin 16) : Bool := (condMask w).getLsbD k
    let equal (k : Fin 16) : Bool := bits.getLsbD k == (condPattern w).getLsbD k
    { truth := (List.finRange 16).any watched &&
        (if condAll w then (List.finRange 16).all fun k => !watched k || equal k
         else (List.finRange 16).any fun k => watched k && equal k)
      cls := condClass w }

/-- The condition has an edge at the evaluation (R135). -/
def State.edge (s : State) (p : PortId) (bits : BitVec 16) (c : CondId) : Prop :=
  (tget (s.truths p bits) c).truth = true ∧
    ((tget (s.port p).watch.conditions c).truth = false ∨
      (tget (s.port p).watch.conditions c).cls ≠ (tget (s.truths p bits) c).cls)

/-- A STATUS heard and its sheets matched, which comes before its bits (R114, R120, R136). -/
def State.sheetsMatched (s : State) (p : PortId) (n : Byte) : State := (s.heard p).deliverSheets p (n.toNat % 16)

/-- A STATUS heard and its bits evaluated; the count of free draws is the model's own (R120, R134; log entry 11). -/
def State.watched (s : State) (p : PortId) (bits : BitVec 16) : State :=
  { (s.heard p).modWatch p fun _ => { bits := bits, conditions := s.truths p bits } with draws := s.draws + 1 }

/-- The alert of a condition's edge, with the condition, the bits and the ticket in hand (R135). -/
def State.withEdge (s : State) (p : PortId) (bits : BitVec 16) (ls : List Latch) (c : CondId) : List Latch :=
  let cls : AlertClass := match (tget (s.truths p bits) c).cls with
    | .jam => .jam
    | .down => .down
    | .supply => .supply
  addRaise ⟨cls, p.val, s.milliseconds, 1, .printer (.condition c) bits (s.inHand p)⟩ ls

/-- An order in which the edges of one STATUS raise their alerts; which it is is a free value (R135; log entry 11). -/
def State.edgeOrder (s : State) (p : PortId) (bits : BitVec 16) (order : List CondId) : Prop :=
  order.Nodup ∧ ∀ c, c ∈ order ↔ s.edge p bits c

/-! ### The rewind -/

/-- The entries of a port's page list that a rewind spoils: all but the OPEN one (R139, R140). -/
def Port.closedPages (x : Port) : List Entry := if x.hasOpenPage then x.pages.dropLast else x.pages

/-- The tickets a rewind deals with, in page-list order, the ticket in hand last when it had no entry (R141). -/
def Port.concerned (x : Port) : List Slot :=
  uniqueSlots (x.pages.map Entry.slot ++ (x.engine.job.map Job.slot).toList)

/-- A ticket returns to its queue at a rewind (R141). -/
def State.returns (s : State) (t : Slot) : Bool := (s.ticket t).state == .active || (s.ticket t).state == .draining

/-- The ticket's pages spoiled after the rewind of a port (R140). -/
def State.spoiledAfter (s : State) (p : PortId) (t : Slot) : Nat :=
  min ((s.ticket t).spoiled + (s.port p).closedPages.countP fun e => e.slot == t) 65535

/-- The ticket's entry count after the rewind of a port (R139, R140). -/
def State.entriesAfter (s : State) (p : PortId) (t : Slot) : Nat :=
  (s.ticket t).entryCount - (s.port p).pages.countP fun e => e.slot == t

/-- A CANCELLING or FAILING ticket reaches its drain end in the rewind of a port (R56, R141). -/
def State.endsInRewind (s : State) (p : PortId) (t : Slot) : Bool :=
  ((s.ticket t).state == .cancelling || (s.ticket t).state == .failing) && s.entriesAfter p t == 0 &&
    (s.inHand p == some t || ((s.ticket t).fetchCount == 0 && !(s.ticket t).sending))

/-- The end reason of a CANCELLING or FAILING ticket (R57). -/
def State.endReason (s : State) (t : Slot) : Reason := if (s.ticket t).state = .failing then .memoryEnd else .cancel

/-- The backlog after the rewind of a port, from the backlog before it: a JOB alert for each FAILED ticket it ends, and for
each CANCELLED one with `notify`, in page-list order (R57, R141). -/
def State.rewindBacklog (s : State) (p : PortId) (before : List Latch) : List Latch :=
  (s.port p).concerned.foldl (fun ls t =>
    match (s.ticket t).mirror with
    | some m =>
      if s.endsInRewind p t ∧ ((s.ticket t).state = .failing ∨ m.notify) then
        addRaise ⟨.job, t.val, s.milliseconds, 1,
          .job t m.jobTag (s.endReason t) (s.ticket t).delivered (s.spoiledAfter p t)⟩ ls
      else ls
    | none => ls) before

/-- The rewind of a port from `s`, where its page list, its engine's ticket and the backlog `before` it are read, to `u`
(R38, R139 to R143): the OPEN entry is withdrawn and the CLOSED ones spoiled; ACTIVE and DRAINING tickets return to the
queue's head in page-list order with their resume points; CANCELLING and FAILING ones lose their entries and end when
nothing is left to drain; granted fetches of the ticket in hand become stale, and its fetch count and that of the returning
tickets 0; the port's holds are kept; the engine is in JAM_STOP with the mode
recorded and the consent cleared; the withdrawal may complete a quiesce. No other port, no setting and nothing of the
traffic path is touched; every port then settles; the arbiter's run count and last engine are kept (R18). -/
def rewound (s : State) (before : List Latch) (u : State) (p : PortId) : Prop :=
  let x := s.port p
  let resumeOf (t : Slot) : Option ResumePoint :=
    match x.pages.find? (fun e => e.slot == t) with
    | some e => some ⟨e.copy, e.page, e.start⟩
    | none => x.engine.job.map fun j => ⟨j.copy, j.page, j.offset⟩
  let counted : Prop := ∀ t ∈ x.concerned, (s.ticket t).spoiled ≤ 65535
  (u.port p).pages = [] ∧
    (u.port p).queue = (x.concerned.filter s.returns).map (fun t => ⟨t, .resume⟩) ++ x.queue ∧
    (u.port p).engine = { state := .jamStop, job := none, pacer := (u.port p).engine.pacer,
                          recordedMode := portMode (s.portWord p), consent := false } ∧
    (∀ a, (u.account a).reserved = (s.account a).reserved - x.pages.countP (fun e => e.account == a) ∧
      (u.account a).spoiled = (s.account a).spoiled + BitVec.ofNat 32 (x.closedPages.countP fun e => e.account == a) ∧
      (u.account a).remaining = (s.account a).remaining ∧ (u.account a).sent = (s.account a).sent ∧
      (u.account a).delivered = (s.account a).delivered) ∧
    (counted → ∀ t ∈ x.concerned, s.returns t = true →
      (u.ticket t).still = { (s.ticket t).still with
        state := .queued
        resume := resumeOf t
        entryCount := s.entriesAfter p t
        spoiled := s.spoiledAfter p t
        sending := false }) ∧
    (counted → ∀ t ∈ x.concerned, (s.ticket t).state = .cancelling ∨ (s.ticket t).state = .failing →
      let k : Ticket := { (s.ticket t).still with
        entryCount := s.entriesAfter p t
        spoiled := s.spoiledAfter p t
        sending := (s.ticket t).sending && s.inHand p != some t }
      (u.ticket t).still =
        if s.endsInRewind p t then
          { k with
            state := if (s.ticket t).state = .failing then .failed else .cancelled
            reason := s.endReason t, resume := none }
        else k) ∧
    (∀ t, t ∉ x.concerned → (u.ticket t).still = (s.ticket t).still) ∧
    settled { u with
      ports := tset s.ports p (u.port p)
      tickets := .ofFn fun t => { u.ticket t with
        fetchCount := if (t ∈ x.concerned ∧ s.returns t = true) ∨ s.inHand p = some t then 0 else (s.ticket t).fetchCount }
      msp := { u.msp with
        waiting := if x.engine.job = none then s.msp.waiting else s.msp.waiting.filter fun r => !r.isFetchOf p } } u ∧
    (u.port p).holdFlag = x.holdFlag ∧ (u.port p).quiesceHold = x.quiesceHold ∧
    (∀ b, u.guard b = s.guard b - x.concerned.countP fun t =>
      s.endsInRewind p t && (s.ticket t).mirror.any fun m => s.covers m b) ∧
    (counted → u.relay.backlog = s.rewindBacklog p before) ∧
    u.msp.outstanding =
      (if x.engine.job = none then s.msp.outstanding else s.msp.outstanding.map (Granted.remark p .stale)) ∧
    u.msp.runCount = s.msp.runCount ∧ u.msp.lastEngine = s.msp.lastEngine ∧ u.msp.nextGrant = s.msp.nextGrant ∧
    u.relay = { s.relay with backlog := u.relay.backlog } ∧
    (x.opensNewestOnly → u.ctl.global =
      if x.hasOpenPage = true ∧ s.ctl.global = .quiescing ∧ ∀ q, q ≠ p → (s.port q).hasOpenPage = false
      then .stopped else s.ctl.global) ∧
    u.image = s.image ∧ u.psp = s.psp ∧ u.fetcher = s.fetcher ∧ u.sweep = s.sweep ∧ u.anchor = s.anchor ∧
    u.milliseconds = s.milliseconds ∧ u.microseconds = s.microseconds ∧ u.resetAsserted = s.resetAsserted ∧
    u.ctl.refusals = s.ctl.refusals

end Sys2Proof.Machine

/-- R129, R139 to R142: PORT_RESET of a disabled port is STATE; otherwise the rewind runs, with its CUT handed first,
and the port is reset and retrained, with no other port's record touched. -/
def Obligations.PortResetRetrains : Prop :=
  ∀ (c : CommandWrite) (p : PortId) (s : State), c.argument.toNat = p.val → s.takes 0x14#8 c →
    ((s.port p).link.state = .disabled → exec (.portReset c) s = .next (s.commanded 0x14 .state c.tag)) ∧
    ((s.port p).link.state ≠ .disabled →
      ∃ t, exec (.portReset c) s = .next t ∧
        (t.port p).link =
          { state := .training, credits := 0, badRun := 0, training := .running s.milliseconds s.microseconds 250,
            silence := .stopped, idle := .stopped, warm := .stopped, onlineSeen := false, framesSent := 0,
            badFrames := 0, overflows := 0 } ∧
        (t.port p).engine =
          { state := .jamStop, job := none, pacer := none, recordedMode := portMode (s.portWord p),
            consent := false } ∧
        (t.port p).pages = [] ∧ (t.port p).stray = 0 ∧ (t.port p).holdFlag = (s.port p).holdFlag ∧
        (t.port p).quiesceHold = (s.port p).quiesceHold ∧
        (t.port p).watch.bits = (s.port p).watch.bits ∧
        (∀ k, (tget (t.port p).watch.conditions k).truth = false ∧
          (tget (t.port p).watch.conditions k).cls = (tget (s.port p).watch.conditions k).cls) ∧
        (∀ q, q ≠ p → (t.port q).still = (s.port q).still) ∧
        ((s.port p).pageInHand → rewound s s.relay.backlog t p) ∧
        t.out = (if (s.port p).hasOpenPage && (s.port p).link.state == .ready && (s.port p).engine.job.isSome then
            [.frame p Frame.cut.wire] else []) ++ [.frame p Frame.train.wire, .ack c.tag .ok] ∧
        t.image = s.image ∧ t.psp = s.psp ∧ t.fetcher = s.fetcher ∧ t.sweep = s.sweep ∧
        t.relay = { s.relay with backlog := t.relay.backlog } ∧
        t.ctl = { s.ctl with
          global := t.ctl.global, lastCode := 0x14, lastResult := .done, taken := s.ctl.taken + 1 })

/-- R114, R118, R120, R125, R127, R132, R134 to R137, R146, R147: in READY, WAKING and DROWSY a STATUS matches its sheets, stores
its bits and replaces the four truths; each edge of class DOWN or SUPPLY raises its alert with the condition, the bits and
the ticket in hand (in which order is a free value, log entry 11). In READY the jam stop then ends
exactly when its condition holds, and nothing else enters or ends it; so too at a wake it completes. In WAKING a STATUS with ONLINE is seen, and makes the link READY once the warm timer has expired. In DROWSY it wakes the
link when wake-on-status is on. In TRAINING and OFFLINE it only counts as a good frame, and a DISABLED link hears nothing. -/
def Obligations.StatusEvaluatesTheConditions : Prop :=
  ∀ (p : PortId) (bits : BitVec 16) (n : Byte) (s : State),
    let d := s.sheetsMatched p n
    let l := (s.port p).link
    (l.state = .disabled → exec (.status p bits n) s = .next { s with out := [] }) ∧
    (l.state = .training ∨ l.state = .offline → exec (.status p bits n) s = .next (s.heard p)) ∧
    (l.state = .ready ∨ l.state = .waking ∨ l.state = .drowsy →
      (∀ c, s.edge p bits c → (tget (s.truths p bits) c).cls ≠ .jam) →
      ∃ order, s.edgeOrder p bits order ∧
        let v : State := { d.watched p bits with
          relay := { d.relay with backlog := order.foldl (s.withEdge p bits) d.relay.backlog } }
        ∃ u, exec (.status p bits n) s = .next u ∧
          (l.state = .ready → becameReady (fun _ => True) v u p) ∧
          (l.state = .waking →
            (bits.getLsbD 0 = true → l.warm = .expired →
              becameReady (fun _ => True) (v.modLink p fun l => { l with state := .ready, onlineSeen := true }) u p) ∧
            (bits.getLsbD 0 = true → l.warm ≠ .expired →
              settled (v.modLink p fun l => { l with onlineSeen := true }) u) ∧
            (bits.getLsbD 0 = false → settled v u)) ∧
          (l.state = .drowsy →
            settled (if portWakeOnStatus (s.portWord p) then
                { v.modLink p fun l => { l with
                    state := .waking, warm := .running s.milliseconds s.microseconds (portWarmMs (s.portWord p)), onlineSeen := false }
                  with out := [.frame p Frame.wake.wire] }
              else v) u))

/-- R125, R127, R136, R138 to R143: a JAM edge, in READY, WAKING or DROWSY, runs the rewind once, after the sheets are matched
and every edge has raised its alert (in which order is a free value, log entry 11); CUT is handed for an open page when the
link is READY. The link keeps its credits and counts; WAKING may become READY, and DROWSY may wake, as at any STATUS. -/
def Obligations.AJamEdgeRewindsThePort : Prop :=
  ∀ (p : PortId) (bits : BitVec 16) (n : Byte) (s : State),
    let d := s.sheetsMatched p n
    let l := (s.port p).link
    l.state = .ready ∨ l.state = .waking ∨ l.state = .drowsy → (d.port p).pageInHand →
    (∃ c, s.edge p bits c ∧ (tget (s.truths p bits) c).cls = .jam) →
    let wakes := l.state == .drowsy && portWakeOnStatus (s.portWord p)
    ∃ order, s.edgeOrder p bits order ∧
      ∃ u, exec (.status p bits n) s = .next u ∧
        rewound d (order.foldl (s.withEdge p bits) d.relay.backlog) u p ∧
        (u.port p).watch = { bits := bits, conditions := s.truths p bits } ∧
        (u.port p).stray = (d.port p).stray ∧ (u.port p).engine.pacer = (s.port p).engine.pacer ∧
        (u.port p).link = { ((s.heard p).port p).link with
          state :=
            if l.state = .waking ∧ bits.getLsbD 0 = true ∧ l.warm = .expired then .ready
            else if wakes then .waking else l.state
          idle := .stopped
          warm := if wakes then .running s.milliseconds s.microseconds (portWarmMs (s.portWord p)) else l.warm
          onlineSeen :=
            if wakes then false else l.onlineSeen || (l.state == .waking && bits.getLsbD 0) } ∧
        u.out = (if l.state == .ready && (d.port p).hasOpenPage then [.frame p Frame.cut.wire] else []) ++
          if wakes then [.frame p Frame.wake.wire] else []

namespace Sys2Proof.Machine

/-- One sheet delivers the entry `e` at the head of a port's page list, `rest` being the list behind it: the account is charged
by its policy, with a QUOTA alert at zero; the ticket's counts move and the ticket is tested for its ending (R56, R57, R79,
R152, R153, R157 to R159). -/
def State.afterDelivery (s : State) (p : PortId) (e : Entry) (rest : List Entry) : State :=
  let x := s.account e.account
  let k := s.ticket e.slot
  let left : Nat := match s.policy e.account with
    | .none => x.remaining
    | .hold => x.remaining - 1
    | .reload => if x.remaining = 1 then reloadConstant (s.accountWord e.account) else x.remaining - 1
  let zero : Bool := s.policy e.account != .none && x.remaining == 1
  let delivered := min (k.delivered + 1) 16777215
  let last := k.entryCount - 1 = 0
  let drained := last ∧ k.fetchCount = 0 ∧ k.sending = false
  let ending : Option (TicketState × Reason) :=
    match k.state with
    | .draining => if last then some (.done, .complete) else none
    | .cancelling => if drained then some (.cancelled, .cancel) else none
    | .failing => if drained then some (.failed, .memoryEnd) else none
    | _ => none
  let quota : List Latch :=
    if zero then addRaise ⟨.quota, e.account.val, s.milliseconds, 1, .quota left (s.policy e.account)⟩ s.relay.backlog
    else s.relay.backlog
  { s.setPages p rest with
    accounts := tset s.accounts e.account
      { x with reserved := x.reserved - 1, delivered := x.delivered + 1, remaining := left }
    tickets := tset s.tickets e.slot { k with
      delivered := delivered
      entryCount := k.entryCount - 1
      state := match ending with | some x => x.1 | none => k.state
      reason := match ending with | some x => x.2 | none => k.reason
      resume := if ending.isSome then none else k.resume }
    guards := .ofFn fun b =>
      if ending.isSome && k.mirror.any (fun m => s.covers m b) then s.guard b - 1 else s.guard b
    relay := { s.relay with
      backlog := match ending, k.mirror with
        | some x, some m =>
          if x.1 = .failed ∨ m.notify = true then
            addRaise ⟨.job, e.slot.val, s.milliseconds, 1, .job e.slot m.jobTag x.2 delivered k.spoiled⟩ quota
          else quota
        | _, _ => quota } }

end Sys2Proof.Machine

/-- R56, R57, R125, R145, R151 to R154, R157 to R159: the matching of a delivered-sheet count, which a STATUS in READY, WAKING or
DROWSY makes before its bits are evaluated, whatever the engine's state and the edges (`sheetsMatched` in
StatusEvaluatesTheConditions and AJamEdgeRewindsThePort): a count of 0 changes nothing; the first sheet delivers the head
entry when it is CLOSED, and the next is matched against the new head; on an OPEN head or an empty list every sheet left is
stray. A delivery charges the account by its policy, with a QUOTA alert at zero; the ticket's counts move, pages delivered to
at most 16,777,215; a DRAINING ticket's last delivery makes it DONE, and a CANCELLING or FAILING ticket with no entry, no
fetch and no sending left becomes CANCELLED or FAILED; its guard counts fall, and a JOB alert is raised with `notify`, or when
it FAILED. Then what a STATUS with no edge leaves in READY: of one sheet on a CLOSED head, and of stray sheets; in JAM_STOP the
jam stop ends exactly when its condition holds. -/
def Obligations.SheetsDeliverTheOldestPage : Prop :=
  (∀ (p : PortId) (s : State),
    s.deliverSheets p 0 = s ∧
    (∀ e rest k, (s.port p).pages = e :: rest → e.state = .closed →
      s.deliverSheets p (k + 1) = (s.afterDelivery p e rest).deliverSheets p k) ∧
    ((s.port p).pages = [] ∨ (∃ e rest, (s.port p).pages = e :: rest ∧ e.state = .opened) →
      ∀ k, s.deliverSheets p k = s.modPort p fun x => { x with stray := x.stray + BitVec.ofNat 32 k })) ∧
  ∀ (p : PortId) (bits : BitVec 16) (n : Byte) (s : State), (s.port p).link.state = .ready → (∀ c, ¬s.edge p bits c) →
    (∀ e rest, n.toNat % 16 = 1 → (s.port p).pages = e :: rest → e.state = .closed →
      ∃ u, exec (.status p bits n) s = .next u ∧
        becameReady (fun _ => True) ((s.watched p bits).afterDelivery p e rest) u p) ∧
    ((s.port p).pages = [] ∨ (∃ e rest, (s.port p).pages = e :: rest ∧ e.state = .opened) →
      ∃ u, exec (.status p bits n) s = .next u ∧
        becameReady (fun _ => True) ((s.watched p bits).modPort p fun x =>
          { x with stray := x.stray + BitVec.ofNat 32 (n.toNat % 16) }) u p)

namespace Sys2Proof.Machine

/-- A DOWN alert with cause LINK in the backlog (R117, R122, R135). -/
def State.withLinkDown (s : State) (p : PortId) : List Latch :=
  addRaise ⟨.down, p.val, s.milliseconds, 1, .printer .link (s.port p).watch.bits (s.inHand p)⟩ s.relay.backlog

/-- A link loss from `s` to `u` (R122): OFFLINE, credits 0, timers stopped, TRAIN handed and its timer started, a DOWN alert
with cause LINK, the rewind. The counts of frames sent, of credit overflows and of stray sheets are kept. The DOWN alert is
in the backlog, when sources are in the range that every step keeps (R170). -/
def lost (s u : State) (p : PortId) : Prop :=
  rewound s (s.withLinkDown p) u p ∧ (u.port p).engine.pacer = (s.port p).engine.pacer ∧ (u.port p).watch = (s.port p).watch ∧
    (u.port p).link.state = .offline ∧ (u.port p).link.credits = 0 ∧ (u.port p).link.silence = .stopped ∧
    (u.port p).link.idle = .stopped ∧ (u.port p).link.warm = .stopped ∧ (u.port p).link.onlineSeen = false ∧
    (u.port p).link.framesSent = (s.port p).link.framesSent ∧ (u.port p).link.overflows = (s.port p).link.overflows ∧
    (u.port p).stray = (s.port p).stray ∧
    (u.port p).link.training = .running s.milliseconds s.microseconds 250 ∧ u.out = [.frame p Frame.train.wire] ∧
    ((∀ k ∈ s.relay.backlog, k.source < 256) → ∃ l ∈ u.relay.backlog, l.cls = .down ∧ l.source = p.val)

end Sys2Proof.Machine

/-- R114, R184, R194 to R196: a received frame is bad exactly when its last two bytes are not the CRC of the bytes before them,
low byte first, or its kind byte is not 0x81, 0x82 or 0x83, or its length is not the length of its kind, or it is a TRAIN_ACK
with credits 0 or above 32. A good one carries the fields its bytes give, bits 4 to 7 of a CREDIT or STATUS count byte
ignored; the rows TRAIN_ACK, CREDIT and STATUS stand for these frames (log entry 25). R114: a bad frame is counted and
dropped; the eighth in a row returns the consecutive-bad count to 0 and is a link loss in READY, WAKING or DROWSY, a training
failure in TRAINING, and nothing more in OFFLINE. A DISABLED link hears nothing. -/
def Obligations.BadFramesAreCounted : Prop :=
  (∀ bytes : List Byte,
    let kind := bytes.head?
    judgeFrame bytes = .bad ↔
      bytes.drop (bytes.length - 2) ≠ checkBytes (bytes.take (bytes.length - 2)) ∨
      (kind ≠ some 0x81 ∧ kind ≠ some 0x82 ∧ kind ≠ some 0x83) ∨
      (kind = some 0x81 ∧ bytes.length ≠ 4) ∨ (kind = some 0x82 ∧ bytes.length ≠ 4) ∨
      (kind = some 0x83 ∧ bytes.length ≠ 6) ∨
      (kind = some 0x81 ∧ ∃ n, bytes[1]? = some n ∧ (n.toNat = 0 ∨ 32 < n.toNat))) ∧
  (∀ (p : PortId) (n lo hi : Byte) (s : State),
    (1 ≤ n.toNat → n.toNat ≤ 32 → judgeFrame (onWire [0x81, n]) = .trainAck n.toNat) ∧
    judgeFrame (onWire [0x82, n]) = .credit (n.toNat % 16) ∧
    judgeFrame (onWire [0x83, lo, hi, n]) = .status (hi ++ lo) (n.toNat % 16) ∧
    exec (.trainAck p n) s = exec (.badFrame p (onWire [0x81, n])) s ∧
    exec (.credit p n) s = exec (.badFrame p (onWire [0x82, n])) s ∧
    exec (.status p (hi ++ lo) n) s = exec (.badFrame p (onWire [0x83, lo, hi, n])) s) ∧
  ∀ (p : PortId) (bytes : List Byte) (s : State), judgeFrame bytes = .bad →
    let l := (s.port p).link
    let counted (run : Nat) : State :=
      { s.modLink p fun l => { l with badFrames := l.badFrames + 1, badRun := run } with out := [] }
    (l.state = .disabled → exec (.badFrame p bytes) s = .next { s with out := [] }) ∧
    (l.state ≠ .disabled → l.badRun ≠ 7 → exec (.badFrame p bytes) s = .next (counted (l.badRun + 1))) ∧
    (l.state = .offline → l.badRun = 7 → exec (.badFrame p bytes) s = .next (counted 0)) ∧
    (l.state = .training → l.badRun = 7 →
      ∃ u, exec (.badFrame p bytes) s = .next u ∧
        settledAt p { (counted 0).modLink p fun l =>
            { l with state := .offline, credits := 0, training := .running s.milliseconds s.microseconds 250 } with
          relay := { s.relay with backlog := s.withLinkDown p }
          out := [.frame p Frame.train.wire] } u) ∧
    (l.state = .ready ∨ l.state = .waking ∨ l.state = .drowsy → l.badRun = 7 → (s.port p).pageInHand →
      ∃ u, exec (.badFrame p bytes) s = .next u ∧ lost s u p ∧ (u.port p).link.badRun = 0 ∧
        (u.port p).link.badFrames = l.badFrames + 1)

/-- R121, R122: the silence timer's expiry, when due, is a link loss. R117, R118: the training timer's expiry, when due, hands
TRAIN again for 250 ms; in TRAINING it is a training failure, which makes the link OFFLINE with a DOWN alert of cause LINK.
Neither is taken more than 1 ms early on the time base (R31; that it may come late is log entry 9). -/
def Obligations.SilenceAndTrainingTimersExpire : Prop :=
  (∀ (p : PortId) (since : BitVec 32) (sinceUs ms : Nat) (s : State), (s.port p).link.silence = .running since sinceUs ms →
    let elapsed := 1000 * (s.milliseconds - since).toNat + s.microseconds - sinceUs
    (1000 * ms ≤ elapsed + 1000 → (s.port p).pageInHand →
      ∃ u, exec (.silenceTimerExpiry p) s = .next u ∧ lost s u p ∧
        (u.port p).link.badRun = (s.port p).link.badRun ∧ (u.port p).link.badFrames = (s.port p).link.badFrames) ∧
    (elapsed + 1000 < 1000 * ms → exec (.silenceTimerExpiry p) s = .next { s with out := [] })) ∧
  (∀ (p : PortId) (since : BitVec 32) (sinceUs ms : Nat) (s : State), (s.port p).link.training = .running since sinceUs ms →
    let elapsed := 1000 * (s.milliseconds - since).toNat + s.microseconds - sinceUs
    (1000 * ms ≤ elapsed + 1000 →
      ((s.port p).link.state = .offline →
        exec (.trainingTimerExpiry p) s = .next { s.modLink p fun l =>
          { l with training := .running s.milliseconds s.microseconds 250 } with out := [.frame p Frame.train.wire] }) ∧
      ((s.port p).link.state = .training →
        ∃ u, exec (.trainingTimerExpiry p) s = .next u ∧
          settledAt p { s.modLink p fun l =>
              { l with state := .offline, credits := 0, training := .running s.milliseconds s.microseconds 250 } with
            relay := { s.relay with backlog := s.withLinkDown p }
            out := [.frame p Frame.train.wire] } u)) ∧
    (elapsed + 1000 < 1000 * ms → exec (.trainingTimerExpiry p) s = .next { s with out := [] }))

/-- R69, R124: the idle timer's expiry, when due, hands DROWSE and makes the link DROWSY with the silence timer stopped, unless
dispatch has a wake cause at that moment (log entry 23). R121, R127: the warm timer's expiry, when due, starts the silence
timer, and completes the wake when ONLINE has been seen, where the jam stop ends exactly when its condition holds (R145 to
R147). Neither is taken more than 1 ms early (R31; late: log entry 9). -/
def Obligations.IdleAndWarmTimersExpire : Prop :=
  (∀ (p : PortId) (since : BitVec 32) (sinceUs ms : Nat) (s : State), (s.port p).link.idle = .running since sinceUs ms →
    let elapsed := 1000 * (s.milliseconds - since).toNat + s.microseconds - sinceUs
    (1000 * ms ≤ elapsed + 1000 →
      ¬(s.dispatches p ∧ ∃ e ∈ (s.port p).queue, s.canStart e.slot) →
      ∃ u, exec (.idleTimerExpiry p) s = .next u ∧ (u.port p).link.idle = .stopped ∧
        settledAt p { s.modLink p fun l => { l with state := .drowsy, silence := .stopped } with
          out := [.frame p Frame.drowse.wire] } u) ∧
    (1000 * ms ≤ elapsed + 1000 → (s.dispatches p ∧ ∃ e ∈ (s.port p).queue, s.canStart e.slot) →
      ∃ u, exec (.idleTimerExpiry p) s = .next u ∧
        settledAt p { s.modLink p fun l => { l with idle := .stopped } with out := [] } u) ∧
    (elapsed + 1000 < 1000 * ms → exec (.idleTimerExpiry p) s = .next { s with out := [] })) ∧
  (∀ (p : PortId) (since : BitVec 32) (sinceUs ms : Nat) (s : State), (s.port p).link.warm = .running since sinceUs ms →
    let elapsed := 1000 * (s.milliseconds - since).toNat + s.microseconds - sinceUs
    let v : State := { s.modLink p fun l =>
      { l with warm := .expired, silence := .running s.milliseconds s.microseconds (portSilenceMs (s.portWord p)) } with out := [] }
    (1000 * ms ≤ elapsed + 1000 →
      ((s.port p).link.onlineSeen = true →
        ∃ u, exec (.warmTimerExpiry p) s = .next u ∧
          becameReady (· = p) (v.modLink p fun l => { l with state := .ready }) u p) ∧
      ((s.port p).link.onlineSeen = false → exec (.warmTimerExpiry p) s = .next v)) ∧
    (elapsed + 1000 < 1000 * ms → exec (.warmTimerExpiry p) s = .next { s with out := [] }))

/-! ## What every step keeps -/

/-- R156: for every account, `reserved` is the number of page-list entries, across all sixteen ports, that carry it: every
step keeps this. -/
def Obligations.StepsKeepReservationsMatched : Prop :=
  ∀ s t : State, s.reservationsMatch → step s = .next t → t.reservationsMatch

/-- R157: every step keeps every account from being overdrawn. -/
def Obligations.StepsKeepQuotaSound : Prop :=
  ∀ s t : State, s.quotaSound → step s = .next t → t.quotaSound

/-- R17, R18, R41, R93, R102, R115, R119, R150: every step keeps the memory-side tags within 48, the run count within 4, every
port's credits within 32, every page list within 32 entries with only its newest OPEN, every engine within 8 outstanding
fetches of which one at most waits, and every ticket's pages delivered and spoiled within their ranges. R93, R97, R123: every
step keeps every port settled: each engine in the state its gates give; each idle timer running, for the port's idle time,
exactly while the link is READY, the engine IDLE, queue and page list empty and the idle time not 0; and no engine leaves a
line that its limits let it present. R24, R27, R28, R173, R176, R195, R196: every step keeps every setting in range with no
unused bit set, and, beside the law of the reset (ResetHoldsEveryBlock), the enabled windows in range and apart from the
control page, from one another, from the ring once set and from a dropped record write not yet answered. -/
def Obligations.StepsKeepTheBounds : Prop :=
  ∀ s t : State, step s = .next t →
    (s.tagsBounded → t.tagsBounded) ∧ (s.creditsBounded → t.creditsBounded) ∧ (s.pageListsSound → t.pageListsSound) ∧
      (s.fetchesBounded → t.fetchesBounded) ∧ (s.pageCountsBounded → t.pageCountsBounded) ∧ (s.settledLaw → t.settledLaw) ∧
      (s.imageSound → t.imageSound) ∧
      (s.heldInReset → s.windowsSound → s.ringSound → t.windowsSound ∧ t.ringSound)

/-- R170, R171, R175 to R180, R182: every step keeps the service stack nested, the backlog in the order of the writer's picks
with one latch a class and source, every latch of the backlog and the latch in flight at a source of its class, below 256,
ATTN_N at its level, and the class shadow as long as the records not consumed. -/
def Obligations.StepsKeepTheRelaySound : Prop :=
  ∀ s t : State, step s = .next t →
    (s.stackNested → t.stackNested) ∧ (s.backlogOrdered → t.backlogOrdered) ∧
      (s.sourcesInRange → t.sourcesInRange) ∧ (s.attnJudged → t.attnJudged) ∧
      (s.shadowMatches → t.shadowMatches)

/-- R41, R46, R59, R60, R80, R93: every step keeps the laws of the tickets: a block's guard count is the number of tickets in use
whose extent touches it; a ticket stands in a queue exactly when it is QUEUED, in its port's queue and once, behind the
RESUME and URGENT groups that go before its own; and in the fetcher's lists exactly when it is POSTING, once. Beside them
every step keeps the laws of the fetches: a ticket's fetch count is the number of its fetches outstanding, and is 0, with a
clear sending flag, for a ticket that is QUEUED, FREE, POSTING, DRAINING or in a terminal state. R97, R102: and beside both,
with page lists as StepsKeepTheBounds keeps them, a port's open page belongs to the ticket in hand there, so that a port
with an open page has one. -/
def Obligations.StepsKeepTheTicketLaws : Prop :=
  ∀ s t : State, s.ticketLaws → step s = .next t →
    t.ticketLaws ∧
      (s.fetchLaws → t.fetchLaws ∧
        (s.pageListsSound → s.openLaw → t.openLaw ∧ ∀ p, (t.port p).pageInHand))

/-- R3, R20: while RESET_N stays asserted every block holds its reset value, whatever arrives. (Outside the blocks stand the
queue, the held requests, the model's own counters and the outputs: log entries 4, 8, 11 and 18. The anchor's value 0 here
is the model's choice: log entry 6.) -/
def Obligations.ResetHoldsEveryBlock : Prop :=
  ∀ s t : State, s.heldInReset → step s = .next t → t.heldInReset

/-- The invariants above hold at reset. -/
def Obligations.ResetMeetsTheInvariants : Prop :=
  State.reset.ticketLaws ∧ State.reset.fetchLaws ∧ State.reset.reservationsMatch ∧ State.reset.quotaSound ∧ State.reset.tagsBounded ∧ State.reset.creditsBounded ∧
    State.reset.pageListsSound ∧ State.reset.fetchesBounded ∧ State.reset.stackNested ∧ State.reset.backlogOrdered ∧
    State.reset.sourcesInRange ∧ State.reset.attnJudged ∧ State.reset.shadowMatches ∧ State.reset.heldInReset ∧
    State.reset.settledLaw ∧ State.reset.pageCountsBounded ∧ State.reset.imageSound ∧ State.reset.windowsSound ∧
    State.reset.ringSound ∧ State.reset.openLaw ∧ ∀ p, (State.reset.port p).pageInHand
end

