-- ==== Sys2Proof/Laws/Alerts.lean ====
section
/-! SUPPORT. What a raise and a returning latch do to the backlog's classes and sources. -/

namespace Sys2Proof.Machine

theorem AlertClass.sources_le (c : AlertClass) : c.sources ≤ 256 := by cases c <;> decide

/-- The bound on sources that the backlog's order rests on. -/
theorem sourcesInRange_lt {s : State} (h : s.sourcesInRange) : ∀ l ∈ s.relay.backlog, l.source < 256 :=
  fun l hl => Nat.lt_of_lt_of_le (h.1 l hl) l.cls.sources_le

theorem sourcesInRange_inFlight_lt {s : State} (h : s.sourcesInRange) {l : Latch} (hl : s.relay.inFlight = some l) :
    l.source < 256 :=
  Nat.lt_of_lt_of_le (h.2 l hl) l.cls.sources_le

/-- With sources in range, a place in the backlog is a class and a source. -/
theorem Latch.key_inj {a b : Latch} (ha : a.source < 256) (hb : b.source < 256) (h : a.key = b.key) :
    a.cls = b.cls ∧ a.source = b.source := by
  obtain ⟨c, n, _, _, _⟩ := a
  obtain ⟨d, m, _, _, _⟩ := b
  cases c <;> cases d <;> simp_all [Latch.key, latchKey, AlertClass.rank] <;> omega

/-- A latch of the backlog after a raise is the new one or has the class and source of one that stood there. -/
theorem mem_addRaise {new x : Latch} {ls : List Latch} (h : x ∈ addRaise new ls) :
    x = new ∨ ∃ l ∈ ls, x.cls = l.cls ∧ x.source = l.source := by
  induction ls with
  | nil => exact Or.inl (List.mem_singleton.1 h)
  | cons l ls ih =>
    simp only [addRaise] at h
    split at h
    · rcases List.mem_cons.1 h with h | h
      · exact Or.inl h
      · exact Or.inr ⟨x, h, rfl, rfl⟩
    · split at h
      · rcases List.mem_cons.1 h with rfl | h
        · exact Or.inr ⟨l, List.mem_cons_self, rfl, rfl⟩
        · exact Or.inr ⟨x, List.mem_cons_of_mem _ h, rfl, rfl⟩
      · rcases List.mem_cons.1 h with rfl | h
        · exact Or.inr ⟨x, List.mem_cons_self, rfl, rfl⟩
        · exact (ih h).imp id fun ⟨k, hk, e⟩ => ⟨k, List.mem_cons_of_mem _ hk, e⟩

/-- The same of a returning latch. -/
theorem mem_putBack {new x : Latch} {ls : List Latch} (h : x ∈ putBack new ls) :
    (x.cls = new.cls ∧ x.source = new.source) ∨ x ∈ ls := by
  induction ls with
  | nil => exact Or.inl (by rw [List.mem_singleton.1 h]; exact ⟨rfl, rfl⟩)
  | cons l ls ih =>
    simp only [putBack] at h
    split at h
    · rcases List.mem_cons.1 h with rfl | h
      · exact Or.inl ⟨rfl, rfl⟩
      · exact Or.inr h
    · split at h
      · rcases List.mem_cons.1 h with rfl | h
        · exact Or.inl ⟨rfl, rfl⟩
        · exact Or.inr (List.mem_cons_of_mem _ h)
      · rcases List.mem_cons.1 h with rfl | h
        · exact Or.inr List.mem_cons_self
        · exact (ih h).imp id (List.mem_cons_of_mem _)

/-- A raise leaves a latch of its place in the backlog. -/
theorem addRaise_holds (new : Latch) (ls : List Latch) : ∃ x ∈ addRaise new ls, x.key = new.key := by
  induction ls with
  | nil => exact ⟨new, List.mem_singleton.2 rfl, rfl⟩
  | cons l ls ih =>
    simp only [addRaise]
    split
    · exact ⟨new, List.mem_cons_self, rfl⟩
    · split
      · next h => exact ⟨_, List.mem_cons_self, h.symm⟩
      · obtain ⟨x, hx, e⟩ := ih
        exact ⟨x, List.mem_cons_of_mem _ hx, e⟩

/-- A raise leaves no place empty that was held. -/
theorem addRaise_keeps {new l : Latch} {ls : List Latch} (h : l ∈ ls) : ∃ x ∈ addRaise new ls, x.key = l.key := by
  induction ls with
  | nil => cases h
  | cons k ls ih =>
    simp only [addRaise]
    split
    · exact ⟨l, List.mem_cons_of_mem _ h, rfl⟩
    · rcases List.mem_cons.1 h with rfl | h
      · split
        · exact ⟨_, List.mem_cons_self, rfl⟩
        · exact ⟨l, List.mem_cons_self, rfl⟩
      · split
        · exact ⟨l, List.mem_cons_of_mem _ h, rfl⟩
        · obtain ⟨x, hx, e⟩ := ih h
          exact ⟨x, List.mem_cons_of_mem _ hx, e⟩

end Sys2Proof.Machine
end

