-- ==== Sys2Proof/Laws/State.lean ====
section
/-! SUPPORT. What each update of State changes, field by field. -/

namespace Sys2Proof.Machine

/-! ## Tables -/

@[simp] theorem tget_tset_self {α : Type} {n : Nat} (v : Vector α n) (i : Fin n) (x : α) : tget (tset v i x) i = x := by
  simp [tget, tset]

theorem tget_tset_ne {α : Type} {n : Nat} (v : Vector α n) {i j : Fin n} (x : α) (h : j ≠ i) :
    tget (tset v i x) j = tget v j := by
  have : i.val ≠ j.val := fun e => h (Fin.ext e.symm)
  simp [tget, tset, this]

theorem tget_tset {α : Type} {n : Nat} (v : Vector α n) (i j : Fin n) (x : α) :
    tget (tset v i x) j = if j = i then x else tget v j := by
  by_cases h : j = i
  · subst h; simp
  · simp [h, tget_tset_ne v x h]

@[simp] theorem tset_tget {α : Type} {n : Nat} (v : Vector α n) (i : Fin n) : tset v i (tget v i) = v := by
  ext j hj
  simp only [tset, tget, Vector.getElem_set]
  split <;> simp_all

@[simp] theorem tset_tset {α : Type} {n : Nat} (v : Vector α n) (i : Fin n) (x y : α) :
    tset (tset v i x) i y = tset v i y := by
  simp [tset]

theorem tget_map {α β : Type} {n : Nat} (f : α → β) (v : Vector α n) (i : Fin n) : tget (v.map f) i = f (tget v i) := by
  simp [tget]

theorem map_tset {α β : Type} {n : Nat} (f : α → β) (v : Vector α n) (i : Fin n) (x : α) :
    (tset v i x).map f = tset (v.map f) i (f x) := by
  ext j hj
  simp only [tset, Vector.getElem_map, Vector.getElem_set]
  split <;> rfl

/-- A function that does not see a change of one entry does not see it in the table. -/
theorem map_tset_of_eq {α β : Type} {n : Nat} (f : α → β) (v : Vector α n) (i : Fin n) (x : α)
    (h : f x = f (tget v i)) : (tset v i x).map f = v.map f := by
  have e := tset_tget (v.map f) i
  rw [tget_map] at e
  rw [map_tset, h, e]

theorem table_ext {α : Type} {n : Nat} {v w : Vector α n} (h : ∀ i : Fin n, tget v i = tget w i) : v = w := by
  ext j hj
  exact h ⟨j, hj⟩

/-! ## Fields -/

@[simp] theorem State.setPort_pending (s : State) (p : PortId) (x : Port) : (s.setPort p x).pending = s.pending := rfl
@[simp] theorem State.setPort_resetAsserted (s : State) (p : PortId) (x : Port) : (s.setPort p x).resetAsserted = s.resetAsserted := rfl
@[simp] theorem State.setPort_milliseconds (s : State) (p : PortId) (x : Port) : (s.setPort p x).milliseconds = s.milliseconds := rfl
@[simp] theorem State.setPort_microseconds (s : State) (p : PortId) (x : Port) : (s.setPort p x).microseconds = s.microseconds := rfl
@[simp] theorem State.setPort_anchor (s : State) (p : PortId) (x : Port) : (s.setPort p x).anchor = s.anchor := rfl
@[simp] theorem State.setPort_psp (s : State) (p : PortId) (x : Port) : (s.setPort p x).psp = s.psp := rfl
@[simp] theorem State.setPort_msp (s : State) (p : PortId) (x : Port) : (s.setPort p x).msp = s.msp := rfl
@[simp] theorem State.setPort_sweep (s : State) (p : PortId) (x : Port) : (s.setPort p x).sweep = s.sweep := rfl
@[simp] theorem State.setPort_image (s : State) (p : PortId) (x : Port) : (s.setPort p x).image = s.image := rfl
@[simp] theorem State.setPort_ctl (s : State) (p : PortId) (x : Port) : (s.setPort p x).ctl = s.ctl := rfl
@[simp] theorem State.setPort_tickets (s : State) (p : PortId) (x : Port) : (s.setPort p x).tickets = s.tickets := rfl
@[simp] theorem State.setPort_fetcher (s : State) (p : PortId) (x : Port) : (s.setPort p x).fetcher = s.fetcher := rfl
@[simp] theorem State.setPort_guards (s : State) (p : PortId) (x : Port) : (s.setPort p x).guards = s.guards := rfl
@[simp] theorem State.setPort_accounts (s : State) (p : PortId) (x : Port) : (s.setPort p x).accounts = s.accounts := rfl
@[simp] theorem State.setPort_relay (s : State) (p : PortId) (x : Port) : (s.setPort p x).relay = s.relay := rfl
@[simp] theorem State.setPort_draws (s : State) (p : PortId) (x : Port) : (s.setPort p x).draws = s.draws := rfl
@[simp] theorem State.setPort_out (s : State) (p : PortId) (x : Port) : (s.setPort p x).out = s.out := rfl
@[simp] theorem State.modPort_pending (s : State) (p : PortId) (f : Port → Port) : (s.modPort p f).pending = s.pending := rfl
@[simp] theorem State.modPort_resetAsserted (s : State) (p : PortId) (f : Port → Port) : (s.modPort p f).resetAsserted = s.resetAsserted := rfl
@[simp] theorem State.modPort_milliseconds (s : State) (p : PortId) (f : Port → Port) : (s.modPort p f).milliseconds = s.milliseconds := rfl
@[simp] theorem State.modPort_microseconds (s : State) (p : PortId) (f : Port → Port) : (s.modPort p f).microseconds = s.microseconds := rfl
@[simp] theorem State.modPort_anchor (s : State) (p : PortId) (f : Port → Port) : (s.modPort p f).anchor = s.anchor := rfl
@[simp] theorem State.modPort_psp (s : State) (p : PortId) (f : Port → Port) : (s.modPort p f).psp = s.psp := rfl
@[simp] theorem State.modPort_msp (s : State) (p : PortId) (f : Port → Port) : (s.modPort p f).msp = s.msp := rfl
@[simp] theorem State.modPort_sweep (s : State) (p : PortId) (f : Port → Port) : (s.modPort p f).sweep = s.sweep := rfl
@[simp] theorem State.modPort_image (s : State) (p : PortId) (f : Port → Port) : (s.modPort p f).image = s.image := rfl
@[simp] theorem State.modPort_ctl (s : State) (p : PortId) (f : Port → Port) : (s.modPort p f).ctl = s.ctl := rfl
@[simp] theorem State.modPort_tickets (s : State) (p : PortId) (f : Port → Port) : (s.modPort p f).tickets = s.tickets := rfl
@[simp] theorem State.modPort_fetcher (s : State) (p : PortId) (f : Port → Port) : (s.modPort p f).fetcher = s.fetcher := rfl
@[simp] theorem State.modPort_guards (s : State) (p : PortId) (f : Port → Port) : (s.modPort p f).guards = s.guards := rfl
@[simp] theorem State.modPort_accounts (s : State) (p : PortId) (f : Port → Port) : (s.modPort p f).accounts = s.accounts := rfl
@[simp] theorem State.modPort_relay (s : State) (p : PortId) (f : Port → Port) : (s.modPort p f).relay = s.relay := rfl
@[simp] theorem State.modPort_draws (s : State) (p : PortId) (f : Port → Port) : (s.modPort p f).draws = s.draws := rfl
@[simp] theorem State.modPort_out (s : State) (p : PortId) (f : Port → Port) : (s.modPort p f).out = s.out := rfl
@[simp] theorem State.modEngine_pending (s : State) (p : PortId) (f : Engine → Engine) : (s.modEngine p f).pending = s.pending := rfl
@[simp] theorem State.modEngine_resetAsserted (s : State) (p : PortId) (f : Engine → Engine) : (s.modEngine p f).resetAsserted = s.resetAsserted := rfl
@[simp] theorem State.modEngine_milliseconds (s : State) (p : PortId) (f : Engine → Engine) : (s.modEngine p f).milliseconds = s.milliseconds := rfl
@[simp] theorem State.modEngine_microseconds (s : State) (p : PortId) (f : Engine → Engine) : (s.modEngine p f).microseconds = s.microseconds := rfl
@[simp] theorem State.modEngine_anchor (s : State) (p : PortId) (f : Engine → Engine) : (s.modEngine p f).anchor = s.anchor := rfl
@[simp] theorem State.modEngine_psp (s : State) (p : PortId) (f : Engine → Engine) : (s.modEngine p f).psp = s.psp := rfl
@[simp] theorem State.modEngine_msp (s : State) (p : PortId) (f : Engine → Engine) : (s.modEngine p f).msp = s.msp := rfl
@[simp] theorem State.modEngine_sweep (s : State) (p : PortId) (f : Engine → Engine) : (s.modEngine p f).sweep = s.sweep := rfl
@[simp] theorem State.modEngine_image (s : State) (p : PortId) (f : Engine → Engine) : (s.modEngine p f).image = s.image := rfl
@[simp] theorem State.modEngine_ctl (s : State) (p : PortId) (f : Engine → Engine) : (s.modEngine p f).ctl = s.ctl := rfl
@[simp] theorem State.modEngine_tickets (s : State) (p : PortId) (f : Engine → Engine) : (s.modEngine p f).tickets = s.tickets := rfl
@[simp] theorem State.modEngine_fetcher (s : State) (p : PortId) (f : Engine → Engine) : (s.modEngine p f).fetcher = s.fetcher := rfl
@[simp] theorem State.modEngine_guards (s : State) (p : PortId) (f : Engine → Engine) : (s.modEngine p f).guards = s.guards := rfl
@[simp] theorem State.modEngine_accounts (s : State) (p : PortId) (f : Engine → Engine) : (s.modEngine p f).accounts = s.accounts := rfl
@[simp] theorem State.modEngine_relay (s : State) (p : PortId) (f : Engine → Engine) : (s.modEngine p f).relay = s.relay := rfl
@[simp] theorem State.modEngine_draws (s : State) (p : PortId) (f : Engine → Engine) : (s.modEngine p f).draws = s.draws := rfl
@[simp] theorem State.modEngine_out (s : State) (p : PortId) (f : Engine → Engine) : (s.modEngine p f).out = s.out := rfl
@[simp] theorem State.modLink_pending (s : State) (p : PortId) (f : Link → Link) : (s.modLink p f).pending = s.pending := rfl
@[simp] theorem State.modLink_resetAsserted (s : State) (p : PortId) (f : Link → Link) : (s.modLink p f).resetAsserted = s.resetAsserted := rfl
@[simp] theorem State.modLink_milliseconds (s : State) (p : PortId) (f : Link → Link) : (s.modLink p f).milliseconds = s.milliseconds := rfl
@[simp] theorem State.modLink_microseconds (s : State) (p : PortId) (f : Link → Link) : (s.modLink p f).microseconds = s.microseconds := rfl
@[simp] theorem State.modLink_anchor (s : State) (p : PortId) (f : Link → Link) : (s.modLink p f).anchor = s.anchor := rfl
@[simp] theorem State.modLink_psp (s : State) (p : PortId) (f : Link → Link) : (s.modLink p f).psp = s.psp := rfl
@[simp] theorem State.modLink_msp (s : State) (p : PortId) (f : Link → Link) : (s.modLink p f).msp = s.msp := rfl
@[simp] theorem State.modLink_sweep (s : State) (p : PortId) (f : Link → Link) : (s.modLink p f).sweep = s.sweep := rfl
@[simp] theorem State.modLink_image (s : State) (p : PortId) (f : Link → Link) : (s.modLink p f).image = s.image := rfl
@[simp] theorem State.modLink_ctl (s : State) (p : PortId) (f : Link → Link) : (s.modLink p f).ctl = s.ctl := rfl
@[simp] theorem State.modLink_tickets (s : State) (p : PortId) (f : Link → Link) : (s.modLink p f).tickets = s.tickets := rfl
@[simp] theorem State.modLink_fetcher (s : State) (p : PortId) (f : Link → Link) : (s.modLink p f).fetcher = s.fetcher := rfl
@[simp] theorem State.modLink_guards (s : State) (p : PortId) (f : Link → Link) : (s.modLink p f).guards = s.guards := rfl
@[simp] theorem State.modLink_accounts (s : State) (p : PortId) (f : Link → Link) : (s.modLink p f).accounts = s.accounts := rfl
@[simp] theorem State.modLink_relay (s : State) (p : PortId) (f : Link → Link) : (s.modLink p f).relay = s.relay := rfl
@[simp] theorem State.modLink_draws (s : State) (p : PortId) (f : Link → Link) : (s.modLink p f).draws = s.draws := rfl
@[simp] theorem State.modLink_out (s : State) (p : PortId) (f : Link → Link) : (s.modLink p f).out = s.out := rfl
@[simp] theorem State.modWatch_pending (s : State) (p : PortId) (f : Watch → Watch) : (s.modWatch p f).pending = s.pending := rfl
@[simp] theorem State.modWatch_resetAsserted (s : State) (p : PortId) (f : Watch → Watch) : (s.modWatch p f).resetAsserted = s.resetAsserted := rfl
@[simp] theorem State.modWatch_milliseconds (s : State) (p : PortId) (f : Watch → Watch) : (s.modWatch p f).milliseconds = s.milliseconds := rfl
@[simp] theorem State.modWatch_microseconds (s : State) (p : PortId) (f : Watch → Watch) : (s.modWatch p f).microseconds = s.microseconds := rfl
@[simp] theorem State.modWatch_anchor (s : State) (p : PortId) (f : Watch → Watch) : (s.modWatch p f).anchor = s.anchor := rfl
@[simp] theorem State.modWatch_psp (s : State) (p : PortId) (f : Watch → Watch) : (s.modWatch p f).psp = s.psp := rfl
@[simp] theorem State.modWatch_msp (s : State) (p : PortId) (f : Watch → Watch) : (s.modWatch p f).msp = s.msp := rfl
@[simp] theorem State.modWatch_sweep (s : State) (p : PortId) (f : Watch → Watch) : (s.modWatch p f).sweep = s.sweep := rfl
@[simp] theorem State.modWatch_image (s : State) (p : PortId) (f : Watch → Watch) : (s.modWatch p f).image = s.image := rfl
@[simp] theorem State.modWatch_ctl (s : State) (p : PortId) (f : Watch → Watch) : (s.modWatch p f).ctl = s.ctl := rfl
@[simp] theorem State.modWatch_tickets (s : State) (p : PortId) (f : Watch → Watch) : (s.modWatch p f).tickets = s.tickets := rfl
@[simp] theorem State.modWatch_fetcher (s : State) (p : PortId) (f : Watch → Watch) : (s.modWatch p f).fetcher = s.fetcher := rfl
@[simp] theorem State.modWatch_guards (s : State) (p : PortId) (f : Watch → Watch) : (s.modWatch p f).guards = s.guards := rfl
@[simp] theorem State.modWatch_accounts (s : State) (p : PortId) (f : Watch → Watch) : (s.modWatch p f).accounts = s.accounts := rfl
@[simp] theorem State.modWatch_relay (s : State) (p : PortId) (f : Watch → Watch) : (s.modWatch p f).relay = s.relay := rfl
@[simp] theorem State.modWatch_draws (s : State) (p : PortId) (f : Watch → Watch) : (s.modWatch p f).draws = s.draws := rfl
@[simp] theorem State.modWatch_out (s : State) (p : PortId) (f : Watch → Watch) : (s.modWatch p f).out = s.out := rfl
@[simp] theorem State.setPages_pending (s : State) (p : PortId) (x : List Entry) : (s.setPages p x).pending = s.pending := rfl
@[simp] theorem State.setPages_resetAsserted (s : State) (p : PortId) (x : List Entry) : (s.setPages p x).resetAsserted = s.resetAsserted := rfl
@[simp] theorem State.setPages_milliseconds (s : State) (p : PortId) (x : List Entry) : (s.setPages p x).milliseconds = s.milliseconds := rfl
@[simp] theorem State.setPages_microseconds (s : State) (p : PortId) (x : List Entry) : (s.setPages p x).microseconds = s.microseconds := rfl
@[simp] theorem State.setPages_anchor (s : State) (p : PortId) (x : List Entry) : (s.setPages p x).anchor = s.anchor := rfl
@[simp] theorem State.setPages_psp (s : State) (p : PortId) (x : List Entry) : (s.setPages p x).psp = s.psp := rfl
@[simp] theorem State.setPages_msp (s : State) (p : PortId) (x : List Entry) : (s.setPages p x).msp = s.msp := rfl
@[simp] theorem State.setPages_sweep (s : State) (p : PortId) (x : List Entry) : (s.setPages p x).sweep = s.sweep := rfl
@[simp] theorem State.setPages_image (s : State) (p : PortId) (x : List Entry) : (s.setPages p x).image = s.image := rfl
@[simp] theorem State.setPages_ctl (s : State) (p : PortId) (x : List Entry) : (s.setPages p x).ctl = s.ctl := rfl
@[simp] theorem State.setPages_tickets (s : State) (p : PortId) (x : List Entry) : (s.setPages p x).tickets = s.tickets := rfl
@[simp] theorem State.setPages_fetcher (s : State) (p : PortId) (x : List Entry) : (s.setPages p x).fetcher = s.fetcher := rfl
@[simp] theorem State.setPages_guards (s : State) (p : PortId) (x : List Entry) : (s.setPages p x).guards = s.guards := rfl
@[simp] theorem State.setPages_accounts (s : State) (p : PortId) (x : List Entry) : (s.setPages p x).accounts = s.accounts := rfl
@[simp] theorem State.setPages_relay (s : State) (p : PortId) (x : List Entry) : (s.setPages p x).relay = s.relay := rfl
@[simp] theorem State.setPages_draws (s : State) (p : PortId) (x : List Entry) : (s.setPages p x).draws = s.draws := rfl
@[simp] theorem State.setPages_out (s : State) (p : PortId) (x : List Entry) : (s.setPages p x).out = s.out := rfl
@[simp] theorem State.setQueue_pending (s : State) (p : PortId) (x : List QueueEntry) : (s.setQueue p x).pending = s.pending := rfl
@[simp] theorem State.setQueue_resetAsserted (s : State) (p : PortId) (x : List QueueEntry) : (s.setQueue p x).resetAsserted = s.resetAsserted := rfl
@[simp] theorem State.setQueue_milliseconds (s : State) (p : PortId) (x : List QueueEntry) : (s.setQueue p x).milliseconds = s.milliseconds := rfl
@[simp] theorem State.setQueue_microseconds (s : State) (p : PortId) (x : List QueueEntry) : (s.setQueue p x).microseconds = s.microseconds := rfl
@[simp] theorem State.setQueue_anchor (s : State) (p : PortId) (x : List QueueEntry) : (s.setQueue p x).anchor = s.anchor := rfl
@[simp] theorem State.setQueue_psp (s : State) (p : PortId) (x : List QueueEntry) : (s.setQueue p x).psp = s.psp := rfl
@[simp] theorem State.setQueue_msp (s : State) (p : PortId) (x : List QueueEntry) : (s.setQueue p x).msp = s.msp := rfl
@[simp] theorem State.setQueue_sweep (s : State) (p : PortId) (x : List QueueEntry) : (s.setQueue p x).sweep = s.sweep := rfl
@[simp] theorem State.setQueue_image (s : State) (p : PortId) (x : List QueueEntry) : (s.setQueue p x).image = s.image := rfl
@[simp] theorem State.setQueue_ctl (s : State) (p : PortId) (x : List QueueEntry) : (s.setQueue p x).ctl = s.ctl := rfl
@[simp] theorem State.setQueue_tickets (s : State) (p : PortId) (x : List QueueEntry) : (s.setQueue p x).tickets = s.tickets := rfl
@[simp] theorem State.setQueue_fetcher (s : State) (p : PortId) (x : List QueueEntry) : (s.setQueue p x).fetcher = s.fetcher := rfl
@[simp] theorem State.setQueue_guards (s : State) (p : PortId) (x : List QueueEntry) : (s.setQueue p x).guards = s.guards := rfl
@[simp] theorem State.setQueue_accounts (s : State) (p : PortId) (x : List QueueEntry) : (s.setQueue p x).accounts = s.accounts := rfl
@[simp] theorem State.setQueue_relay (s : State) (p : PortId) (x : List QueueEntry) : (s.setQueue p x).relay = s.relay := rfl
@[simp] theorem State.setQueue_draws (s : State) (p : PortId) (x : List QueueEntry) : (s.setQueue p x).draws = s.draws := rfl
@[simp] theorem State.setQueue_out (s : State) (p : PortId) (x : List QueueEntry) : (s.setQueue p x).out = s.out := rfl
@[simp] theorem State.setJob_pending (s : State) (p : PortId) (x : Option Job) : (s.setJob p x).pending = s.pending := rfl
@[simp] theorem State.setJob_resetAsserted (s : State) (p : PortId) (x : Option Job) : (s.setJob p x).resetAsserted = s.resetAsserted := rfl
@[simp] theorem State.setJob_milliseconds (s : State) (p : PortId) (x : Option Job) : (s.setJob p x).milliseconds = s.milliseconds := rfl
@[simp] theorem State.setJob_microseconds (s : State) (p : PortId) (x : Option Job) : (s.setJob p x).microseconds = s.microseconds := rfl
@[simp] theorem State.setJob_anchor (s : State) (p : PortId) (x : Option Job) : (s.setJob p x).anchor = s.anchor := rfl
@[simp] theorem State.setJob_psp (s : State) (p : PortId) (x : Option Job) : (s.setJob p x).psp = s.psp := rfl
@[simp] theorem State.setJob_msp (s : State) (p : PortId) (x : Option Job) : (s.setJob p x).msp = s.msp := rfl
@[simp] theorem State.setJob_sweep (s : State) (p : PortId) (x : Option Job) : (s.setJob p x).sweep = s.sweep := rfl
@[simp] theorem State.setJob_image (s : State) (p : PortId) (x : Option Job) : (s.setJob p x).image = s.image := rfl
@[simp] theorem State.setJob_ctl (s : State) (p : PortId) (x : Option Job) : (s.setJob p x).ctl = s.ctl := rfl
@[simp] theorem State.setJob_tickets (s : State) (p : PortId) (x : Option Job) : (s.setJob p x).tickets = s.tickets := rfl
@[simp] theorem State.setJob_fetcher (s : State) (p : PortId) (x : Option Job) : (s.setJob p x).fetcher = s.fetcher := rfl
@[simp] theorem State.setJob_guards (s : State) (p : PortId) (x : Option Job) : (s.setJob p x).guards = s.guards := rfl
@[simp] theorem State.setJob_accounts (s : State) (p : PortId) (x : Option Job) : (s.setJob p x).accounts = s.accounts := rfl
@[simp] theorem State.setJob_relay (s : State) (p : PortId) (x : Option Job) : (s.setJob p x).relay = s.relay := rfl
@[simp] theorem State.setJob_draws (s : State) (p : PortId) (x : Option Job) : (s.setJob p x).draws = s.draws := rfl
@[simp] theorem State.setJob_out (s : State) (p : PortId) (x : Option Job) : (s.setJob p x).out = s.out := rfl
@[simp] theorem State.setTicket_pending (s : State) (t : Slot) (x : Ticket) : (s.setTicket t x).pending = s.pending := rfl
@[simp] theorem State.setTicket_resetAsserted (s : State) (t : Slot) (x : Ticket) : (s.setTicket t x).resetAsserted = s.resetAsserted := rfl
@[simp] theorem State.setTicket_milliseconds (s : State) (t : Slot) (x : Ticket) : (s.setTicket t x).milliseconds = s.milliseconds := rfl
@[simp] theorem State.setTicket_microseconds (s : State) (t : Slot) (x : Ticket) : (s.setTicket t x).microseconds = s.microseconds := rfl
@[simp] theorem State.setTicket_anchor (s : State) (t : Slot) (x : Ticket) : (s.setTicket t x).anchor = s.anchor := rfl
@[simp] theorem State.setTicket_psp (s : State) (t : Slot) (x : Ticket) : (s.setTicket t x).psp = s.psp := rfl
@[simp] theorem State.setTicket_msp (s : State) (t : Slot) (x : Ticket) : (s.setTicket t x).msp = s.msp := rfl
@[simp] theorem State.setTicket_sweep (s : State) (t : Slot) (x : Ticket) : (s.setTicket t x).sweep = s.sweep := rfl
@[simp] theorem State.setTicket_image (s : State) (t : Slot) (x : Ticket) : (s.setTicket t x).image = s.image := rfl
@[simp] theorem State.setTicket_ctl (s : State) (t : Slot) (x : Ticket) : (s.setTicket t x).ctl = s.ctl := rfl
@[simp] theorem State.setTicket_fetcher (s : State) (t : Slot) (x : Ticket) : (s.setTicket t x).fetcher = s.fetcher := rfl
@[simp] theorem State.setTicket_guards (s : State) (t : Slot) (x : Ticket) : (s.setTicket t x).guards = s.guards := rfl
@[simp] theorem State.setTicket_ports (s : State) (t : Slot) (x : Ticket) : (s.setTicket t x).ports = s.ports := rfl
@[simp] theorem State.setTicket_accounts (s : State) (t : Slot) (x : Ticket) : (s.setTicket t x).accounts = s.accounts := rfl
@[simp] theorem State.setTicket_relay (s : State) (t : Slot) (x : Ticket) : (s.setTicket t x).relay = s.relay := rfl
@[simp] theorem State.setTicket_draws (s : State) (t : Slot) (x : Ticket) : (s.setTicket t x).draws = s.draws := rfl
@[simp] theorem State.setTicket_out (s : State) (t : Slot) (x : Ticket) : (s.setTicket t x).out = s.out := rfl
@[simp] theorem State.modTicket_pending (s : State) (t : Slot) (f : Ticket → Ticket) : (s.modTicket t f).pending = s.pending := rfl
@[simp] theorem State.modTicket_resetAsserted (s : State) (t : Slot) (f : Ticket → Ticket) : (s.modTicket t f).resetAsserted = s.resetAsserted := rfl
@[simp] theorem State.modTicket_milliseconds (s : State) (t : Slot) (f : Ticket → Ticket) : (s.modTicket t f).milliseconds = s.milliseconds := rfl
@[simp] theorem State.modTicket_microseconds (s : State) (t : Slot) (f : Ticket → Ticket) : (s.modTicket t f).microseconds = s.microseconds := rfl
@[simp] theorem State.modTicket_anchor (s : State) (t : Slot) (f : Ticket → Ticket) : (s.modTicket t f).anchor = s.anchor := rfl
@[simp] theorem State.modTicket_psp (s : State) (t : Slot) (f : Ticket → Ticket) : (s.modTicket t f).psp = s.psp := rfl
@[simp] theorem State.modTicket_msp (s : State) (t : Slot) (f : Ticket → Ticket) : (s.modTicket t f).msp = s.msp := rfl
@[simp] theorem State.modTicket_sweep (s : State) (t : Slot) (f : Ticket → Ticket) : (s.modTicket t f).sweep = s.sweep := rfl
@[simp] theorem State.modTicket_image (s : State) (t : Slot) (f : Ticket → Ticket) : (s.modTicket t f).image = s.image := rfl
@[simp] theorem State.modTicket_ctl (s : State) (t : Slot) (f : Ticket → Ticket) : (s.modTicket t f).ctl = s.ctl := rfl
@[simp] theorem State.modTicket_fetcher (s : State) (t : Slot) (f : Ticket → Ticket) : (s.modTicket t f).fetcher = s.fetcher := rfl
@[simp] theorem State.modTicket_guards (s : State) (t : Slot) (f : Ticket → Ticket) : (s.modTicket t f).guards = s.guards := rfl
@[simp] theorem State.modTicket_ports (s : State) (t : Slot) (f : Ticket → Ticket) : (s.modTicket t f).ports = s.ports := rfl
@[simp] theorem State.modTicket_accounts (s : State) (t : Slot) (f : Ticket → Ticket) : (s.modTicket t f).accounts = s.accounts := rfl
@[simp] theorem State.modTicket_relay (s : State) (t : Slot) (f : Ticket → Ticket) : (s.modTicket t f).relay = s.relay := rfl
@[simp] theorem State.modTicket_draws (s : State) (t : Slot) (f : Ticket → Ticket) : (s.modTicket t f).draws = s.draws := rfl
@[simp] theorem State.modTicket_out (s : State) (t : Slot) (f : Ticket → Ticket) : (s.modTicket t f).out = s.out := rfl
@[simp] theorem State.setAccount_pending (s : State) (a : AccountId) (x : Account) : (s.setAccount a x).pending = s.pending := rfl
@[simp] theorem State.setAccount_resetAsserted (s : State) (a : AccountId) (x : Account) : (s.setAccount a x).resetAsserted = s.resetAsserted := rfl
@[simp] theorem State.setAccount_milliseconds (s : State) (a : AccountId) (x : Account) : (s.setAccount a x).milliseconds = s.milliseconds := rfl
@[simp] theorem State.setAccount_microseconds (s : State) (a : AccountId) (x : Account) : (s.setAccount a x).microseconds = s.microseconds := rfl
@[simp] theorem State.setAccount_anchor (s : State) (a : AccountId) (x : Account) : (s.setAccount a x).anchor = s.anchor := rfl
@[simp] theorem State.setAccount_psp (s : State) (a : AccountId) (x : Account) : (s.setAccount a x).psp = s.psp := rfl
@[simp] theorem State.setAccount_msp (s : State) (a : AccountId) (x : Account) : (s.setAccount a x).msp = s.msp := rfl
@[simp] theorem State.setAccount_sweep (s : State) (a : AccountId) (x : Account) : (s.setAccount a x).sweep = s.sweep := rfl
@[simp] theorem State.setAccount_image (s : State) (a : AccountId) (x : Account) : (s.setAccount a x).image = s.image := rfl
@[simp] theorem State.setAccount_ctl (s : State) (a : AccountId) (x : Account) : (s.setAccount a x).ctl = s.ctl := rfl
@[simp] theorem State.setAccount_tickets (s : State) (a : AccountId) (x : Account) : (s.setAccount a x).tickets = s.tickets := rfl
@[simp] theorem State.setAccount_fetcher (s : State) (a : AccountId) (x : Account) : (s.setAccount a x).fetcher = s.fetcher := rfl
@[simp] theorem State.setAccount_guards (s : State) (a : AccountId) (x : Account) : (s.setAccount a x).guards = s.guards := rfl
@[simp] theorem State.setAccount_ports (s : State) (a : AccountId) (x : Account) : (s.setAccount a x).ports = s.ports := rfl
@[simp] theorem State.setAccount_relay (s : State) (a : AccountId) (x : Account) : (s.setAccount a x).relay = s.relay := rfl
@[simp] theorem State.setAccount_draws (s : State) (a : AccountId) (x : Account) : (s.setAccount a x).draws = s.draws := rfl
@[simp] theorem State.setAccount_out (s : State) (a : AccountId) (x : Account) : (s.setAccount a x).out = s.out := rfl
@[simp] theorem State.modAccount_pending (s : State) (a : AccountId) (f : Account → Account) : (s.modAccount a f).pending = s.pending := rfl
@[simp] theorem State.modAccount_resetAsserted (s : State) (a : AccountId) (f : Account → Account) : (s.modAccount a f).resetAsserted = s.resetAsserted := rfl
@[simp] theorem State.modAccount_milliseconds (s : State) (a : AccountId) (f : Account → Account) : (s.modAccount a f).milliseconds = s.milliseconds := rfl
@[simp] theorem State.modAccount_microseconds (s : State) (a : AccountId) (f : Account → Account) : (s.modAccount a f).microseconds = s.microseconds := rfl
@[simp] theorem State.modAccount_anchor (s : State) (a : AccountId) (f : Account → Account) : (s.modAccount a f).anchor = s.anchor := rfl
@[simp] theorem State.modAccount_psp (s : State) (a : AccountId) (f : Account → Account) : (s.modAccount a f).psp = s.psp := rfl
@[simp] theorem State.modAccount_msp (s : State) (a : AccountId) (f : Account → Account) : (s.modAccount a f).msp = s.msp := rfl
@[simp] theorem State.modAccount_sweep (s : State) (a : AccountId) (f : Account → Account) : (s.modAccount a f).sweep = s.sweep := rfl
@[simp] theorem State.modAccount_image (s : State) (a : AccountId) (f : Account → Account) : (s.modAccount a f).image = s.image := rfl
@[simp] theorem State.modAccount_ctl (s : State) (a : AccountId) (f : Account → Account) : (s.modAccount a f).ctl = s.ctl := rfl
@[simp] theorem State.modAccount_tickets (s : State) (a : AccountId) (f : Account → Account) : (s.modAccount a f).tickets = s.tickets := rfl
@[simp] theorem State.modAccount_fetcher (s : State) (a : AccountId) (f : Account → Account) : (s.modAccount a f).fetcher = s.fetcher := rfl
@[simp] theorem State.modAccount_guards (s : State) (a : AccountId) (f : Account → Account) : (s.modAccount a f).guards = s.guards := rfl
@[simp] theorem State.modAccount_ports (s : State) (a : AccountId) (f : Account → Account) : (s.modAccount a f).ports = s.ports := rfl
@[simp] theorem State.modAccount_relay (s : State) (a : AccountId) (f : Account → Account) : (s.modAccount a f).relay = s.relay := rfl
@[simp] theorem State.modAccount_draws (s : State) (a : AccountId) (f : Account → Account) : (s.modAccount a f).draws = s.draws := rfl
@[simp] theorem State.modAccount_out (s : State) (a : AccountId) (f : Account → Account) : (s.modAccount a f).out = s.out := rfl
@[simp] theorem State.setRecord_pending (s : State) (t : Tag) (x : Option PspRecord) : (s.setRecord t x).pending = s.pending := rfl
@[simp] theorem State.setRecord_resetAsserted (s : State) (t : Tag) (x : Option PspRecord) : (s.setRecord t x).resetAsserted = s.resetAsserted := rfl
@[simp] theorem State.setRecord_milliseconds (s : State) (t : Tag) (x : Option PspRecord) : (s.setRecord t x).milliseconds = s.milliseconds := rfl
@[simp] theorem State.setRecord_microseconds (s : State) (t : Tag) (x : Option PspRecord) : (s.setRecord t x).microseconds = s.microseconds := rfl
@[simp] theorem State.setRecord_anchor (s : State) (t : Tag) (x : Option PspRecord) : (s.setRecord t x).anchor = s.anchor := rfl
@[simp] theorem State.setRecord_msp (s : State) (t : Tag) (x : Option PspRecord) : (s.setRecord t x).msp = s.msp := rfl
@[simp] theorem State.setRecord_sweep (s : State) (t : Tag) (x : Option PspRecord) : (s.setRecord t x).sweep = s.sweep := rfl
@[simp] theorem State.setRecord_image (s : State) (t : Tag) (x : Option PspRecord) : (s.setRecord t x).image = s.image := rfl
@[simp] theorem State.setRecord_ctl (s : State) (t : Tag) (x : Option PspRecord) : (s.setRecord t x).ctl = s.ctl := rfl
@[simp] theorem State.setRecord_tickets (s : State) (t : Tag) (x : Option PspRecord) : (s.setRecord t x).tickets = s.tickets := rfl
@[simp] theorem State.setRecord_fetcher (s : State) (t : Tag) (x : Option PspRecord) : (s.setRecord t x).fetcher = s.fetcher := rfl
@[simp] theorem State.setRecord_guards (s : State) (t : Tag) (x : Option PspRecord) : (s.setRecord t x).guards = s.guards := rfl
@[simp] theorem State.setRecord_ports (s : State) (t : Tag) (x : Option PspRecord) : (s.setRecord t x).ports = s.ports := rfl
@[simp] theorem State.setRecord_accounts (s : State) (t : Tag) (x : Option PspRecord) : (s.setRecord t x).accounts = s.accounts := rfl
@[simp] theorem State.setRecord_relay (s : State) (t : Tag) (x : Option PspRecord) : (s.setRecord t x).relay = s.relay := rfl
@[simp] theorem State.setRecord_draws (s : State) (t : Tag) (x : Option PspRecord) : (s.setRecord t x).draws = s.draws := rfl
@[simp] theorem State.setRecord_out (s : State) (t : Tag) (x : Option PspRecord) : (s.setRecord t x).out = s.out := rfl
@[simp] theorem State.modMsp_pending (s : State) (f : Msp → Msp) : (s.modMsp f).pending = s.pending := rfl
@[simp] theorem State.modMsp_resetAsserted (s : State) (f : Msp → Msp) : (s.modMsp f).resetAsserted = s.resetAsserted := rfl
@[simp] theorem State.modMsp_milliseconds (s : State) (f : Msp → Msp) : (s.modMsp f).milliseconds = s.milliseconds := rfl
@[simp] theorem State.modMsp_microseconds (s : State) (f : Msp → Msp) : (s.modMsp f).microseconds = s.microseconds := rfl
@[simp] theorem State.modMsp_anchor (s : State) (f : Msp → Msp) : (s.modMsp f).anchor = s.anchor := rfl
@[simp] theorem State.modMsp_psp (s : State) (f : Msp → Msp) : (s.modMsp f).psp = s.psp := rfl
@[simp] theorem State.modMsp_sweep (s : State) (f : Msp → Msp) : (s.modMsp f).sweep = s.sweep := rfl
@[simp] theorem State.modMsp_image (s : State) (f : Msp → Msp) : (s.modMsp f).image = s.image := rfl
@[simp] theorem State.modMsp_ctl (s : State) (f : Msp → Msp) : (s.modMsp f).ctl = s.ctl := rfl
@[simp] theorem State.modMsp_tickets (s : State) (f : Msp → Msp) : (s.modMsp f).tickets = s.tickets := rfl
@[simp] theorem State.modMsp_fetcher (s : State) (f : Msp → Msp) : (s.modMsp f).fetcher = s.fetcher := rfl
@[simp] theorem State.modMsp_guards (s : State) (f : Msp → Msp) : (s.modMsp f).guards = s.guards := rfl
@[simp] theorem State.modMsp_ports (s : State) (f : Msp → Msp) : (s.modMsp f).ports = s.ports := rfl
@[simp] theorem State.modMsp_accounts (s : State) (f : Msp → Msp) : (s.modMsp f).accounts = s.accounts := rfl
@[simp] theorem State.modMsp_relay (s : State) (f : Msp → Msp) : (s.modMsp f).relay = s.relay := rfl
@[simp] theorem State.modMsp_draws (s : State) (f : Msp → Msp) : (s.modMsp f).draws = s.draws := rfl
@[simp] theorem State.modMsp_out (s : State) (f : Msp → Msp) : (s.modMsp f).out = s.out := rfl
@[simp] theorem State.modRelay_pending (s : State) (f : Relay → Relay) : (s.modRelay f).pending = s.pending := rfl
@[simp] theorem State.modRelay_resetAsserted (s : State) (f : Relay → Relay) : (s.modRelay f).resetAsserted = s.resetAsserted := rfl
@[simp] theorem State.modRelay_milliseconds (s : State) (f : Relay → Relay) : (s.modRelay f).milliseconds = s.milliseconds := rfl
@[simp] theorem State.modRelay_microseconds (s : State) (f : Relay → Relay) : (s.modRelay f).microseconds = s.microseconds := rfl
@[simp] theorem State.modRelay_anchor (s : State) (f : Relay → Relay) : (s.modRelay f).anchor = s.anchor := rfl
@[simp] theorem State.modRelay_psp (s : State) (f : Relay → Relay) : (s.modRelay f).psp = s.psp := rfl
@[simp] theorem State.modRelay_msp (s : State) (f : Relay → Relay) : (s.modRelay f).msp = s.msp := rfl
@[simp] theorem State.modRelay_sweep (s : State) (f : Relay → Relay) : (s.modRelay f).sweep = s.sweep := rfl
@[simp] theorem State.modRelay_image (s : State) (f : Relay → Relay) : (s.modRelay f).image = s.image := rfl
@[simp] theorem State.modRelay_ctl (s : State) (f : Relay → Relay) : (s.modRelay f).ctl = s.ctl := rfl
@[simp] theorem State.modRelay_tickets (s : State) (f : Relay → Relay) : (s.modRelay f).tickets = s.tickets := rfl
@[simp] theorem State.modRelay_fetcher (s : State) (f : Relay → Relay) : (s.modRelay f).fetcher = s.fetcher := rfl
@[simp] theorem State.modRelay_guards (s : State) (f : Relay → Relay) : (s.modRelay f).guards = s.guards := rfl
@[simp] theorem State.modRelay_ports (s : State) (f : Relay → Relay) : (s.modRelay f).ports = s.ports := rfl
@[simp] theorem State.modRelay_accounts (s : State) (f : Relay → Relay) : (s.modRelay f).accounts = s.accounts := rfl
@[simp] theorem State.modRelay_draws (s : State) (f : Relay → Relay) : (s.modRelay f).draws = s.draws := rfl
@[simp] theorem State.modRelay_out (s : State) (f : Relay → Relay) : (s.modRelay f).out = s.out := rfl
@[simp] theorem State.modCtl_pending (s : State) (f : Control → Control) : (s.modCtl f).pending = s.pending := rfl
@[simp] theorem State.modCtl_resetAsserted (s : State) (f : Control → Control) : (s.modCtl f).resetAsserted = s.resetAsserted := rfl
@[simp] theorem State.modCtl_milliseconds (s : State) (f : Control → Control) : (s.modCtl f).milliseconds = s.milliseconds := rfl
@[simp] theorem State.modCtl_microseconds (s : State) (f : Control → Control) : (s.modCtl f).microseconds = s.microseconds := rfl
@[simp] theorem State.modCtl_anchor (s : State) (f : Control → Control) : (s.modCtl f).anchor = s.anchor := rfl
@[simp] theorem State.modCtl_psp (s : State) (f : Control → Control) : (s.modCtl f).psp = s.psp := rfl
@[simp] theorem State.modCtl_msp (s : State) (f : Control → Control) : (s.modCtl f).msp = s.msp := rfl
@[simp] theorem State.modCtl_sweep (s : State) (f : Control → Control) : (s.modCtl f).sweep = s.sweep := rfl
@[simp] theorem State.modCtl_image (s : State) (f : Control → Control) : (s.modCtl f).image = s.image := rfl
@[simp] theorem State.modCtl_tickets (s : State) (f : Control → Control) : (s.modCtl f).tickets = s.tickets := rfl
@[simp] theorem State.modCtl_fetcher (s : State) (f : Control → Control) : (s.modCtl f).fetcher = s.fetcher := rfl
@[simp] theorem State.modCtl_guards (s : State) (f : Control → Control) : (s.modCtl f).guards = s.guards := rfl
@[simp] theorem State.modCtl_ports (s : State) (f : Control → Control) : (s.modCtl f).ports = s.ports := rfl
@[simp] theorem State.modCtl_accounts (s : State) (f : Control → Control) : (s.modCtl f).accounts = s.accounts := rfl
@[simp] theorem State.modCtl_relay (s : State) (f : Control → Control) : (s.modCtl f).relay = s.relay := rfl
@[simp] theorem State.modCtl_draws (s : State) (f : Control → Control) : (s.modCtl f).draws = s.draws := rfl
@[simp] theorem State.modCtl_out (s : State) (f : Control → Control) : (s.modCtl f).out = s.out := rfl
@[simp] theorem State.emit_pending (s : State) (o : Output) : (s.emit o).pending = s.pending := rfl
@[simp] theorem State.emit_resetAsserted (s : State) (o : Output) : (s.emit o).resetAsserted = s.resetAsserted := rfl
@[simp] theorem State.emit_milliseconds (s : State) (o : Output) : (s.emit o).milliseconds = s.milliseconds := rfl
@[simp] theorem State.emit_microseconds (s : State) (o : Output) : (s.emit o).microseconds = s.microseconds := rfl
@[simp] theorem State.emit_anchor (s : State) (o : Output) : (s.emit o).anchor = s.anchor := rfl
@[simp] theorem State.emit_psp (s : State) (o : Output) : (s.emit o).psp = s.psp := rfl
@[simp] theorem State.emit_msp (s : State) (o : Output) : (s.emit o).msp = s.msp := rfl
@[simp] theorem State.emit_sweep (s : State) (o : Output) : (s.emit o).sweep = s.sweep := rfl
@[simp] theorem State.emit_image (s : State) (o : Output) : (s.emit o).image = s.image := rfl
@[simp] theorem State.emit_ctl (s : State) (o : Output) : (s.emit o).ctl = s.ctl := rfl
@[simp] theorem State.emit_tickets (s : State) (o : Output) : (s.emit o).tickets = s.tickets := rfl
@[simp] theorem State.emit_fetcher (s : State) (o : Output) : (s.emit o).fetcher = s.fetcher := rfl
@[simp] theorem State.emit_guards (s : State) (o : Output) : (s.emit o).guards = s.guards := rfl
@[simp] theorem State.emit_ports (s : State) (o : Output) : (s.emit o).ports = s.ports := rfl
@[simp] theorem State.emit_accounts (s : State) (o : Output) : (s.emit o).accounts = s.accounts := rfl
@[simp] theorem State.emit_relay (s : State) (o : Output) : (s.emit o).relay = s.relay := rfl
@[simp] theorem State.emit_draws (s : State) (o : Output) : (s.emit o).draws = s.draws := rfl
@[simp] theorem State.clearOut_pending (s : State) : (s.clearOut).pending = s.pending := rfl
@[simp] theorem State.clearOut_resetAsserted (s : State) : (s.clearOut).resetAsserted = s.resetAsserted := rfl
@[simp] theorem State.clearOut_milliseconds (s : State) : (s.clearOut).milliseconds = s.milliseconds := rfl
@[simp] theorem State.clearOut_microseconds (s : State) : (s.clearOut).microseconds = s.microseconds := rfl
@[simp] theorem State.clearOut_anchor (s : State) : (s.clearOut).anchor = s.anchor := rfl
@[simp] theorem State.clearOut_psp (s : State) : (s.clearOut).psp = s.psp := rfl
@[simp] theorem State.clearOut_msp (s : State) : (s.clearOut).msp = s.msp := rfl
@[simp] theorem State.clearOut_sweep (s : State) : (s.clearOut).sweep = s.sweep := rfl
@[simp] theorem State.clearOut_image (s : State) : (s.clearOut).image = s.image := rfl
@[simp] theorem State.clearOut_ctl (s : State) : (s.clearOut).ctl = s.ctl := rfl
@[simp] theorem State.clearOut_tickets (s : State) : (s.clearOut).tickets = s.tickets := rfl
@[simp] theorem State.clearOut_fetcher (s : State) : (s.clearOut).fetcher = s.fetcher := rfl
@[simp] theorem State.clearOut_guards (s : State) : (s.clearOut).guards = s.guards := rfl
@[simp] theorem State.clearOut_ports (s : State) : (s.clearOut).ports = s.ports := rfl
@[simp] theorem State.clearOut_accounts (s : State) : (s.clearOut).accounts = s.accounts := rfl
@[simp] theorem State.clearOut_relay (s : State) : (s.clearOut).relay = s.relay := rfl
@[simp] theorem State.clearOut_draws (s : State) : (s.clearOut).draws = s.draws := rfl

/-! ## What a read finds after an update -/

@[simp] theorem State.ticket_setPort (s : State) (p : PortId) (x : Port) (k : Slot) : (s.setPort p x).ticket k = s.ticket k := rfl
@[simp] theorem State.account_setPort (s : State) (p : PortId) (x : Port) (k : AccountId) : (s.setPort p x).account k = s.account k := rfl
@[simp] theorem State.record_setPort (s : State) (p : PortId) (x : Port) (k : Tag) : (s.setPort p x).record k = s.record k := rfl
@[simp] theorem State.portWord_setPort (s : State) (p : PortId) (x : Port) (k : PortId) : (s.setPort p x).portWord k = s.portWord k := rfl
@[simp] theorem State.accountWord_setPort (s : State) (p : PortId) (x : Port) (k : AccountId) : (s.setPort p x).accountWord k = s.accountWord k := rfl
@[simp] theorem State.policy_setPort (s : State) (p : PortId) (x : Port) (k : AccountId) : (s.setPort p x).policy k = s.policy k := rfl
@[simp] theorem State.guard_setPort (s : State) (p : PortId) (x : Port) (k : Fin 4096) : (s.setPort p x).guard k = s.guard k := rfl
@[simp] theorem State.ticket_modPort (s : State) (p : PortId) (f : Port → Port) (k : Slot) : (s.modPort p f).ticket k = s.ticket k := rfl
@[simp] theorem State.account_modPort (s : State) (p : PortId) (f : Port → Port) (k : AccountId) : (s.modPort p f).account k = s.account k := rfl
@[simp] theorem State.record_modPort (s : State) (p : PortId) (f : Port → Port) (k : Tag) : (s.modPort p f).record k = s.record k := rfl
@[simp] theorem State.portWord_modPort (s : State) (p : PortId) (f : Port → Port) (k : PortId) : (s.modPort p f).portWord k = s.portWord k := rfl
@[simp] theorem State.accountWord_modPort (s : State) (p : PortId) (f : Port → Port) (k : AccountId) : (s.modPort p f).accountWord k = s.accountWord k := rfl
@[simp] theorem State.policy_modPort (s : State) (p : PortId) (f : Port → Port) (k : AccountId) : (s.modPort p f).policy k = s.policy k := rfl
@[simp] theorem State.guard_modPort (s : State) (p : PortId) (f : Port → Port) (k : Fin 4096) : (s.modPort p f).guard k = s.guard k := rfl
@[simp] theorem State.ticket_modEngine (s : State) (p : PortId) (f : Engine → Engine) (k : Slot) : (s.modEngine p f).ticket k = s.ticket k := rfl
@[simp] theorem State.account_modEngine (s : State) (p : PortId) (f : Engine → Engine) (k : AccountId) : (s.modEngine p f).account k = s.account k := rfl
@[simp] theorem State.record_modEngine (s : State) (p : PortId) (f : Engine → Engine) (k : Tag) : (s.modEngine p f).record k = s.record k := rfl
@[simp] theorem State.portWord_modEngine (s : State) (p : PortId) (f : Engine → Engine) (k : PortId) : (s.modEngine p f).portWord k = s.portWord k := rfl
@[simp] theorem State.accountWord_modEngine (s : State) (p : PortId) (f : Engine → Engine) (k : AccountId) : (s.modEngine p f).accountWord k = s.accountWord k := rfl
@[simp] theorem State.policy_modEngine (s : State) (p : PortId) (f : Engine → Engine) (k : AccountId) : (s.modEngine p f).policy k = s.policy k := rfl
@[simp] theorem State.guard_modEngine (s : State) (p : PortId) (f : Engine → Engine) (k : Fin 4096) : (s.modEngine p f).guard k = s.guard k := rfl
@[simp] theorem State.ticket_modLink (s : State) (p : PortId) (f : Link → Link) (k : Slot) : (s.modLink p f).ticket k = s.ticket k := rfl
@[simp] theorem State.account_modLink (s : State) (p : PortId) (f : Link → Link) (k : AccountId) : (s.modLink p f).account k = s.account k := rfl
@[simp] theorem State.record_modLink (s : State) (p : PortId) (f : Link → Link) (k : Tag) : (s.modLink p f).record k = s.record k := rfl
@[simp] theorem State.portWord_modLink (s : State) (p : PortId) (f : Link → Link) (k : PortId) : (s.modLink p f).portWord k = s.portWord k := rfl
@[simp] theorem State.accountWord_modLink (s : State) (p : PortId) (f : Link → Link) (k : AccountId) : (s.modLink p f).accountWord k = s.accountWord k := rfl
@[simp] theorem State.policy_modLink (s : State) (p : PortId) (f : Link → Link) (k : AccountId) : (s.modLink p f).policy k = s.policy k := rfl
@[simp] theorem State.guard_modLink (s : State) (p : PortId) (f : Link → Link) (k : Fin 4096) : (s.modLink p f).guard k = s.guard k := rfl
@[simp] theorem State.ticket_modWatch (s : State) (p : PortId) (f : Watch → Watch) (k : Slot) : (s.modWatch p f).ticket k = s.ticket k := rfl
@[simp] theorem State.account_modWatch (s : State) (p : PortId) (f : Watch → Watch) (k : AccountId) : (s.modWatch p f).account k = s.account k := rfl
@[simp] theorem State.record_modWatch (s : State) (p : PortId) (f : Watch → Watch) (k : Tag) : (s.modWatch p f).record k = s.record k := rfl
@[simp] theorem State.portWord_modWatch (s : State) (p : PortId) (f : Watch → Watch) (k : PortId) : (s.modWatch p f).portWord k = s.portWord k := rfl
@[simp] theorem State.accountWord_modWatch (s : State) (p : PortId) (f : Watch → Watch) (k : AccountId) : (s.modWatch p f).accountWord k = s.accountWord k := rfl
@[simp] theorem State.policy_modWatch (s : State) (p : PortId) (f : Watch → Watch) (k : AccountId) : (s.modWatch p f).policy k = s.policy k := rfl
@[simp] theorem State.guard_modWatch (s : State) (p : PortId) (f : Watch → Watch) (k : Fin 4096) : (s.modWatch p f).guard k = s.guard k := rfl
@[simp] theorem State.ticket_setPages (s : State) (p : PortId) (x : List Entry) (k : Slot) : (s.setPages p x).ticket k = s.ticket k := rfl
@[simp] theorem State.account_setPages (s : State) (p : PortId) (x : List Entry) (k : AccountId) : (s.setPages p x).account k = s.account k := rfl
@[simp] theorem State.record_setPages (s : State) (p : PortId) (x : List Entry) (k : Tag) : (s.setPages p x).record k = s.record k := rfl
@[simp] theorem State.portWord_setPages (s : State) (p : PortId) (x : List Entry) (k : PortId) : (s.setPages p x).portWord k = s.portWord k := rfl
@[simp] theorem State.accountWord_setPages (s : State) (p : PortId) (x : List Entry) (k : AccountId) : (s.setPages p x).accountWord k = s.accountWord k := rfl
@[simp] theorem State.policy_setPages (s : State) (p : PortId) (x : List Entry) (k : AccountId) : (s.setPages p x).policy k = s.policy k := rfl
@[simp] theorem State.guard_setPages (s : State) (p : PortId) (x : List Entry) (k : Fin 4096) : (s.setPages p x).guard k = s.guard k := rfl
@[simp] theorem State.ticket_setQueue (s : State) (p : PortId) (x : List QueueEntry) (k : Slot) : (s.setQueue p x).ticket k = s.ticket k := rfl
@[simp] theorem State.account_setQueue (s : State) (p : PortId) (x : List QueueEntry) (k : AccountId) : (s.setQueue p x).account k = s.account k := rfl
@[simp] theorem State.record_setQueue (s : State) (p : PortId) (x : List QueueEntry) (k : Tag) : (s.setQueue p x).record k = s.record k := rfl
@[simp] theorem State.portWord_setQueue (s : State) (p : PortId) (x : List QueueEntry) (k : PortId) : (s.setQueue p x).portWord k = s.portWord k := rfl
@[simp] theorem State.accountWord_setQueue (s : State) (p : PortId) (x : List QueueEntry) (k : AccountId) : (s.setQueue p x).accountWord k = s.accountWord k := rfl
@[simp] theorem State.policy_setQueue (s : State) (p : PortId) (x : List QueueEntry) (k : AccountId) : (s.setQueue p x).policy k = s.policy k := rfl
@[simp] theorem State.guard_setQueue (s : State) (p : PortId) (x : List QueueEntry) (k : Fin 4096) : (s.setQueue p x).guard k = s.guard k := rfl
@[simp] theorem State.ticket_setJob (s : State) (p : PortId) (x : Option Job) (k : Slot) : (s.setJob p x).ticket k = s.ticket k := rfl
@[simp] theorem State.account_setJob (s : State) (p : PortId) (x : Option Job) (k : AccountId) : (s.setJob p x).account k = s.account k := rfl
@[simp] theorem State.record_setJob (s : State) (p : PortId) (x : Option Job) (k : Tag) : (s.setJob p x).record k = s.record k := rfl
@[simp] theorem State.portWord_setJob (s : State) (p : PortId) (x : Option Job) (k : PortId) : (s.setJob p x).portWord k = s.portWord k := rfl
@[simp] theorem State.accountWord_setJob (s : State) (p : PortId) (x : Option Job) (k : AccountId) : (s.setJob p x).accountWord k = s.accountWord k := rfl
@[simp] theorem State.policy_setJob (s : State) (p : PortId) (x : Option Job) (k : AccountId) : (s.setJob p x).policy k = s.policy k := rfl
@[simp] theorem State.guard_setJob (s : State) (p : PortId) (x : Option Job) (k : Fin 4096) : (s.setJob p x).guard k = s.guard k := rfl
@[simp] theorem State.port_setTicket (s : State) (t : Slot) (x : Ticket) (k : PortId) : (s.setTicket t x).port k = s.port k := rfl
@[simp] theorem State.account_setTicket (s : State) (t : Slot) (x : Ticket) (k : AccountId) : (s.setTicket t x).account k = s.account k := rfl
@[simp] theorem State.record_setTicket (s : State) (t : Slot) (x : Ticket) (k : Tag) : (s.setTicket t x).record k = s.record k := rfl
@[simp] theorem State.inHand_setTicket (s : State) (t : Slot) (x : Ticket) (k : PortId) : (s.setTicket t x).inHand k = s.inHand k := rfl
@[simp] theorem State.portWord_setTicket (s : State) (t : Slot) (x : Ticket) (k : PortId) : (s.setTicket t x).portWord k = s.portWord k := rfl
@[simp] theorem State.accountWord_setTicket (s : State) (t : Slot) (x : Ticket) (k : AccountId) : (s.setTicket t x).accountWord k = s.accountWord k := rfl
@[simp] theorem State.policy_setTicket (s : State) (t : Slot) (x : Ticket) (k : AccountId) : (s.setTicket t x).policy k = s.policy k := rfl
@[simp] theorem State.guard_setTicket (s : State) (t : Slot) (x : Ticket) (k : Fin 4096) : (s.setTicket t x).guard k = s.guard k := rfl
@[simp] theorem State.port_modTicket (s : State) (t : Slot) (f : Ticket → Ticket) (k : PortId) : (s.modTicket t f).port k = s.port k := rfl
@[simp] theorem State.account_modTicket (s : State) (t : Slot) (f : Ticket → Ticket) (k : AccountId) : (s.modTicket t f).account k = s.account k := rfl
@[simp] theorem State.record_modTicket (s : State) (t : Slot) (f : Ticket → Ticket) (k : Tag) : (s.modTicket t f).record k = s.record k := rfl
@[simp] theorem State.inHand_modTicket (s : State) (t : Slot) (f : Ticket → Ticket) (k : PortId) : (s.modTicket t f).inHand k = s.inHand k := rfl
@[simp] theorem State.portWord_modTicket (s : State) (t : Slot) (f : Ticket → Ticket) (k : PortId) : (s.modTicket t f).portWord k = s.portWord k := rfl
@[simp] theorem State.accountWord_modTicket (s : State) (t : Slot) (f : Ticket → Ticket) (k : AccountId) : (s.modTicket t f).accountWord k = s.accountWord k := rfl
@[simp] theorem State.policy_modTicket (s : State) (t : Slot) (f : Ticket → Ticket) (k : AccountId) : (s.modTicket t f).policy k = s.policy k := rfl
@[simp] theorem State.guard_modTicket (s : State) (t : Slot) (f : Ticket → Ticket) (k : Fin 4096) : (s.modTicket t f).guard k = s.guard k := rfl
@[simp] theorem State.port_setAccount (s : State) (a : AccountId) (x : Account) (k : PortId) : (s.setAccount a x).port k = s.port k := rfl
@[simp] theorem State.ticket_setAccount (s : State) (a : AccountId) (x : Account) (k : Slot) : (s.setAccount a x).ticket k = s.ticket k := rfl
@[simp] theorem State.record_setAccount (s : State) (a : AccountId) (x : Account) (k : Tag) : (s.setAccount a x).record k = s.record k := rfl
@[simp] theorem State.inHand_setAccount (s : State) (a : AccountId) (x : Account) (k : PortId) : (s.setAccount a x).inHand k = s.inHand k := rfl
@[simp] theorem State.portWord_setAccount (s : State) (a : AccountId) (x : Account) (k : PortId) : (s.setAccount a x).portWord k = s.portWord k := rfl
@[simp] theorem State.accountWord_setAccount (s : State) (a : AccountId) (x : Account) (k : AccountId) : (s.setAccount a x).accountWord k = s.accountWord k := rfl
@[simp] theorem State.policy_setAccount (s : State) (a : AccountId) (x : Account) (k : AccountId) : (s.setAccount a x).policy k = s.policy k := rfl
@[simp] theorem State.guard_setAccount (s : State) (a : AccountId) (x : Account) (k : Fin 4096) : (s.setAccount a x).guard k = s.guard k := rfl
@[simp] theorem State.port_modAccount (s : State) (a : AccountId) (f : Account → Account) (k : PortId) : (s.modAccount a f).port k = s.port k := rfl
@[simp] theorem State.ticket_modAccount (s : State) (a : AccountId) (f : Account → Account) (k : Slot) : (s.modAccount a f).ticket k = s.ticket k := rfl
@[simp] theorem State.record_modAccount (s : State) (a : AccountId) (f : Account → Account) (k : Tag) : (s.modAccount a f).record k = s.record k := rfl
@[simp] theorem State.inHand_modAccount (s : State) (a : AccountId) (f : Account → Account) (k : PortId) : (s.modAccount a f).inHand k = s.inHand k := rfl
@[simp] theorem State.portWord_modAccount (s : State) (a : AccountId) (f : Account → Account) (k : PortId) : (s.modAccount a f).portWord k = s.portWord k := rfl
@[simp] theorem State.accountWord_modAccount (s : State) (a : AccountId) (f : Account → Account) (k : AccountId) : (s.modAccount a f).accountWord k = s.accountWord k := rfl
@[simp] theorem State.policy_modAccount (s : State) (a : AccountId) (f : Account → Account) (k : AccountId) : (s.modAccount a f).policy k = s.policy k := rfl
@[simp] theorem State.guard_modAccount (s : State) (a : AccountId) (f : Account → Account) (k : Fin 4096) : (s.modAccount a f).guard k = s.guard k := rfl
@[simp] theorem State.port_setRecord (s : State) (t : Tag) (x : Option PspRecord) (k : PortId) : (s.setRecord t x).port k = s.port k := rfl
@[simp] theorem State.ticket_setRecord (s : State) (t : Tag) (x : Option PspRecord) (k : Slot) : (s.setRecord t x).ticket k = s.ticket k := rfl
@[simp] theorem State.account_setRecord (s : State) (t : Tag) (x : Option PspRecord) (k : AccountId) : (s.setRecord t x).account k = s.account k := rfl
@[simp] theorem State.inHand_setRecord (s : State) (t : Tag) (x : Option PspRecord) (k : PortId) : (s.setRecord t x).inHand k = s.inHand k := rfl
@[simp] theorem State.portWord_setRecord (s : State) (t : Tag) (x : Option PspRecord) (k : PortId) : (s.setRecord t x).portWord k = s.portWord k := rfl
@[simp] theorem State.accountWord_setRecord (s : State) (t : Tag) (x : Option PspRecord) (k : AccountId) : (s.setRecord t x).accountWord k = s.accountWord k := rfl
@[simp] theorem State.policy_setRecord (s : State) (t : Tag) (x : Option PspRecord) (k : AccountId) : (s.setRecord t x).policy k = s.policy k := rfl
@[simp] theorem State.guard_setRecord (s : State) (t : Tag) (x : Option PspRecord) (k : Fin 4096) : (s.setRecord t x).guard k = s.guard k := rfl
@[simp] theorem State.port_modMsp (s : State) (f : Msp → Msp) (k : PortId) : (s.modMsp f).port k = s.port k := rfl
@[simp] theorem State.ticket_modMsp (s : State) (f : Msp → Msp) (k : Slot) : (s.modMsp f).ticket k = s.ticket k := rfl
@[simp] theorem State.account_modMsp (s : State) (f : Msp → Msp) (k : AccountId) : (s.modMsp f).account k = s.account k := rfl
@[simp] theorem State.record_modMsp (s : State) (f : Msp → Msp) (k : Tag) : (s.modMsp f).record k = s.record k := rfl
@[simp] theorem State.inHand_modMsp (s : State) (f : Msp → Msp) (k : PortId) : (s.modMsp f).inHand k = s.inHand k := rfl
@[simp] theorem State.portWord_modMsp (s : State) (f : Msp → Msp) (k : PortId) : (s.modMsp f).portWord k = s.portWord k := rfl
@[simp] theorem State.accountWord_modMsp (s : State) (f : Msp → Msp) (k : AccountId) : (s.modMsp f).accountWord k = s.accountWord k := rfl
@[simp] theorem State.policy_modMsp (s : State) (f : Msp → Msp) (k : AccountId) : (s.modMsp f).policy k = s.policy k := rfl
@[simp] theorem State.guard_modMsp (s : State) (f : Msp → Msp) (k : Fin 4096) : (s.modMsp f).guard k = s.guard k := rfl
@[simp] theorem State.port_modRelay (s : State) (f : Relay → Relay) (k : PortId) : (s.modRelay f).port k = s.port k := rfl
@[simp] theorem State.ticket_modRelay (s : State) (f : Relay → Relay) (k : Slot) : (s.modRelay f).ticket k = s.ticket k := rfl
@[simp] theorem State.account_modRelay (s : State) (f : Relay → Relay) (k : AccountId) : (s.modRelay f).account k = s.account k := rfl
@[simp] theorem State.record_modRelay (s : State) (f : Relay → Relay) (k : Tag) : (s.modRelay f).record k = s.record k := rfl
@[simp] theorem State.inHand_modRelay (s : State) (f : Relay → Relay) (k : PortId) : (s.modRelay f).inHand k = s.inHand k := rfl
@[simp] theorem State.portWord_modRelay (s : State) (f : Relay → Relay) (k : PortId) : (s.modRelay f).portWord k = s.portWord k := rfl
@[simp] theorem State.accountWord_modRelay (s : State) (f : Relay → Relay) (k : AccountId) : (s.modRelay f).accountWord k = s.accountWord k := rfl
@[simp] theorem State.policy_modRelay (s : State) (f : Relay → Relay) (k : AccountId) : (s.modRelay f).policy k = s.policy k := rfl
@[simp] theorem State.guard_modRelay (s : State) (f : Relay → Relay) (k : Fin 4096) : (s.modRelay f).guard k = s.guard k := rfl
@[simp] theorem State.port_modCtl (s : State) (f : Control → Control) (k : PortId) : (s.modCtl f).port k = s.port k := rfl
@[simp] theorem State.ticket_modCtl (s : State) (f : Control → Control) (k : Slot) : (s.modCtl f).ticket k = s.ticket k := rfl
@[simp] theorem State.account_modCtl (s : State) (f : Control → Control) (k : AccountId) : (s.modCtl f).account k = s.account k := rfl
@[simp] theorem State.record_modCtl (s : State) (f : Control → Control) (k : Tag) : (s.modCtl f).record k = s.record k := rfl
@[simp] theorem State.inHand_modCtl (s : State) (f : Control → Control) (k : PortId) : (s.modCtl f).inHand k = s.inHand k := rfl
@[simp] theorem State.portWord_modCtl (s : State) (f : Control → Control) (k : PortId) : (s.modCtl f).portWord k = s.portWord k := rfl
@[simp] theorem State.accountWord_modCtl (s : State) (f : Control → Control) (k : AccountId) : (s.modCtl f).accountWord k = s.accountWord k := rfl
@[simp] theorem State.policy_modCtl (s : State) (f : Control → Control) (k : AccountId) : (s.modCtl f).policy k = s.policy k := rfl
@[simp] theorem State.guard_modCtl (s : State) (f : Control → Control) (k : Fin 4096) : (s.modCtl f).guard k = s.guard k := rfl
@[simp] theorem State.port_emit (s : State) (o : Output) (k : PortId) : (s.emit o).port k = s.port k := rfl
@[simp] theorem State.ticket_emit (s : State) (o : Output) (k : Slot) : (s.emit o).ticket k = s.ticket k := rfl
@[simp] theorem State.account_emit (s : State) (o : Output) (k : AccountId) : (s.emit o).account k = s.account k := rfl
@[simp] theorem State.record_emit (s : State) (o : Output) (k : Tag) : (s.emit o).record k = s.record k := rfl
@[simp] theorem State.inHand_emit (s : State) (o : Output) (k : PortId) : (s.emit o).inHand k = s.inHand k := rfl
@[simp] theorem State.portWord_emit (s : State) (o : Output) (k : PortId) : (s.emit o).portWord k = s.portWord k := rfl
@[simp] theorem State.accountWord_emit (s : State) (o : Output) (k : AccountId) : (s.emit o).accountWord k = s.accountWord k := rfl
@[simp] theorem State.policy_emit (s : State) (o : Output) (k : AccountId) : (s.emit o).policy k = s.policy k := rfl
@[simp] theorem State.guard_emit (s : State) (o : Output) (k : Fin 4096) : (s.emit o).guard k = s.guard k := rfl
@[simp] theorem State.port_clearOut (s : State) (k : PortId) : (s.clearOut).port k = s.port k := rfl
@[simp] theorem State.ticket_clearOut (s : State) (k : Slot) : (s.clearOut).ticket k = s.ticket k := rfl
@[simp] theorem State.account_clearOut (s : State) (k : AccountId) : (s.clearOut).account k = s.account k := rfl
@[simp] theorem State.record_clearOut (s : State) (k : Tag) : (s.clearOut).record k = s.record k := rfl
@[simp] theorem State.inHand_clearOut (s : State) (k : PortId) : (s.clearOut).inHand k = s.inHand k := rfl
@[simp] theorem State.portWord_clearOut (s : State) (k : PortId) : (s.clearOut).portWord k = s.portWord k := rfl
@[simp] theorem State.accountWord_clearOut (s : State) (k : AccountId) : (s.clearOut).accountWord k = s.accountWord k := rfl
@[simp] theorem State.policy_clearOut (s : State) (k : AccountId) : (s.clearOut).policy k = s.policy k := rfl
@[simp] theorem State.guard_clearOut (s : State) (k : Fin 4096) : (s.clearOut).guard k = s.guard k := rfl

@[simp] theorem State.port_setPort_self (s : State) (p : PortId) (x : Port) : (s.setPort p x).port p = x := by
  simp [State.setPort, State.port]

theorem State.port_setPort_ne (s : State) (p : PortId) (x : Port) {k : PortId} (h : k ≠ p) : (s.setPort p x).port k = s.port k := by
  simp [State.setPort, State.port, tget_tset_ne _ _ h]

theorem State.port_setPort (s : State) (p : PortId) (x : Port) (k : PortId) : (s.setPort p x).port k = if k = p then x else s.port k := by
  by_cases h : k = p
  · subst h; simp
  · simp [h, State.port_setPort_ne]

@[simp] theorem State.port_modPort_self (s : State) (p : PortId) (f : Port → Port) : (s.modPort p f).port p = f (s.port p) := by
  simp [State.modPort, State.setPort, State.port]

theorem State.port_modPort_ne (s : State) (p : PortId) (f : Port → Port) {k : PortId} (h : k ≠ p) : (s.modPort p f).port k = s.port k := by
  simp [State.modPort, State.setPort, State.port, tget_tset_ne _ _ h]

theorem State.port_modPort (s : State) (p : PortId) (f : Port → Port) (k : PortId) : (s.modPort p f).port k = if k = p then f (s.port p) else s.port k := by
  by_cases h : k = p
  · subst h; simp
  · simp [h, State.port_modPort_ne]

@[simp] theorem State.port_modEngine_self (s : State) (p : PortId) (f : Engine → Engine) : (s.modEngine p f).port p = { s.port p with engine := f (s.port p).engine } := by
  simp [State.modEngine, State.modPort, State.setPort, State.port]

theorem State.port_modEngine_ne (s : State) (p : PortId) (f : Engine → Engine) {k : PortId} (h : k ≠ p) : (s.modEngine p f).port k = s.port k := by
  simp [State.modEngine, State.modPort, State.setPort, State.port, tget_tset_ne _ _ h]

theorem State.port_modEngine (s : State) (p : PortId) (f : Engine → Engine) (k : PortId) : (s.modEngine p f).port k = if k = p then { s.port p with engine := f (s.port p).engine } else s.port k := by
  by_cases h : k = p
  · subst h; simp
  · simp [h, State.port_modEngine_ne]

@[simp] theorem State.port_modLink_self (s : State) (p : PortId) (f : Link → Link) : (s.modLink p f).port p = { s.port p with link := f (s.port p).link } := by
  simp [State.modLink, State.modPort, State.setPort, State.port]

theorem State.port_modLink_ne (s : State) (p : PortId) (f : Link → Link) {k : PortId} (h : k ≠ p) : (s.modLink p f).port k = s.port k := by
  simp [State.modLink, State.modPort, State.setPort, State.port, tget_tset_ne _ _ h]

theorem State.port_modLink (s : State) (p : PortId) (f : Link → Link) (k : PortId) : (s.modLink p f).port k = if k = p then { s.port p with link := f (s.port p).link } else s.port k := by
  by_cases h : k = p
  · subst h; simp
  · simp [h, State.port_modLink_ne]

@[simp] theorem State.port_modWatch_self (s : State) (p : PortId) (f : Watch → Watch) : (s.modWatch p f).port p = { s.port p with watch := f (s.port p).watch } := by
  simp [State.modWatch, State.modPort, State.setPort, State.port]

theorem State.port_modWatch_ne (s : State) (p : PortId) (f : Watch → Watch) {k : PortId} (h : k ≠ p) : (s.modWatch p f).port k = s.port k := by
  simp [State.modWatch, State.modPort, State.setPort, State.port, tget_tset_ne _ _ h]

theorem State.port_modWatch (s : State) (p : PortId) (f : Watch → Watch) (k : PortId) : (s.modWatch p f).port k = if k = p then { s.port p with watch := f (s.port p).watch } else s.port k := by
  by_cases h : k = p
  · subst h; simp
  · simp [h, State.port_modWatch_ne]

@[simp] theorem State.port_setPages_self (s : State) (p : PortId) (x : List Entry) : (s.setPages p x).port p = { s.port p with pages := x } := by
  simp [State.setPages, State.modPort, State.setPort, State.port]

theorem State.port_setPages_ne (s : State) (p : PortId) (x : List Entry) {k : PortId} (h : k ≠ p) : (s.setPages p x).port k = s.port k := by
  simp [State.setPages, State.modPort, State.setPort, State.port, tget_tset_ne _ _ h]

theorem State.port_setPages (s : State) (p : PortId) (x : List Entry) (k : PortId) : (s.setPages p x).port k = if k = p then { s.port p with pages := x } else s.port k := by
  by_cases h : k = p
  · subst h; simp
  · simp [h, State.port_setPages_ne]

@[simp] theorem State.port_setQueue_self (s : State) (p : PortId) (x : List QueueEntry) : (s.setQueue p x).port p = { s.port p with queue := x } := by
  simp [State.setQueue, State.modPort, State.setPort, State.port]

theorem State.port_setQueue_ne (s : State) (p : PortId) (x : List QueueEntry) {k : PortId} (h : k ≠ p) : (s.setQueue p x).port k = s.port k := by
  simp [State.setQueue, State.modPort, State.setPort, State.port, tget_tset_ne _ _ h]

theorem State.port_setQueue (s : State) (p : PortId) (x : List QueueEntry) (k : PortId) : (s.setQueue p x).port k = if k = p then { s.port p with queue := x } else s.port k := by
  by_cases h : k = p
  · subst h; simp
  · simp [h, State.port_setQueue_ne]

@[simp] theorem State.port_setJob_self (s : State) (p : PortId) (x : Option Job) : (s.setJob p x).port p = { s.port p with engine := { (s.port p).engine with job := x } } := by
  simp [State.setJob, State.modEngine, State.modPort, State.setPort, State.port]

theorem State.port_setJob_ne (s : State) (p : PortId) (x : Option Job) {k : PortId} (h : k ≠ p) : (s.setJob p x).port k = s.port k := by
  simp [State.setJob, State.modEngine, State.modPort, State.setPort, State.port, tget_tset_ne _ _ h]

theorem State.port_setJob (s : State) (p : PortId) (x : Option Job) (k : PortId) : (s.setJob p x).port k = if k = p then { s.port p with engine := { (s.port p).engine with job := x } } else s.port k := by
  by_cases h : k = p
  · subst h; simp
  · simp [h, State.port_setJob_ne]

@[simp] theorem State.ticket_setTicket_self (s : State) (t : Slot) (x : Ticket) : (s.setTicket t x).ticket t = x := by
  simp [State.setTicket, State.ticket]

theorem State.ticket_setTicket_ne (s : State) (t : Slot) (x : Ticket) {k : Slot} (h : k ≠ t) : (s.setTicket t x).ticket k = s.ticket k := by
  simp [State.setTicket, State.ticket, tget_tset_ne _ _ h]

theorem State.ticket_setTicket (s : State) (t : Slot) (x : Ticket) (k : Slot) : (s.setTicket t x).ticket k = if k = t then x else s.ticket k := by
  by_cases h : k = t
  · subst h; simp
  · simp [h, State.ticket_setTicket_ne]

@[simp] theorem State.ticket_modTicket_self (s : State) (t : Slot) (f : Ticket → Ticket) : (s.modTicket t f).ticket t = f (s.ticket t) := by
  simp [State.modTicket, State.setTicket, State.ticket]

theorem State.ticket_modTicket_ne (s : State) (t : Slot) (f : Ticket → Ticket) {k : Slot} (h : k ≠ t) : (s.modTicket t f).ticket k = s.ticket k := by
  simp [State.modTicket, State.setTicket, State.ticket, tget_tset_ne _ _ h]

theorem State.ticket_modTicket (s : State) (t : Slot) (f : Ticket → Ticket) (k : Slot) : (s.modTicket t f).ticket k = if k = t then f (s.ticket t) else s.ticket k := by
  by_cases h : k = t
  · subst h; simp
  · simp [h, State.ticket_modTicket_ne]

@[simp] theorem State.account_setAccount_self (s : State) (a : AccountId) (x : Account) : (s.setAccount a x).account a = x := by
  simp [State.setAccount, State.account]

theorem State.account_setAccount_ne (s : State) (a : AccountId) (x : Account) {k : AccountId} (h : k ≠ a) : (s.setAccount a x).account k = s.account k := by
  simp [State.setAccount, State.account, tget_tset_ne _ _ h]

theorem State.account_setAccount (s : State) (a : AccountId) (x : Account) (k : AccountId) : (s.setAccount a x).account k = if k = a then x else s.account k := by
  by_cases h : k = a
  · subst h; simp
  · simp [h, State.account_setAccount_ne]

@[simp] theorem State.account_modAccount_self (s : State) (a : AccountId) (f : Account → Account) : (s.modAccount a f).account a = f (s.account a) := by
  simp [State.modAccount, State.setAccount, State.account]

theorem State.account_modAccount_ne (s : State) (a : AccountId) (f : Account → Account) {k : AccountId} (h : k ≠ a) : (s.modAccount a f).account k = s.account k := by
  simp [State.modAccount, State.setAccount, State.account, tget_tset_ne _ _ h]

theorem State.account_modAccount (s : State) (a : AccountId) (f : Account → Account) (k : AccountId) : (s.modAccount a f).account k = if k = a then f (s.account a) else s.account k := by
  by_cases h : k = a
  · subst h; simp
  · simp [h, State.account_modAccount_ne]

@[simp] theorem State.record_setRecord_self (s : State) (t : Tag) (x : Option PspRecord) : (s.setRecord t x).record t = x := by
  simp [State.setRecord, State.record]

theorem State.record_setRecord_ne (s : State) (t : Tag) (x : Option PspRecord) {k : Tag} (h : k ≠ t) : (s.setRecord t x).record k = s.record k := by
  simp [State.setRecord, State.record, tget_tset_ne _ _ h]

theorem State.record_setRecord (s : State) (t : Tag) (x : Option PspRecord) (k : Tag) : (s.setRecord t x).record k = if k = t then x else s.record k := by
  by_cases h : k = t
  · subst h; simp
  · simp [h, State.record_setRecord_ne]

end Sys2Proof.Machine
end

