-- ==== Sys2Proof/Laws/Settle.lean ====
section
/-! SUPPORT. What settling the ports does: it leaves `still` alone, and every engine ends in the state it is judged to have. -/

namespace Sys2Proof.Machine

/-! ## The judgement of an engine -/

/-- An engine with no ticket, not in JAM_STOP (R71). -/
theorem judged_idle {s : State} {p : PortId} (h : (s.port p).engine.state ≠ .jamStop)
    (hj : (s.port p).engine.job = none) :
    s.judged p = if portOn (s.portWord p) && (s.port p).onHold then .held else .idle := by
  cases he : (s.port p).engine.state <;> simp_all [State.judged]

/-- An engine with a ticket, not in JAM_STOP (R97). -/
theorem judged_busy {s : State} {p : PortId} {j : Job} (h : (s.port p).engine.state ≠ .jamStop)
    (hj : (s.port p).engine.job = some j) : s.judged p = (s.gates p j).state := by
  cases he : (s.port p).engine.state <;> simp_all [State.judged]

theorem gates_ne_jamStop (s : State) (p : PortId) (j : Job) : s.gates p j ≠ .blocked .jamStop := by
  unfold State.gates
  simp only
  repeat' split
  all_goals simp

theorem judged_jamStop (s : State) (p : PortId) : s.judged p = .jamStop ↔ (s.port p).engine.state = .jamStop := by
  constructor
  · intro h
    by_contra hn
    cases hj : (s.port p).engine.job with
    | none =>
      rw [judged_idle hn hj] at h
      split at h <;> cases h
    | some j =>
      rw [judged_busy hn hj] at h
      cases hg : s.gates p j with
      | blocked st => rw [hg] at h; exact gates_ne_jamStop s p j (hg.trans (congrArg GateResult.blocked h))
      | passes f => rw [hg] at h; cases h
  · intro h
    simp only [State.judged, h]

/-! ## What settling leaves alone -/

theorem still_modPort (s : State) (p : PortId) (f : Port → Port) (h : (f (s.port p)).still = (s.port p).still) :
    (s.modPort p f).still = s.still := by
  have e : (tset s.ports p (f (tget s.ports p))).map Port.still = s.ports.map Port.still := map_tset_of_eq _ _ _ _ h
  simp only [State.still, State.modPort, State.setPort, State.port, e]

theorem still_modTicket (s : State) (t : Slot) (f : Ticket → Ticket) (h : (f (s.ticket t)).still = (s.ticket t).still) :
    (s.modTicket t f).still = s.still := by
  have e : (tset s.tickets t (f (tget s.tickets t))).map Ticket.still = s.tickets.map Ticket.still :=
    map_tset_of_eq _ _ _ _ h
  simp only [State.still, State.modTicket, State.setTicket, State.ticket, e]

theorem still_judgeEngine (s : State) (p : PortId) : (s.judgeEngine p).still = s.still := by
  apply still_modPort
  simp [Port.still, judged_jamStop]

theorem still_judgeIdle (s : State) (p : PortId) : (s.judgeIdle p).still = s.still := still_modPort _ _ _ rfl

theorem still_presentFetch (s : State) (p : PortId) : (s.presentFetch p).still = s.still := by
  unfold State.presentFetch
  split
  · rfl
  · rename_i j c h
    have hj : (s.port p).engine.job = some j := by
      unfold State.fetchWanted at h
      simp only at h
      split at h
      · cases h
      · rename_i j' hj'
        split at h
        · cases h
        · split at h
          · simp only [Option.some.injEq, Prod.mk.injEq] at h
            rw [hj', h.1]
          · cases h
    have e1 : ((s.setJob p (some { j with cursor := j.nextCursor c })).modTicket j.slot fun t =>
        { t with fetchCount := t.fetchCount + 1 }).still = s.still := by
      rw [still_modTicket _ _ _ rfl]
      apply still_modPort
      simp [Port.still, hj]
    rw [← e1]
    simp [State.still, State.modMsp, Msp.still, lineRequest, Owner.isLineFetch]

theorem still_settlePort (s : State) (p : PortId) : (s.settlePort p).still = s.still := by
  rw [State.settlePort, still_judgeIdle, still_presentFetch, still_judgeEngine]

theorem still_foldl_settlePort (ps : List PortId) (s : State) : (ps.foldl State.settlePort s).still = s.still := by
  induction ps generalizing s with
  | nil => rfl
  | cons p ps ih => rw [List.foldl_cons, ih, still_settlePort]

theorem still_settle (s : State) : s.settle.still = s.still := still_foldl_settlePort _ _

theorem still_modCtl (s : State) (f : Control → Control) : (s.modCtl f).still = s.still.modCtl f := rfl

theorem still_emit (s : State) (o : Output) : (s.emit o).still = s.still.emit o := rfl

theorem still_modRelay (s : State) (f : Relay → Relay) : (s.modRelay f).still = s.still.modRelay f := rfl

/-! ## Fields that `still` shows -/
theorem State.pending_of_still {s t : State} (h : t.still = s.still) : t.pending = s.pending := (congrArg State.pending h :)
theorem State.resetAsserted_of_still {s t : State} (h : t.still = s.still) : t.resetAsserted = s.resetAsserted := (congrArg State.resetAsserted h :)
theorem State.milliseconds_of_still {s t : State} (h : t.still = s.still) : t.milliseconds = s.milliseconds := (congrArg State.milliseconds h :)
theorem State.microseconds_of_still {s t : State} (h : t.still = s.still) : t.microseconds = s.microseconds := (congrArg State.microseconds h :)
theorem State.anchor_of_still {s t : State} (h : t.still = s.still) : t.anchor = s.anchor := (congrArg State.anchor h :)
theorem State.psp_of_still {s t : State} (h : t.still = s.still) : t.psp = s.psp := (congrArg State.psp h :)
theorem State.sweep_of_still {s t : State} (h : t.still = s.still) : t.sweep = s.sweep := (congrArg State.sweep h :)
theorem State.image_of_still {s t : State} (h : t.still = s.still) : t.image = s.image := (congrArg State.image h :)
theorem State.ctl_of_still {s t : State} (h : t.still = s.still) : t.ctl = s.ctl := (congrArg State.ctl h :)
theorem State.fetcher_of_still {s t : State} (h : t.still = s.still) : t.fetcher = s.fetcher := (congrArg State.fetcher h :)
theorem State.guards_of_still {s t : State} (h : t.still = s.still) : t.guards = s.guards := (congrArg State.guards h :)
theorem State.accounts_of_still {s t : State} (h : t.still = s.still) : t.accounts = s.accounts := (congrArg State.accounts h :)
theorem State.relay_of_still {s t : State} (h : t.still = s.still) : t.relay = s.relay := (congrArg State.relay h :)
theorem State.draws_of_still {s t : State} (h : t.still = s.still) : t.draws = s.draws := (congrArg State.draws h :)
theorem State.out_of_still {s t : State} (h : t.still = s.still) : t.out = s.out := (congrArg State.out h :)

theorem State.outstanding_of_still {s t : State} (h : t.still = s.still) : t.msp.outstanding = s.msp.outstanding :=
  (congrArg (fun x => x.msp.outstanding) h :)
theorem State.nextGrant_of_still {s t : State} (h : t.still = s.still) : t.msp.nextGrant = s.msp.nextGrant :=
  (congrArg (fun x => x.msp.nextGrant) h :)
theorem State.runCount_of_still {s t : State} (h : t.still = s.still) : t.msp.runCount = s.msp.runCount :=
  (congrArg (fun x => x.msp.runCount) h :)
theorem State.lastEngine_of_still {s t : State} (h : t.still = s.still) : t.msp.lastEngine = s.msp.lastEngine :=
  (congrArg (fun x => x.msp.lastEngine) h :)

theorem State.port_still {s t : State} (h : t.still = s.still) (p : PortId) : (t.port p).still = (s.port p).still := by
  have e : tget t.still.ports p = tget s.still.ports p := by rw [h]
  simpa only [State.still, tget_map, State.port] using e

theorem State.ticket_still {s t : State} (h : t.still = s.still) (k : Slot) :
    (t.ticket k).still = (s.ticket k).still := by
  have e : tget t.still.tickets k = tget s.still.tickets k := by rw [h]
  simpa only [State.still, tget_map, State.ticket] using e

/-- Only an engine in JAM_STOP is in JAM_STOP past what settling touches. -/
theorem Port.jamStop_of_still {x y : Port} (h : y.still = x.still) :
    y.engine.state = .jamStop ↔ x.engine.state = .jamStop := by
  have e : (if y.engine.state = .jamStop then EngineState.jamStop else .idle) =
      if x.engine.state = .jamStop then EngineState.jamStop else .idle := (congrArg (fun z => z.engine.state) h :)
  by_cases hy : y.engine.state = .jamStop <;> by_cases hx : x.engine.state = .jamStop <;> simp_all

theorem Port.queue_of_still {x y : Port} (h : y.still = x.still) : y.queue = x.queue := (congrArg Port.queue h :)
theorem Port.holdFlag_of_still {x y : Port} (h : y.still = x.still) : y.holdFlag = x.holdFlag := (congrArg Port.holdFlag h :)
theorem Port.quiesceHold_of_still {x y : Port} (h : y.still = x.still) : y.quiesceHold = x.quiesceHold := (congrArg Port.quiesceHold h :)
theorem Port.pages_of_still {x y : Port} (h : y.still = x.still) : y.pages = x.pages := (congrArg Port.pages h :)
theorem Port.watch_of_still {x y : Port} (h : y.still = x.still) : y.watch = x.watch := (congrArg Port.watch h :)
theorem Port.stray_of_still {x y : Port} (h : y.still = x.still) : y.stray = x.stray := (congrArg Port.stray h :)
theorem Port.pacer_of_still {x y : Port} (h : y.still = x.still) : y.engine.pacer = x.engine.pacer :=
  (congrArg (fun z => z.engine.pacer) h :)
theorem Port.recordedMode_of_still {x y : Port} (h : y.still = x.still) : y.engine.recordedMode = x.engine.recordedMode :=
  (congrArg (fun z => z.engine.recordedMode) h :)
theorem Port.consent_of_still {x y : Port} (h : y.still = x.still) : y.engine.consent = x.engine.consent :=
  (congrArg (fun z => z.engine.consent) h :)
theorem Port.state_of_still {x y : Port} (h : y.still = x.still) : y.link.state = x.link.state :=
  (congrArg (fun z => z.link.state) h :)
theorem Port.credits_of_still {x y : Port} (h : y.still = x.still) : y.link.credits = x.link.credits :=
  (congrArg (fun z => z.link.credits) h :)
theorem Port.badRun_of_still {x y : Port} (h : y.still = x.still) : y.link.badRun = x.link.badRun :=
  (congrArg (fun z => z.link.badRun) h :)
theorem Port.training_of_still {x y : Port} (h : y.still = x.still) : y.link.training = x.link.training :=
  (congrArg (fun z => z.link.training) h :)
theorem Port.silence_of_still {x y : Port} (h : y.still = x.still) : y.link.silence = x.link.silence :=
  (congrArg (fun z => z.link.silence) h :)
theorem Port.warm_of_still {x y : Port} (h : y.still = x.still) : y.link.warm = x.link.warm :=
  (congrArg (fun z => z.link.warm) h :)
theorem Port.onlineSeen_of_still {x y : Port} (h : y.still = x.still) : y.link.onlineSeen = x.link.onlineSeen :=
  (congrArg (fun z => z.link.onlineSeen) h :)
theorem Port.framesSent_of_still {x y : Port} (h : y.still = x.still) : y.link.framesSent = x.link.framesSent :=
  (congrArg (fun z => z.link.framesSent) h :)
theorem Port.badFrames_of_still {x y : Port} (h : y.still = x.still) : y.link.badFrames = x.link.badFrames :=
  (congrArg (fun z => z.link.badFrames) h :)
theorem Port.overflows_of_still {x y : Port} (h : y.still = x.still) : y.link.overflows = x.link.overflows :=
  (congrArg (fun z => z.link.overflows) h :)
theorem Ticket.state_of_still {x y : Ticket} (h : y.still = x.still) : y.state = x.state := (congrArg Ticket.state h :)
theorem Ticket.reason_of_still {x y : Ticket} (h : y.still = x.still) : y.reason = x.reason := (congrArg Ticket.reason h :)
theorem Ticket.mirror_of_still {x y : Ticket} (h : y.still = x.still) : y.mirror = x.mirror := (congrArg Ticket.mirror h :)
theorem Ticket.copy_of_still {x y : Ticket} (h : y.still = x.still) : y.copy = x.copy := (congrArg Ticket.copy h :)
theorem Ticket.page_of_still {x y : Ticket} (h : y.still = x.still) : y.page = x.page := (congrArg Ticket.page h :)
theorem Ticket.resume_of_still {x y : Ticket} (h : y.still = x.still) : y.resume = x.resume := (congrArg Ticket.resume h :)
theorem Ticket.delivered_of_still {x y : Ticket} (h : y.still = x.still) : y.delivered = x.delivered := (congrArg Ticket.delivered h :)
theorem Ticket.spoiled_of_still {x y : Ticket} (h : y.still = x.still) : y.spoiled = x.spoiled := (congrArg Ticket.spoiled h :)
theorem Ticket.entryCount_of_still {x y : Ticket} (h : y.still = x.still) : y.entryCount = x.entryCount := (congrArg Ticket.entryCount h :)
theorem Ticket.sending_of_still {x y : Ticket} (h : y.still = x.still) : y.sending = x.sending := (congrArg Ticket.sending h :)

@[simp] theorem State.settle_pending (s : State) : s.settle.pending = s.pending := State.pending_of_still (still_settle s)
@[simp] theorem State.settlePort_pending (s : State) (p : PortId) : (s.settlePort p).pending = s.pending :=
  State.pending_of_still (still_settlePort s p)
@[simp] theorem State.settle_resetAsserted (s : State) : s.settle.resetAsserted = s.resetAsserted := State.resetAsserted_of_still (still_settle s)
@[simp] theorem State.settlePort_resetAsserted (s : State) (p : PortId) : (s.settlePort p).resetAsserted = s.resetAsserted :=
  State.resetAsserted_of_still (still_settlePort s p)
@[simp] theorem State.settle_milliseconds (s : State) : s.settle.milliseconds = s.milliseconds := State.milliseconds_of_still (still_settle s)
@[simp] theorem State.settlePort_milliseconds (s : State) (p : PortId) : (s.settlePort p).milliseconds = s.milliseconds :=
  State.milliseconds_of_still (still_settlePort s p)
@[simp] theorem State.settle_microseconds (s : State) : s.settle.microseconds = s.microseconds := State.microseconds_of_still (still_settle s)
@[simp] theorem State.settlePort_microseconds (s : State) (p : PortId) : (s.settlePort p).microseconds = s.microseconds :=
  State.microseconds_of_still (still_settlePort s p)
@[simp] theorem State.settle_anchor (s : State) : s.settle.anchor = s.anchor := State.anchor_of_still (still_settle s)
@[simp] theorem State.settlePort_anchor (s : State) (p : PortId) : (s.settlePort p).anchor = s.anchor :=
  State.anchor_of_still (still_settlePort s p)
@[simp] theorem State.settle_psp (s : State) : s.settle.psp = s.psp := State.psp_of_still (still_settle s)
@[simp] theorem State.settlePort_psp (s : State) (p : PortId) : (s.settlePort p).psp = s.psp :=
  State.psp_of_still (still_settlePort s p)
@[simp] theorem State.settle_sweep (s : State) : s.settle.sweep = s.sweep := State.sweep_of_still (still_settle s)
@[simp] theorem State.settlePort_sweep (s : State) (p : PortId) : (s.settlePort p).sweep = s.sweep :=
  State.sweep_of_still (still_settlePort s p)
@[simp] theorem State.settle_image (s : State) : s.settle.image = s.image := State.image_of_still (still_settle s)
@[simp] theorem State.settlePort_image (s : State) (p : PortId) : (s.settlePort p).image = s.image :=
  State.image_of_still (still_settlePort s p)
@[simp] theorem State.settle_ctl (s : State) : s.settle.ctl = s.ctl := State.ctl_of_still (still_settle s)
@[simp] theorem State.settlePort_ctl (s : State) (p : PortId) : (s.settlePort p).ctl = s.ctl :=
  State.ctl_of_still (still_settlePort s p)
@[simp] theorem State.settle_fetcher (s : State) : s.settle.fetcher = s.fetcher := State.fetcher_of_still (still_settle s)
@[simp] theorem State.settlePort_fetcher (s : State) (p : PortId) : (s.settlePort p).fetcher = s.fetcher :=
  State.fetcher_of_still (still_settlePort s p)
@[simp] theorem State.settle_guards (s : State) : s.settle.guards = s.guards := State.guards_of_still (still_settle s)
@[simp] theorem State.settlePort_guards (s : State) (p : PortId) : (s.settlePort p).guards = s.guards :=
  State.guards_of_still (still_settlePort s p)
@[simp] theorem State.settle_accounts (s : State) : s.settle.accounts = s.accounts := State.accounts_of_still (still_settle s)
@[simp] theorem State.settlePort_accounts (s : State) (p : PortId) : (s.settlePort p).accounts = s.accounts :=
  State.accounts_of_still (still_settlePort s p)
@[simp] theorem State.settle_relay (s : State) : s.settle.relay = s.relay := State.relay_of_still (still_settle s)
@[simp] theorem State.settlePort_relay (s : State) (p : PortId) : (s.settlePort p).relay = s.relay :=
  State.relay_of_still (still_settlePort s p)
@[simp] theorem State.settle_draws (s : State) : s.settle.draws = s.draws := State.draws_of_still (still_settle s)
@[simp] theorem State.settlePort_draws (s : State) (p : PortId) : (s.settlePort p).draws = s.draws :=
  State.draws_of_still (still_settlePort s p)
@[simp] theorem State.settle_out (s : State) : s.settle.out = s.out := State.out_of_still (still_settle s)
@[simp] theorem State.settlePort_out (s : State) (p : PortId) : (s.settlePort p).out = s.out :=
  State.out_of_still (still_settlePort s p)

/-! ## The engine's state after settling -/

/-- The gates look at a port, past its engine's state, fetch cursor and idle timer, and at the settings and accounts. -/
theorem gates_of_still {s t : State} {p : PortId} {j k : Job} (hi : t.image = s.image) (ha : t.accounts = s.accounts)
    (hp : (t.port p).still = (s.port p).still) (hj : { k with cursor := none } = { j with cursor := none }) :
    t.gates p k = s.gates p j := by
  have hpol : ∀ a, t.policy a = s.policy a := fun a => by
    rw [State.policy, State.accountWord, hi, State.policy, State.accountWord]
  have hacc : ∀ a, t.account a = s.account a := fun a => by rw [State.account, ha, State.account]
  have hg : ∀ a, t.grants a = s.grants a := fun a => by simp only [State.grants, hpol, hacc]
  have hw : t.portWord p = s.portWord p := by rw [State.portWord, hi, State.portWord]
  have hopen : (t.port p).hasOpenPage = (s.port p).hasOpenPage := by
    simp only [Port.hasOpenPage, Port.openEntry, Port.pages_of_still hp]
  have hhold : (t.port p).onHold = (s.port p).onHold := by
    simp only [Port.onHold, Port.holdFlag_of_still hp, Port.quiesceHold_of_still hp]
  have hpace : (t.port p).engine.paceOpen = (s.port p).engine.paceOpen := by
    simp only [Engine.paceOpen, Port.pacer_of_still hp]
  obtain ⟨_, _, _, _, _, _, _, _, _, _, _, _, _⟩ := j
  obtain ⟨_, _, _, _, _, _, _, _, _, _, _, _, _⟩ := k
  simp only [Job.mk.injEq] at hj
  obtain ⟨rfl, rfl, rfl, rfl, rfl, rfl, rfl, rfl, rfl, rfl, rfl, -, rfl⟩ := hj
  simp only [State.gates, State.nextFrame, hg, hw, hopen, hhold, hpace, Port.state_of_still hp, Port.credits_of_still hp,
    Port.watch_of_still hp, Port.pages_of_still hp]

/-- The judgement of an engine looks at a port, past its engine's state but for JAM_STOP, its fetch cursor and its idle
timer, and at the settings and accounts. -/
theorem judged_of_still {s t : State} {p : PortId} (hi : t.image = s.image) (ha : t.accounts = s.accounts)
    (hp : (t.port p).still = (s.port p).still) : t.judged p = s.judged p := by
  have hs := Port.jamStop_of_still hp
  have hw : t.portWord p = s.portWord p := by rw [State.portWord, hi, State.portWord]
  have hhold : (t.port p).onHold = (s.port p).onHold := by
    simp only [Port.onHold, Port.holdFlag_of_still hp, Port.quiesceHold_of_still hp]
  have hjob : (t.port p).engine.job.map (fun j => { j with cursor := none }) =
      (s.port p).engine.job.map (fun j => { j with cursor := none }) := (congrArg (fun x => x.engine.job) hp :)
  by_cases h : (s.port p).engine.state = .jamStop
  · simp only [State.judged, h, hs.2 h]
  · have h' : (t.port p).engine.state ≠ .jamStop := fun e => h (hs.1 e)
    cases hk : (t.port p).engine.job with
    | none =>
      cases hj : (s.port p).engine.job with
      | none => rw [judged_idle h' hk, judged_idle h hj, hw, hhold]
      | some j => simp [hk, hj] at hjob
    | some k =>
      cases hj : (s.port p).engine.job with
      | none => simp [hk, hj] at hjob
      | some j =>
        simp only [hk, hj, Option.map_some, Option.some.injEq] at hjob
        rw [judged_busy h' hk, judged_busy h hj, gates_of_still hi ha hp hjob]

theorem presentFetch_port_state (s : State) (p q : PortId) :
    ((s.presentFetch p).port q).engine.state = (s.port q).engine.state := by
  unfold State.presentFetch
  split
  · rfl
  · simp only [State.port_modMsp, State.port_modTicket, State.port_setJob]
    split <;> simp_all

theorem judgeIdle_port_state (s : State) (p q : PortId) :
    ((s.judgeIdle p).port q).engine.state = (s.port q).engine.state := by
  unfold State.judgeIdle
  simp only [State.port_modLink]
  split <;> simp_all

/-- Settling a port puts its engine into the state it is judged to have, and no other engine into another. -/
theorem settlePort_port_state (s : State) (p q : PortId) :
    ((s.settlePort p).port q).engine.state = if q = p then s.judged p else (s.port q).engine.state := by
  rw [State.settlePort, judgeIdle_port_state, presentFetch_port_state, State.judgeEngine, State.port_modEngine]
  split <;> simp_all

/-- Settling a port changes no engine's judgement. -/
theorem settlePort_judged (s : State) (p q : PortId) : (s.settlePort p).judged q = s.judged q := by
  exact judged_of_still (by simp) (by simp) (State.port_still (still_settlePort s p) q)

theorem foldl_settlePort_judged (ps : List PortId) (s : State) (q : PortId) :
    (ps.foldl State.settlePort s).judged q = s.judged q := by
  induction ps generalizing s with
  | nil => rfl
  | cons p ps ih => rw [List.foldl_cons, ih, settlePort_judged]

theorem foldl_settlePort_port_state (ps : List PortId) (s : State) (q : PortId) :
    ((ps.foldl State.settlePort s).port q).engine.state = if q ∈ ps then s.judged q else (s.port q).engine.state := by
  induction ps generalizing s with
  | nil => rfl
  | cons p ps ih =>
    rw [List.foldl_cons, ih, settlePort_judged, settlePort_port_state]
    by_cases h : q = p <;> by_cases h' : q ∈ ps <;> simp [h, h']

theorem mem_allPorts (p : PortId) : p ∈ allPorts := by revert p; decide

theorem judged_modCtl (s : State) (f : Control → Control) (p : PortId) : (s.modCtl f).judged p = s.judged p := rfl

theorem judged_emit (s : State) (o : Output) (p : PortId) : (s.emit o).judged p = s.judged p := rfl

theorem settle_judged (s : State) (p : PortId) : s.settle.judged p = s.judged p := foldl_settlePort_judged _ _ _

/-- After settling every engine stands in the state it was judged to have (R97). -/
theorem settle_port_state (s : State) (p : PortId) : (s.settle.port p).engine.state = s.judged p := by
  rw [State.settle, foldl_settlePort_port_state, if_pos (mem_allPorts p)]

end Sys2Proof.Machine
end

