-- ==== Sys2Proof/Laws/Settled.lean ====
section
/-! SUPPORT. That settling the ports, as the model does it, is settling as the statements say it. -/

namespace Sys2Proof.Machine

/-! ## One engine's fetch -/

theorem waitingFetches_eq_nil {s : State} {p : PortId} :
    s.waitingFetches p = [] ↔ s.msp.waiting.any (·.isFetchOf p) = false := by
  simp [State.waitingFetches]

theorem isFetchOf_of_current {p : PortId} {r : MemRequest} (h : r.isCurrentFetchOf p = true) : r.isFetchOf p = true := by
  unfold MemRequest.isCurrentFetchOf at h
  unfold MemRequest.isFetchOf
  split at h <;> simp_all

/-- With none of a port's fetches waiting, those outstanding are the granted ones. -/
theorem fetches_of_none_waiting {s : State} {p : PortId} (h : s.waitingFetches p = []) :
    s.fetchesOut p = s.msp.outstanding.countP (fun g => g.request.isFetchOf p) ∧
      s.currentFetches p = s.msp.outstanding.countP fun g => g.request.isCurrentFetchOf p := by
  have h1 : ∀ r ∈ s.msp.waiting, r.isFetchOf p = false := by
    simpa [State.waitingFetches] using h
  have a : s.msp.waiting.countP (·.isFetchOf p) = 0 := by
    rw [List.countP_eq_zero]; intro r hr; simp [h1 r hr]
  have b : s.msp.waiting.countP (·.isCurrentFetchOf p) = 0 := by
    rw [List.countP_eq_zero]
    intro r hr hc
    exact absurd (isFetchOf_of_current hc) (by simp [h1 r hr])
  simp [State.fetchesOut, State.currentFetches, a, b]

/-- The line an engine presents, from its limits (R93). -/
theorem fetchWanted_eq {s : State} {p : PortId} {j : Job} (hj : (s.port p).engine.job = some j) {v : State}
    (hv : v.msp = s.msp) :
    (∀ c, j.cursor = some c → mayPresent v s p j → s.fetchWanted p = some (j, c)) ∧
      (j.cursor = none ∨ ¬mayPresent v s p j → s.fetchWanted p = none) := by
  have hw : v.waitingFetches p = s.waitingFetches p := by rw [State.waitingFetches, hv, State.waitingFetches]
  constructor
  · intro c hc hm
    obtain ⟨h1, h2, h3, h4⟩ := hm
    rw [hw] at h2
    rw [hv] at h3 h4
    obtain ⟨a, b⟩ := fetches_of_none_waiting h2
    have h2' := waitingFetches_eq_nil.mp h2
    unfold State.fetchWanted
    simp only [hj, hc]
    rw [if_pos]
    rw [a, b, h2']
    simp [h1, h3, h4, Config.bufferLines, Config.engineFetches]
  · intro h
    unfold State.fetchWanted
    simp only [hj]
    split
    · rfl
    · rename_i c hc
      rw [if_neg]
      intro hm
      simp only [Bool.and_eq_true, bne_iff_ne, ne_eq, decide_eq_true_eq, Bool.not_eq_true'] at hm
      obtain ⟨⟨⟨m1, m2⟩, m3⟩, m4⟩ := hm
      have m4' := waitingFetches_eq_nil.mpr m4
      obtain ⟨a, b⟩ := fetches_of_none_waiting m4'
      rw [b] at m2
      rw [a] at m3
      rcases h with h | h
      · rw [hc] at h; cases h
      · apply h
        refine ⟨m1, hw.trans m4', ?_, ?_⟩
        · rw [hv]; exact m2
        · rw [hv]; exact m3

/-! ## One port -/

theorem settlePort_of_none {s : State} {p : PortId} (h : (s.judgeEngine p).fetchWanted p = none) :
    (s.settlePort p).msp = s.msp ∧ (s.settlePort p).tickets = s.tickets ∧
      ∀ q, ((s.settlePort p).port q).engine.job = (s.port q).engine.job := by
  have e : (s.judgeEngine p).presentFetch p = s.judgeEngine p := by rw [State.presentFetch, h]
  rw [State.settlePort, e]
  refine ⟨rfl, rfl, fun q => ?_⟩
  rw [State.judgeIdle, State.judgeEngine]
  by_cases e : q = p
  · subst e; simp
  · simp [State.port_modLink_ne, State.port_modEngine_ne, e]

theorem settlePort_of_some {s : State} {p : PortId} {j : Job} {c : Cursor}
    (h : (s.judgeEngine p).fetchWanted p = some (j, c)) :
    (s.settlePort p).msp = { s.msp with waiting := s.msp.waiting ++ [lineRequest p j c] } ∧
      (∀ t, (s.settlePort p).ticket t =
        if t = j.slot then { s.ticket t with fetchCount := (s.ticket t).fetchCount + 1 } else s.ticket t) ∧
      ∀ q, ((s.settlePort p).port q).engine.job =
        if q = p then some { j with cursor := j.nextCursor c } else (s.port q).engine.job := by
  rw [State.settlePort, State.presentFetch, h]
  refine ⟨rfl, fun t => ?_, fun q => ?_⟩
  · simp only [State.judgeIdle, State.judgeEngine, State.modLink, State.ticket_modPort, State.ticket_modMsp,
      State.ticket_modTicket, State.setJob, State.modEngine]
    split <;> simp_all
  · rw [State.judgeIdle, State.port_modLink, State.judgeEngine]
    simp only [State.port_modMsp, State.port_modTicket, State.port_setJob, State.port_modEngine]
    split <;> simp_all

/-- A port's fetches among those waiting, after one more of a port is presented. -/
theorem waitingFetches_append {s t : State} {p q : PortId} {j : Job} {c : Cursor}
    (h : t.msp.waiting = s.msp.waiting ++ [lineRequest p j c]) :
    t.waitingFetches q = s.waitingFetches q ++ if q = p then [lineRequest p j c] else [] := by
  rw [State.waitingFetches, h, List.filter_append, State.waitingFetches]
  by_cases e : q = p
  · subst e; simp [MemRequest.isFetchOf, lineRequest]
  · have : ¬p = q := fun x => e x.symm
    simp [MemRequest.isFetchOf, lineRequest, e, this]

theorem presented_settlePort (s : State) (p : PortId) : presented (fun q => q = p) s (s.settlePort p) := by
  have hst : ((s.settlePort p).port p).engine.state = ((s.judgeEngine p).port p).engine.state := by
    rw [settlePort_port_state, if_pos rfl, State.judgeEngine, State.port_modEngine_self]
  have hjob : ((s.judgeEngine p).port p).engine.job = (s.port p).engine.job := by
    rw [State.judgeEngine, State.port_modEngine_self]
  have hmay (j : Job) : mayPresent s (s.settlePort p) p j ↔ mayPresent s (s.judgeEngine p) p j := by
    simp only [mayPresent, hst]
  cases h : (s.judgeEngine p).fetchWanted p with
  | none =>
    obtain ⟨h1, h2, h3⟩ := settlePort_of_none h
    have hw (q : PortId) : (s.settlePort p).waitingFetches q = s.waitingFetches q := by
      rw [State.waitingFetches, h1, State.waitingFetches]
    have ht (t : Slot) : (s.settlePort p).ticket t = s.ticket t := by rw [State.ticket, h2, State.ticket]
    refine ⟨⟨by rw [h1], fun t _ => by rw [ht]⟩, fun q => ⟨fun _ => hw q, fun j hj => ⟨?_, ?_⟩⟩⟩
    · intro c hc hq hm
      subst hq
      rw [hmay] at hm
      rw [(fetchWanted_eq (hjob.trans hj) rfl).1 c hc hm] at h
      cases h
    · intro _
      exact ⟨hw q, (h3 q).trans hj, fun _ => by rw [ht]⟩
  | some x =>
    obtain ⟨j, c⟩ := x
    obtain ⟨h1, h2, h3⟩ := settlePort_of_some h
    have hw (q : PortId) := waitingFetches_append (q := q) (congrArg Msp.waiting h1)
    have hj : (s.port p).engine.job = some j := by
      cases hk : (s.port p).engine.job with
      | none => rw [State.fetchWanted, hjob, hk] at h; cases h
      | some k =>
        rw [State.fetchWanted, hjob, hk] at h
        simp only at h
        split at h
        · cases h
        · split at h
          · simp only [Option.some.injEq, Prod.mk.injEq] at h; rw [h.1]
          · cases h
    have hin : s.inHand p = some j.slot := by rw [State.inHand, hj]; rfl
    have key := fetchWanted_eq (v := s) (hjob.trans hj) rfl
    have hm : mayPresent s (s.settlePort p) p j ∧ j.cursor = some c := by
      rw [hmay]
      by_cases hc : j.cursor = none ∨ ¬mayPresent s (s.judgeEngine p) p j
      · rw [key.2 hc] at h; cases h
      · simp only [not_or, not_not] at hc
        refine ⟨hc.2, ?_⟩
        cases hd : j.cursor with
        | none => exact absurd hd hc.1
        | some d =>
          rw [key.1 d hd hc.2] at h
          simp only [Option.some.injEq, Prod.mk.injEq, true_and] at h
          rw [h]
    refine ⟨⟨⟨_, (congrArg Msp.waiting h1).symm⟩, fun t hn => ?_⟩, fun q => ⟨fun hq => ?_, fun k hk => ⟨?_, ?_⟩⟩⟩
    · rw [h2, if_neg]
      intro e
      exact hn p rfl (e ▸ hin)
    · rw [hw, if_neg, List.append_nil]
      intro e
      rw [e, hj] at hq
      cases hq
    · intro d hd hq hmq
      subst hq
      rw [hj] at hk
      obtain rfl := Option.some.inj hk
      rw [hm.2] at hd
      obtain rfl := Option.some.inj hd
      refine ⟨?_, ?_, fun _ => ?_⟩
      · rw [hw, hm.1.2.1, if_pos rfl]; rfl
      · rw [h3, if_pos rfl]; rfl
      · rw [h2, if_pos rfl]
    · intro hno
      have hq : q ≠ p := by
        rintro rfl
        rw [hj] at hk
        obtain rfl := Option.some.inj hk
        rcases hno with e | e | e
        · rw [hm.2] at e; cases e
        · exact e rfl
        · exact e hm.1
      refine ⟨by rw [hw, if_neg hq, List.append_nil], by rw [h3, if_neg hq, hk], fun ha => ?_⟩
      rw [h2, if_neg]
      intro e
      exact ha p rfl (Ne.symm hq) (e ▸ hin)

theorem idleFollows_settlePort (s : State) (p : PortId) : idleFollows s (s.settlePort p) p := by
  have hs := State.port_still (still_settlePort s p) p
  have hw : (s.settlePort p).portWord p = s.portWord p := by simp [State.portWord]
  set b := (s.judgeEngine p).presentFetch p with hb
  have hbs : b.still = s.still := by rw [hb, still_presentFetch, still_judgeEngine]
  have hbp := State.port_still hbs p
  have hbw : b.portWord p = s.portWord p := by simp [State.portWord, State.image_of_still hbs]
  have hbi : (b.port p).link.idle = (s.port p).link.idle := by
    rw [hb, State.presentFetch]
    split <;> simp [State.judgeEngine, State.setJob]
  have hbe : ((s.settlePort p).port p).engine.state = (b.port p).engine.state := by
    rw [State.settlePort, ← hb, judgeIdle_port_state]
  have e : ((s.settlePort p).port p).link.idle =
      if (b.port p).link.state == .ready && (b.port p).quiet && portIdleMs (b.portWord p) != 0 then
        if (b.port p).link.idle = .stopped then b.startTimer (portIdleMs (b.portWord p)) else (b.port p).link.idle
      else .stopped := by
    rw [State.settlePort, ← hb, State.judgeIdle, State.port_modLink_self]
    cases (b.port p).link.idle <;> rfl
  have hd : (s.settlePort p).drowsing p ↔
      ((b.port p).link.state == .ready && (b.port p).quiet && portIdleMs (b.portWord p) != 0) = true := by
    simp only [State.drowsing, Port.quiet, hbe, hw, hbw, Port.state_of_still hs, Port.state_of_still hbp,
      Port.queue_of_still hs, Port.queue_of_still hbp, Port.pages_of_still hs, Port.pages_of_still hbp,
      Bool.and_eq_true, beq_iff_eq, bne_iff_ne, ne_eq, List.isEmpty_iff, and_assoc]
  refine ⟨fun h => ?_, fun h => ?_⟩
  · rw [e, if_pos (hd.mp h), hbi, hbw, State.startTimer, State.milliseconds_of_still hbs,
      State.microseconds_of_still hbs]
  · rw [e, if_neg (fun x => h (hd.mpr x))]

theorem settlePort_port_ne (s : State) {p q : PortId} (h : q ≠ p) : (s.settlePort p).port q = s.port q := by
  rw [State.settlePort, State.judgeIdle, State.port_modLink, if_neg h, State.presentFetch]
  split <;> simp [State.judgeEngine, State.port_modEngine, State.port_setJob, h]

/-- Settling a port is what the statements say it is. -/
theorem settledAt_settlePort (s : State) (p : PortId) : settledAt p s (s.settlePort p) := by
  refine ⟨still_settlePort s p, presented_settlePort s p, fun q => ⟨?_, fun hq => ?_⟩⟩
  · rintro rfl
    exact ⟨by rw [settlePort_port_state, if_pos rfl], idleFollows_settlePort s q⟩
  · rw [settlePort_port_ne s hq]; exact ⟨rfl, rfl⟩

/-! ## What settling does not look at -/

theorem settles_modCtl {A : PortId → Prop} {v u : State} (h : settles A v u) (f : Control → Control) :
    settles A (v.modCtl f) (u.modCtl f) := by
  refine ⟨?_, h.2.1, h.2.2⟩
  rw [still_modCtl, still_modCtl, h.1]

theorem settles_emit {A : PortId → Prop} {v u : State} (h : settles A v u) (o : Output) :
    settles A (v.emit o) (u.emit o) := by
  refine ⟨?_, h.2.1, h.2.2⟩
  rw [still_emit, still_emit, h.1]

/-! ## Several ports -/

theorem inHand_of_still {s t : State} (h : t.still = s.still) (p : PortId) : t.inHand p = s.inHand p := by
  have e : (t.port p).engine.job.map (fun j => { j with cursor := none }) =
      (s.port p).engine.job.map (fun j => { j with cursor := none }) :=
    (congrArg (fun x => x.engine.job) (State.port_still h p) :)
  have e' := congrArg (Option.map Job.slot) e
  rw [Option.map_map, Option.map_map] at e'
  exact e'

theorem judged_of_all_still {s t : State} (h : t.still = s.still) (p : PortId) : t.judged p = s.judged p :=
  judged_of_still (State.image_of_still h) (State.accounts_of_still h) (State.port_still h p)

theorem drowsing_of_still {s t : State} {p : PortId} (h : t.still = s.still)
    (he : (t.port p).engine.state = (s.port p).engine.state) : t.drowsing p ↔ s.drowsing p := by
  have hp := State.port_still h p
  simp only [State.drowsing, he, Port.state_of_still hp, Port.queue_of_still hp, Port.pages_of_still hp, State.portWord,
    State.image_of_still h]

theorem mayPresent_of_still {v w u u' : State} {p : PortId} {j : Job} (h : w.still = v.still)
    (hw : w.waitingFetches p = v.waitingFetches p) (he : (u'.port p).engine.state = (u.port p).engine.state) :
    mayPresent w u' p j ↔ mayPresent v u p j := by
  simp only [mayPresent, hw, he, State.outstanding_of_still h]

/-- The engine at a settled port stands as it was judged before, whichever of two settlings was its own. -/
theorem settles_state_trans {A B : PortId → Prop} {v u w : State} (h : settles A v u) (k : settles B u w) (p : PortId) :
    (A p → (w.port p).engine.state = (u.port p).engine.state) ∧
      (A p ∨ B p → (w.port p).engine.state = v.judged p) ∧
      (¬(A p ∨ B p) → (w.port p).engine.state = (v.port p).engine.state) := by
  obtain ⟨h1, -, h3⟩ := h
  obtain ⟨-, -, k3⟩ := k
  have hj := judged_of_all_still h1 p
  by_cases a : A p <;> by_cases b : B p
  · have e := ((h3 p).1 a).1
    have f := ((k3 p).1 b).1
    simp [a, b, f, hj, e]
  · have e := ((h3 p).1 a).1
    have f := ((k3 p).2 b).1
    simp [a, b, f, e]
  · have f := ((k3 p).1 b).1
    simp [a, b, f, hj]
  · have e := ((h3 p).2 a).1
    have f := ((k3 p).2 b).1
    simp [a, b, f, e]

theorem presented_trans {A B : PortId → Prop} {v u w : State} (h : settles A v u) (k : settles B u w) :
    presented (fun p => A p ∨ B p) v w := by
  have hst := settles_state_trans h k
  obtain ⟨h1, ⟨⟨h2, h3⟩, h4⟩, h5⟩ := h
  obtain ⟨k1, ⟨⟨k2, k3⟩, k4⟩, k5⟩ := k
  have hand := inHand_of_still h1
  refine ⟨⟨h2.trans k2, fun t ht => ?_⟩, fun p => ⟨fun hn => ?_, fun j hj => ?_⟩⟩
  · rw [k3 t fun p hp => hand p ▸ ht p (.inr hp), h3 t fun p hp => ht p (.inl hp)]
  · have hn' : (u.port p).engine.job = none := by
      have e := hand p
      simpa only [State.inHand, hn, Option.map_none, Option.map_eq_none_iff] using e
    rw [(k4 p).1 hn', (h4 p).1 hn]
  · obtain ⟨a1, a2⟩ := (h4 p).2 j hj
    have aloneB {x : Slot} (al : ∀ q, A q ∨ B q → q ≠ p → v.inHand q ≠ some x) :
        ∀ q, B q → q ≠ p → u.inHand q ≠ some x := fun q hq hp => hand q ▸ al q (.inr hq) hp
    have aloneA {x : Slot} (al : ∀ q, A q ∨ B q → q ≠ p → v.inHand q ≠ some x) :
        ∀ q, A q → q ≠ p → v.inHand q ≠ some x := fun q hq hp => al q (.inl hq) hp
    by_cases hp : A p ∧ mayPresent v u p j ∧ j.cursor ≠ none
    · obtain ⟨ha, hm, hc⟩ := hp
      obtain ⟨c, hc⟩ := Option.ne_none_iff_exists'.mp hc
      obtain ⟨b1, b2, b3⟩ := a1 c hc ha hm
      have hm' : mayPresent v w p j := (mayPresent_of_still rfl rfl ((hst p).1 ha)).mpr hm
      obtain ⟨d1, d2, d3⟩ := ((k4 p).2 _ b2).2 (.inr (.inr fun x => by rw [x.2.1] at b1; cases b1))
      refine ⟨fun c' hc' _ _ => ?_, fun hno => ?_⟩
      · rw [hc] at hc'
        obtain rfl := Option.some.inj hc'
        exact ⟨d1.trans b1, d2, fun al => (d3 (aloneB al)).trans (b3 (aloneA al))⟩
      · rcases hno with e | e | e
        · rw [hc] at e; cases e
        · exact absurd (.inl ha) e
        · exact absurd hm' e
    · have hno : j.cursor = none ∨ ¬A p ∨ ¬mayPresent v u p j := by
        by_cases x : A p
        · by_cases y : mayPresent v u p j
          · by_cases z : j.cursor = none
            · exact .inl z
            · exact absurd ⟨x, y, z⟩ hp
          · exact .inr (.inr y)
        · exact .inr (.inl x)
      obtain ⟨b1, b2, b3⟩ := a2 hno
      obtain ⟨d1, d2⟩ := (k4 p).2 _ b2
      have may : mayPresent u w p j ↔ mayPresent v w p j := mayPresent_of_still h1 b1 rfl
      refine ⟨fun c hc ab hm => ?_, fun hno' => ?_⟩
      · have na : ¬A p := fun a => by
          rcases hno with e | e | e
          · rw [hc] at e; cases e
          · exact e a
          · exact e ((mayPresent_of_still rfl rfl ((hst p).1 a)).mp hm)
        obtain ⟨e1, e2, e3⟩ := d1 c hc (ab.resolve_left na) (may.mpr hm)
        exact ⟨e1, e2, fun al => (e3 (aloneB al)).trans (congrArg (· + 1) (b3 (aloneA al)))⟩
      · have hno'' : j.cursor = none ∨ ¬B p ∨ ¬mayPresent u w p j := by
          rcases hno' with e | e | e
          · exact .inl e
          · exact .inr (.inl fun b => e (.inr b))
          · exact .inr (.inr fun m => e (may.mp m))
        obtain ⟨e1, e2, e3⟩ := d2 hno''
        exact ⟨e1.trans b1, e2, fun al => (e3 (aloneB al)).trans (b3 (aloneA al))⟩

/-- Two settlings one after the other are one of all their ports. -/
theorem settles_trans {A B : PortId → Prop} {v u w : State} (h : settles A v u) (k : settles B u w) :
    settles (fun p => A p ∨ B p) v w := by
  have hst := settles_state_trans h k
  refine ⟨k.1.trans h.1, presented_trans h k, fun p => ⟨fun hp => ⟨(hst p).2.1 hp, ?_⟩, fun hp => ⟨(hst p).2.2 hp, ?_⟩⟩⟩
  · obtain ⟨h1, -, h5⟩ := h
    obtain ⟨k1, -, k5⟩ := k
    by_cases a : A p
    · have hi := ((h5 p).1 a).2
      have hd := drowsing_of_still k1 ((hst p).1 a)
      have e : (w.port p).link.idle = (u.port p).link.idle := by
        by_cases b : B p
        · have ki := ((k5 p).1 b).2
          by_cases d : u.drowsing p
          · rw [ki.1 (hd.mpr d), hi.1 d]
            split <;> simp_all
          · rw [ki.2 fun x => d (hd.mp x), hi.2 d]
        · exact ((k5 p).2 b).2
      exact ⟨fun d => e.trans (hi.1 (hd.mp d)), fun d => e.trans (hi.2 fun x => d (hd.mpr x))⟩
    · have b := hp.resolve_left a
      have ki := ((k5 p).1 b).2
      have e := ((h5 p).2 a).2
      unfold idleFollows at ki ⊢
      rw [e, State.milliseconds_of_still h1, State.microseconds_of_still h1, State.portWord, State.image_of_still h1] at ki
      exact ki
  · rw [((k.2.2 p).2 fun b => hp (.inr b)).2, ((h.2.2 p).2 fun a => hp (.inl a)).2]

theorem settles_congr {A B : PortId → Prop} {v u : State} (h : settles A v u) (e : ∀ p, A p ↔ B p) : settles B v u := by
  have : A = B := funext fun p => propext (e p)
  exact this ▸ h

theorem settles_nothing (s : State) : settles (fun _ => False) s s :=
  ⟨rfl, ⟨⟨List.prefix_rfl, fun _ _ => rfl⟩, fun _ => ⟨fun _ => rfl, fun _ hj =>
    ⟨fun _ _ h => h.elim, fun _ => ⟨rfl, hj, fun _ => rfl⟩⟩⟩⟩, fun _ => ⟨fun h => h.elim, fun _ => ⟨rfl, rfl⟩⟩⟩

theorem settles_foldl (ps : List PortId) (s : State) : settles (· ∈ ps) s (ps.foldl State.settlePort s) := by
  induction ps generalizing s with
  | nil => exact settles_congr (settles_nothing s) (by simp)
  | cons p ps ih =>
    exact settles_congr (settles_trans (settledAt_settlePort s p) (ih (s.settlePort p))) fun q => by simp

/-- Settling every port is what the statements say it is. -/
theorem settled_settle (s : State) : settled s s.settle :=
  settles_congr (settles_foldl allPorts s) fun p => by simp [mem_allPorts]

/-- Settling one port first changes nothing of what settling every port is. -/
theorem settled_settlePort_settle (s : State) (p : PortId) : settled s (s.settlePort p).settle :=
  settles_congr (settles_trans (settledAt_settlePort s p) (settled_settle (s.settlePort p))) fun q => by simp

/-- After settling every port nothing is left to settle. -/
theorem settledLaw_of_settled {v u : State} (h : settled v u) (hi : ∀ p since us ms, (v.port p).link.idle =
    .running since us ms → ms = portIdleMs (v.portWord p)) : u.settledLaw := by
  obtain ⟨h1, ⟨-, h3⟩, h4⟩ := h
  have hw (p : PortId) : u.portWord p = v.portWord p := by rw [State.portWord, State.image_of_still h1, State.portWord]
  refine ⟨fun p => ?_, fun p => ⟨fun hd => ?_, fun hd => ?_⟩, fun p j hj hc hm => ?_⟩
  · rw [((h4 p).1 trivial).1, judged_of_all_still h1]
  · have e := ((h4 p).1 trivial).2.1 hd
    rw [hw]
    cases hv : (v.port p).link.idle with
    | stopped => rw [hv, if_pos rfl] at e; exact ⟨_, _, e⟩
    | running since us ms =>
      rw [hv, if_neg (by simp), hi p _ _ _ hv] at e
      exact ⟨_, _, e⟩
  · exact ((h4 p).1 trivial).2.2 hd
  · cases hk : (v.port p).engine.job with
    | none =>
      have e := inHand_of_still h1 p
      simp [State.inHand, hk, hj] at e
    | some k =>
      obtain ⟨a, b⟩ := (h3 p).2 k hk
      by_cases hp : k.cursor = none ∨ ¬True ∨ ¬mayPresent v u p k
      · obtain ⟨b1, b2, -⟩ := b hp
        rw [hj] at b2
        obtain rfl := Option.some.inj b2
        rcases hp with e | e | e
        · exact hc e
        · exact e trivial
        · exact e ((mayPresent_of_still h1 b1 rfl).mp hm)
      · simp only [not_or, not_not, not_true, not_false_iff, true_and] at hp
        obtain ⟨c, hc'⟩ := Option.ne_none_iff_exists'.mp hp.1
        rw [hm.2.1] at a
        exact absurd (a c hc' trivial hp.2).1 (by simp)

end Sys2Proof.Machine
end

