-- ==== Sys2Proof/Laws/Tickets.lean ====
section
/-! SUPPORT. What the guard counts and the ending of a ticket do, said once. -/

namespace Sys2Proof.Machine

/-! ## Guard counts (R78, R79) -/

theorem bumpFrom_get (f : Nat → Nat) (lo hi : Nat) (ns : List Nat) (i k : Nat) :
    (bumpFrom f lo hi i ns)[k]? = ns[k]?.map fun n => if lo ≤ i + k ∧ i + k ≤ hi then f n else n := by
  induction ns generalizing i k with
  | nil => simp [bumpFrom]
  | cons n ns ih =>
    cases k with
    | zero => simp [bumpFrom]
    | succ k =>
      have e : i + 1 + k = i + (k + 1) := by omega
      simp only [bumpFrom, List.getElem?_cons_succ, ih, e]

/-- The counts from `lo` to `hi` change, all at once, and no other. -/
theorem tget_bumpBlocks (f : Nat → Nat) (lo hi : Nat) (v : Vector Nat 4096) (b : Fin 4096) :
    tget (bumpBlocks f lo hi v) b = if lo ≤ b.val ∧ b.val ≤ hi then f (tget v b) else tget v b := by
  have hb : b.val < v.toList.length := by simp
  have h := bumpFrom_get f lo hi v.toList 0 b.val
  rw [List.getElem?_eq_getElem hb, List.getElem?_eq_getElem (by rw [bumpFrom_length]; exact hb), Nat.zero_add] at h
  simp only [Option.map_some, Option.some.injEq] at h
  simpa [bumpBlocks, tget] using h

/-- A block is touched by an extent in a spool window (R77). -/
def isTouchedBlock (w : Word) (m : Mirror) (b : Fin 4096) : Bool :=
  decide ((touchedBlocks w m.dataBase m.length).1 ≤ b.val ∧ b.val ≤ (touchedBlocks w m.dataBase m.length).2)

theorem guard_guardFall (s : State) (m : Mirror) (b : Fin 4096) :
    (s.guardFall m).guard b = if isTouchedBlock s.image.spoolWindow m b then s.guard b - 1 else s.guard b := by
  simp only [State.guardFall, State.guard, tget_bumpBlocks, isTouchedBlock, decide_eq_true_eq]

theorem guard_guardRise (s : State) (m : Mirror) (b : Fin 4096) :
    (s.guardRise m).guard b = if isTouchedBlock s.image.spoolWindow m b then s.guard b + 1 else s.guard b := by
  simp only [State.guardRise, State.guard, tget_bumpBlocks, isTouchedBlock, decide_eq_true_eq]

/-! ## The end of a ticket (R57) -/

/-- Ending a ticket changes ticket records, guard counts and the backlog, and nothing else. -/
theorem endTicket_frame (s : State) (t : Slot) (st : TicketState) (r : Reason) :
    s.endTicket t st r =
      { s with tickets := (s.endTicket t st r).tickets, guards := (s.endTicket t st r).guards,
               relay := { s.relay with backlog := (s.endTicket t st r).relay.backlog } } := by
  unfold State.endTicket
  simp only
  split
  · rfl
  · split <;> rfl

theorem endTicket_tickets (s : State) (t : Slot) (st : TicketState) (r : Reason) :
    (s.endTicket t st r).tickets =
      (s.setTicket t { s.ticket t with state := st, reason := r, resume := none }).tickets := by
  unfold State.endTicket
  simp only
  split
  · rfl
  · split <;> rfl

/-- The ticket that ends keeps its mirror, its counts and its position (R57); no other ticket changes. -/
theorem endTicket_ticket (s : State) (t k : Slot) (st : TicketState) (r : Reason) :
    (s.endTicket t st r).ticket k =
      if k = t then { s.ticket t with state := st, reason := r, resume := none } else s.ticket k := by
  rw [State.ticket, endTicket_tickets, ← State.ticket, State.ticket_setTicket]

/-- The guard counts fall by one over the ended ticket's blocks (R79). -/
theorem endTicket_guard (s : State) (t : Slot) (st : TicketState) (r : Reason) (b : Fin 4096) :
    (s.endTicket t st r).guard b =
      if (s.ticket t).mirror.any fun m => isTouchedBlock s.image.spoolWindow m b then s.guard b - 1 else s.guard b := by
  unfold State.endTicket
  simp only
  split
  · rename_i h; simp [h]
  · rename_i m h
    have e := guard_guardFall (s.setTicket t { s.ticket t with state := st, reason := r, resume := none }) m b
    simp only [State.guard_setTicket, State.setTicket_image] at e
    simp only [h, Option.any_some]
    split
    · exact e
    · exact e

end Sys2Proof.Machine
end

