-- ==== Sys2Proof/Laws/Traffic.lean ====
section
/-! SUPPORT. What the traffic path does with each kind of request, and with inbound frames and memory's answers, stated once
for the rows that go through it. -/

namespace Sys2Proof.Machine

/-! ## The control page -/

theorem controlBase_le (s : State) : s.controlBase ≤ 255 * 65536 := by
  have : s.anchor.toNat ≤ 255 := by have := s.anchor.isLt; omega
  exact Nat.mul_le_mul_right _ this

theorem controlBase_mod (s : State) : s.controlBase % 64 = 0 := by
  show s.anchor.toNat * 65536 % 64 = 0
  omega

theorem addr_toNat {n : Nat} (h : n < 2 ^ 36) : (BitVec.ofNat 36 n).toNat = n := by
  rw [BitVec.toNat_ofNat, Nat.mod_eq_of_lt h]

/-- A word of the control page is placed by its offset (R4, R19). -/
theorem placeOf_control (s : State) {off : Nat} (h : off < 65536) :
    s.placeOf (s.controlBase + off) = controlPlace off := by
  have e : (controlExtent s.anchor).holds (s.controlBase + off) = true := by
    simp [controlExtent, Extent.holds, State.controlBase, h]
  simp [State.placeOf, e]

theorem placeOf_commandWord (s : State) : s.placeOf s.controlBase = .commandWord := by
  have h := placeOf_control s (off := 0) (by decide)
  simpa [controlPlace] using h

/-! ## Requests that reach the classifier -/

theorem hostRequest_write {s : State} {w : WriteRequest} (hopen : s.psp.accepting = true) (hheld : s.psp.held = [])
    (hshape : wellShaped w.addr w.size = true) (hfree : s.record w.tag = none)
    (hline : crossesLine w.addr.toNat w.size = false) (hen : anyEnabled w = true) :
    s.hostRequest (.write w) = s.classifyWrite w := by
  simp [State.hostRequest, hopen, hheld, State.takeRequest, State.takeWrite, hshape, hfree, hline, hen]

theorem hostRequest_read {s : State} {r : ReadRequest} (hopen : s.psp.accepting = true) (hheld : s.psp.held = [])
    (hshape : wellShaped r.addr r.size = true) (hfree : s.record r.tag = none)
    (hline : crossesLine r.addr.toNat r.size = false) :
    s.hostRequest (.read r) = s.classifyRead r := by
  simp [State.hostRequest, hopen, hheld, State.takeRequest, State.takeRead, hshape, hfree, hline]

/-- A request held while the port is closed (R3). -/
theorem hostRequest_closed {s : State} (r : HostRequest) (h : s.psp.accepting = false) :
    s.hostRequest r = s.setHeld (s.psp.held ++ [r]) := by
  simp [State.hostRequest, h]

/-- A request that comes behind held ones joins them (R3). -/
theorem hostRequest_behind {s : State} (r : HostRequest) (h : s.psp.held ≠ []) :
    s.hostRequest r = s.setHeld (s.psp.held ++ [r]) := by
  simp [State.hostRequest, h]

@[simp] theorem setHeld_held (s : State) (rs : List HostRequest) : (s.setHeld rs).psp.held = rs := rfl

@[simp] theorem setHeld_accepting (s : State) (rs : List HostRequest) :
    (s.setHeld rs).psp.accepting = s.psp.accepting := rfl

@[simp] theorem setHeld_record (s : State) (rs : List HostRequest) (tag : Tag) :
    (s.setHeld rs).record tag = s.record tag := rfl

/-- An open port with a request held takes the first as if it came alone (R3). -/
theorem takeHeld_eq {s : State} {r : HostRequest} {rest : List HostRequest} (hopen : s.psp.accepting = true)
    (h : s.psp.held = r :: rest) : s.takeHeld r = ((s.setHeld []).hostRequest r).setHeld rest := by
  simp [State.takeHeld, State.hostRequest, hopen, h]

/-! ## Exact word writes -/

/-- An exact word write: eight enabled bytes at a word's address. -/
def exactWord (addr : Nat) (data : List Byte) (tag : Tag) : WriteRequest :=
  ⟨BitVec.ofNat 36 addr, 8, List.replicate 8 true, data, tag⟩

theorem wellShaped_exact {addr : Nat} (ha : addr % 8 = 0) : wellShaped (BitVec.ofNat 36 addr) 8 = true := by
  simp [wellShaped, ha]

theorem crossesLine_word {addr : Nat} (ha : addr % 8 = 0) : crossesLine addr 8 = false := by
  simp only [crossesLine, bne_eq_false_iff_eq]
  omega

theorem touchedWords_exact (addr : Nat) (data : List Byte) (tag : Tag) (hb : addr < 2 ^ 36) :
    touchedWords (exactWord addr data tag) = [⟨addr, List.replicate 8 true, padTo 8 data⟩] := by
  have e : (exactWord addr data tag).addr.toNat = addr := addr_toNat hb
  rw [touchedWords, e]
  simp [exactWord, wordWrites, WordWrite.isTouched]

/-- An exact word write of an absorbed word goes to its owner (R7, R9). -/
theorem hostRequest_absorbed {s : State} {addr : Nat} {data : List Byte} {tag : Tag} (hb : addr < 2 ^ 36)
    (ha : addr % 8 = 0) (hopen : s.psp.accepting = true) (hheld : s.psp.held = []) (hfree : s.record tag = none)
    (habs : (s.placeOf addr).isAbsorbed = true) :
    s.hostRequest (.write (exactWord addr data tag)) = s.proceed (exactWord addr data tag) := by
  rw [hostRequest_write hopen hheld (wellShaped_exact ha) hfree]
  · have hj : s.judgeWrite (exactWord addr data tag) = none := by
      unfold State.judgeWrite State.settingParts
      rw [touchedWords_exact addr data tag hb]
      cases hp : s.placeOf addr <;>
        simp_all [Place.isAbsorbed, Place.isReadOnly, State.fieldLocked, State.guarded, isExactWord, exactWord]
    rw [State.classifyWrite, hj]
  · simp only [exactWord, addr_toNat hb]
    exact crossesLine_word ha
  · rfl

/-! ## Commands -/

theorem byteOf_command (code : Byte) (c : CommandWrite) (w : WriteRequest) (h : w.data = commandBytes code c) :
    byteOf w 0 = code ∧ byteOf w 1 = c.complement ∧ byteOf w 2 = c.argument := by
  simp [byteOf, h, commandBytes]

theorem leNat_leBytes (k n : Nat) : leNat (leBytes k n) = n % 256 ^ k := by
  induction k generalizing n with
  | zero => simp [leBytes, leNat, Nat.mod_one]
  | succ k ih =>
    have e : (256 : Nat) ^ (k + 1) = 256 * 256 ^ k := by rw [Nat.pow_succ, Nat.mul_comm]
    rw [leBytes, leNat, ih, BitVec.toNat_ofNat, e, Nat.mod_mul]

theorem leBytes_length (k n : Nat) : (leBytes k n).length = k := by
  induction k generalizing n with
  | zero => rfl
  | succ k ih => simp [leBytes, ih]

theorem commandValue (code : Byte) (c : CommandWrite) :
    leNat ((padTo 8 (commandBytes code c)).drop 4) = c.value.toNat := by
  have h : (padTo 8 (commandBytes code c)).drop 4 = leBytes 4 c.value.toNat := by
    simp [padTo, commandBytes, leBytes]
  rw [h, leNat_leBytes]
  exact Nat.mod_eq_of_lt c.value.isLt

theorem commandRequest_exact (s : State) (code : Byte) (c : CommandWrite) :
    s.commandRequest code c = exactWord s.controlBase (commandBytes code c) c.tag := rfl

/-- A command word with its complement right: taken, recorded, answered ACK OK (R9, R33). -/
theorem commandWrite_taken {s : State} {code : Byte} {c : CommandWrite} (hopen : s.psp.accepting = true) (hheld : s.psp.held = [])
    (hfree : s.record c.tag = none) (hcomp : c.complement = ~~~code) :
    s.commandWrite code c = (s.takeCommand code c.argument c.value.toNat).ack c.tag .ok := by
  have hb : s.controlBase < 2 ^ 36 := by have := controlBase_le s; omega
  have ha : s.controlBase % 8 = 0 := by have := controlBase_mod s; omega
  have hp := placeOf_commandWord s
  rw [State.commandWrite, commandRequest_exact, hostRequest_absorbed hb ha hopen hheld hfree (by rw [hp]; rfl), State.proceed]
  rw [touchedWords_exact _ _ _ hb]
  simp only [List.map_cons, List.map_nil, hp]
  obtain ⟨h0, h1, h2⟩ := byteOf_command code c (exactWord s.controlBase (commandBytes code c) c.tag) rfl
  simp only [State.absorbCommand, complementHolds, h0, h1, h2, hcomp, beq_self_eq_true, if_true]
  rw [show (exactWord s.controlBase (commandBytes code c) c.tag).data = commandBytes code c from rfl, commandValue]
  rfl

/-- A command word with its complement wrong: refused with COMPLEMENT and recorded (R9, R32). -/
theorem commandWrite_mismatch {s : State} {code : Byte} {c : CommandWrite} (hopen : s.psp.accepting = true) (hheld : s.psp.held = [])
    (hfree : s.record c.tag = none) (hcomp : c.complement ≠ ~~~code) :
    s.commandWrite code c =
      (s.modCtl fun x => { x with lastCode := code, lastResult := .complement }).refuse (s.commandRequest code c)
        .complement := by
  have hb : s.controlBase < 2 ^ 36 := by have := controlBase_le s; omega
  have ha : s.controlBase % 8 = 0 := by have := controlBase_mod s; omega
  have hp := placeOf_commandWord s
  rw [State.commandWrite, commandRequest_exact, hostRequest_absorbed hb ha hopen hheld hfree (by rw [hp]; rfl), State.proceed]
  rw [touchedWords_exact _ _ _ hb]
  simp only [List.map_cons, List.map_nil, hp]
  obtain ⟨h0, h1, h2⟩ := byteOf_command code c (exactWord s.controlBase (commandBytes code c) c.tag) rfl
  simp [State.absorbCommand, complementHolds, h0, h1, hcomp]

/-! ## Job commands -/

theorem postRequest_exact (s : State) (code : Byte) (w : PostWrite) :
    s.postRequest code w = exactWord (s.postAddr w.slot) (postBytes code w) w.tag := rfl

/-- The ticket window is enabled, on its alignment, and clear of the control page (R27, R28). -/
def State.ticketWindowSet (s : State) : Prop :=
  windowOn s.image.ticketWindow = true ∧ baseOf s.image.ticketWindow % 8192 = 0 ∧
    (controlExtent s.anchor).overlaps ⟨baseOf s.image.ticketWindow, 8192⟩ = false

theorem Extent.overlaps_iff (a b : Extent) :
    a.overlaps b = true ↔ a.first < b.first + b.length ∧ b.first < a.first + a.length := by
  simp only [Extent.overlaps, Bool.and_eq_true, decide_eq_true_eq]

theorem Extent.holds_iff (e : Extent) (a : Nat) : e.holds a = true ↔ e.first ≤ a ∧ a < e.first + e.length := by
  simp only [Extent.holds, Bool.and_eq_true, decide_eq_true_eq]

theorem baseOf_lt (w : Word) : baseOf w < 2 ^ 36 := Nat.mod_lt _ (by decide)

theorem postAddr_bounds {s : State} (h : s.ticketWindowSet) (t : Slot) :
    s.postAddr t < 2 ^ 36 ∧ s.postAddr t % 8 = 0 := by
  obtain ⟨-, h2, -⟩ := h
  have hb := baseOf_lt s.image.ticketWindow
  have ht := t.isLt
  simp only [State.postAddr, State.slotAddr]
  omega

theorem placeOf_postAddr {s : State} (h : s.ticketWindowSet) (t : Slot) : s.placeOf (s.postAddr t) = .postWord t := by
  obtain ⟨h1, h2, h3⟩ := h
  have ht := t.isLt
  have hnot : (controlExtent s.anchor).holds (s.postAddr t) = false := by
    rw [← Bool.not_eq_true, Extent.overlaps_iff] at h3
    rw [← Bool.not_eq_true, Extent.holds_iff]
    simp only [controlExtent, State.postAddr, State.slotAddr] at h3 ⊢
    omega
  have hin : Extent.holds ⟨baseOf s.image.ticketWindow, 8192⟩ (s.postAddr t) = true := by
    rw [Extent.holds_iff]
    simp only [State.postAddr, State.slotAddr]
    omega
  have ho : s.postAddr t - baseOf s.image.ticketWindow = 32 * t.val + 24 := by
    simp only [State.postAddr, State.slotAddr]; omega
  have hd : (32 * t.val + 24) / 32 = t.val := by omega
  have hm : (32 * t.val + 24) % 32 / 8 = 3 := by omega
  simp only [State.placeOf, hnot, h1, hin, Bool.true_and, if_true, ho, ticketPlace, hd, hm, Bool.false_eq_true, if_false]
  congr 1
  exact Fin.ext (Nat.mod_eq_of_lt ht)

/-- A post word with its complement right: taken by the ticket table, answered ACK OK (R9, R44). -/
theorem postWrite_taken {s : State} {code : Byte} {w : PostWrite} (hopen : s.psp.accepting = true) (hheld : s.psp.held = [])
    (hfree : s.record w.tag = none) (hwin : s.ticketWindowSet) (hcomp : w.complement = ~~~code) :
    s.postWrite code w = (s.takeJob w.slot (BitVec.ofNat 36 (s.postAddr w.slot)) code).ack w.tag .ok := by
  obtain ⟨hb, ha⟩ := postAddr_bounds hwin w.slot
  have hp := placeOf_postAddr hwin w.slot
  rw [State.postWrite, postRequest_exact, hostRequest_absorbed hb ha hopen hheld hfree (by rw [hp]; rfl), State.proceed]
  rw [touchedWords_exact _ _ _ hb]
  simp only [List.map_cons, List.map_nil, hp]
  simp [State.absorbPost, complementHolds, exactWord, byteOf, postBytes, hcomp]

/-- A post word with its complement wrong: refused with COMPLEMENT (R9, R44). -/
theorem postWrite_mismatch {s : State} {code : Byte} {w : PostWrite} (hopen : s.psp.accepting = true) (hheld : s.psp.held = [])
    (hfree : s.record w.tag = none) (hwin : s.ticketWindowSet) (hcomp : w.complement ≠ ~~~code) :
    s.postWrite code w = s.refuse (s.postRequest code w) .complement := by
  obtain ⟨hb, ha⟩ := postAddr_bounds hwin w.slot
  have hp := placeOf_postAddr hwin w.slot
  rw [State.postWrite, postRequest_exact, hostRequest_absorbed hb ha hopen hheld hfree (by rw [hp]; rfl), State.proceed]
  rw [touchedWords_exact _ _ _ hb]
  simp only [List.map_cons, List.map_nil, hp]
  simp [State.absorbPost, complementHolds, exactWord, byteOf, postBytes, hcomp]

/-! ## Inbound frames (R114) -/

/-- A frame closed by its CRC is judged by its kind, length and fields. -/
theorem judgeFrame_closeFrame (body : List Byte) : judgeFrame (closeFrame body) = judgeBody body := by
  have hl : (closeFrame body).length - 2 = body.length := by
    simp [closeFrame, leBytes_length]
  have ht : (closeFrame body).take ((closeFrame body).length - 2) = body := by
    rw [hl]; simp [closeFrame]
  simp [judgeFrame, ht]

theorem receive_closed (s : State) (p : PortId) (bytes : List Byte) (h : (s.port p).link.state = .disabled) :
    s.receive p bytes = s := by
  simp [State.receive, h]

theorem receive_trainAck {s : State} {p : PortId} {n : Byte} (h : (s.port p).link.state ≠ .disabled)
    (h1 : 1 ≤ n.toNat) (h2 : n.toNat ≤ 32) :
    s.receive p (trainAckBytes n) = (s.goodFrame p).takeTrainAck p n.toNat := by
  simp [State.receive, h, trainAckBytes, judgeFrame_closeFrame, judgeBody, h1, h2]

theorem receive_credit {s : State} {p : PortId} {n : Byte} (h : (s.port p).link.state ≠ .disabled) :
    s.receive p (creditBytes n) = (s.goodFrame p).takeCredit p (n.toNat % 16) := by
  simp [State.receive, h, creditBytes, judgeFrame_closeFrame, judgeBody]

theorem receive_status {s : State} {p : PortId} {bits : BitVec 16} {n : Byte}
    (h : (s.port p).link.state ≠ .disabled) :
    s.receive p (statusBytes bits n) = (s.goodFrame p).takeStatus p bits (n.toNat % 16) := by
  have e : (0x83#8 :: leBytes 2 bits.toNat ++ [n] : List Byte) =
      [0x83#8, BitVec.ofNat 8 bits.toNat, BitVec.ofNat 8 (bits.toNat / 256), n] := rfl
  have hb : BitVec.ofNat 16 (leNat [BitVec.ofNat 8 bits.toNat, BitVec.ofNat 8 (bits.toNat / 256)]) = bits := by
    have := leNat_leBytes 2 bits.toNat
    simp only [leBytes] at this
    rw [this]
    apply BitVec.eq_of_toNat_eq
    rw [BitVec.toNat_ofNat]
    have := bits.isLt
    omega
  simp only [State.receive, h, if_false, statusBytes, judgeFrame_closeFrame]
  rw [e]
  simp only [judgeBody, if_true, hb]

theorem receive_bad {s : State} {p : PortId} {bytes : List Byte} (h : (s.port p).link.state ≠ .disabled)
    (hb : judgeFrame bytes = .bad) : s.receive p bytes = s.takeBadFrame p := by
  simp [State.receive, h, hb]

/-! ## Answers of memory (R18) -/

theorem memoryAnswers_found {s : State} {kind : Owner → Bool} {n : Nat} {ok : Bool} {data : List Byte} {g : Granted}
    (h : (s.msp.outstanding.find? fun g => g.id == n && kind g.request.owner) = some g) :
    s.memoryAnswers kind n ok data =
      (s.modMsp fun m => { m with outstanding := m.outstanding.filter fun x => x.id != n }).answered
        g.request.owner ⟨ok, g.request.answerData data⟩ := by
  simp [State.memoryAnswers, h]

theorem memoryAnswers_none {s : State} {kind : Owner → Bool} {n : Nat} {ok : Bool} {data : List Byte}
    (h : (s.msp.outstanding.find? fun g => g.id == n && kind g.request.owner) = none) :
    s.memoryAnswers kind n ok data = s := by
  simp [State.memoryAnswers, h]

/-- The one outstanding request of a name is the one found, and its answer leaves the rest. -/
theorem awaits_find {s : State} {g : Granted} {rest : List Granted} (kind : Owner → Bool) (h : s.awaits g rest)
    (hk : kind g.request.owner = true) :
    (s.msp.outstanding.find? fun x => x.id == g.id && kind x.request.owner) = some g ∧
      (s.msp.outstanding.filter fun x => x.id != g.id) = rest := by
  obtain ⟨b, a, h1, h2, h3⟩ := h
  subst h2
  have hb : ∀ x ∈ b, x.id ≠ g.id := fun x hx => h3 x (by simp [hx])
  have ha : ∀ x ∈ a, x.id ≠ g.id := fun x hx => h3 x (by simp [hx])
  rw [h1]
  constructor
  · have e : (b.find? fun x => x.id == g.id && kind x.request.owner) = none := by
      rw [List.find?_eq_none]
      intro x hx
      simp [hb x hx]
    rw [List.find?_append, e]
    simp [hk]
  · have e1 : b.filter (fun x => x.id != g.id) = b := List.filter_eq_self.2 fun x hx => by simp [hb x hx]
    have e2 : a.filter (fun x => x.id != g.id) = a := List.filter_eq_self.2 fun x hx => by simp [ha x hx]
    rw [List.filter_append, List.filter_cons, e1, e2]
    simp

/-- The answer to the one outstanding request of a name goes to its requester, its tag freed (R17, R18). -/
theorem memoryAnswers_awaits {s : State} {g : Granted} {rest : List Granted} (kind : Owner → Bool) (ok : Bool)
    (data : List Byte) (h : s.awaits g rest) (hk : kind g.request.owner = true) :
    s.clearOut.memoryAnswers kind g.id ok data =
      ({ s with msp := { s.msp with outstanding := rest }, out := [] } : State).answered g.request.owner
        ⟨ok, g.request.answerData data⟩ := by
  obtain ⟨e1, e2⟩ := awaits_find kind h hk
  rw [memoryAnswers_found (s := s.clearOut) e1]
  simp only [State.modMsp, State.clearOut, e2]

end Sys2Proof.Machine
end

