-- ==== Sys2Proof/Laws/Commands.lean ====
section
/-! SUPPORT. What a taken control command leaves, by the form of its owner's answer. -/

namespace Sys2Proof.Machine

/-- The command record after a taken command (R33). -/
def Control.recorded (code : Byte) (r : CommandResult) (c : Control) : Control :=
  { c with lastCode := code, lastResult := r, taken := c.taken + 1 }

theorem portArg_eq {b : Byte} {p : PortId} (h : b.toNat = p.val) : portArg b = some p := by
  have hb : b.toNat < 16 := by omega
  simp only [portArg, hb, dif_pos]
  exact congrArg some (Fin.ext h)

theorem portArg_none {b : Byte} (h : 16 ≤ b.toNat) : portArg b = none := by
  simp [portArg, Nat.not_lt.2 h]

theorem accountArg_eq {b : Byte} {a : AccountId} (h : b.toNat = a.val) : accountArg b = some a := by
  have hb : b.toNat < 64 := by omega
  simp only [accountArg, hb, dif_pos]
  exact congrArg some (Fin.ext h)

theorem accountArg_none {b : Byte} (h : 64 ≤ b.toNat) : accountArg b = none := by
  simp [accountArg, Nat.not_lt.2 h]

theorem takeCommand_eq {s X : State} {code arg : Byte} {value : Nat} {r : CommandResult}
    (e : s.perform code arg value = (X, r)) : s.takeCommand code arg value = X.modCtl (Control.recorded code r) := by
  rw [State.takeCommand, e]
  rfl

/-- A command whose owner's last act is to settle every port: from the owner's state, with the record and the ACK, every port
settles. -/
theorem takeCommand_settled {s X : State} {code arg : Byte} {value : Nat} {r : CommandResult} (tag : Tag)
    (e : s.perform code arg value = (X.settle, r)) :
    settled ((X.modCtl (Control.recorded code r)).ack tag .ok) ((s.takeCommand code arg value).ack tag .ok) := by
  rw [takeCommand_eq e]
  exact settles_emit (settles_modCtl (settled_settle X) _) _

/-- A command whose owner's last act is to settle one port. -/
theorem takeCommand_settledPort {s X : State} {code arg : Byte} {value : Nat} {r : CommandResult} (p : PortId)
    (tag : Tag) (e : s.perform code arg value = (X.settlePort p, r)) :
    settledAt p ((X.modCtl (Control.recorded code r)).ack tag .ok) ((s.takeCommand code arg value).ack tag .ok) := by
  rw [takeCommand_eq e]
  exact settles_emit (settles_modCtl (settledAt_settlePort X p) _) _

end Sys2Proof.Machine
end

