-- ==== Sys2Proof/Laws/Engines.lean ====
section
/-! SUPPORT. The engines: what a grant of quota asks, when the gates pass, the report of a page's end, and what stopping
and withdrawing leave alone. -/

namespace Sys2Proof.Machine

/-! ## Quota and the gates (R97, R156) -/

theorem grants_iff (s : State) (a : AccountId) :
    s.grants a = true ↔ (s.policy a = .hold → (s.account a).reserved < (s.account a).remaining) := by
  unfold State.grants
  cases h : s.policy a <;> simp

theorem paceOpen_iff (e : Engine) : e.paceOpen = true ↔ ∀ w, e.pacer = some w → w.sent < w.limit := by
  unfold Engine.paceOpen
  cases h : e.pacer <;> simp

/-- With every gate passed the frame is the one R96 forms. -/
theorem gates_pass {s : State} {p : PortId} {j : Job} {f : FramePlan} (hf : s.nextFrame p j = some f)
    (hhold : (s.port p).hasOpenPage = true ∨ (s.port p).onHold = false) (hlink : (s.port p).link.state = .ready)
    (hdown : (s.port p).watch.holds .down = false) (hcredit : (s.port p).link.credits ≠ 0)
    (hpace : (s.port p).engine.paceOpen = true)
    (hroom : (s.port p).hasOpenPage = true ∨ (s.port p).pages.length < Config.pageEntries)
    (hquota : (s.port p).hasOpenPage = true ∨ s.grants j.account = true) : s.gates p j = .passes f := by
  unfold State.gates
  simp only []
  have h1 : ¬((!(s.port p).hasOpenPage && (s.port p).onHold) = true) := by
    rcases hhold with h | h <;> simp [h]
  rw [if_neg h1, if_neg (by simp [hlink, hdown]), if_neg hcredit, hpace, hf]
  simp only [Bool.not_true, Bool.false_eq_true, if_false]
  by_cases ho : (s.port p).hasOpenPage = true
  · rw [if_pos ho]
  · rw [if_neg ho, if_neg (Nat.not_le.2 (hroom.resolve_left ho)), hquota.resolve_left ho]
    rfl

/-! ## The report of a page's end (R35, R38) -/

theorem pageEnded_frame (s : State) :
    s.pageEnded = { s with ctl := { s.ctl with global := s.pageEnded.ctl.global } } := by
  unfold State.pageEnded
  split <;> rfl

theorem pageEnded_running {s : State} (h : s.ctl.global ≠ .quiescing) : s.pageEnded = s := by
  unfold State.pageEnded
  rw [if_neg fun h' => h h'.1]

/-! ## Stopping (R106, R107) -/

theorem takeBackFetch_waiting (s : State) (p : PortId) (t : Slot) :
    (s.takeBackFetch p t).msp.waiting = s.msp.waiting.filter fun r => !r.isFetchOf p := rfl

theorem takeBackFetch_none (s : State) (p : PortId) (t : Slot) :
    ∀ r ∈ (s.takeBackFetch p t).msp.waiting, r.isFetchOf p = false := by
  intro r hr
  rw [takeBackFetch_waiting, List.mem_filter] at hr
  simpa using hr.2

/-- A request keeps its port under a new mark. -/
theorem remark_isFetchOf (p q : PortId) (mark : FetchMark) (g : Granted) :
    (g.remark p mark).request.isFetchOf q = g.request.isFetchOf q := by
  unfold Granted.remark
  split
  · rename_i r copy offset h
    split
    · simp [MemRequest.isFetchOf, h]
    · rfl
  · rfl

/-- Without a ticket that ends, the drain test changes nothing (R56). -/
theorem drainTest_stays {s : State} {t : Slot}
    (h : (s.ticket t).entryCount ≠ 0 ∨ (s.ticket t).fetchCount ≠ 0 ∨ (s.ticket t).sending = true ∨
      ((s.ticket t).state ≠ .cancelling ∧ (s.ticket t).state ≠ .failing)) : s.drainTest t = s := by
  unfold State.drainTest
  simp only []
  split
  · rename_i hc
    obtain ⟨h1, h2, h3⟩ := hc
    rcases h with h | h | h | ⟨h, h'⟩
    · exact absurd h1 h
    · exact absurd h2 h
    · rw [h3] at h; cases h
    · split
      · rename_i e; exact absurd e h
      · rename_i e; exact absurd e h'
      · rfl
  · rfl

end Sys2Proof.Machine
end

