-- ==== Sys2Proof/Laws/Frames.lean ====
section
/-! SUPPORT. Frames on the wire: the CRC bit by bit (R184), the judging of a closed frame (R114), and how long a frame's
payload is (R96). -/

namespace Sys2Proof.Machine

/-! ## The CRC (R184) -/

/-- A bit entering the CRC register: the register moves up one place, with the generator added when its top bit and the bit
entering differ. -/
def crcBit (r : BitVec 16) (b : Bool) : BitVec 16 := if r.getLsbD 15 = b then r <<< 1 else (r <<< 1) ^^^ 0x1021#16

/-- One shift with the bits still to enter added to the register's top. -/
theorem crcShift_xor (r m : BitVec 16) : crcShift (r ^^^ m) = crcBit r (m.getLsbD 15) ^^^ (m <<< 1) := by
  have e : (r ^^^ m) <<< 1 = (r <<< 1) ^^^ (m <<< 1) := BitVec.shiftLeft_xor_distrib ..
  simp only [crcShift, crcBit, BitVec.msb_eq_getLsbD_last, BitVec.getLsbD_xor, e]
  cases r.getLsbD 15 <;> cases m.getLsbD 15 <;>
    simp [BitVec.xor_assoc, BitVec.xor_comm (m <<< 1)]

/-- A byte enters the register bit by bit, the most significant first. -/
theorem crcByte_bits (r : BitVec 16) (b : Byte) :
    crcByte r b = [7, 6, 5, 4, 3, 2, 1, 0].foldl (fun x i => crcBit x (b.getLsbD i)) r := by
  have top : ∀ k < 8, ((b.zeroExtend 16 <<< 8) <<< k).getLsbD 15 = b.getLsbD (7 - k) := by
    intro k hk
    simp only [BitVec.getLsbD_shiftLeft, BitVec.truncate_eq_setWidth, BitVec.getLsbD_setWidth]
    have h1 : ¬(15 < k) := by omega
    have h2 : ¬(15 - k < 8) := by omega
    have h3 : 15 - k - 8 = 7 - k := by omega
    have h4 : 7 - k < 16 := by omega
    have h5 : 15 - k < 16 := by omega
    simp [h1, h2, h3, h4, h5]
  have gone : (b.zeroExtend 16 <<< 8) <<< 8 = 0#16 := by
    apply BitVec.eq_of_getLsbD_eq
    intro i hi
    simp only [BitVec.getLsbD_shiftLeft, BitVec.getLsbD_zero]
    by_cases h : i < 8
    · simp [h]
    · have : i - 8 < 8 := by omega
      simp [this]
  have shifts : ∀ (m : BitVec 16) (k : Nat), (m <<< k) <<< 1 = m <<< (k + 1) := fun m k => BitVec.shiftLeft_add .. |>.symm
  generalize hm : b.zeroExtend 16 <<< 8 = m at top gone
  simp only [crcByte, hm, Function.iterate_succ, Function.comp, Function.iterate_zero, id]
  have t0 := top 0 (by decide); have t1 := top 1 (by decide); have t2 := top 2 (by decide); have t3 := top 3 (by decide)
  have t4 := top 4 (by decide); have t5 := top 5 (by decide); have t6 := top 6 (by decide); have t7 := top 7 (by decide)
  rw [BitVec.shiftLeft_zero] at t0
  simp only [crcShift_xor, shifts, t0, t1, t2, t3, t4, t5, t6, t7, gone, BitVec.xor_zero, List.foldl]

theorem crc_snoc (bs : List Byte) (b : Byte) : crc (bs ++ [b]) = crcByte (crc bs) b := by
  simp [crc]

/-- The two bytes that close a frame, low byte first. -/
theorem leBytes_two (w : BitVec 16) : leBytes 2 w.toNat = [w.extractLsb' 0 8, w.extractLsb' 8 8] := by
  have h := w.isLt
  simp only [leBytes, List.cons.injEq, and_true]
  constructor
  · apply BitVec.eq_of_toNat_eq
    simp
  · apply BitVec.eq_of_toNat_eq
    simp [Nat.shiftRight_eq_div_pow]

/-! ## The judging of a frame (R114) -/

/-- A frame whose last two bytes are not the CRC of those before them is bad. -/
theorem judgeFrame_wrongCrc {bytes : List Byte}
    (h : bytes.drop (bytes.length - 2) ≠ leBytes 2 (crc (bytes.take (bytes.length - 2))).toNat) :
    judgeFrame bytes = .bad := by
  rw [judgeFrame, if_neg]
  intro e
  refine h (List.append_cancel_left ((List.take_append_drop _ bytes).trans e))

/-- A body is no good frame's exactly when its kind, its length or its credits are wrong. -/
theorem judgeBody_bad_iff (body : List Byte) : judgeBody body = .bad ↔
    ¬((∃ n : Byte, body = [0x81#8, n] ∧ 1 ≤ n.toNat ∧ n.toNat ≤ 32) ∨ (∃ n, body = [0x82#8, n]) ∨
      ∃ lo hi n, body = [0x83#8, lo, hi, n]) := by
  rcases body with _ | ⟨k, _ | ⟨n, _ | ⟨hi, _ | ⟨m, _ | ⟨x, xs⟩⟩⟩⟩⟩ <;> simp [judgeBody]
  · split
    · rename_i h; simp [h]
    · rename_i h
      split
      · rename_i h'; simp [h']
      · rename_i h'; simp [h']; intro e; simpa [e] using h

/-! ## Payloads (R96) -/

/-- A frame carries a byte at least, and no more than its room. -/
theorem formFrame_payload {rule : Option MarkRule} {room left : Nat} {lead : Bool} {bytes : List Byte} {f : FramePlan}
    (h : formFrame rule room left lead bytes = some f) : 1 ≤ f.payload.length ∧ f.payload.length ≤ max room 1 := by
  induction bytes generalizing room left lead f with
  | nil => simp [formFrame] at h
  | cons b bs ih =>
    simp only [formFrame] at h
    split at h
    · cases h; exact ⟨Nat.le_refl _, Nat.le_max_right ..⟩
    · split at h
      · cases h; exact ⟨Nat.le_refl _, Nat.le_max_right ..⟩
      · obtain ⟨g, hg, rfl⟩ := Option.map_eq_some_iff.1 h
        have := ih hg
        simp only [List.length_cons]
        omega

theorem nextFrame_payload {s : State} {p : PortId} {j : Job} {f : FramePlan} (h : s.nextFrame p j = some f) :
    1 ≤ f.payload.length ∧ f.payload.length ≤ 256 := by
  have hf := formFrame_payload h
  have : portFrameSize (s.portWord p) ≤ 256 := by
    have : bits (s.portWord p) 8 2 < 4 := Nat.mod_lt _ (by decide)
    unfold portFrameSize
    omega
  omega

end Sys2Proof.Machine
end

