-- ==== Sys2Proof/Laws/Posting.lean ====
section
/-! SUPPORT. What the time base does, and how the answered heads of the in-flight list are judged, said once. -/

namespace Sys2Proof.Machine

/-! ## The time base (R20, R31) -/

theorem tick_released {s : State} (h : s.resetAsserted = false) :
    s.tick = { s with milliseconds := s.milliseconds + 1, microseconds := 0 } := by
  simp [State.tick, h]

theorem tick_held {s : State} (h : s.resetAsserted = true) : s.tick = s := by
  simp [State.tick, h]

theorem idle_released {s : State} (h : s.resetAsserted = false) :
    s.idle = { s with microseconds := min (s.microseconds + 1) 999 } := by
  simp [State.idle, h]

theorem idle_held {s : State} (h : s.resetAsserted = true) : s.idle = s := by
  simp [State.idle, h]

/-- A microsecond changes the time base's reading and nothing else. -/
theorem idle_frame (s : State) : s.idle = { s with microseconds := s.idle.microseconds } := by
  unfold State.idle
  split <;> rfl

/-- With no request to take at the port's input, a step with no command waiting is a microsecond. -/
theorem unprompted_idle {s : State} (h : s.psp.accepting = false ∨ s.psp.held = []) : s.unprompted = s.idle := by
  rcases h with h | h <;> simp [State.unprompted, State.nextHeld, h]

theorem unprompted_held {s : State} {r : HostRequest} {rest : List HostRequest} (hopen : s.psp.accepting = true)
    (h : s.psp.held = r :: rest) : s.unprompted = s.takeHeld r := by
  simp [State.unprompted, State.nextHeld, hopen, h]

/-! ## Dispatch at an acceptance (R61, R65) -/

theorem dispatchAccepted_queued {s : State} {t : Slot} {m : Mirror} (h : (s.ticket t).state = .queued)
    (hm : (s.ticket t).mirror = some m) : s.dispatchAccepted t = s.dispatch m.port := by
  simp [State.dispatchAccepted, h, hm]

/-- A rejection is no dispatch event. -/
theorem dispatchAccepted_rejected {s : State} {t : Slot} (h : (s.ticket t).state ≠ .queued) :
    s.dispatchAccepted t = s := by
  unfold State.dispatchAccepted
  split
  · rename_i h' _; exact absurd h' h
  · rfl

/-! ## The heads of the in-flight list (R47) -/

@[simp] theorem judgeHeads_nil (s : State) : s.judgeHeads [] = s := rfl

/-- A head whose answer has not come is not judged. -/
theorem judgeHeads_unanswered {s : State} {x : InFlight} {xs : List InFlight} (h : x.answer = none) :
    s.judgeHeads (x :: xs) = s := by
  simp [State.judgeHeads, h]

/-- A head whose answer has come, with no answered head after it. -/
theorem judgeHeads_last {s : State} {t : Slot} {a : KeptAnswer} {xs : List InFlight}
    (h : ∀ y, xs.head? = some y → y.answer = none) :
    s.judgeHeads (⟨t, some a⟩ :: xs) = s.judgeHead t a xs := by
  cases xs with
  | nil => rfl
  | cons y ys =>
    have hy := h y rfl
    simp [State.judgeHeads, hy]

/-- A head whose answer has come, with an answered head after it: dispatch acts between the two. -/
theorem judgeHeads_next {s : State} {t u : Slot} {a b : KeptAnswer} {xs : List InFlight} :
    s.judgeHeads (⟨t, some a⟩ :: ⟨u, some b⟩ :: xs) =
      ((s.judgeHead t a (⟨u, some b⟩ :: xs)).dispatchAccepted t).judgeHeads (⟨u, some b⟩ :: xs) := by
  rw [State.judgeHeads]
  simp

end Sys2Proof.Machine
end

