-- ==== Sys2Proof/Laws/Requests.lean ====
section
/-! SUPPORT. Requests read word by word: their shape, the words a write touches, and what the classifier finds there. -/

namespace Sys2Proof.Machine

/-! ## Shape and lines (R1, R5) -/

theorem wellShaped_iff (addr : Addr) (size : Nat) :
    wellShaped addr size = true ↔ size ∈ [8, 16, 24, 32, 40, 48, 56, 64] ∧ addr.toNat % 8 = 0 := by
  simp only [wellShaped, Bool.and_eq_true, decide_eq_true_eq, beq_iff_eq, List.mem_cons, List.not_mem_nil, or_false]
  omega

theorem crossesLine_iff (a n : Nat) : crossesLine a n = true ↔ a / 64 ≠ (a + n - 1) / 64 := by
  simp [crossesLine]

theorem crossesLine_within {a n : Nat} (h : a % 64 + n ≤ 64) (h0 : 0 < n) : crossesLine a n = false := by
  rw [← Bool.not_eq_true, crossesLine_iff]
  omega

/-- A request all of whose bytes lie elsewhere has no substituted word. -/
theorem substituted_elsewhere {s : State} {a n : Nat} (h : s.inAnyPlace a n = false) :
    (wordAddrs a (n / 8)).map s.substituted = List.replicate (n / 8) none := by
  rw [List.eq_replicate_iff]
  refine ⟨by simp [wordAddrs], ?_⟩
  intro b hb
  simp only [List.mem_map] at hb
  obtain ⟨x, hx, rfl⟩ := hb
  simp only [State.inAnyPlace, List.any_eq_false] at h
  have e := h x hx
  simp only [bne_iff_ne, ne_eq, Decidable.not_not] at e
  simp [State.substituted, e]

/-! ## Touched words (R6) -/

theorem anyEnabled_iff (w : WriteRequest) : anyEnabled w = true ↔ ∃ i < w.size, w.enables[i]? = some true := by
  simp only [anyEnabled, List.any_eq_true, id, List.mem_iff_getElem?, List.getElem?_take]
  constructor
  · rintro ⟨x, ⟨i, hi⟩, hx⟩
    split at hi
    · exact ⟨i, by assumption, by rw [hi, hx]⟩
    · cases hi
  · rintro ⟨i, hi, hx⟩
    exact ⟨true, ⟨i, by rw [if_pos hi, hx]⟩, rfl⟩

theorem mem_wordWrites (k a : Nat) (es : List Bool) (ds : List Byte) (x : WordWrite) :
    x ∈ wordWrites k a es ds ↔
      ∃ i < k, x.addr = a + 8 * i ∧ x.enables = (es.drop (8 * i)).take 8 ∧ x.data = padTo 8 (ds.drop (8 * i)) := by
  induction k generalizing a es ds with
  | zero => simp [wordWrites]
  | succ k ih =>
    simp only [wordWrites, List.mem_cons, ih, List.drop_drop]
    constructor
    · rintro (h | ⟨i, hi, h1, h2, h3⟩)
      · subst h
        exact ⟨0, by omega, by simp, by simp, by simp⟩
      · exact ⟨i + 1, by omega, by omega, by rw [h2, Nat.mul_succ, Nat.add_comm],
          by rw [h3, Nat.mul_succ, Nat.add_comm]⟩
    · rintro ⟨i, hi, h1, h2, h3⟩
      cases i with
      | zero => left; obtain ⟨_, _, _⟩ := x; simp_all
      | succ i => exact .inr ⟨i, by omega, by omega, by rw [h2, Nat.mul_succ, Nat.add_comm],
          by rw [h3, Nat.mul_succ, Nat.add_comm]⟩

/-- The touched words, by their index in the write. -/
theorem exists_touched_iff (w : WriteRequest) (f : Nat → Prop) :
    (∃ x ∈ touchedWords w, f x.addr) ↔
      ∃ i < w.size / 8, (∃ j < 8, w.enables[8 * i + j]? = some true) ∧ f (w.addr.toNat + 8 * i) := by
  simp only [touchedWords, List.mem_filter, mem_wordWrites]
  constructor
  · rintro ⟨x, ⟨⟨i, hi, h1, h2, h3⟩, ht⟩, hf⟩
    refine ⟨i, hi, ?_, h1 ▸ hf⟩
    rw [WordWrite.isTouched, h2, List.any_eq_true] at ht
    obtain ⟨b, hb, hb'⟩ := ht
    obtain ⟨j, hj⟩ := List.mem_iff_getElem?.1 hb
    rw [List.getElem?_take] at hj
    split at hj
    · exact ⟨j, by assumption, by rw [List.getElem?_drop] at hj; rw [hj]; simpa using hb'⟩
    · cases hj
  · rintro ⟨i, hi, ⟨j, hj, he⟩, hf⟩
    refine ⟨⟨w.addr.toNat + 8 * i, (w.enables.drop (8 * i)).take 8, padTo 8 (w.data.drop (8 * i))⟩,
      ⟨⟨i, hi, rfl, rfl, rfl⟩, ?_⟩, hf⟩
    rw [WordWrite.isTouched, List.any_eq_true]
    exact ⟨true, List.mem_iff_getElem?.2 ⟨j, by rw [List.getElem?_take, if_pos hj, List.getElem?_drop, he]⟩, rfl⟩

/-- A test of the places of the touched words, by their index in the write. -/
theorem touchedPlaces_any (s : State) (w : WriteRequest) (f : Place → Bool) :
    (((touchedWords w).map fun x => s.placeOf x.addr).any f = true) ↔
      ∃ i < w.size / 8, (∃ j < 8, w.enables[8 * i + j]? = some true) ∧
        f (s.placeOf (w.addr.toNat + 8 * i)) = true := by
  rw [← exists_touched_iff w fun a => f (s.placeOf a) = true]
  simp [List.any_eq_true]

theorem isExactWord_iff (w : WriteRequest) : isExactWord w = true ↔ w.size = 8 ∧ w.enables = List.replicate 8 true := by
  simp [isExactWord]

/-! ## Writes of one setting word (R10, R24) -/

/-- A write of one setting word, with some byte enabled: taken by the control image, or refused as it judges. -/
theorem hostRequest_setting {s : State} {off : Nat} {loc : SettingLoc} {es : List Bool} {ds : List Byte} {tag : Tag}
    (ho : off < 65536) (ha : off % 8 = 0) (hl : controlPlace off = .setting loc) (hopen : s.psp.accepting = true) (hheld : s.psp.held = [])
    (hfree : s.record tag = none) (hes : es.length = 8) (hen : true ∈ es) (hds : ds.length = 8) :
    s.hostRequest (.write (s.settingRequest ⟨BitVec.ofNat 16 off, 8, es, ds, tag⟩)) =
      let w := s.settingRequest ⟨BitVec.ofNat 16 off, 8, es, ds, tag⟩
      match s.judgeSettings [⟨loc, es, ds⟩] with
      | some reason => s.refuse w reason
      | none => (s.capture [⟨loc, es, ds⟩]).forwardWrite w := by
  have hb := controlBase_le s
  have hm := controlBase_mod s
  have hoff : (BitVec.ofNat 16 off).toNat = off := by rw [BitVec.toNat_ofNat, Nat.mod_eq_of_lt ho]
  have hw : s.settingRequest ⟨BitVec.ofNat 16 off, 8, es, ds, tag⟩ =
      ⟨BitVec.ofNat 36 (s.controlBase + off), 8, es, ds, tag⟩ := by
    simp only [State.settingRequest, hoff]
  have hto : (BitVec.ofNat 36 (s.controlBase + off)).toNat = s.controlBase + off := addr_toNat (by omega)
  have hpad : padTo 8 ds = ds := by
    rw [padTo, List.take_append_of_le_length (by omega), List.take_of_length_le (by omega)]
  have htake : es.take 8 = es := List.take_of_length_le (by omega)
  have hany : es.any id = true := List.any_eq_true.2 ⟨true, hen, rfl⟩
  have ht : touchedWords ⟨BitVec.ofNat 36 (s.controlBase + off), 8, es, ds, tag⟩ = [⟨s.controlBase + off, es, ds⟩] := by
    simp only [touchedWords, hto]
    simp [wordWrites, WordWrite.isTouched, htake, hany, hpad]
  have hp : s.placeOf (s.controlBase + off) = .setting loc := by rw [placeOf_control s ho, hl]
  have hparts : s.settingParts ⟨BitVec.ofNat 36 (s.controlBase + off), 8, es, ds, tag⟩ = [⟨loc, es, ds⟩] := by
    rw [State.settingParts, ht]
    simp [hp]
  have hj : s.judgeWrite ⟨BitVec.ofNat 36 (s.controlBase + off), 8, es, ds, tag⟩ =
      s.judgeSettings [⟨loc, es, ds⟩] := by
    unfold State.judgeWrite
    rw [ht, hparts]
    simp [hp, Place.isAbsorbed, Place.isReadOnly, State.fieldLocked, State.guarded]
  have hs : wellShaped (BitVec.ofNat 36 (s.controlBase + off)) 8 = true :=
    (wellShaped_iff _ _).2 ⟨by decide, by rw [hto]; omega⟩
  have hc : crossesLine (BitVec.ofNat 36 (s.controlBase + off)).toNat 8 = false := by
    rw [hto]; exact crossesLine_within (by omega) (by decide)
  have hae : anyEnabled ⟨BitVec.ofNat 36 (s.controlBase + off), 8, es, ds, tag⟩ = true := by
    simp [anyEnabled, htake, hany]
  rw [hw, hostRequest_write hopen hheld hs hfree hc hae, State.classifyWrite, hj]
  cases hjs : s.judgeSettings [⟨loc, es, ds⟩] with
  | some reason => rfl
  | none =>
    simp only
    unfold State.proceed
    rw [ht, hparts]
    simp [hp]

/-- A forwarded write within a line leaves its record and its memory request (R15). -/
theorem forwardWrite_within {s : State} {w : WriteRequest} (h : crossesLine w.addr.toNat w.size = false) :
    s.forwardWrite w =
      { s with
        psp := { s.psp with records := tset s.psp.records w.tag (some ⟨true, w.addr, w.size, [], .whole⟩) }
        msp := { s.msp with waiting := s.msp.waiting ++
          [⟨.passing w.tag .whole, true, w.addr.toNat, w.size, w.enables, w.data⟩] } } := by
  simp [State.forwardWrite, State.pass, h, partsFor, State.setRecord, State.enqueue, State.modMsp]

/-- Forwarding a write looks at nothing that settling touches. -/
theorem still_forwardWrite {s t : State} {w : WriteRequest} (hw : crossesLine w.addr.toNat w.size = false)
    (h : t.still = s.still) : (t.forwardWrite w).still = (s.forwardWrite w).still := by
  have hwait : t.msp.still = s.msp.still := congrArg (fun x => x.msp) h
  have e (x : State) (hx : crossesLine w.addr.toNat w.size = false) : (x.forwardWrite w).still = { x.still with
      psp := { x.psp with records := tset x.psp.records w.tag (some ⟨true, w.addr, w.size, [], .whole⟩) }
      msp := { x.msp.still with waiting := x.msp.still.waiting ++
        [⟨.passing w.tag .whole, true, w.addr.toNat, w.size, w.enables, w.data⟩] } } := by
    rw [forwardWrite_within hx]
    simp [State.still, Msp.still, Owner.isLineFetch]
  rw [e t hw, e s hw, hwait, State.psp_of_still h, h]

theorem judged_forwardWrite (s : State) {w : WriteRequest} (h : crossesLine w.addr.toNat w.size = false) (p : PortId) :
    (s.forwardWrite w).judged p = s.judged p := by
  rw [forwardWrite_within h]
  rfl

theorem port_forwardWrite (s : State) {w : WriteRequest} (h : crossesLine w.addr.toNat w.size = false) (p : PortId) :
    (s.forwardWrite w).port p = s.port p := by
  rw [forwardWrite_within h]
  rfl

/-! ## Reads answered at once (R13) -/

/-- A read of whole words within a line, each of which the part gives, is answered with their values. -/
theorem takeRead_shown {s : State} {tag : Tag} {addr n : Nat} {vs : List (List Byte)} (hfree : s.record tag = none)
    (ha : addr % 8 = 0) (hl : addr % 64 + 8 * n ≤ 64) (h0 : 0 < n) (hb : addr < 2 ^ 36)
    (hv : (wordAddrs addr n).map s.substituted = vs.map some) :
    s.takeRead ⟨BitVec.ofNat 36 addr, 8 * n, tag⟩ = s.emit (.data tag true vs.flatten) := by
  have hn : (BitVec.ofNat 36 addr).toNat = addr := addr_toNat hb
  have hsh : wellShaped (BitVec.ofNat 36 addr) (8 * n) = true := by
    rw [wellShaped_iff, hn]
    refine ⟨?_, ha⟩
    have : n ≤ 8 := by omega
    interval_cases n <;> simp
  have hcl : crossesLine addr (8 * n) = false := crossesLine_within hl (by omega)
  have hflat : ((vs.map some).flatMap fun x => x.getD []) = vs.flatten := by simp [List.flatMap_map, List.flatMap_id']
  simp only [State.takeRead, hsh, hfree, hn, hcl, State.classifyRead, Nat.mul_div_cancel_left n (by decide : 0 < 8), hv]
  simp [hflat]

end Sys2Proof.Machine
end

