-- ==== Sys2Proof/Laws/Settings.lean ====
section
/-! SUPPORT. The judgement of a write that touches one setting word, step by step, and the tests it is made of. -/

namespace Sys2Proof.Machine

theorem Image.get_put (im : Image) (loc : SettingLoc) (v : Word) : (im.put loc v).get loc = v := by
  cases loc <;> simp [Image.put, Image.get]

/-! ## Locks (R80, R85, R87, R130, R165) -/

theorem anyTicket_iff (s : State) (f : Ticket → Bool) : s.anyTicket f = true ↔ ∃ t : Slot, f (s.ticket t) = true := by
  simp only [State.anyTicket, List.any_eq_true, State.ticket, tget]
  constructor
  · rintro ⟨y, hy, hf⟩
    obtain ⟨i, hi, rfl⟩ := List.getElem_of_mem hy
    exact ⟨⟨i, by simpa using hi⟩, by simpa using hf⟩
  · rintro ⟨t, ht⟩
    exact ⟨_, by simp, ht⟩

theorem TicketState.inUse_iff (x : TicketState) :
    x.inUse = true ↔ x = .queued ∨ x = .active ∨ x = .draining ∨ x = .cancelling ∨ x = .failing := by
  cases x <;> simp [TicketState.inUse]

theorem unguarded_iff (s : State) : s.unguarded = true ↔ ∀ b, s.guard b = 0 := by
  simp only [State.unguarded, List.all_eq_true, beq_iff_eq, State.guard, tget]
  constructor
  · intro h b
    exact h _ (by simp)
  · intro h y hy
    obtain ⟨i, hi, rfl⟩ := List.getElem_of_mem hy
    simpa using h ⟨i, by simpa using hi⟩

/-! ## Overlap (R28) -/

theorem pairwiseApart_iff (l : List Extent) :
    pairwiseApart l = true ↔
      l.Pairwise fun a b => a.first + a.length ≤ b.first ∨ b.first + b.length ≤ a.first := by
  induction l with
  | nil => simp [pairwiseApart]
  | cons e es ih =>
    simp only [pairwiseApart, Bool.and_eq_true, ih, List.pairwise_cons, List.all_eq_true]
    refine and_congr_left fun _ => forall_congr' fun b => forall_congr' fun hb => ?_
    rw [Bool.not_eq_true', ← Bool.not_eq_true, Extent.overlaps_iff]
    omega

theorem overlapDue_one_none {old new : Image} {x : SettingPart} (h : x.loc.placesExtent = false) :
    overlapDue old new [x] = false := by
  obtain ⟨loc, es, ds⟩ := x
  cases loc <;> simp_all [overlapDue, touchesRing, SettingLoc.placesExtent]

theorem touchesConsume_one_none {x : SettingPart} (h : x.loc ≠ .consume) : touchesConsume [x] = false := by
  simp [touchesConsume, h]

theorem writesConsume_one_none {x : SettingPart} (h : true ∉ x.enables.take 2) : writesConsume [x] = false := by
  simp_all [writesConsume]

theorem touchesRing_one_none {x : SettingPart} (h : x.loc ≠ .ring) : touchesRing [x] = false := by
  simp [touchesRing, h]

/-! ## The judgement (R24) -/

theorem judgeSettings_one (s : State) (x : SettingPart) :
    s.judgeSettings [x] =
      if s.isLocked (s.image.put x.loc (mergeWord (s.image.get x.loc) x.enables x.data)) x.loc = true then some .locked
      else if s.settingsValid (s.image.put x.loc (mergeWord (s.image.get x.loc) x.enables x.data)) [x] = true then none
      else some .range := by
  simp only [State.judgeSettings, List.any_cons, List.any_nil, Bool.or_false]
  rfl

theorem settingsValid_one (s : State) (new : Image) (x : SettingPart) :
    s.settingsValid new [x] = (partInRange s.image new x &&
      (!overlapDue s.image new [x] || s.extentsApart new (touchesRing [x] || s.relay.ringState != .unset)) &&
      (!touchesConsume [x] || s.consumeAccepted new (touchesRing [x]))) := by
  simp [State.settingsValid]

/-- A write of one setting word that is unlocked, in range and clear of overlaps is not refused. -/
theorem judgeSettings_accepted {s : State} {x : SettingPart} {v : Word}
    (hv : v = mergeWord (s.image.get x.loc) x.enables x.data)
    (hlock : s.isLocked (s.image.put x.loc v) x.loc = false)
    (hunused : unusedZero x.loc v = true) (hrange : inRange x.loc v = true)
    (hover : overlapDue s.image (s.image.put x.loc v) [x] = true →
      s.extentsApart (s.image.put x.loc v) (touchesRing [x] || s.relay.ringState != .unset) = true)
    (hcons : touchesConsume [x] = true → s.consumeAccepted (s.image.put x.loc v) (touchesRing [x]) = true) :
    s.judgeSettings [x] = none := by
  subst hv
  rw [judgeSettings_one, if_neg (by rw [hlock]; decide), if_pos]
  rw [settingsValid_one]
  simp only [Bool.and_eq_true]
  refine ⟨⟨?_, ?_⟩, ?_⟩
  · simp only [partInRange, Image.get_put, hunused, hrange]
    simp
  · rw [Bool.or_eq_true, Bool.not_eq_true', or_iff_not_imp_left, Bool.not_eq_false]
    exact hover
  · rw [Bool.or_eq_true, Bool.not_eq_true', or_iff_not_imp_left, Bool.not_eq_false]
    exact hcons

end Sys2Proof.Machine
end

