-- ==== Sys2Proof/WellFormed.lean ====
section
/-! DEFINITION. What the table asks of a row's operands: a write carries one enable and one byte per byte of its size (R1),
a row that is a write of one kind touches what its kind names (R185, R188), a frame row carries a frame of its kind
(R194, R196), an answer carries at most a line. -/

namespace Sys2Proof.Machine

/-- One byte enable and one data byte per byte of the size (R1). -/
def bytesMatch (size : Nat) (enables : List Bool) (data : List Byte) : Bool :=
  enables.length == size && data.length == size

/-- The offsets of the bytes a control-page write enables. -/
def enabledOffsets (w : SettingWrite) : List Nat :=
  ((List.range w.size).filter fun i => w.enables.getD i false).map fun i => w.offset.toNat + i

/-- The write enables a byte between two offsets, the second left out (R185). -/
def writesWithin (w : SettingWrite) (lo hi : Nat) : Bool :=
  (enabledOffsets w).any fun o => decide (lo ≤ o ∧ o < hi)

/-- The byte a write puts at an offset, where it enables one. -/
def writtenAt (w : SettingWrite) (o : Nat) : Option Byte :=
  if o ∈ enabledOffsets w then some (w.data.getD (o - w.offset.toNat) 0) else none

/-- The write puts a byte with bit 0 at a value in the first byte of some port's setting word (R185, R188). -/
def writesEnable (w : SettingWrite) (b : Bool) : Bool :=
  allPorts.any fun p => (writtenAt w (0x200 + 64 * p.val)).any fun x => x.getLsbD 0 == b

/-- A write of one kind is of its kind. -/
def settingWf (w : SettingWrite) (kind : Bool) : Bool := bytesMatch w.size w.enables w.data && kind

/-- A memory answer brings no more than a line. -/
def answerWf (a : MemoryAnswer) : Bool := decide (a.data.length ≤ 64)

end Sys2Proof.Machine

namespace Sys2Proof

open Machine in
/-- A row's operands are of the row's kind. -/
def Instr.wf : Instr → Bool
  | .write w => bytesMatch w.size w.enables w.data
  | .windowSettingWrite w => settingWf w (writesWithin w 0x100 0x118)
  | .ringRestart w => settingWf w (writesWithin w 0x140 0x146)
  | .consumeIndexWrite w => settingWf w (writesWithin w 0x148 0x14A)
  | .portEnable w => settingWf w (writesEnable w true)
  | .portDisable w => settingWf w (writesEnable w false)
  | .portSettingWrite w => settingWf w (writesWithin w 0x200 0x600)
  | .accountSettingWrite w => settingWf w (writesWithin w 0x600 0x800)
  | .passingResponse a | .ticketFetchAnswer a | .lineFetchAnswer a => answerWf a
  | .trainAck _ n => decide (1 ≤ n.toNat ∧ n.toNat ≤ 32)
  | .badFrame _ bytes => judgeFrame bytes == .bad
  | _ => true

end Sys2Proof
end

