-- ==== Sys2Proof/Tests/Slice0.lean ====
section
/-! SUPPORT. Small checks of the model: the spec's own numbers and examples, an ill-formed term for each check of
WellFormed, and for every obligation with hypotheses states and operands that meet them, clause by clause. -/

namespace Sys2Proof.Tests

set_option Elab.async false

open Sys2Proof Sys2Proof.Machine

/-! ## The spec's own numbers -/

/-- R184: the CRC of the characters "123456789" is 0x29B1. -/
theorem test_crcOfTheNineDigits : crc [0x31, 0x32, 0x33, 0x34, 0x35, 0x36, 0x37, 0x38, 0x39] = 0x29B1#16 := by decide +kernel

/-- R184: the same by the bit-by-bit register, and the two bytes that follow on the wire. -/
theorem test_crcRegister :
    let digits : List Byte := [0x31, 0x32, 0x33, 0x34, 0x35, 0x36, 0x37, 0x38, 0x39]
    crcRegister digits 72 = 0x29B1#16 ∧ checkBytes digits = [0xB1, 0x29] ∧ crcRegister [] 0 = 0xFFFF#16 := by
  decide +kernel

/-- R194: a STATUS with ONLINE and JAM_PATH and one sheet begins 0x83, 0x11, 0x00, 0x01. -/
theorem test_statusBytes : (statusBytes 0x0011#16 1).take 4 = [0x83, 0x11, 0x00, 0x01] := by decide +kernel

/-- R99: with lead and mark byte 0x1B, the bytes 0x1B 0x1B 0x1B end a page at the second byte. -/
theorem test_markSearch : formFrame (some ⟨0x1B, 0x1B, 0⟩) 64 3 false [0x1B, 0x1B, 0x1B] =
    some ⟨[0x1B, 0x1B], true, false, false⟩ := by decide +kernel

/-- 11, the example: the bytes that set port 4. -/
theorem test_portWordFields :
    let w := wordOfBytes [0x01, 0x01, 0x02, 0x01, 0x14, 0x3C, 0x03, 0x00]
    settingAt 0x0300 = some (.port 4) ∧ portOn w = true ∧ portFrameSize w = 128 ∧ portProfile w = 2 ∧
      portMode w = .operator ∧ portSilenceMs w = 200 ∧ portIdleMs w = 60000 ∧ portWarmMs w = 4000 ∧
      portWakeOnStatus w = false ∧ inRange (.port 4) w = true ∧ unusedZero (.port 4) w = true := by decide +kernel

/-- The requests of 01's grant example. -/
def grantExample : Msp where
  waiting := (List.range 7).map (fun i => ⟨.passing (Fin.ofNat 64 i) .whole, false, 64 * i, 8, [], []⟩) ++
    [⟨.record false, true, 0x1000, 32, [], []⟩, ⟨.lineFetch 3 .current 1 0, false, 0x2000, 64, [], []⟩,
      ⟨.lineFetch 7 .current 1 0, false, 0x3000, 64, [], []⟩]
  outstanding := []
  nextGrant := 0
  runCount := 0
  lastEngine := 15

/-- What is granted in turn, with the run count after each grant. -/
def grantsOf : Nat → Msp → List (Nat × Nat)
  | 0, _ => []
  | n + 1, m =>
    match m.choice with
    | none => []
    | some r => (r.addr, (m.granted r).runCount) :: grantsOf n (m.granted r)

/-- 01, the example: ten grants. -/
theorem test_grantSequence : grantsOf 11 grantExample =
    [(0, 1), (64, 2), (128, 3), (192, 4), (0x1000, 0), (256, 1), (320, 2), (384, 3), (0x2000, 0), (0x3000, 0)] := by
  decide +kernel

/-! ## Small states -/

/-- A part out of reset with its port open. -/
def up : State := { State.reset with
  resetAsserted := false, anchor := 0x10#8, sweep := ⟨28, 28, false⟩, psp := { State.reset.psp with accepting := true } }

/-- Windows, ring, port 1 and accounts 0 (NONE), 1 (HOLD) and 2 (RELOAD by 3) set. -/
def settings : Image :=
  (((((((defaultImage.put .ticketWindow 0x0100000000300000#64).put .meterWindow 0x0100000000302000#64).put
    .spoolWindow 0x0100000400000000#64).put .ring 0x0000000000200000#64).put (.port 1) 0x0002013200000301#64).put
    (.account 0) 0x0000000100000001#64).put (.account 1) 0x0000000100000101#64).put (.account 2) 0x0000000300000201#64

def running : State := { up with
  image := settings, ctl := { up.ctl with global := .running }, relay := { up.relay with ringState := .running }
  accounts := tset up.accounts 2 { Account.reset with remaining := 1 } }

def mirror : Mirror := ⟨0x400000000, 100, 2, 7, false, true, 1, 1, 9⟩

def ticketIn (st : TicketState) : Ticket := { Ticket.reset with state := st, mirror := some mirror }

/-- The job of ticket 7 with its first line buffered. -/
def job : Job := ⟨7, 0x400000000, 100, 2, 1, none, 1, 1, 0, 0, [⟨1, 0, List.replicate 64 0⟩, ⟨1, 64, List.replicate 36 0⟩],
  some ⟨2, 0⟩, false⟩

def readyLink : Link := { Link.reset with state := .ready, credits := 32, silence := .running 0 0 500 }

/-- Port 1 READY with five credits. -/
def linked : State := running.modPort 1 fun x => { x with link := readyLink }

/-- Ticket 7 in hand at port 1, account 1 with headroom 1. -/
def sending : State :=
  ((linked.setTicket 7 { ticketIn .active with sending := true, copy := 1, page := 1 }).modAccount 1 fun a =>
    { a with remaining := 1 }).modEngine 1 fun e => { e with state := .sending, job := some job }

def openEntry : Entry := ⟨7, 1, 1, 1, 0, .opened⟩

/-- The same with its page open. -/
def pageOpen : State :=
  ((sending.setPages 1 [openEntry]).modTicket 7 fun t => { t with entryCount := 1 }).modAccount 1 fun a =>
    { a with reserved := 1 }

/-- Ticket 7 QUEUED at port 1. -/
def queued : State := (linked.setTicket 7 (ticketIn .queued)).setQueue 1 [⟨7, .normal⟩]

def withGrant (s : State) (r : MemRequest) : State := { s with msp := { s.msp with outstanding := [⟨0, r⟩] } }

def cmd (code : Byte) (argument value : Nat) : CommandWrite :=
  ⟨~~~code, BitVec.ofNat 8 argument, 0, BitVec.ofNat 32 value, 0⟩

def post (code : Byte) : PostWrite := ⟨7, ~~~code, 0, 0⟩

def word (w : Word) : WordBytes := ⟨List.replicate 8 true, wordBytes w, 0⟩

def bytesIn (addr size : Nat) (enables : List Bool) : WriteRequest :=
  ⟨BitVec.ofNat 36 addr, size, enables, List.replicate size 0, 0⟩

def allOn (n : Nat) : List Bool := List.replicate n true

/-! ## WellFormed: an ill-formed term for each check -/

theorem test_wf_bytesMatch : (Instr.write (bytesIn 0 8 (allOn 7))).wf = false := by decide
theorem test_wf_windowSetting : (Instr.windowSettingWrite ⟨0x118, 8, allOn 8, wordBytes 0, 0⟩).wf = false := by decide +kernel
theorem test_wf_ringRestart : (Instr.ringRestart ⟨0x146, 2, [true, true], [0, 0], 0⟩).wf = false := by decide +kernel
theorem test_wf_consumeIndex : (Instr.consumeIndexWrite ⟨0x148, 8, [false, false, true, true, true, true, true, true],
    wordBytes 0, 0⟩).wf = false := by decide +kernel
theorem test_wf_portEnable : (Instr.portEnable ⟨0x200, 8, allOn 8, wordBytes 0, 0⟩).wf = false := by decide +kernel
theorem test_wf_portDisable : (Instr.portDisable ⟨0x200, 8, allOn 8, wordBytes 1, 0⟩).wf = false := by decide +kernel
theorem test_wf_portSetting : (Instr.portSettingWrite ⟨0x600, 8, allOn 8, wordBytes 0, 0⟩).wf = false := by decide +kernel
theorem test_wf_accountSetting : (Instr.accountSettingWrite ⟨0x5F8, 8, allOn 8, wordBytes 0, 0⟩).wf = false := by
  decide +kernel
theorem test_wf_answer : (Instr.lineFetchAnswer ⟨0, true, List.replicate 65 0⟩).wf = false := by decide +kernel
theorem test_wf_trainAckLow : (Instr.trainAck 0 0).wf = false := by decide
theorem test_wf_trainAckHigh : (Instr.trainAck 0 33).wf = false := by decide
theorem test_wf_badFrame : (Instr.badFrame 0 (creditBytes 3)).wf = false := by decide +kernel
theorem test_wf_wellFormed : (Instr.portEnable ⟨0x300, 8, allOn 8, [0x01, 0x01, 0x02, 0x01, 0x14, 0x3C, 0x03, 0x00], 0⟩).wf =
    true := by decide +kernel

/-! ## What meets each obligation's hypotheses -/

theorem test_meets_ReleaseStartsTheSweep :
    (State.reset.resetAsserted = true ∧ State.reset.sweep.presented = 0) ∧ up.resetAsserted = false ∧
      0x100 ∈ sweepLines ∧ 0x7C0 ∈ sweepLines := by decide +kernel

def sweepWrite : MemRequest := up.sweepRequest 0x7C0

/-- The last sweep write outstanding, `n` answered. -/
def sweeping (n : Nat) : State :=
  withGrant { up with psp := State.reset.psp, sweep := ⟨28, n, false⟩ } sweepWrite

theorem test_meets_SweepAnswersOpenThePort : ∀ n, (sweeping n).awaits ⟨0, sweepWrite⟩ [] ∧ sweepWrite.owner = .sweep ∧
    ((sweeping 26).sweep.answered + 1 ≠ 28 ∧ (sweeping 27).sweep.answered + 1 = 28) :=
  fun _ => ⟨⟨[], [], rfl, rfl, by simp⟩, rfl, by decide⟩

/-- A ring write at the default image, and two writes of the status block. -/
def ringThenRefusals : List HostRequest :=
  let bad : HostRequest := .write ⟨0x100040, 8, List.replicate 8 true, List.replicate 8 0, 1⟩
  [.write ⟨0x100140, 8, List.replicate 8 true, wordBytes 0x200000#64, 0⟩, bad, bad]

/-- The port just opened on requests held. -/
def opened : State := up.setHeld ringThenRefusals

theorem test_meets_SweepAnswersOpenThePort_held :
    opened.pending = [] ∧ opened.psp.accepting = true ∧ ∃ r rest, opened.psp.held = r :: rest :=
  ⟨rfl, rfl, _, _, rfl⟩

/-- The state some steps on, each with a command put in front or none. -/
def stepsOn : List (Option Instr) → State → Option State
  | [], s => some s
  | c :: cs, s =>
    match step { s with pending := c.toList } with
    | .next t => stepsOn cs t
    | _ => none

/-- R175: the pick falls at the first raise, between two held requests, and the second raise forms a latch of its own. -/
theorem test_aPickFallsBetweenHeldRequests :
    (match stepsOn [none, none, some .recordWritePick, none] opened with
      | some t => t.relay.inFlight.map Latch.occurrences == some 1 && t.relay.backlog.map Latch.occurrences == [1] &&
          t.psp.held == []
      | none => false) = true := by decide +kernel

/-- Port 1's engine within a pacing window of 2001 µs begun at 0, at a reading of the time base. -/
def pacing (ms us : Nat) : State :=
  { sending.modEngine 1 fun e => { e with pacer := some ⟨0, 0, 2001, 3, 3⟩ } with
    milliseconds := BitVec.ofNat 32 ms, microseconds := us }

theorem test_meets_TheTimeBaseRuns :
    (up.resetAsserted = false ∧ State.reset.resetAsserted = true) ∧
      ((up.pending = [] ∧ State.reset.pending = []) ∧ up.psp.held = [] ∧ State.reset.psp.held = []) ∧
      (∀ ms us, ((pacing ms us).port 1).engine.pacer = some ⟨0, 0, 2001, 3, 3⟩) ∧
      2001 ≤ 1000 * ((pacing 2 0).milliseconds - 0).toNat + (pacing 2 0).microseconds - 0 + 1 ∧
      1000 * ((pacing 1 999).milliseconds - 0).toNat + (pacing 1 999).microseconds - 0 + 1 < 2001 := by
  refine ⟨by decide, by decide, fun ms us => ?_, by decide +kernel, by decide +kernel⟩
  exact (by decide +kernel : ((sending.modEngine 1 fun e => { e with pacer := some ⟨0, 0, 2001, 3, 3⟩ }).port 1).engine.pacer =
    some ⟨0, 0, 2001, 3, 3⟩)

/-- The microseconds after a step. -/
def microsecondsAfter (s : State) : Option Nat :=
  match step s with
  | .next t => some t.microseconds
  | _ => none

/-- R31: a microsecond passes with no command waiting, and none while RESET_N is asserted. -/
theorem test_aMicrosecondPasses :
    microsecondsAfter up = some 1 ∧ microsecondsAfter { up with microseconds := 999 } = some 999 ∧
      microsecondsAfter { up with microseconds := 999, pending := [.millisecondCountTick] } = some 0 ∧
      microsecondsAfter State.reset = some 0 := by decide +kernel

/-- A request of the tag 0 outstanding. -/
def busy : State := up.setRecord 0 (some ⟨false, 0, 8, [], .whole⟩)

theorem test_meets_RequestsAreStoppedHeldOrSplit :
    up.atHand ∧ ¬(72 ∈ [8, 16, 24, 32, 40, 48, 56, 64] ∧ (0 : Addr).toNat % 8 = 0) ∧
      (busy.atHand ∧ busy.record 0 ≠ none) ∧
      ((0x100038 : Addr).toNat / 64 ≠ ((0x100038 : Addr).toNat + 16 - 1) / 64 ∧ up.inAnyPlace 0x100038 16 = true) ∧
      (¬State.reset.atHand ∧ ¬opened.atHand) ∧ up.canTake 0 ∧ (16 ∈ [8, 16, 24, 32, 40, 48, 56, 64]) ∧
      (0x500038 : Addr).toNat % 8 = 0 ∧ 64 < (0x500038 : Addr).toNat % 64 + 16 ∧
      up.inAnyPlace (0x500038 : Addr).toNat 16 = false ∧
      ∃ i < (bytesIn 0x500038 16 (allOn 16)).size, (bytesIn 0x500038 16 (allOn 16)).enables[i]? = some true := by
  unfold State.canTake State.atHand
  refine ⟨?_, ?_, ?_, ?_, ?_, ?_, ?_, ?_, ?_, ?_, 0, ?_, ?_⟩ <;> decide +kernel

theorem test_meets_ControlPageReadsShowTheState : up.canTake 0 ∧ up.canTake 63 := by
  unfold State.canTake State.atHand
  decide +kernel

theorem test_meets_ReadsShowTicketsAndMeters :
    running.canTake 0 ∧ windowOn running.image.ticketWindow = true ∧ baseOf running.image.ticketWindow % 8192 = 0 ∧
      running.anchor.toNat * 65536 + 65536 ≤ baseOf running.image.ticketWindow ∧
      windowOn running.image.meterWindow = true ∧ baseOf running.image.meterWindow % 4096 = 0 ∧
      running.anchor.toNat * 65536 + 65536 ≤ baseOf running.image.meterWindow ∧
      baseOf running.image.ticketWindow + 8192 ≤ baseOf running.image.meterWindow := by
  unfold State.canTake State.atHand
  decide +kernel

/-- The words a read of `size` bytes at an address takes from the part. -/
def takenWords (s : State) (addr size : Nat) : List (Option (List Byte)) :=
  (List.range (size / 8)).map fun i => s.substituted (addr + 8 * i)

theorem test_meets_ReadsAreAnsweredOrForwarded :
    running.canTake 0 ∧ (shapedInLine 0x302000 64 ∧ none ∉ takenWords running 0x302000 64) ∧
      shapedInLine 0x300140 64 ∧ none ∈ takenWords running 0x300140 64 := by
  unfold State.canTake State.atHand shapedInLine
  decide +kernel

theorem test_meets_PlainWritesPass :
    running.canTake 0 ∧ shapedInLine (BitVec.ofNat 36 0x300000) 8 ∧
      (∃ i < 8, (allOn 8)[i]? = some true) ∧ running.placeOf 0x300000 = .fieldWord 0 ∧ (running.ticket 0).state = .free ∧
      (running.placeOf 0x400000000 = .spool 0 ∧ running.guard 0 = 0) ∧ running.placeOf 0x100800 = .plain ∧
      running.placeOf 0x500000 = .elsewhere ∧ (∀ i < 8, (List.replicate 8 false)[i]? ≠ some true) ∧
      (word 0).given ∧ (∀ n, (word 0x00000000000F0C1B#64).result running (.markRule n) &&& ~~~(fieldMask (.markRule n)) = 0) ∧
      ∀ n, (word 0x0000000000050140#64).result running (.pacing n) &&& ~~~(fieldMask (.pacing n)) = 0 ∧
        ¬outOfRange ((word 0x0000000000050140#64).result running (.pacing n)) (.pacing n) := by
  unfold State.canTake State.atHand shapedInLine WordBytes.given outOfRange
  refine ⟨?_, ?_, ⟨0, ?_, ?_⟩, ?_, ?_, ?_, ?_, ?_, ?_, ?_, ?_, ?_⟩ <;> decide +kernel

theorem running_windowsSound : running.windowsSound := by
  refine ⟨fun loc h => ?_, by unfold State.apart; decide +kernel⟩
  simp only [List.mem_cons, List.not_mem_nil, or_false] at h
  rcases h with rfl | rfl | rfl
  all_goals
    unfold outOfRange
    decide +kernel

/-- R6: reads of setting words, field words, the spool window, plain words and words elsewhere, and of a window not enabled. -/
theorem test_meets_ReadsAreAnsweredOrForwarded_passing :
    (shapedInLine 0x100180 32 ∧ ∀ i < 4, (running.placeOf (0x100180 + 8 * i)).readPasses) ∧
      (shapedInLine 0x301FF0 8 ∧ (running.placeOf 0x301FF0).readPasses) ∧
      (shapedInLine 0x403FFFFC0 64 ∧ ∀ i < 8, (running.placeOf (0x403FFFFC0 + 8 * i)).readPasses) ∧
      (running.placeOf 0x10FFF8).readPasses ∧ (running.placeOf 0x404000000).readPasses ∧
      (running.placeOf 0x302000 = .meter 0 ∧ (up.placeOf 0x302000).readPasses) := by
  unfold shapedInLine
  refine ⟨⟨by decide +kernel, fun i hi => ?_⟩, ⟨by decide +kernel, ?_⟩, ⟨by decide +kernel, fun i hi => ?_⟩, ?_, ?_,
    by decide +kernel, ?_⟩
  · rw [(by decide +kernel : ∀ i < 4, running.placeOf (0x100180 + 8 * i) = .setting (.markRule (Fin.ofNat 4 i))) i hi]
    trivial
  · rw [(by decide +kernel : running.placeOf 0x301FF0 = .fieldWord 255)]
    trivial
  · rw [(by decide +kernel : ∀ i < 8, running.placeOf (0x403FFFFC0 + 8 * i) = .spool 4095) i hi]
    trivial
  · rw [(by decide +kernel : running.placeOf 0x10FFF8 = .plain)]
    trivial
  · rw [(by decide +kernel : running.placeOf 0x404000000 = .elsewhere)]
    trivial
  · rw [(by decide +kernel : up.placeOf 0x302000 = .elsewhere)]
    trivial

/-- R6, R185: the first and last words the part gives, and the words beside them. -/
theorem test_meets_ReadsAreAnsweredOrForwarded_byAddress :
    running.windowsSound ∧
      (∀ a ∈ [0x100000, 0x100040, 0x100058, 0x300018, 0x301FF8, 0x302000, 0x302FF8], running.substituted a ≠ none) ∧
      ∀ a ∈ [0xFFFF8, 0x100008, 0x100038, 0x100060, 0x100100, 0x300000, 0x300010, 0x301FF0, 0x303000, 0x400000000],
        running.substituted a = none :=
  ⟨running_windowsSound, by decide +kernel, by decide +kernel⟩

theorem test_meets_PlainWritesPass_byAddress :
    running.windowsSound ∧ (running.blockBytes = 16384 ∧ inWindow running.image.spoolWindow (4096 * 16384) 0x400000000 ∧
      inWindow running.image.spoolWindow (4096 * 16384) 0x403FFFFF8 ∧ (0x403FFFFF8 - 0x400000000) / 16384 = 4095 ∧
      running.guard 4095 = 0) ∧
      (0x301FF0 = baseOf running.image.ticketWindow + 32 * 255 + 8 * 2 ∧ (running.ticket 255).state = .free) ∧
      ¬running.inPlace 0x303000 ∧ ¬running.inPlace 0x404000000 ∧ running.inPlace 0x10FFF8 := by
  unfold State.inPlace inWindow
  exact ⟨running_windowsSound, by decide +kernel⟩

/-- Ticket 0 QUEUED and block 0 guarded. -/
def guarded : State := (running.setTicket 0 (ticketIn .queued)).guardRise mirror

theorem test_meets_RefusedWritesChangeNothing :
    guarded.canTake 0 ∧ shapedInLine 0x100000 16 ∧ guarded.placeOf 0x100000 = .commandWord ∧
      guarded.placeOf (0x100000 + 8) = .plain ∧ guarded.placeOf 0x300018 = .postWord 0 ∧
      (guarded.placeOf 0x100040 = .statusBlock 0 ∧ guarded.placeOf 0x302000 = .meter 0) ∧
      (guarded.placeOf 0x300000 = .fieldWord 0 ∧ (guarded.ticket 0).state ≠ .free) ∧
      guarded.placeOf 0x400000000 = .spool 0 ∧ guarded.guard 0 ≠ 0 := by
  unfold State.canTake State.atHand shapedInLine
  decide +kernel

theorem not_lockHolds_of_free {s : State} {v : Word} {loc : SettingLoc}
    (hs : s.ctl.global = .stopped) (hg : ∀ b, s.guard b = 0) (ht : ∀ t, (s.ticket t).state = .free)
    (ha : ∀ a, (s.account a).reserved = 0) (hr : ∀ a, loc = .account a → policyCode v ≠ 2) : ¬s.lockHolds v loc := by
  have hu : ∀ (t : Slot) f, ¬(s.ticket t).uses f := by
    rintro t f ⟨h, -⟩
    rw [ht t] at h
    simp at h
  cases loc <;> simp_all [State.lockHolds]

theorem test_meets_RefusedWritesChangeNothing_byAddress :
    guarded.windowsSound ∧ (inWindow guarded.image.spoolWindow (4096 * guarded.blockBytes) 0x400003FF8 ∧
      (0x400003FF8 - baseOf guarded.image.spoolWindow) / guarded.blockBytes = 0 ∧ guarded.guard 0 ≠ 0) ∧
      0x300010 = baseOf guarded.image.ticketWindow + 32 * 0 + 8 * 2 ∧ (guarded.ticket 0).state ≠ .free := by
  unfold inWindow
  exact ⟨running_windowsSound, by decide +kernel⟩

/-- Everything enabled but nothing in use, STOPPED. -/
def idle : State := { running with ctl := up.ctl }

theorem test_nothingInUse (v : Word) (loc : SettingLoc) (hr : ∀ a, loc = .account a → policyCode v ≠ 2) :
    ¬idle.lockHolds v loc :=
  not_lockHolds_of_free rfl (by simp [State.guard, idle, running, up, State.reset, tget]) (by decide +kernel) (by decide +kernel) hr

/-- A setting word of a value, its eight bytes written: the conditions on the value that need no judgement. -/
theorem test_meets_WindowSettingsAreCaptured :
    idle.canTake 0 ∧ (word 0).given ∧
      (let v := (word 0x0100000000304000#64).result idle .ticketWindow; v = 0x0100000000304000#64 ∧ v &&& ~~~(fieldMask .ticketWindow) = 0 ∧ ¬outOfRange v .ticketWindow ∧
          idle.apart (idle.image.put .ticketWindow v) true) ∧
      (let v := (word 0x0100000000303000#64).result idle .meterWindow; v &&& ~~~(fieldMask .meterWindow) = 0 ∧ ¬outOfRange v .meterWindow ∧
          idle.apart (idle.image.put .meterWindow v) true) ∧
      (let v := (word 0x0100060800000000#64).result idle .spoolWindow; v &&& ~~~(fieldMask .spoolWindow) = 0 ∧ ¬outOfRange v .spoolWindow ∧
          idle.apart (idle.image.put .spoolWindow v) true) := by
  unfold State.canTake State.atHand WordBytes.given outOfRange State.apart
  decide +kernel

/-- The three window words written together. -/
def windowWords : List (SettingLoc × Word) :=
  [(.ticketWindow, (word 0x0100000000304000#64).result idle .ticketWindow),
    (.meterWindow, (word 0x0100000000306000#64).result idle .meterWindow),
    (.spoolWindow, (word 0x0100060800000000#64).result idle .spoolWindow)]

theorem test_meets_WindowSettingsAreCaptured_threeWords :
    (∀ w ∈ windowWords, w.2 &&& ~~~(fieldMask w.1) = 0 ∧ (w.2 ≠ idle.image.get w.1 → ¬idle.lockHolds w.2 w.1) ∧
      ¬outOfRange w.2 w.1) ∧ idle.apart (windowWords.foldl (fun im w => im.put w.1 w.2) idle.image) true := by
  constructor
  · intro w hw
    simp only [windowWords, List.mem_cons, List.not_mem_nil, or_false] at hw
    rcases hw with rfl | rfl | rfl
    all_goals
      exact ⟨by decide +kernel, fun _ => test_nothingInUse _ _ (by intro _ h; cases h),
        by unfold outOfRange; decide +kernel⟩
  · unfold State.apart
    decide +kernel

def latch : Latch := ⟨.refusal, 0, 0, 1, .refusal 0 .shape 1⟩

/-- A record write in flight, waiting or granted. -/
def recordWaiting : State := { idle with
  relay := { idle.relay with inFlight := some latch }
  msp := { idle.msp with waiting := [⟨.record false, true, 0x200000, 32, allOn 32, List.replicate 32 0⟩] } }

def recordGranted : State :=
  withGrant { idle with relay := { idle.relay with inFlight := some latch } }
    ⟨.record false, true, 0x200000, 32, allOn 32, List.replicate 32 0⟩

theorem test_meets_RingWritesRestartTheRing :
    idle.canTake 0 ∧ (word 0).given ∧ true ∈ (word 0).enables.take 6 ∧
      (let v := (word 0x000004000020_0000#64).result idle .ring; v &&& ~~~(fieldMask .ring) = 0 ∧ ¬outOfRange v .ring ∧ idle.apart (idle.image.put .ring v) true ∧
          recordWaiting.apart (recordWaiting.image.put .ring v) true ∧
          recordGranted.apart (recordGranted.image.put .ring v) true) ∧
      idle.relay.inFlight = none ∧ (recordWaiting.relay.inFlight = some latch ∧
        (recordWaiting.msp.waiting.any fun q => q.owner == .record false) = true) ∧
      recordGranted.relay.inFlight = some latch ∧
        (recordGranted.msp.waiting.any fun q => q.owner == .record false) = false := by
  unfold State.canTake State.atHand WordBytes.given outOfRange State.apart
  decide +kernel

/-- Two records written and not consumed. -/
def twoRecords : State := { idle with
  relay := { idle.relay with produced := 1, consumed := 65535, shadow := [.job, .quota], attn := true } }

theorem test_meets_ConsumeIndexIsAccepted :
    twoRecords.canTake 0 ∧ (word 1).given ∧ true ∈ (word 1).enables.take 2 ∧
      (let v := (word 1).result twoRecords .consume; v &&& ~~~(fieldMask .consume) = 0 ∧
          (consumeOf v - twoRecords.relay.consumed).toNat ≤
            (twoRecords.relay.produced - twoRecords.relay.consumed).toNat) ∧
      true ∈ (word 0).enables.take 6 ∧ consumeOf ((word 1).result twoRecords .consume) ≠ 0 ∧
      (let v := (word 0x000004000020_0000#64).result twoRecords .ring
        let k := (word 0).result twoRecords .consume
        consumeOf k = 0 ∧ v &&& ~~~(fieldMask .ring) = 0 ∧ k &&& ~~~(fieldMask .consume) = 0 ∧ ¬outOfRange v .ring ∧
          twoRecords.apart (twoRecords.image.put .ring v) true) := by
  unfold State.canTake State.atHand WordBytes.given outOfRange State.apart
  decide +kernel

/-- A write that enables byte 3 of the consume index's word only. -/
def besideTheIndex : WordBytes := ⟨[false, false, false, true, false, false, false, false], wordBytes 0, 0⟩

/-- The consume index 1 in the image and record 0 written, at a consumed count. -/
def indexKept (consumed : BitVec 16) : State :=
  { twoRecords with
    image := twoRecords.image.put .consume 1, relay := { twoRecords.relay with consumed := consumed, produced := 1 } }

theorem test_meets_ConsumeIndexIsAccepted_besideTheIndex :
    (indexKept 1).canTake 0 ∧ besideTheIndex.given ∧ true ∉ besideTheIndex.enables.take 2 ∧
      besideTheIndex.result (indexKept 1) .consume &&& ~~~(fieldMask .consume) = 0 ∧
      (consumeOf (besideTheIndex.result (indexKept 1) .consume) - (indexKept 1).relay.consumed).toNat ≤
        ((indexKept 1).relay.produced - (indexKept 1).relay.consumed).toNat := by
  unfold State.canTake State.atHand WordBytes.given
  decide +kernel

/-- R24, R178: a write beside the index moves no count, and after a restart of the ring it is refused. -/
theorem test_aWriteBesideTheIndexIsJudged :
    (indexKept 65535).judgeSettings [⟨.consume, besideTheIndex.enables, besideTheIndex.data⟩] = none ∧
      writesConsume [⟨.consume, besideTheIndex.enables, besideTheIndex.data⟩] = false ∧
      ({ indexKept 0 with relay := { (indexKept 0).relay with produced := 0 } } : State).judgeSettings
        [⟨.consume, besideTheIndex.enables, besideTheIndex.data⟩] = some .range := by decide +kernel

theorem test_meets_EnablesTrainAndDisablesTurnOff :
    idle.canTake 0 ∧ (word 0).given ∧
      (let v := (word 0x0002003200000301#64).result idle (.port 0); portOn (idle.portWord 0) = false ∧ portOn v = true ∧ v &&& ~~~(fieldMask (.port 0)) = 0 ∧ portSilenceMs v ≠ 0) ∧
      (let v := (word 0x0002000100000300#64).result idle (.port 1); portOn (idle.portWord 1) = true ∧ portOn v = false ∧ v &&& ~~~(fieldMask (.port 1)) = 0 ∧ portSilenceMs v ≠ 0) ∧
      ∀ t, ¬(idle.ticket t).uses fun m => m.port = 1 := by
  refine ⟨?_, ?_, ?_, ?_, ?_⟩
  · unfold State.canTake State.atHand
    decide +kernel
  · unfold WordBytes.given
    decide +kernel
  · decide +kernel
  · decide +kernel
  · rintro t ⟨h, -⟩
    rw [(by decide +kernel : ∀ t, (idle.ticket t).state = .free) t] at h
    simp at h

theorem test_meets_PortSettingsAreCaptured :
    linked.canTake 0 ∧ (word 0).given ∧
      (let v := (word 0x0002FF3200000301#64).result linked (.port 1); portOn v = portOn (linked.portWord 1) ∧ v &&& ~~~(fieldMask (.port 1)) = 0 ∧ portSilenceMs v ≠ 0 ∧
          portIdleMs v ≠ portIdleMs (linked.portWord 1) ∧ portIdleMs v ≠ 0) ∧
      (let v := (word 0x0000020100010001#64).result linked (.condition 1 3); v &&& ~~~(fieldMask (.condition 1 3)) = 0 ∧ condClassCode v ≠ 3) := by
  unfold State.canTake State.atHand WordBytes.given
  decide +kernel

/-- Port 1's idle timer running since the millisecond count 0, now 5. -/
def idling : State :=
  { linked.modLink 1 fun l => { l with idle := .running 0 0 1000 } with milliseconds := 5 }

/-- R123: a change of the idle time restarts a running timer, and the value 0 stops it. -/
theorem test_theIdleTimeOfARunningTimer :
    idling.settle.port 1 = idling.port 1 ∧ idling.canTake 0 ∧
      (let v := (word 0x0002FF3200000301#64).result idling (.port 1); portOn v = portOn (idling.portWord 1) ∧ v &&& ~~~(fieldMask (.port 1)) = 0 ∧ portSilenceMs v ≠ 0) ∧
      (let v := (word 0x0002003200000301#64).result idling (.port 1); portOn v = portOn (idling.portWord 1) ∧ v &&& ~~~(fieldMask (.port 1)) = 0 ∧ portSilenceMs v ≠ 0 ∧
          portIdleMs v = 0) ∧
      ∀ x ∈ [(0x0002FF3200000301#64, Timer.running 5 0 255000), (0x0002003200000301#64, .stopped)],
        (match exec (.portSettingWrite ((word x.1).write (.port 1))) idling with
          | .next t => (t.port 1).link.idle == x.2
          | _ => false) = true := by
  unfold State.canTake State.atHand
  decide +kernel

/-- R96, R97: a captured frame size lets an engine with one line buffered form its frame, and its account then refuses the
page. -/
theorem test_aFrameSizeChangesTheEngine :
    let s := (sending.modEngine 1 fun e =>
      { e with job := some { job with buffer := job.buffer.take 1 } }).modAccount 1 fun a => { a with reserved := 1 }
    s.judged 1 = .sending ∧
      (match exec (.portSettingWrite ((word 0x0002013200000001#64).write (.port 1))) s with
        | .next t => (t.port 1).engine.state == .waitQuota
        | _ => false) = true := by
  decide +kernel

/-- R123: a change of the idle time starts the timer at a quiet READY port with the new value. -/
theorem test_theIdleTimeRestartsTheTimer :
    (match exec (.portSettingWrite ((word 0x0002FF3200000301#64).write (.port 1))) linked with
      | .next t => (t.port 1).link.idle == .running 0 0 255000 && (t.port 1).quiet && (t.port 1).link.state == .ready
      | _ => false) = true := by decide +kernel

theorem test_meets_AccountSettingsAreCaptured :
    idle.canTake 0 ∧ (word 0).given ∧
      (let v := (word 0x0000000000000101#64).result idle (.account 5); v &&& ~~~(fieldMask (.account 5)) = 0 ∧ ¬outOfRange v (.account 5) ∧ ¬idle.lockHolds v (.account 5)) :=
  ⟨by unfold State.canTake State.atHand; decide +kernel, by unfold WordBytes.given; decide +kernel, by decide +kernel,
    by unfold outOfRange; decide +kernel, test_nothingInUse _ _ (by intro _ _; decide +kernel)⟩

theorem test_meets_BadSettingsAreRefusedWhole :
    running.canTake 0 ∧ (word 0).given ∧
      (let v := (word 0).result running .spoolWindow; (running.image.get .spoolWindow ^^^ v) &&& fieldMask .spoolWindow ≠ 0 ∧ running.lockHolds v .spoolWindow) ∧
      (let v := (word 0x0002013202000301#64).result running (.port 1); ¬running.lockHolds v (.port 1) ∧ v &&& ~~~(fieldMask (.port 1)) ≠ 0) ∧
      (let v := (word 0x0002010000000301#64).result running (.port 1); ¬running.lockHolds v (.port 1) ∧ (running.image.get (.port 1) ^^^ v) &&& fieldMask (.port 1) ≠ 0 ∧
          outOfRange v (.port 1)) ∧
      (¬running.apart (running.image.put .meterWindow ((word 0x0100000000301000#64).result running .meterWindow)) true) ∧
      (running.relay.produced - running.relay.consumed).toNat <
        (consumeOf ((word 1).result running .consume) - running.relay.consumed).toNat := by
  refine ⟨?_, ?_, ?_, ?_, ?_, ?_, ?_⟩
  · unfold State.canTake State.atHand
    decide +kernel
  · unfold WordBytes.given
    decide +kernel
  · exact ⟨by decide +kernel, Or.inl (by decide +kernel)⟩
  · exact ⟨fun h => absurd h.2.1 (by decide +kernel), by decide +kernel⟩
  · exact ⟨fun h => absurd h.2.1 (by decide +kernel), by decide +kernel, by unfold outOfRange; decide +kernel⟩
  · unfold State.apart
    decide +kernel
  · decide +kernel

/-! ### Commands -/

theorem test_meets_StartAndStopMoveTheGlobalState :
    up.takes 0x01 (cmd 0x01 0 0) ∧ (running.takes 0x02 (cmd 0x02 0 0) ∧ running.ctl.global = .running) ∧
      up.takes 0x02 (cmd 0x02 0 0) ∧ up.ctl.global ≠ .running := by
  unfold State.takes State.canTake State.atHand
  decide +kernel

/-- Port 1 HELD by its flag. -/
def held : State := linked.modPort 1 fun x => { x with holdFlag := true, engine := { x.engine with state := .held } }

theorem test_meets_HoldAndReleaseMoveTheFlag :
    (linked.takes 0x10 (cmd 0x10 1 0) ∧ (linked.port 1).engine.state ≠ .jamStop ∧
      (linked.port 1).hasOpenPage = false ∧ portOn (linked.portWord 1) = true) ∧
      held.takes 0x11 (cmd 0x11 1 0) ∧ (held.port 1).engine.state = .held ∧ (held.port 1).engine.job = none ∧
      (held.port 1).quiesceHold = false ∧ (cmd 0x10 15 0).argument.toNat = (15 : PortId).val := by
  unfold State.takes State.canTake State.atHand
  decide +kernel

/-- Port 1 HELD with ticket 7 in hand. -/
def heldSending : State :=
  sending.modPort 1 fun x => { x with holdFlag := true, engine := { x.engine with state := .held } }

/-- R73, R93: an engine that leaves HELD presents the line its cursor stands at. -/
theorem test_releaseTakesUpTheFetches :
    (match exec (.portRelease (cmd 0x11 1 0)) heldSending with
      | .next t => t.waitingFetches 1 == [⟨.lineFetch 1 .current 2 0, false, 0x400000000, 64, [], []⟩] &&
          (t.ticket 7).fetchCount == 1 && (t.port 1).engine.state == .sending
      | _ => false) = true := by decide +kernel

theorem test_meets_FlushCancelsTheQueue :
    queued.takes 0x12 (cmd 0x12 1 0) ∧ (queued.port 0).queue = [] ∧ (queued.port 1).queue ≠ [] ∧
      ((queued.port 1).queue.map QueueEntry.slot).Nodup := by
  unfold State.takes State.canTake State.atHand
  decide +kernel

/-- Port 1's link in a state. -/
def linkIn (st : LinkState) : State := linked.modLink 1 fun l => { l with state := st }

theorem test_meets_PortWakeByLinkState : ∀ st, (linkIn st).takes 0x13 (cmd 0x13 1 0) ∧ ((linkIn st).port 1).link.state = st := by
  unfold State.takes State.canTake State.atHand
  intro st
  cases st <;> decide +kernel

theorem test_meets_PortResetRetrains :
    (running.takes 0x14 (cmd 0x14 0 0) ∧ (running.port 0).link.state = .disabled) ∧
      pageOpen.takes 0x14 (cmd 0x14 1 0) ∧ (pageOpen.port 1).link.state ≠ .disabled ∧ (pageOpen.port 1).pageInHand := by
  unfold State.takes State.canTake State.atHand Port.pageInHand
  decide +kernel

/-- Port 1 in JAM_STOP, its link in a state. -/
def jammed (st : LinkState) : State := (linkIn st).modEngine 1 fun e => { e with state := .jamStop, recordedMode := .operator }

theorem test_meets_PortResumeEndsTheJamStop :
    (linked.takes 0x15 (cmd 0x15 1 0) ∧ (linked.port 1).engine.state ≠ .jamStop) ∧
      (∀ st, (jammed st).takes 0x15 (cmd 0x15 1 0) ∧ ((jammed st).port 1).engine.state = .jamStop ∧
        ((jammed st).port 1).watch.holds .jam = false ∧ ((jammed st).port 1).engine.job = none) := by
  unfold State.takes State.canTake State.atHand
  refine ⟨by decide +kernel, fun st => ?_⟩
  cases st <;> decide +kernel

/-- R71, R145: an engine in JAM_STOP stays there under PORT_HOLD. -/
theorem test_holdKeepsTheJamStop :
    (jammed .ready).takes 0x10 (cmd 0x10 1 0) ∧
      (match exec (.portHold (cmd 0x10 1 0)) (jammed .ready) with
        | .next t => (t.port 1).engine.state == .jamStop && (t.port 1).holdFlag
        | _ => false) = true := by
  unfold State.takes State.canTake State.atHand
  decide +kernel

/-- R123, R128: PORT_WAKE restarts the idle timer of a quiet READY port. -/
theorem test_portWakeRestartsTheIdleTimer :
    (match exec (.portWake (cmd 0x13 1 0)) { linked.modLink 1 (fun l => { l with idle := .running 0 0 306 }) with
        milliseconds := 5 } with
      | .next t => (t.port 1).link.idle == .running 5 0 (portIdleMs (linked.portWord 1)) &&
          portIdleMs (linked.portWord 1) != 0 && (t.port 1).quiet
      | _ => false) = true := by decide +kernel

theorem test_meets_QuotaCommandsSetRemaining :
    (running.takes 0x20 (cmd 0x20 0 16777215) ∧ running.policy 0 = .none) ∧
      (pageOpen.takes 0x20 (cmd 0x20 1 1) ∧ pageOpen.policy 1 = .hold ∧ (pageOpen.account 1).reserved = 1) ∧
      (running.takes 0x20 (cmd 0x20 2 1) ∧ running.policy 2 = .reload) ∧
      (cmd 0x20 0 16777215).value.toNat ≤ 16777215 ∧ running.takes 0x21 (cmd 0x21 63 16777215) ∧
      (cmd 0x21 63 0).argument.toNat = (63 : AccountId).val := by
  unfold State.takes State.canTake State.atHand
  decide +kernel

theorem test_meets_MeterClearZeroesTheMeters :
    running.takes 0x22 (cmd 0x22 63 0) ∧ (cmd 0x22 63 0).argument.toNat = (63 : AccountId).val ∧
      running.takes 0x22 (cmd 0x22 0xFF 0) ∧ (cmd 0x22 0xFF 0).argument = 0xFF := by
  unfold State.takes State.canTake State.atHand
  decide +kernel

/-- A shadow and a stack. -/
def relayWith (shadow stack : List AlertClass) : State :=
  { running with relay := { running.relay with shadow := shadow, stack := stack } }

theorem test_meets_AlertTakePushesTheMostUrgent :
    (∀ a ∈ [[], [AlertClass.job]], ∀ b ∈ [[], [AlertClass.job], [.jam]], (relayWith a b).takes 0x30 (cmd 0x30 0 0)) ∧
      (relayWith [] []).relay.shadow = [] ∧
      (AlertClass.quota ∈ (relayWith [.job, .quota] [.job]).relay.shadow ∧
        (∀ y ∈ (relayWith [.job, .quota] [.job]).relay.shadow, AlertClass.quota.rank ≤ y.rank) ∧
        AlertClass.quota.rank < AlertClass.job.rank) ∧
      AlertClass.quota.rank ≤ AlertClass.quota.rank ∧ (relayWith [.quota] [.quota]).relay.stack = [.quota] := by
  unfold State.takes State.canTake State.atHand
  decide +kernel

theorem test_meets_AlertDonePopsTheStack :
    ((relayWith [] []).takes 0x31 (cmd 0x31 0 0) ∧ (relayWith [] []).relay.stack = []) ∧
      (relayWith [] [.jam, .job]).takes 0x31 (cmd 0x31 0 0) ∧ (relayWith [] [.jam, .job]).relay.stack = .jam :: [.job] := by
  unfold State.takes State.canTake State.atHand
  decide +kernel

theorem test_meets_CommandsTurnedAwayChangeNothingElse :
    (∀ row ∈ commandRows, up.canTake (cmd 0 0 0).tag ∧ (cmd (row.1 + 1) 0 0).complement ≠ ~~~row.1) ∧
      (∀ row ∈ commandRows, up.takes row.1 (cmd row.1 16 0) ∧ up.takes row.1 (cmd row.1 64 16777216)) ∧
      16 ≤ (cmd 0x10 16 0).argument.toNat ∧ 64 ≤ (cmd 0x20 64 0).argument.toNat ∧
      16777215 < (cmd 0x21 0 16777216).value.toNat ∧ (cmd 0x22 64 0).argument ≠ 0xFF#8 ∧
      ∀ code ∈ [(0x00 : Byte), 0x03, 0x16, 0x41, 0xFF], code ∉ commandRows.map Prod.fst := by
  unfold State.takes State.canTake State.atHand
  decide +kernel

/-! ### Tickets -/

theorem test_meets_PostAndReleaseMoveTheTicket :
    (running.takesJob 0x41 (post 0x41) ∧ (running.ticket 7).state = .free) ∧
      (running.setTicket 7 (ticketIn .done)).takesJob 0x43 (post 0x43) ∧
      ((running.setTicket 7 (ticketIn .done)).ticket 7).state ∈ [TicketState.done, .cancelled, .failed] := by
  unfold State.takesJob State.canTake State.atHand
  decide +kernel

theorem test_meets_CancelEndsAQueuedTicket :
    queued.takesJob 0x42 (post 0x42) ∧ (queued.ticket 7).state = .queued ∧ (queued.ticket 7).mirror = some mirror := by
  unfold State.takesJob State.canTake State.atHand
  decide +kernel

/-- Ticket 7 DRAINING with one entry. -/
def draining : State :=
  ((linked.setTicket 7 { ticketIn .draining with entryCount := 1 }).setPages 1 [⟨7, 1, 2, 1, 0, .closed⟩]).modAccount 1
    fun a => { a with remaining := 1, reserved := 1 }

theorem test_meets_CancelStopsASentTicket :
    (draining.takesJob 0x42 (post 0x42) ∧ (draining.ticket 7).state = .draining ∧
      (draining.ticket 7).mirror = some mirror ∧ draining.inHand 1 ≠ some 7 ∧ (draining.ticket 7).entryCount ≠ 0) ∧
      (pageOpen.takesJob 0x42 (post 0x42) ∧ (pageOpen.ticket 7).state = .active ∧
        (pageOpen.ticket 7).mirror = some mirror ∧ pageOpen.inHand 1 = some 7 ∧
        (pageOpen.port 1).openEntry = some openEntry ∧ openEntry.slot = 7 ∧ (pageOpen.port 1).opensNewestOnly) := by
  unfold State.takesJob State.canTake State.atHand Port.opensNewestOnly
  decide +kernel

theorem test_meets_JobCodesOutOfPlaceChangeNoTicket :
    (∀ code ∈ [(0x41 : Byte), 0x42, 0x43],
      (queued.takesJob code { post code with complement := ~~~code })) ∧
      (queued.ticket 7).state ∉ [TicketState.free] ∧ (running.ticket 7).state ∉ [TicketState.queued, .active, .draining] ∧
      running.takesJob 0x42 { post 0x42 with complement := ~~~0x42#8 } ∧
      (queued.ticket 7).state ∉ [TicketState.done, .cancelled, .failed] ∧
      ∀ code ∈ [(0x41 : Byte), 0x42, 0x43], (post (code + 1)).complement ≠ ~~~code := by
  unfold State.takesJob State.canTake State.atHand
  decide +kernel

theorem test_meets_JobCodesOutOfPlaceChangeNoTicket_unknown : ∀ code ∈ [(0x40 : Byte), 0x44, 0xFF],
    code ∉ [(0x41 : Byte), 0x42, 0x43] ∧ running.takesJob code ⟨255, ~~~code, 0, 0⟩ := by
  unfold State.takesJob State.canTake State.atHand
  decide +kernel

/-! ### The memory side -/

theorem test_meets_GrantsFollowTheArbiter :
    (∀ r ∈ grantExample.waiting, r.owner ≠ .record true) ∧ grantExample.outstanding.length < 48 ∧
      (∃ i r, grantExample.isFirst i r ∧ r.owner.isPassing = false) ∧ (∃ i r, grantExample.isHead i r) ∧
      grantExample.runCount < 4 := by
  unfold Msp.isFirst Msp.isHead
  refine ⟨by decide +kernel, by decide +kernel, ⟨7, ⟨.record false, true, 0x1000, 32, [], []⟩, ⟨rfl, ?_⟩, rfl⟩,
    ⟨0, ⟨.passing 0 .whole, false, 0, 8, [], []⟩, rfl, rfl, ?_⟩, by decide⟩
  · intro j hj q hq
    have : ∀ j < 7, (grantExample.waiting[j]?.all fun q => q.addr / 64 != 0x1000 / 64) = true := by decide +kernel
    simpa [hq] using this j hj
  · intro j hj
    omega

/-- The head of the passing queue held back at run count 4 by an engine's fetch of its line, an alert write of another line
waiting too. -/
def heldAtFour : Msp where
  waiting := [⟨.lineFetch 3 .current 1 0, false, 0x2000, 64, [], []⟩, ⟨.passing 0 .whole, false, 0x2008, 8, [], []⟩,
    ⟨.record false, true, 0x1000, 32, [], []⟩]
  outstanding := []
  nextGrant := 0
  runCount := 4
  lastEngine := 15

/-- R16: the earliest request to the held head's line is granted next, whatever the run count. -/
theorem test_heldHeadAtRunCountFour :
    heldAtFour.choice = some ⟨.lineFetch 3 .current 1 0, false, 0x2000, 64, [], []⟩ ∧
      heldAtFour.isHead 1 ⟨.passing 0 .whole, false, 0x2008, 8, [], []⟩ ∧
      ¬heldAtFour.isFirst 1 ⟨.passing 0 .whole, false, 0x2008, 8, [], []⟩ := by
  refine ⟨by decide +kernel, ⟨rfl, rfl, ?_⟩, fun h => absurd (h.2 0 (by decide) _ rfl) (by decide)⟩
  intro j hj q hq
  obtain rfl : j = 0 := by omega
  cases hq
  rfl

/-- One request waiting. -/
def waiting (s : State) (o : Owner) : State := { s with msp := { s.msp with waiting := [⟨o, false, 0x400000000, 64, [], []⟩] } }

theorem test_meets_AGrantHandsTheRequest :
    running.msp.choice = none ∧
      (∀ o ∈ [Owner.passing 0 .whole, .record false, .ticketFetch 7, .lineFetch 1 .current 1 0, .sweep],
        (waiting running o).msp.choice = some ⟨o, false, 0x400000000, 64, [], []⟩) ∧
      ({ waiting running (.ticketFetch 7) with fetcher := ⟨[7, 8], []⟩ } : State).fetcher.queue = 7 :: [8] ∧
      ((waiting running (.ticketFetch 7)).msp.waiting.erase ⟨.ticketFetch 7, false, 0x400000000, 64, [], []⟩).any
        (fun q => q.owner.isTicketFetch) = false := by
  decide +kernel

theorem test_meets_EnginesPresentTheNextLine :
    let s := waiting sending (.lineFetch 1 .current 1 64)
    let r : MemRequest := ⟨.lineFetch 1 .current 1 64, false, 0x400000000, 64, [], []⟩
    s.msp.choice = some r ∧ (s.port 1).engine.job = some job ∧ job.cursor = some ⟨2, 0⟩ ∧
      (∀ q ∈ s.msp.waiting.erase r, q.isFetchOf 1 = false) ∧ s.judged 1 ≠ .held ∧ job.buffer.length + 1 < 32 ∧
      (s.modPort 1 fun x => { x with holdFlag := true }).judged 1 = .held := by
  decide +kernel

/-- A passing request outstanding under tag 0, as a record keeps it. -/
def passing (half : Half) (parts : Parts) : State :=
  withGrant (up.setRecord 0 (some ⟨false, 0x500000, 8, [none], parts⟩)) ⟨.passing 0 half, false, 0x500000, 8, [], []⟩

theorem test_meets_PassingAnswersAreRelayed :
    ∀ half parts, (passing half parts).awaits ⟨0, ⟨.passing 0 half, false, 0x500000, 8, [], []⟩⟩ [] ∧
      (passing half parts).record 0 = some ⟨false, 0x500000, 8, [none], parts⟩ := by
  intro half parts
  refine ⟨⟨[], [], rfl, rfl, by simp⟩, ?_⟩
  simp [passing, withGrant, State.setRecord, State.record, tget, tset]

/-- A slot's bytes: base 0x400000000, one byte, one copy, rule 7, port 1, account 1. -/
def slotBytes (base : Byte) : List Byte :=
  [0, 0, 0, 0, base, 0, 0, 0, 1, 0, 0, 0, 1, 7, 0, 0, 1, 1, 0, 0, 9, 0, 0, 0] ++ List.replicate 8 0

/-- Ticket fetch of slot 7 outstanding. -/
def fetching (inFlight : List InFlight) : State :=
  withGrant { running with fetcher := ⟨[], inFlight⟩ } ⟨.ticketFetch 7, false, 0x3000E0, 32, [], []⟩

theorem test_meets_PostingFetchesAreJudgedInOrder :
    (∀ l, (fetching l).awaits ⟨0, ⟨.ticketFetch 7, false, 0x3000E0, 32, [], []⟩⟩ []) ∧
      ((fetching [⟨6, none⟩, ⟨5, some ⟨true, slotBytes 4⟩⟩, ⟨4, none⟩, ⟨7, none⟩, ⟨8, none⟩]).fetcher.inFlight =
        ⟨6, none⟩ :: ([⟨5, some ⟨true, slotBytes 4⟩⟩, ⟨4, none⟩] ++ ⟨7, none⟩ :: [⟨8, none⟩]) ∧
        ∀ x ∈ (⟨6, none⟩ : InFlight) :: [⟨5, some ⟨true, slotBytes 4⟩⟩, ⟨4, none⟩], x.slot ≠ 7) ∧
      (fetching [⟨7, none⟩, ⟨8, some ⟨true, slotBytes 4⟩⟩, ⟨9, none⟩]).fetcher.inFlight =
        ⟨7, none⟩ :: ([((8 : Slot), (⟨true, slotBytes 4⟩ : KeptAnswer))].map (fun x => ⟨x.1, some x.2⟩) ++ [⟨9, none⟩]) ∧
      (fetching [⟨7, none⟩]).judgeSlot ⟨true, padTo 32 (slotBytes 4)⟩ = none ∧
      (fetching [⟨7, none⟩]).judgeSlot ⟨true, padTo 32 (slotBytes 3)⟩ = some .extent ∧
      (fetching [⟨7, none⟩]).judgeSlot ⟨false, []⟩ = some .memoryReject :=
  ⟨fun _ => ⟨[], [], rfl, rfl, by simp⟩, ⟨rfl, by decide⟩, rfl, by decide +kernel, by decide +kernel, by decide +kernel⟩

/-- The same fetch with an urgent ticket's answer kept behind it, at a READY port with an idle engine. -/
def twoJudged : State :=
  withGrant { linked with fetcher := ⟨[], [⟨7, none⟩, ⟨8, some ⟨true, (slotBytes 4).set 14 1⟩⟩]⟩ }
    ⟨.ticketFetch 7, false, 0x3000E0, 32, [], []⟩

/-- R61: the ticket accepted first is activated at its acceptance, before the urgent one behind it is judged. -/
theorem test_acceptanceIsADispatchEvent :
    (match exec (.ticketFetchAnswer ⟨0, true, (slotBytes 4).set 17 0⟩) twoJudged with
      | .next u => (u.ticket 7).state == .active && (u.ticket 8).state == .queued &&
          (u.port 1).queue == [⟨8, .urgent⟩] && u.inHand 1 == some 7
      | _ => false) = true := by decide +kernel

def lineRead (mark : FetchMark) : MemRequest := ⟨.lineFetch 1 mark 1 0, false, 0x400000000, 64, [], []⟩

theorem test_meets_LineAnswersActByTheirMark :
    (∀ mark s, (withGrant s (lineRead mark)).awaits ⟨0, lineRead mark⟩ []) ∧
      ((sending.port 1).engine.job = some job ∧ ∀ e, (sending.port 1).openEntry = some e → e.slot = job.slot) ∧
      ((pageOpen.port 1).engine.job = some job ∧ (pageOpen.ticket 7).mirror = some mirror ∧
        (pageOpen.port 1).openEntry = some openEntry ∧ openEntry.slot = job.slot ∧ (pageOpen.port 1).opensNewestOnly ∧
        ∀ q, q ≠ 1 → pageOpen.inHand q ≠ some 7) ∧
      ((linked.setTicket 7 (ticketIn .active)).ticket 7).state ≠ .cancelling ∧
      (∀ st ∈ [TicketState.cancelling, .failing],
        (linked.setTicket 7 { ticketIn st with fetchCount := 1 }).inHand 1 ≠ some 7 ∧
          ((linked.setTicket 7 { ticketIn st with fetchCount := 1 }).ticket 7).mirror = some mirror ∧
          ((linked.setTicket 7 { ticketIn st with fetchCount := 1 }).ticket 7).entryCount = 0 ∧
          ((linked.setTicket 7 { ticketIn st with fetchCount := 1 }).ticket 7).fetchCount ≤ 1 ∧
          ((linked.setTicket 7 { ticketIn st with fetchCount := 1 }).ticket 7).sending = false ∧
          ((linked.setTicket 7 { ticketIn st with fetchCount := 1 }).ticket 7).state = st) := by
  refine ⟨fun _ _ => ⟨[], [], rfl, rfl, by simp⟩, ⟨by decide +kernel, ?_⟩, ?_, by decide +kernel, by decide +kernel⟩
  · have : (sending.port 1).openEntry = none := by decide +kernel
    simp [this]
  · unfold Port.opensNewestOnly
    decide +kernel

/-- Eight current fetches of port 1 granted and none waiting, the next line at the cursor. -/
def eightOut : State :=
  { sending.modEngine 1 fun e => { e with job := some { job with length := 1000, cursor := some ⟨1, 640⟩ } } with
    msp := { sending.msp with outstanding := (List.range 8).map fun n =>
      ⟨n, ⟨.lineFetch 1 .current 1 (128 + 64 * n), false, 0x400000080 + 64 * n, 64, [], []⟩⟩ } }

/-- R93: an engine whose eight fetches are outstanding presents its next line when one of them is answered. -/
theorem test_anAnswerLetsTheNextLineBePresented :
    (eightOut.settle.waitingFetches 1 = []) ∧
      (match exec (.lineFetchAnswer ⟨3, true, List.replicate 64 7⟩) eightOut with
        | .next u => u.waitingFetches 1 == [⟨.lineFetch 1 .current 1 640, false, 0x400000280, 64, [], []⟩]
        | _ => false) = true := by
  decide +kernel

theorem test_meets_TheWriterPicksTheFirstLatch :
    let s := { running with relay := { running.relay with backlog := [latch], produced := 15 } }
    s.relay.backlog = latch :: [] ∧ s.relay.ringState = .running ∧ s.relay.inFlight = none ∧
      (s.relay.produced - s.relay.consumed).toNat < 16 * 2 ^ sizeCode s.image.ring ∧ running.relay.backlog = [] := by
  decide +kernel

theorem test_meets_TheWriterPicksTheFirstLatch_ordered :
    let s := { running with relay := { running.relay with backlog :=
      [{ latch with cls := .down, source := 3 }, { latch with cls := .down, source := 15 }, latch] } }
    s.backlogOrdered ∧ ∀ k ∈ s.relay.backlog, k.source < 256 := by
  unfold State.backlogOrdered
  decide +kernel

theorem test_meets_RecordAnswersCompleteOrFault :
    (∀ dropped, (withGrant { running with relay := { running.relay with inFlight := some latch } }
      ⟨.record dropped, true, 0x200000, 32, [], []⟩).awaits ⟨0, ⟨.record dropped, true, 0x200000, 32, [], []⟩⟩ []) ∧
      (withGrant { running with relay := { running.relay with inFlight := some latch } }
        ⟨.record false, true, 0x200000, 32, [], []⟩).relay.inFlight = some latch ∧
      ((∀ l ∈ [latch, { latch with source := 255 }], l.source < 256) ∧
        [latch].Pairwise (fun a b => a.key < b.key) ∧
        ([latch].any fun l => l.cls == latch.cls && l.source == 255) = false ∧
        ([latch].any fun l => l.cls == latch.cls && l.source == latch.source) = true) :=
  ⟨fun _ => ⟨[], [], rfl, rfl, by simp⟩, rfl, by decide +kernel, by simp, by decide +kernel, by decide +kernel⟩

/-- R171, R177: an occurrence count stops at 65,535. -/
theorem test_occurrencesStop :
    addRaise latch [{ latch with occurrences := 65535 }] = [{ latch with occurrences := 65535 }] ∧
      putBack { latch with occurrences := 65535 } [latch] = [{ latch with occurrences := 65535 }] := by decide +kernel

/-! ### Dispatch and the engines -/

/-- Ticket 7 QUEUED behind ticket 6 of an account with no headroom; port 1's link in a state. -/
def twoQueued (st : LinkState) : State :=
  (((linkIn st).setTicket 7 { ticketIn .queued with mirror := some { mirror with account := 0 } }).setTicket 6
    (ticketIn .queued)).setQueue 1 [⟨6, .normal⟩, ⟨7, .normal⟩]

theorem test_meets_DispatchStartsTheFirstStartable :
    (∀ st, (twoQueued st).dispatches 1 ∧ ((twoQueued st).port 1).link.state = st) ∧
      ((twoQueued .ready).port 1).queue = [⟨6, .normal⟩] ++ ⟨7, .normal⟩ :: [] ∧
      (∀ e ∈ [QueueEntry.mk 6 .normal], ¬(twoQueued .ready).canStart e.slot) ∧ (twoQueued .ready).canStart 7 ∧
      (twoQueued .drowsy).canStart 7 ∧
      ((twoQueued .ready).ticket 7).mirror = some { mirror with account := 0 } ∧ ¬linked.dispatches 0 := by
  refine ⟨fun st => ?_, by decide +kernel, ?_, ⟨{ mirror with account := 0 }, by decide +kernel, by decide +kernel⟩,
    ⟨{ mirror with account := 0 }, by decide +kernel, by decide +kernel⟩, by decide +kernel, ?_⟩
  · unfold State.dispatches
    cases st <;> decide +kernel
  · rintro e he ⟨m, hm, h⟩
    rw [List.mem_singleton.1 he, (by decide +kernel : ((twoQueued .ready).ticket 6).mirror = some mirror)] at hm
    cases hm
    exact absurd (h (by decide +kernel)) (by decide +kernel)
  · unfold State.dispatches
    decide +kernel

theorem test_meets_DispatchStartsTheFirstStartable_fetch :
    (¬(((twoQueued .ready).port 1).quiesceHold = true ∧ ((twoQueued .ready).port 1).hasOpenPage = false) ∧
      (∀ q ∈ (twoQueued .ready).msp.waiting, q.isFetchOf 1 = false) ∧
      ((twoQueued .ready).msp.outstanding.countP fun g => g.request.isFetchOf 1) < 8) ∧
      8 ≤ ((List.range 8).map fun n => Granted.mk n ⟨.lineFetch 1 .stale 1 (64 * n), false, 0x400000000, 64, [], []⟩).countP
        fun g => g.request.isFetchOf 1 := by
  decide +kernel

/-- `sending` with one gate failing. -/
def failing (k : Nat) : State :=
  match k with
  | 1 => sending.modPort 1 fun x => { x with quiesceHold := true }
  | 2 => sending.modPort 1 fun x => { x with link := { x.link with state := .waking } }
  | 3 => sending.modLink 1 fun l => { l with credits := 0 }
  | 4 => sending.modEngine 1 fun e => { e with pacer := some ⟨0, 0, 1000, 3, 3⟩ }
  | 5 => sending.modEngine 1 fun e => { e with job := some { job with buffer := [] } }
  | 6 => sending.setPages 1 (List.replicate 32 { openEntry with state := .closed })
  | 7 => sending.modAccount 1 fun a => { a with reserved := 1 }
  | _ => sending

theorem test_meets_TheFirstFailingGateBlocks :
    (failing 1).gates 1 job = .blocked .held ∧ (failing 2).gates 1 job = .blocked .paused ∧
      (failing 3).gates 1 job = .blocked .waitCredit ∧ (failing 4).gates 1 job = .blocked .waitPace ∧
      (failing 5).gates 1 { job with buffer := [] } = .blocked .sending ∧
      (failing 6).gates 1 job = .blocked .waitPage ∧ (failing 7).gates 1 job = .blocked .waitQuota ∧
      (sending.port 1).engine.job = some job ∧ (∀ k < 9, ((failing k).port 1).engine.state ≠ .jamStop) ∧
      (sending.gates 1 job).state = .sending ∧ sending.judged 1 = .sending ∧ (failing 1).judged 1 = .held := by
  decide +kernel

/-- R71, R90, R145: an engine with no ticket in hand. -/
theorem test_judgedWithNoTicket :
    (jammed .ready).judged 1 = .jamStop ∧ held.judged 1 = .held ∧ linked.judged 1 = .idle ∧
      (held.port 1).engine.job = none ∧ (held.modPort 2 fun x => { x with holdFlag := true }).judged 2 = .idle := by
  decide +kernel

theorem test_meets_AFrameIsSent :
    (sending.port 1).engine.job = some job ∧
      ((sending.port 1).holdFlag = false ∧ (sending.port 1).quiesceHold = false) ∧
      (sending.port 1).link.state = .ready ∧ (sending.port 1).watch.holds .down = false ∧
      1 ≤ (sending.port 1).link.credits ∧ (sending.port 1).engine.pacer = none ∧
      sending.nextFrame 1 job = some ⟨List.replicate 100 0, true, true, false⟩ ∧
      (sending.port 1).pages.length < 32 ∧ (sending.account 1).reserved < (sending.account 1).remaining ∧
      (pageOpen.port 1).hasOpenPage = true := by
  decide +kernel

/-- R194: the shortest and the longest DATA frame on the wire. -/
theorem test_meets_AFrameIsSent_wire :
    (Frame.data [0x41]).wire = onWire [0x01, 0x00, 0x41] ∧
      (Frame.data (List.replicate 256 0x41)).wire.take 3 = [0x01, 0xFF, 0x41] := by decide +kernel

/-- The search before each byte, for a rule and a frame's bytes (R99). -/
def pendOf (r : MarkRule) (lead : Bool) (bytes : List Byte) : Nat → Bool
  | 0 => lead
  | k + 1 =>
    match bytes[k]? with
    | some b =>
      b == r.lead && !(pendOf r lead bytes k &&
        (List.finRange 8).all fun i => r.dontCare.getLsbD i || b.getLsbD i == r.mark.getLsbD i)
    | none => false

theorem test_meets_FramesEndAtTheRightByte :
    1 ≤ 256 ∧ ([] : List Byte).length < min 1 1 ∧ min 64 100 ≤ (List.replicate 64 (0 : Byte)).length ∧
      ((MarkRule.mk 0x1B 0x0C 0).lead ∉ [(0 : Byte)] ∧ (MarkRule.mk 0x1B 0x0C 0).matches 0x0C = true ∧
        [(0 : Byte)].length + 2 ≤ min 64 3) ∧
      (∀ r lead (bytes : List Byte), pendOf r lead bytes 0 = lead ∧
        ∀ k b, bytes[k]? = some b → pendOf r lead bytes (k + 1) = (b == r.lead && !(pendOf r lead bytes k &&
          (List.finRange 8).all fun i => r.dontCare.getLsbD i || b.getLsbD i == r.mark.getLsbD i))) ∧
      (pendOf ⟨0x1B, 0x0C, 0⟩ true [0x0C] 0 = true ∧ (List.finRange 8).all fun i =>
        (0 : Byte).getLsbD i || (0x0C : Byte).getLsbD i == (0x0C : Byte).getLsbD i) ∧
      (pendOf ⟨0x1B, 0x0C, 0⟩ true [0x1B, 0x1B, 0x00] 2 = true ∧
        pendOf ⟨0x1B, 0x0C, 0⟩ true [0x1B, 0x1B, 0x00] 3 = false) := by
  refine ⟨by decide, by decide, by decide, by decide, fun r lead bytes => ⟨rfl, fun k b h => by simp [pendOf, h]⟩,
    by decide, by decide⟩

/-- A buffer with a line missing, and a later copy's first line. -/
def gappedBuffer : List BufferLine := [⟨1, 0, [1, 2]⟩, ⟨1, 2, [3]⟩, ⟨1, 5, [6]⟩, ⟨2, 0, [9]⟩]

theorem test_meets_FramesEndAtTheRightByte_buffer :
    gappedBuffer.Pairwise (fun a b => a.copy < b.copy ∨ (a.copy = b.copy ∧ a.offset + a.bytes.length ≤ b.offset)) ∧
      (∀ l ∈ gappedBuffer, l.bytes ≠ [] ∧ (1 < l.copy ∨ (l.copy = 1 ∧ 1 < l.offset + l.bytes.length))) ∧
      (∀ l ∈ gappedBuffer, l.copy = 1 → ∀ i b, l.bytes[i]? = some b →
        BitVec.ofNat 8 (l.offset + i + 1) = b) ∧
      (∀ l ∈ gappedBuffer, ¬(l.copy = 1 ∧ l.offset ≤ 3 ∧ 3 < l.offset + l.bytes.length)) ∧
      availableBytes 1 1 gappedBuffer = [2, 3] ∧
      gappedBuffer.Pairwise (fun a b => a.copy < b.copy ∨ (a.copy = b.copy ∧ a.offset < b.offset)) ∧
      ∀ l ∈ gappedBuffer, l.copy ≠ 1 ∨ l.offset ≠ 3 := by
  refine ⟨by decide, by decide, ?_, by decide, by decide, by decide, by decide⟩
  intro l hl hc i b h
  obtain ⟨hi, rfl⟩ := List.getElem?_eq_some_iff.1 h
  clear h
  revert i
  revert l
  decide

/-- R99: a lead pending at the frame's start and the lead bytes that no match follows end no page. -/
theorem test_leadsWithoutAMatch :
    formFrame (some ⟨0x1B, 0x0C, 0⟩) 64 3 true [0x0C, 0x1B, 0x00] = some ⟨[0x0C], true, false, false⟩ ∧
      formFrame (some ⟨0x1B, 0x0C, 0⟩) 64 3 true [0x1B, 0x00, 0x1B] = some ⟨[0x1B, 0x00, 0x1B], true, true, true⟩ ∧
      formFrame (some ⟨0x1B, 0x0C, 0⟩) 64 4 true [0x1B, 0x00, 0x1B] = none := by decide +kernel

/-! ### The links -/

theorem test_meets_TrainAcksAndCreditsAreServed :
    (∀ st, ((linkIn st).port 1).link.state = st) ∧ (1 ≤ (32 : Byte).toNat ∧ (32 : Byte).toNat ≤ 32) ∧
      (0 : Byte).toNat = 0 ∧ 32 < (33 : Byte).toNat ∧ 32 < (linked.port 1).link.credits + (1 : Byte).toNat % 16 := by
  refine ⟨fun st => ?_, by decide, by decide, by decide, by decide +kernel⟩
  cases st <;> decide +kernel

theorem test_meets_StatusEvaluatesTheConditions :
    (∀ st, ((linkIn st).port 1).link.state = st) ∧
      (∀ c, ¬linked.edge 1 0x0001 c) ∧
      (linked.edge 1 0x0007 1 ∧ linked.edge 1 0x0007 2 ∧
        ∀ c, linked.edge 1 0x0007 c → (tget (linked.truths 1 0x0007) c).cls ≠ .jam) ∧
      ((0x0001 : BitVec 16).getLsbD 0 = true ∧ (0x0000 : BitVec 16).getLsbD 0 = false) ∧
      (∀ w ∈ [WarmTimer.running 0 0 10, .expired], (((linkIn .waking).modLink 1 fun l => { l with warm := w }).port 1).link.warm = w) ∧
      (((jammed .ready).modEngine 1 fun e => { e with consent := true }).port 1).mayResume ∧
      ¬((jammed .ready).port 1).mayResume := by
  unfold State.edge Port.mayResume
  refine ⟨fun st => ?_, ?_, ?_, ?_, ?_, ?_, ?_⟩
  · cases st <;> decide +kernel
  all_goals decide +kernel

/-- R147: under OPERATOR without consent a STATUS does not end the jam stop; with it, it does, and the consent clears. -/
theorem test_theJamStopWaitsForConsent :
    (match exec (.status 1 0x0001 0) (jammed .ready) with
      | .next t => (t.port 1).engine.state == .jamStop
      | _ => false) = true ∧
      (match exec (.status 1 0x0001 0) ((jammed .ready).modEngine 1 fun e => { e with consent := true }) with
        | .next t => (t.port 1).engine.state == .idle && !(t.port 1).engine.consent &&
            (t.port 1).link.idle == .running 0 0 (portIdleMs (linked.portWord 1))
        | _ => false) = true := by
  decide +kernel

/-- A page open and ticket 7 in hand, port 1's link in a state. -/
def pageOpenIn (st : LinkState) : State := pageOpen.modLink 1 fun l => { l with state := st }

/-- One page of ticket 7 not delivered, and its cancellation not at its end. -/
def cancelling : State := draining.modTicket 7 fun t => { t with state := .cancelling, reason := .cancel }

theorem test_meets_AJamEdgeRewindsThePort :
    (∀ st, ((pageOpenIn st).port 1).link.state = st) ∧
      (∀ st, (((pageOpenIn st).sheetsMatched 1 1).port 1).pageInHand) ∧
      (∀ st, (pageOpenIn st).edge 1 0x0011 0) ∧ (∀ st, (tget ((pageOpenIn st).truths 1 0x0011) 0).cls = .jam) ∧
      ((pageOpen.port 1).concerned = [7] ∧ pageOpen.returns 7 = true ∧ (pageOpen.ticket 7).spoiled ≤ 65535 ∧
        (pageOpen.port 1).opensNewestOnly) ∧
      ((cancelling.port 1).concerned = [7] ∧ cancelling.endsInRewind 1 7 = true) ∧
      ((cancelling.port 1).pageInHand ∧ cancelling.edge 1 0x0011 0) := by
  unfold State.edge Port.pageInHand Port.opensNewestOnly
  refine ⟨fun st => ?_, fun st => ?_, fun st => ?_, fun st => ?_, ?_, ?_, ?_⟩
  all_goals first | decide +kernel | (cases st <;> decide +kernel)

theorem test_meets_SheetsDeliverTheOldestPage :
    ((draining.port 1).link.state = .ready ∧
      (∀ c, ¬draining.edge 1 0x0001 c) ∧ (0xF1 : Byte).toNat % 16 = 1 ∧
      (draining.port 1).pages = ⟨7, 1, 2, 1, 0, .closed⟩ :: [] ∧ (draining.ticket 7).state = .draining ∧
      (cancelling.ticket 7).state = .cancelling ∧ (cancelling.ticket 7).entryCount - 1 = 0 ∧
      (cancelling.ticket 7).fetchCount = 0 ∧ (cancelling.ticket 7).sending = false ∧
      (cancelling.port 1).pages = (draining.port 1).pages ∧ ∀ c, ¬cancelling.edge 1 0x0001 c) ∧
      ((linked.port 1).pages = [] ∧ ∀ c, ¬linked.edge 1 0x0001 c) ∧
      ((jammed .ready).port 1).link.state = .ready ∧ ((jammed .ready).port 1).pages = [] ∧
      (∀ c, ¬(jammed .ready).edge 1 0x0001 c) ∧
      (pageOpen.port 1).pages = openEntry :: [] ∧ openEntry.state = .opened ∧ ∀ c, ¬pageOpen.edge 1 0x0001 c := by
  unfold State.edge
  decide +kernel

/-- R125, R145, R151, R154: sheets reported to a DROWSY or WAKING link, or in JAM_STOP, are stray on an empty list, and a CLOSED
head is delivered in WAKING too. -/
theorem test_sheetsInEveryLinkState :
    (∀ s ∈ [linkIn .drowsy, linkIn .waking, jammed .ready],
      (match exec (.status 1 0x0000 3) s with
        | .next u => (u.port 1).stray == 3
        | _ => false) = true) ∧
      (match exec (.status 1 0x0000 2) (draining.modLink 1 fun l => { l with state := .waking }) with
        | .next u => (u.port 1).stray == 1 && (u.port 1).pages == [] && (u.ticket 7).state == .done
        | _ => false) = true := by
  decide +kernel

/-- R56, R152, R153: the last delivery ends a CANCELLING or FAILING ticket, and pages delivered stop at 16,777,215. -/
theorem test_aDeliveryCompletesADrain : ∀ x ∈ [(TicketState.cancelling, TicketState.cancelled), (.failing, .failed)],
    (match exec (.status 1 0x0001 1) (cancelling.modTicket 7 fun t => { t with state := x.1, delivered := 16777215 }) with
      | .next u => (u.ticket 7).state == x.2 && (u.ticket 7).delivered == 16777215
      | _ => false) = true := by decide +kernel

theorem test_meets_BadFramesAreCounted :
    judgeFrame [] = .bad ∧ judgeFrame (closeFrame [0x81, 33]) = .bad ∧ (∀ st, ((linkIn st).port 1).link.state = st) ∧
      (linked.port 1).link.badRun ≠ 7 ∧ ((pageOpen.modLink 1 fun l => { l with badRun := 7 }).port 1).link.badRun = 7 ∧
      ((pageOpen.modLink 1 fun l => { l with badRun := 7 }).port 1).pageInHand := by
  unfold Port.pageInHand
  refine ⟨by decide +kernel, by decide +kernel, fun st => ?_, by decide +kernel, by decide +kernel, by decide +kernel⟩
  cases st <;> decide +kernel

/-- R114, R194: frames with a right CRC, bad by kind, length or credits and good at their bounds; and frames too short or with
a wrong CRC. -/
theorem test_meets_BadFramesAreCounted_judged :
    (∀ body ∈ [[], [0x80], [0x84, 1], [0x01, 0x00, 0x41], [0x81], [0x81, 1, 1], [0x81, 0], [0x81, 33], [0x82], [0x82, 0, 0],
      [0x83, 0, 0], [0x83, 0, 0, 0, 0]], judgeFrame (onWire body) = .bad) ∧
      (judgeFrame (onWire [0x81, 1]) = .trainAck 1 ∧ judgeFrame (onWire [0x81, 32]) = .trainAck 32 ∧
        judgeFrame (onWire [0x82, 0xF0]) = .credit 0 ∧ judgeFrame (onWire [0x83, 0x11, 0x02, 0x1F]) = .status 0x0211#16 15) ∧
      ∀ bytes ∈ [[], [0x82], [0x82, 1], [0x82, 1] ++ (checkBytes [0x82, 1]).reverse, [0x82, 2] ++ checkBytes [0x82, 1]],
        judgeFrame bytes = .bad := by decide +kernel

/-- Port 1 with every timer started at 0 ms 999 µs for 10 ms, the link in a state, at a reading of the time base. -/
def timed (st : LinkState) (now us : Nat) : State :=
  { (linkIn st).modLink 1 fun l =>
      { l with training := .running 0 999 10, silence := .running 0 999 10, idle := .running 0 999 10,
               warm := .running 0 999 10 } with
    milliseconds := BitVec.ofNat 32 now, microseconds := us }

/-- R31: the timer is due from 9 ms 999 µs on, 1 ms early, and not before. -/
theorem test_timersAreDueToWithinAMillisecond :
    let elapsed (s : State) := 1000 * (s.milliseconds - 0).toNat + s.microseconds - 999
    (elapsed (timed .ready 9 999) + 1000 = 1000 * 10 ∧ (timed .ready 9 999).due ((timed .ready 9 999).port 1).link.silence) ∧
      elapsed (timed .ready 9 998) + 1000 < 1000 * 10 ∧
      (timed .ready 9 998).due ((timed .ready 9 998).port 1).link.silence = false ∧
      (timed .ready 9 0).due ((timed .ready 9 0).port 1).link.silence = false := by
  decide +kernel

theorem test_meets_SilenceAndTrainingTimersExpire :
    (∀ st, ((timed st 9 999).port 1).link.silence = .running 0 999 10 ∧
      ((timed st 9 999).port 1).link.training = .running 0 999 10 ∧ ((timed st 9 999).port 1).link.state = st) ∧
      1000 * 10 ≤ 1000 * ((timed .ready 9 999).milliseconds - 0).toNat + (timed .ready 9 999).microseconds - 999 + 1000 ∧
      ((timed .ready 9 999).port 1).pageInHand ∧
      1000 * ((timed .ready 9 998).milliseconds - 0).toNat + (timed .ready 9 998).microseconds - 999 + 1000 < 1000 * 10 := by
  unfold Port.pageInHand
  refine ⟨fun st => ?_, by decide +kernel, by decide +kernel, by decide +kernel⟩
  cases st <;> decide +kernel

theorem test_meets_IdleAndWarmTimersExpire :
    (((timed .ready 9 999).port 1).link.idle = .running 0 999 10 ∧ ((timed .waking 9 999).port 1).link.warm = .running 0 999 10) ∧
      1000 * 10 ≤ 1000 * ((timed .ready 9 999).milliseconds - 0).toNat + (timed .ready 9 999).microseconds - 999 + 1000 ∧
      1000 * ((timed .ready 9 998).milliseconds - 0).toNat + (timed .ready 9 998).microseconds - 999 + 1000 < 1000 * 10 ∧
      (¬∃ e ∈ ((timed .ready 9 999).port 1).queue, (timed .ready 9 999).canStart e.slot) ∧
      ((twoQueued .ready).dispatches 1 ∧ ∃ e ∈ ((twoQueued .ready).port 1).queue, (twoQueued .ready).canStart e.slot) ∧
      ((timed .waking 9 999).port 1).link.onlineSeen = false ∧
      (((timed .waking 9 999).modLink 1 fun l => { l with onlineSeen := true }).port 1).link.onlineSeen = true := by
  refine ⟨by decide +kernel, by decide +kernel, by decide +kernel, ?_,
    ⟨(test_meets_DispatchStartsTheFirstStartable.1 .ready).1, ⟨7, .normal⟩, by decide +kernel,
      test_meets_DispatchStartsTheFirstStartable.2.2.2.1⟩, by decide +kernel, by decide +kernel⟩
  rw [(by decide +kernel : ((timed .ready 9 999).port 1).queue = [])]
  simp

/-! ### Invariants -/

/-- A state a frame is about to be sent in. -/
def aboutToSend : State := { sending with pending := [.dataFrame 1] }

theorem test_meets_StepsKeepReservationsMatched : aboutToSend.reservationsMatch ∧ ∃ t, step aboutToSend = .next t := by
  refine ⟨?_, _, rfl⟩
  unfold State.reservationsMatch
  decide +kernel

theorem test_meets_StepsKeepQuotaSound : aboutToSend.quotaSound ∧ ∃ t, step aboutToSend = .next t := by
  refine ⟨?_, _, rfl⟩
  unfold State.quotaSound
  decide +kernel

/-- The same with every port settled. -/
def settledToSend : State := { sending.settle with pending := [.dataFrame 1] }

theorem settledLaw_withPending (u : State) (q : List Instr) (h : u.settledLaw) :
    ({ u with pending := q } : State).settledLaw := h

theorem test_meets_StepsKeepTheBounds :
    aboutToSend.tagsBounded ∧ aboutToSend.creditsBounded ∧ aboutToSend.pageListsSound ∧ aboutToSend.fetchesBounded ∧
      (∃ t, step aboutToSend = .next t) ∧ settledToSend.settledLaw ∧ ∃ t, step settledToSend = .next t := by
  refine ⟨?_, ?_, ?_, ?_, ⟨_, rfl⟩,
    settledLaw_withPending sending.settle [.dataFrame 1] (settledLaw_of_settled (settled_settle sending) ?_), _, rfl⟩
  · unfold State.tagsBounded
    decide +kernel
  · unfold State.creditsBounded
    decide +kernel
  · unfold State.pageListsSound Port.opensNewestOnly
    decide +kernel
  · unfold State.fetchesBounded
    decide +kernel
  · intro p since us ms h
    rw [(by decide +kernel : ∀ p, (sending.port p).link.idle = .stopped) p] at h
    cases h

theorem running_imageSound : running.imageSound := by
  intro loc
  unfold outOfRange
  cases loc with
  | ticketWindow | meterWindow | spoolWindow | ring | consume => decide +kernel
  | markRule n => revert n; decide +kernel
  | pacing n => revert n; decide +kernel
  | port p => revert p; decide +kernel
  | condition p c => revert p c; decide +kernel
  | account a => revert a; decide +kernel

/-- A record write waiting in the ring's first entry, a dropped one granted, and the grant's answer about to be served. -/
def recordsOut : State := { running with
  relay := { running.relay with inFlight := some latch }
  msp := { running.msp with
    waiting := [⟨.record false, true, 0x200000, 32, allOn 32, List.replicate 32 0⟩]
    outstanding := [⟨0, ⟨.record true, true, 0x304000, 32, allOn 32, List.replicate 32 0⟩⟩], nextGrant := 1 }
  pending := [.alertWriteAnswer 0 true] }

theorem test_meets_StepsKeepTheBounds_windows :
    recordsOut.imageSound ∧ recordsOut.heldInReset ∧ recordsOut.windowsSound ∧ recordsOut.ringSound ∧
      ∃ t, step recordsOut = .next t := by
  refine ⟨running_imageSound, fun h => absurd h (by decide), ⟨running_windowsSound.1, ?_⟩, ?_, _, rfl⟩
  · unfold State.apart
    decide +kernel
  · unfold State.ringSound State.apart
    decide +kernel

theorem test_meets_StepsKeepTheBounds_pages : aboutToSend.pageCountsBounded := by
  unfold State.pageCountsBounded
  decide +kernel

/-- An ALERT_TAKE about to be taken. -/
def aboutToTake : State := { twoRecords with pending := [.alertTake (cmd 0x30 0 0)] }

theorem test_meets_StepsKeepTheRelaySound :
    aboutToTake.stackNested ∧ aboutToTake.backlogOrdered ∧ aboutToTake.attnJudged ∧ aboutToTake.shadowMatches ∧
      ∃ t, step aboutToTake = .next t := by
  refine ⟨?_, ?_, ?_, ?_, _, rfl⟩
  · unfold State.stackNested
    decide +kernel
  · unfold State.backlogOrdered
    decide +kernel
  · refine ⟨fun _ => Or.inr ⟨.job, by decide +kernel, ?_⟩, fun _ => by decide +kernel⟩
    intro top h
    cases h
  · unfold State.shadowMatches
    decide +kernel

/-- A record write refused with the latch in flight and another raised since. -/
def aboutToFault : State := { recordGranted with
  relay := { recordGranted.relay with backlog := [{ latch with cls := .down, source := 15 }, latch,
    { latch with cls := .job, source := 255 }] }
  pending := [.alertWriteAnswer 0 false] }

theorem test_meets_StepsKeepTheRelaySound_sources :
    aboutToFault.sourcesInRange ∧ (∀ k ∈ aboutToFault.relay.backlog, k.source < 256) ∧
      ∃ t, step aboutToFault = .next t := by
  refine ⟨⟨by decide +kernel, ?_⟩, by decide +kernel, _, rfl⟩
  intro l h
  cases h
  decide

/-- Ticket 8 as it stands in port 1's queue. -/
def waitingTicket : Ticket := ticketIn .queued

/-- Ticket 7 ACTIVE with its page open, 8 QUEUED behind it, 9 POSTING, guards not yet risen. -/
def unguarded : State := ((pageOpen.setTicket 8 waitingTicket).setTicket 9 (ticketIn .posting)).setQueue 1 [⟨8, .normal⟩]

/-- The same with the guards risen for 7 and 8. -/
def waitingForFrame : State :=
  { (unguarded.guardRise mirror).guardRise mirror with fetcher := ⟨[9], []⟩, pending := [.dataFrame 1] }

/-- The job with the second copy's first line asked for. -/
def jobAhead : Job := { job with cursor := some ⟨2, 64⟩ }

/-- The same with that line's fetch granted. -/
def working : State :=
  { (waitingForFrame.modTicket 7 fun t => { t with fetchCount := 1 }).modEngine 1 fun e => { e with job := some jobAhead } with
    msp := { waitingForFrame.msp with
      outstanding := [⟨0, ⟨.lineFetch 1 .current 2 0, false, 0x400000000, 64, [], []⟩⟩], nextGrant := 1 } }

/-- The ticket in hand as it stands in `working`. -/
def ticketInHand : Ticket :=
  { ticketIn .active with sending := true, copy := 1, page := 1, entryCount := 1, fetchCount := 1 }

theorem working_port (p : PortId) : working.port p = if p = 1 then working.port 1 else Port.reset := by
  revert p
  decide +kernel

theorem unguarded_guard (b : Fin 4096) : unguarded.guard b = 0 :=
  (by simp [State.guard, tget, State.reset] : State.reset.guard b = 0)

theorem working_guardLaw : working.guardLaw := by
  intro b
  have e : working.guard b = ((unguarded.guardRise mirror).guardRise mirror).guard b := rfl
  have i1 : (unguarded.guardRise mirror).image = working.image := rfl
  have i2 : unguarded.image = working.image := rfl
  have l : working.tickets.toList = List.replicate 7 Ticket.reset ++
      ([ticketInHand, waitingTicket, ticketIn .posting] ++ List.replicate 246 Ticket.reset) := by decide +kernel
  have m1 : ticketInHand.mirror = some mirror := rfl
  have m2 : waitingTicket.mirror = some mirror := rfl
  have t1 : working.touches mirror b = isTouchedBlock working.image.spoolWindow mirror b := rfl
  rw [e, guard_guardRise, guard_guardRise, l, i1, i2, unguarded_guard]
  simp only [List.countP_append, List.countP_cons, List.countP_nil, List.countP_replicate, m1, m2, Option.any_some, t1]
  cases isTouchedBlock working.image.spoolWindow mirror b <;> rfl

theorem test_meets_StepsKeepTheTicketLaws : working.ticketLaws ∧ ∃ t, step working = .next t := by
  refine ⟨⟨working_guardLaw, ?_, ?_, ?_, ?_, ?_, ?_⟩, _, rfl⟩
  · intro p
    rw [working_port]
    by_cases hp : p = 1
    · subst hp
      refine ⟨by decide +kernel, fun t => ?_⟩
      rw [if_pos rfl, (by decide +kernel : (working.port 1).queue = [⟨8, .normal⟩])]
      by_cases ht : t = 8
      · subst ht
        exact ⟨fun _ => ⟨by decide +kernel, mirror, by decide +kernel, rfl⟩, fun _ => by decide⟩
      · refine ⟨fun h => absurd (by simpa using h) ht, fun h => absurd h.1 ?_⟩
        revert ht
        revert t
        decide +kernel
    · rw [if_neg hp]
      refine ⟨by decide, fun t => ⟨fun h => absurd h (by simp [Port.reset]), ?_⟩⟩
      rintro ⟨h, m, hm, rfl⟩
      have ht : ∀ t, (working.ticket t).state = .queued → t = 8 := by decide +kernel
      rw [ht t h, (by decide +kernel : (working.ticket 8).mirror = some mirror)] at hm
      cases hm
      exact absurd rfl hp
  · unfold State.orderLaw
    decide +kernel
  · exact ⟨by decide +kernel, by decide +kernel, fun x h => nomatch h⟩
  · have h : ∀ t, (working.ticket t).state.inUse = true → (working.ticket t).mirror = some mirror := by decide +kernel
    exact fun t ht => ⟨mirror, h t ht, by decide +kernel, by decide +kernel, by decide +kernel⟩
  · intro p j hj
    rw [working_port] at hj
    by_cases hp : p = 1
    · subst hp
      rw [if_pos rfl, (by decide +kernel : (working.port 1).engine.job = some jobAhead)] at hj
      cases hj
      exact ⟨by decide +kernel, mirror, by decide +kernel, rfl⟩
    · rw [if_neg hp] at hj
      cases hj
  · refine ⟨fun p e he => ?_, by decide +kernel⟩
    rw [working_port] at he
    by_cases hp : p = 1
    · subst hp
      rw [if_pos rfl, (by decide +kernel : (working.port 1).pages = [openEntry])] at he
      rw [List.mem_singleton.1 he]
      exact ⟨by decide +kernel, mirror, by decide +kernel, rfl⟩
    · rw [if_neg hp] at he
      cases he

theorem working_lines (p : PortId) : working.currentLines p = if p = 1 then [⟨2, 0⟩] else [] := by
  revert p
  decide +kernel

theorem test_meets_StepsKeepTheTicketLaws_fetches : working.fetchLaws := by
  refine ⟨by unfold State.namesLaw; decide +kernel, ⟨fun r h => (nomatch h), ?_⟩, ?_, ?_, ?_, ?_, ?_⟩
  · intro p hj
    rw [working_lines, if_neg]
    rintro rfl
    revert hj
    decide +kernel
  · unfold State.idleLaw
    decide +kernel
  · intro t g hg
    rw [(by rfl : working.msp.outstanding = [⟨0, ⟨.lineFetch 1 .current 2 0, false, 0x400000000, 64, [], []⟩⟩]),
      List.mem_singleton] at hg
    subst hg
    exact fun h => nomatch h
  · unfold State.countLaw
    decide +kernel
  · intro p j hj
    rw [working_port] at hj
    by_cases hp : p = 1
    · subst hp
      rw [if_pos rfl, (by decide +kernel : (working.port 1).engine.job = some jobAhead)] at hj
      cases hj
      rw [working_lines, if_pos rfl]
      refine ⟨?_, ?_, by decide +kernel, ?_⟩
      · unfold Job.linesApart
        decide +kernel
      · unfold Job.unframed Job.inSequence
        decide +kernel
      · intro c hc
        cases hc
        unfold Job.inSequence
        decide +kernel
    · rw [if_neg hp] at hj
      cases hj
  · unfold State.restLaw
    decide +kernel

theorem test_meets_StepsKeepTheTicketLaws_open :
    working.pageListsSound ∧ working.openLaw ∧ (working.port 1).openEntry = some openEntry := by
  refine ⟨?_, fun p e he => ?_, by decide +kernel⟩
  · unfold State.pageListsSound Port.opensNewestOnly
    decide +kernel
  · rw [working_port] at he
    by_cases hp : p = 1
    · subst hp
      rw [if_pos rfl, (by decide +kernel : (working.port 1).openEntry = some openEntry)] at he
      cases he
      decide +kernel
    · rw [if_neg hp] at he
      cases he

theorem test_meets_ResetHoldsEveryBlock :
    ({ State.reset with pending := [.millisecondCountTick] } : State).heldInReset ∧
      ∃ t, step { State.reset with pending := [.millisecondCountTick] } = .next t :=
  ⟨fun _ => rfl, _, rfl⟩

end Sys2Proof.Tests
end

/-! ## RESET_N's level: no command but its own rows moves it -/

namespace Sys2Proof.Machine

/-! ### Alerts and tickets -/

@[simp] theorem raise_resetAsserted (s : State) (c : AlertClass) (n : Nat) (d : Detail) :
    (s.raise c n d).resetAsserted = s.resetAsserted := rfl

@[simp] theorem judgeAttn_resetAsserted (s : State) : s.judgeAttn.resetAsserted = s.resetAsserted := rfl

@[simp] theorem pickRecord_resetAsserted (s : State) : s.pickRecord.resetAsserted = s.resetAsserted := by
  unfold State.pickRecord
  split
  · rfl
  · split <;> rfl

@[simp] theorem restartRing_resetAsserted (s : State) : s.restartRing.resetAsserted = s.resetAsserted := by
  unfold State.restartRing State.dropRecordWrite
  simp only [judgeAttn_resetAsserted, State.modRelay_resetAsserted]
  split
  · rfl
  · split <;> rfl

@[simp] theorem consumeTo_resetAsserted (s : State) (v : BitVec 16) :
    (s.consumeTo v).resetAsserted = s.resetAsserted := rfl

@[simp] theorem recordAnswered_resetAsserted (s : State) (ok : Bool) :
    (s.recordAnswered ok).resetAsserted = s.resetAsserted := by
  unfold State.recordAnswered
  split <;> rfl

@[simp] theorem endTicket_resetAsserted (s : State) (t : Slot) (st : TicketState) (r : Reason) :
    (s.endTicket t st r).resetAsserted = s.resetAsserted := by
  rw [endTicket_frame]

@[simp] theorem drainTest_resetAsserted (s : State) (t : Slot) : (s.drainTest t).resetAsserted = s.resetAsserted := by
  unfold State.drainTest
  simp only
  split
  · split <;> simp
  · rfl

@[simp] theorem claimDeliver_resetAsserted (s : State) (a : AccountId) :
    (s.claimDeliver a).resetAsserted = s.resetAsserted := by
  unfold State.claimDeliver
  simp only
  split <;> rfl

@[simp] theorem presentTicketFetch_resetAsserted (s : State) :
    s.presentTicketFetch.resetAsserted = s.resetAsserted := by
  unfold State.presentTicketFetch
  split
  · rfl
  · split <;> rfl

@[simp] theorem ticketFetchGranted_resetAsserted (s : State) :
    s.ticketFetchGranted.resetAsserted = s.resetAsserted := by
  unfold State.ticketFetchGranted
  split <;> simp

@[simp] theorem postTicket_resetAsserted (s : State) (t : Slot) : (s.postTicket t).resetAsserted = s.resetAsserted := by
  simp [State.postTicket]

@[simp] theorem judgeTicket_resetAsserted (s : State) (t : Slot) (a : KeptAnswer) :
    (s.judgeTicket t a).resetAsserted = s.resetAsserted := by
  unfold State.judgeTicket
  split <;> rfl

/-! ### Engines -/

@[simp] theorem hand_resetAsserted (s : State) (p : PortId) (f : Frame) : (s.hand p f).resetAsserted = s.resetAsserted :=
  rfl

@[simp] theorem activate_resetAsserted (s : State) (p : PortId) (t : Slot) :
    (s.activate p t).resetAsserted = s.resetAsserted := by
  unfold State.activate
  simp only
  split <;> simp

@[simp] theorem dispatch_resetAsserted (s : State) (p : PortId) : (s.dispatch p).resetAsserted = s.resetAsserted := by
  unfold State.dispatch
  split <;> simp

@[simp] theorem pageEnded_resetAsserted (s : State) : s.pageEnded.resetAsserted = s.resetAsserted := by
  rw [pageEnded_frame]

@[simp] theorem closePage_resetAsserted (s : State) (p : PortId) (j : Job) (f : FramePlan) :
    (s.closePage p j f).resetAsserted = s.resetAsserted := by
  unfold State.closePage
  simp only
  split <;> simp [State.claimClose]

@[simp] theorem handData_resetAsserted (s : State) (p : PortId) (payload : List Byte) :
    (s.handData p payload).resetAsserted = s.resetAsserted := rfl

@[simp] theorem openPage_resetAsserted (s : State) (p : PortId) (j : Job) :
    (s.openPage p j).resetAsserted = s.resetAsserted := rfl

@[simp] theorem sendFrame_resetAsserted (s : State) (p : PortId) : (s.sendFrame p).resetAsserted = s.resetAsserted := by
  unfold State.sendFrame
  split
  · rfl
  · split
    · rfl
    · simp only [State.settle_resetAsserted]
      split <;> split <;> simp

@[simp] theorem withdrawOpen_resetAsserted (s : State) (p : PortId) :
    (s.withdrawOpen p).resetAsserted = s.resetAsserted := by
  unfold State.withdrawOpen
  split
  · rfl
  · simp only [pageEnded_resetAsserted]
    split <;> rfl

@[simp] theorem stopEngine_resetAsserted (s : State) (p : PortId) (t : Slot) :
    (s.stopEngine p t).resetAsserted = s.resetAsserted := by
  simp [State.stopEngine, State.dropJob, State.remarkFetches, State.takeBackFetch]

@[simp] theorem lineAnswered_resetAsserted (s : State) (p : PortId) (mark : FetchMark) (copy offset : Nat) (ok : Bool)
    (data : List Byte) : (s.lineAnswered p mark copy offset ok data).resetAsserted = s.resetAsserted := by
  unfold State.lineAnswered
  split
  · simp
  · simp [State.fetchDone]
  · split
    · simp
    · simp only
      split <;> simp [State.lineArrives, State.memoryFailure, State.fetchDone]

/-! ### Delivery, the rewind and the links -/

@[simp] theorem deliverEntry_resetAsserted (s : State) (p : PortId) (e : Entry) (rest : List Entry) :
    (s.deliverEntry p e rest).resetAsserted = s.resetAsserted := by
  unfold State.deliverEntry State.deliveryTest
  simp only
  split
  · split <;> simp
  · simp
  · simp
  · simp

@[simp] theorem deliverSheets_resetAsserted (s : State) (p : PortId) (n : Nat) :
    (s.deliverSheets p n).resetAsserted = s.resetAsserted := by
  induction n generalizing s with
  | zero => rfl
  | succ n ih =>
    unfold State.deliverSheets
    split
    · rfl
    · split
      · rw [ih, deliverEntry_resetAsserted]
      · rfl

/-- A fold keeps RESET_N's level when each of its steps does. -/
theorem foldl_resetAsserted {α : Type} (f : State → α → State)
    (h : ∀ s x, (f s x).resetAsserted = s.resetAsserted) (xs : List α) (s : State) :
    (xs.foldl f s).resetAsserted = s.resetAsserted := by
  induction xs generalizing s with
  | nil => rfl
  | cons x xs ih => rw [List.foldl_cons, ih, h]

@[simp] theorem rewindTicket_resetAsserted (pages : List Entry) (job : Option Job) (s : State) (t : Slot) :
    (s.rewindTicket pages job t).resetAsserted = s.resetAsserted := by
  unfold State.rewindTicket
  split <;> simp

@[simp] theorem rewindStop_resetAsserted (s : State) (p : PortId) :
    (s.rewindStop p).resetAsserted = s.resetAsserted := by
  unfold State.rewindStop
  split
  · rfl
  · simp [State.dropJob, State.remarkFetches, State.takeBackFetch]

@[simp] theorem rewind_resetAsserted (s : State) (p : PortId) : (s.rewind p).resetAsserted = s.resetAsserted := by
  have hspoil (v : State) (es : List Entry) : (es.foldl State.spoilEntry v).resetAsserted = v.resetAsserted :=
    foldl_resetAsserted State.spoilEntry (fun _ _ => rfl) es v
  simp only [State.rewind, State.enterJamStop, State.modEngine_resetAsserted, State.modPort_resetAsserted]
  rw [foldl_resetAsserted _ fun v t => rewindTicket_resetAsserted _ _ v t]
  simp [State.spoilAll, hspoil]

@[simp] theorem judgeJamStop_resetAsserted (s : State) (p : PortId) :
    (s.judgeJamStop p).resetAsserted = s.resetAsserted := by
  unfold State.judgeJamStop
  split <;> rfl

@[simp] theorem serveStatus_resetAsserted (s : State) (p : PortId) (bits : BitVec 16) (n : Nat) :
    (s.serveStatus p bits n).resetAsserted = s.resetAsserted := by
  have hedges (v : State) (after : Vector HeldCondition 4) (hand : Option Slot) (cs : List CondId) :
      (cs.foldl (State.raiseEdge p after bits hand) v).resetAsserted = v.resetAsserted :=
    foldl_resetAsserted (State.raiseEdge p after bits hand) (fun _ _ => rfl) cs v
  simp only [State.serveStatus, State.watchStatus]
  split <;> simp [hedges]

@[simp] theorem handTrain_resetAsserted (s : State) (p : PortId) : (s.handTrain p).resetAsserted = s.resetAsserted := rfl

@[simp] theorem linkLoss_resetAsserted (s : State) (p : PortId) : (s.linkLoss p).resetAsserted = s.resetAsserted := by
  simp [State.linkLoss, State.raiseLinkDown]

@[simp] theorem trainingFailure_resetAsserted (s : State) (p : PortId) :
    (s.trainingFailure p).resetAsserted = s.resetAsserted := rfl

@[simp] theorem wake_resetAsserted (s : State) (p : PortId) : (s.wake p).resetAsserted = s.resetAsserted := by
  simp [State.wake]

@[simp] theorem startSilence_resetAsserted (s : State) (p : PortId) :
    (s.startSilence p).resetAsserted = s.resetAsserted := rfl

@[simp] theorem becomeReady_resetAsserted (s : State) (p : PortId) :
    (s.becomeReady p).resetAsserted = s.resetAsserted := by
  simp [State.becomeReady]

@[simp] theorem goodFrame_resetAsserted (s : State) (p : PortId) : (s.goodFrame p).resetAsserted = s.resetAsserted := rfl

@[simp] theorem takeTrainAck_resetAsserted (s : State) (p : PortId) (n : Nat) :
    (s.takeTrainAck p n).resetAsserted = s.resetAsserted := by
  unfold State.takeTrainAck
  split <;> simp

@[simp] theorem takeCredit_resetAsserted (s : State) (p : PortId) (n : Nat) :
    (s.takeCredit p n).resetAsserted = s.resetAsserted := by
  unfold State.takeCredit
  split <;> simp

@[simp] theorem statusInWaking_resetAsserted (s : State) (p : PortId) (bits : BitVec 16) :
    (s.statusInWaking p bits).resetAsserted = s.resetAsserted := by
  unfold State.statusInWaking
  split
  · simp only
    split <;> simp
  · rfl

@[simp] theorem takeStatus_resetAsserted (s : State) (p : PortId) (bits : BitVec 16) (n : Nat) :
    (s.takeStatus p bits n).resetAsserted = s.resetAsserted := by
  unfold State.takeStatus
  split
  · simp
  · simp
  · simp only [State.settle_resetAsserted]
    split <;> simp
  · rfl

@[simp] theorem takeBadFrame_resetAsserted (s : State) (p : PortId) :
    (s.takeBadFrame p).resetAsserted = s.resetAsserted := by
  simp only [State.takeBadFrame]
  split
  · split <;> simp
  · rfl

@[simp] theorem receive_resetAsserted (s : State) (p : PortId) (bytes : List Byte) :
    (s.receive p bytes).resetAsserted = s.resetAsserted := by
  unfold State.receive
  split
  · rfl
  · split <;> simp

/-! ### Timers -/

@[simp] theorem trainingTimer_resetAsserted (s : State) (p : PortId) :
    (s.trainingTimer p).resetAsserted = s.resetAsserted := by
  unfold State.trainingTimer State.trainingExpires
  split
  · split <;> simp
  · rfl

@[simp] theorem silenceTimer_resetAsserted (s : State) (p : PortId) :
    (s.silenceTimer p).resetAsserted = s.resetAsserted := by
  unfold State.silenceTimer
  split <;> simp

@[simp] theorem idleTimer_resetAsserted (s : State) (p : PortId) : (s.idleTimer p).resetAsserted = s.resetAsserted := by
  unfold State.idleTimer State.idleExpires
  split
  · split <;> simp
  · rfl

@[simp] theorem warmTimer_resetAsserted (s : State) (p : PortId) : (s.warmTimer p).resetAsserted = s.resetAsserted := by
  unfold State.warmTimer State.warmExpires
  split
  · simp only
    split <;> simp
  · rfl

@[simp] theorem endWindow_resetAsserted (s : State) (p : PortId) : (s.endWindow p).resetAsserted = s.resetAsserted := by
  unfold State.endWindow
  split <;> simp

@[simp] theorem wakeCause_resetAsserted (s : State) (p : PortId) : (s.wakeCause p).resetAsserted = s.resetAsserted := by
  unfold State.wakeCause
  split <;> simp

@[simp] theorem tick_resetAsserted (s : State) : s.tick.resetAsserted = s.resetAsserted := by
  unfold State.tick
  split <;> rfl

@[simp] theorem idle_resetAsserted (s : State) : s.idle.resetAsserted = s.resetAsserted := by
  rw [idle_frame]

/-! ### Commands -/

@[simp] theorem onPort_resetAsserted (s : State) (arg : Byte) (f : PortId → State × CommandResult)
    (h : ∀ p, (f p).1.resetAsserted = s.resetAsserted) : (s.onPort arg f).1.resetAsserted = s.resetAsserted := by
  unfold State.onPort
  split
  · exact h _
  · rfl

@[simp] theorem onAccount_resetAsserted (s : State) (arg : Byte) (f : AccountId → State × CommandResult)
    (h : ∀ a, (f a).1.resetAsserted = s.resetAsserted) : (s.onAccount arg f).1.resetAsserted = s.resetAsserted := by
  unfold State.onAccount
  split
  · exact h _
  · rfl

@[simp] theorem onQuota_resetAsserted (s : State) (arg : Byte) (value : Nat) (f : AccountId → State × CommandResult)
    (h : ∀ a, (f a).1.resetAsserted = s.resetAsserted) : (s.onQuota arg value f).1.resetAsserted = s.resetAsserted := by
  refine onAccount_resetAsserted s arg _ fun a => ?_
  split
  · rfl
  · simp [h]

@[simp] theorem commandStop_resetAsserted (s : State) : s.commandStop.1.resetAsserted = s.resetAsserted := by
  unfold State.commandStop
  split
  · simp [State.setQuiesceHolds]
  · rfl
  · rfl

@[simp] theorem portFlush_resetAsserted (s : State) (p : PortId) : (s.portFlush p).1.resetAsserted = s.resetAsserted := by
  unfold State.portFlush
  split
  · rfl
  · rw [State.settlePort_resetAsserted, foldl_resetAsserted _ fun v e => endTicket_resetAsserted v _ _ _]
    simp

@[simp] theorem portWake_resetAsserted (s : State) (p : PortId) : (s.portWake p).1.resetAsserted = s.resetAsserted := by
  unfold State.portWake
  split <;> simp

@[simp] theorem portReset_resetAsserted (s : State) (p : PortId) : (s.portReset p).1.resetAsserted = s.resetAsserted := by
  unfold State.portReset
  split <;> simp [State.resetLink]

@[simp] theorem portResume_resetAsserted (s : State) (p : PortId) :
    (s.portResume p).1.resetAsserted = s.resetAsserted := by
  unfold State.portResume
  split <;> simp

@[simp] theorem quotaSet_resetAsserted (s : State) (a : AccountId) (v : Nat) :
    (s.quotaSet a v).1.resetAsserted = s.resetAsserted := by
  unfold State.quotaSet
  split <;> rfl

@[simp] theorem commandMeterClear_resetAsserted (s : State) (arg : Byte) :
    (s.commandMeterClear arg).1.resetAsserted = s.resetAsserted := by
  unfold State.commandMeterClear
  split
  · rfl
  · exact onAccount_resetAsserted s arg _ fun _ => rfl

@[simp] theorem alertTake_resetAsserted (s : State) : s.alertTake.1.resetAsserted = s.resetAsserted := by
  unfold State.alertTake
  split
  · rfl
  · split
    · rfl
    · split <;> rfl

@[simp] theorem alertDone_resetAsserted (s : State) : s.alertDone.1.resetAsserted = s.resetAsserted := by
  unfold State.alertDone
  split <;> rfl

theorem ite_resetAsserted {c : Prop} [Decidable c] {x y : State × CommandResult} {b : Bool}
    (hx : x.1.resetAsserted = b) (hy : y.1.resetAsserted = b) : (if c then x else y).1.resetAsserted = b := by
  split
  · exact hx
  · exact hy

@[simp] theorem perform_resetAsserted (s : State) (code arg : Byte) (value : Nat) :
    (s.perform code arg value).1.resetAsserted = s.resetAsserted :=
  ite_resetAsserted (State.settle_resetAsserted _) <|
  ite_resetAsserted (commandStop_resetAsserted s) <|
  ite_resetAsserted (onPort_resetAsserted s arg _ fun p => State.settlePort_resetAsserted _ p) <|
  ite_resetAsserted (onPort_resetAsserted s arg _ fun p => State.settlePort_resetAsserted _ p) <|
  ite_resetAsserted (onPort_resetAsserted s arg _ (portFlush_resetAsserted s)) <|
  ite_resetAsserted (onPort_resetAsserted s arg _ (portWake_resetAsserted s)) <|
  ite_resetAsserted (onPort_resetAsserted s arg _ (portReset_resetAsserted s)) <|
  ite_resetAsserted (onPort_resetAsserted s arg _ (portResume_resetAsserted s)) <|
  ite_resetAsserted (onQuota_resetAsserted s arg value _ fun a => quotaSet_resetAsserted s a value) <|
  ite_resetAsserted (onQuota_resetAsserted s arg value _ fun _ => rfl) <|
  ite_resetAsserted (commandMeterClear_resetAsserted s arg) <|
  ite_resetAsserted (alertTake_resetAsserted s) <|
  ite_resetAsserted (alertDone_resetAsserted s) rfl

@[simp] theorem takeCommand_resetAsserted (s : State) (code arg : Byte) (value : Nat) :
    (s.takeCommand code arg value).resetAsserted = s.resetAsserted := by
  simp [State.takeCommand]

@[simp] theorem cancelQueued_resetAsserted (s : State) (t : Slot) :
    (s.cancelQueued t).resetAsserted = s.resetAsserted := by
  unfold State.cancelQueued
  split <;> simp

@[simp] theorem cancelSent_resetAsserted (s : State) (t : Slot) : (s.cancelSent t).resetAsserted = s.resetAsserted := by
  simp only [State.cancelSent]
  split
  · simp only [State.settle_resetAsserted]
    split <;> simp
  · simp

@[simp] theorem takeJob_resetAsserted (s : State) (t : Slot) (addr : Addr) (code : Byte) :
    (s.takeJob t addr code).resetAsserted = s.resetAsserted := by
  simp only [State.takeJob]
  split_ifs
  · split <;> simp [State.postFault]
  · split <;> simp [State.postFault]
  · split <;> simp [State.postFault, State.releaseTicket]
  · simp [State.postFault]

/-! ### The traffic path -/

@[simp] theorem capture_resetAsserted (s : State) (parts : List SettingPart) :
    (s.capture parts).resetAsserted = s.resetAsserted := by
  have hpart (v : State) (x : SettingPart) : (State.partCaptured s.image v x).resetAsserted = v.resetAsserted := by
    unfold State.partCaptured State.portCaptured
    split
    · repeat' split
      all_goals rfl
    · rfl
  simp only [State.capture, State.settle_resetAsserted]
  rw [foldl_resetAsserted _ hpart]
  split <;> split <;> simp

@[simp] theorem pass_resetAsserted (s : State) (tag : Tag) (isWrite : Bool) (addr size : Nat) (es : List Bool)
    (ds : List Byte) : (s.pass tag isWrite addr size es ds).resetAsserted = s.resetAsserted := by
  unfold State.pass
  split <;> rfl

@[simp] theorem takeRead_resetAsserted (s : State) (r : ReadRequest) : (s.takeRead r).resetAsserted = s.resetAsserted := by
  simp only [State.takeRead, State.classifyRead]
  split_ifs <;> simp [State.dataError]

@[simp] theorem refuse_resetAsserted (s : State) (w : WriteRequest) (reason : RefusalReason) :
    (s.refuse w reason).resetAsserted = s.resetAsserted := rfl

@[simp] theorem ack_resetAsserted (s : State) (tag : Tag) (st : AckStatus) :
    (s.ack tag st).resetAsserted = s.resetAsserted := rfl

@[simp] theorem forwardWrite_resetAsserted (s : State) (w : WriteRequest) :
    (s.forwardWrite w).resetAsserted = s.resetAsserted := by
  simp [State.forwardWrite]

@[simp] theorem classifyWrite_resetAsserted (s : State) (w : WriteRequest) :
    (s.classifyWrite w).resetAsserted = s.resetAsserted := by
  unfold State.classifyWrite
  split
  · simp
  · unfold State.proceed State.absorbCommand State.absorbPost
    repeat' split
    all_goals simp

@[simp] theorem takeWrite_resetAsserted (s : State) (w : WriteRequest) :
    (s.takeWrite w).resetAsserted = s.resetAsserted := by
  unfold State.takeWrite
  repeat' split
  all_goals simp

@[simp] theorem setHeld_resetAsserted (s : State) (rs : List HostRequest) :
    (s.setHeld rs).resetAsserted = s.resetAsserted := rfl

@[simp] theorem takeRequest_resetAsserted (s : State) (r : HostRequest) :
    (s.takeRequest r).resetAsserted = s.resetAsserted := by
  cases r <;> simp [State.takeRequest]

@[simp] theorem hostRequest_resetAsserted (s : State) (r : HostRequest) :
    (s.hostRequest r).resetAsserted = s.resetAsserted := by
  unfold State.hostRequest
  split <;> simp

@[simp] theorem unprompted_resetAsserted (s : State) : s.unprompted.resetAsserted = s.resetAsserted := by
  unfold State.unprompted
  split <;> simp [State.takeHeld]

@[simp] theorem passingAnswered_resetAsserted (s : State) (tag : Tag) (half : Half) (a : KeptAnswer) :
    (s.passingAnswered tag half a).resetAsserted = s.resetAsserted := by
  unfold State.passingAnswered
  split
  · rfl
  · simp only
    split <;> simp

/-! ### The memory side -/

@[simp] theorem presentSweep_resetAsserted (s : State) : s.presentSweep.resetAsserted = s.resetAsserted := by
  unfold State.presentSweep
  split <;> rfl

@[simp] theorem grantNext_resetAsserted (s : State) : s.grantNext.resetAsserted = s.resetAsserted := by
  unfold State.grantNext State.afterGrant
  split
  · rfl
  · split <;> simp

@[simp] theorem judgeHeads_resetAsserted (s : State) (xs : List InFlight) :
    (s.judgeHeads xs).resetAsserted = s.resetAsserted := by
  have haccepted (v : State) (t : Slot) : (v.dispatchAccepted t).resetAsserted = v.resetAsserted := by
    unfold State.dispatchAccepted
    split <;> simp
  induction xs generalizing s with
  | nil => rfl
  | cons x xs ih =>
    unfold State.judgeHeads
    split
    · rfl
    · rw [ih]
      split <;> simp [haccepted, State.judgeHead]

@[simp] theorem answered_resetAsserted (s : State) (owner : Owner) (a : KeptAnswer) :
    (s.answered owner a).resetAsserted = s.resetAsserted := by
  unfold State.answered
  split
  · simp
  · split <;> simp
  · simp [State.ticketFetchAnswered]
  · simp
  · simp only [State.sweepAnswered]
    split <;> rfl

@[simp] theorem memoryAnswers_resetAsserted (s : State) (kind : Owner → Bool) (n : Nat) (ok : Bool) (data : List Byte) :
    (s.memoryAnswers kind n ok data).resetAsserted = s.resetAsserted := by
  unfold State.memoryAnswers
  split <;> simp

end Sys2Proof.Machine

/-! ## Reset holds every block (R3, R20) -/

namespace Sys2Proof.Machine

/-- The part with RESET_N asserted: every block at its reset value, and what stands outside the blocks as given (the commands
waiting, the requests held, the model's own counters and the outputs; log entries 4, 8, 11 and 18). -/
def inReset (q : List Instr) (held : List HostRequest) (grants draws : Nat) (out : List Output) : State :=
  { State.reset with
    pending := q
    psp := { State.reset.psp with held := held }
    msp := { State.reset.msp with nextGrant := grants }
    draws := draws
    out := out }

theorem heldInReset_iff (s : State) :
    s.heldInReset ↔ (s.resetAsserted = true → ∃ q held n d o, s = inReset q held n d o) := by
  refine forall_congr' fun _ => ⟨fun h => ⟨_, _, _, _, _, h⟩, ?_⟩
  rintro ⟨q, held, n, d, o, rfl⟩
  rfl

theorem heldInReset_inReset (q : List Instr) (held : List HostRequest) (n d : Nat) (o : List Output) :
    (inReset q held n d o).heldInReset := fun _ => rfl

theorem heldInReset_of_released {s : State} (h : s.resetAsserted = false) : s.heldInReset :=
  fun h' => absurd h' (by simp [h])

theorem assertReset_eq (s : State) :
    s.assertReset = inReset s.pending s.psp.held s.msp.nextGrant s.draws [] := rfl

section
variable (q : List Instr) (held : List HostRequest) (n d : Nat) (o : List Output)

@[simp] theorem port_inReset (p : PortId) : (inReset q held n d o).port p = Port.reset := by
  simp [State.port, tget, inReset, State.reset]

@[simp] theorem clearOut_inReset : (inReset q held n d o).clearOut = inReset q held n d [] := rfl

/-! ### What arrives while RESET_N is asserted has no effect, or is held -/

@[simp] theorem hostRequest_inReset (r : HostRequest) :
    (inReset q held n d o).hostRequest r = inReset q (held ++ [r]) n d o := rfl

@[simp] theorem memoryAnswers_inReset (kind : Owner → Bool) (g : Nat) (ok : Bool) (data : List Byte) :
    (inReset q held n d o).memoryAnswers kind g ok data = inReset q held n d o := rfl

@[simp] theorem grantNext_inReset : (inReset q held n d o).grantNext = inReset q held n d o := rfl

@[simp] theorem pickRecord_inReset : (inReset q held n d o).pickRecord = inReset q held n d o := rfl

@[simp] theorem tick_inReset : (inReset q held n d o).tick = inReset q held n d o := rfl

@[simp] theorem dispatch_inReset (p : PortId) : (inReset q held n d o).dispatch p = inReset q held n d o := rfl

@[simp] theorem wakeCause_inReset (p : PortId) : (inReset q held n d o).wakeCause p = inReset q held n d o := by
  simp [State.wakeCause, Port.reset, Link.reset]

@[simp] theorem sendFrame_inReset (p : PortId) : (inReset q held n d o).sendFrame p = inReset q held n d o := by
  simp [State.sendFrame, Port.reset, Engine.reset]

@[simp] theorem endWindow_inReset (p : PortId) : (inReset q held n d o).endWindow p = inReset q held n d o := by
  simp [State.endWindow, State.paceDue, Port.reset, Engine.reset]

@[simp] theorem receive_inReset (p : PortId) (bytes : List Byte) :
    (inReset q held n d o).receive p bytes = inReset q held n d o :=
  receive_closed _ p bytes (by simp [Port.reset, Link.reset])

@[simp] theorem trainingTimer_inReset (p : PortId) :
    (inReset q held n d o).trainingTimer p = inReset q held n d o := by
  simp [State.trainingTimer, State.due, Port.reset, Link.reset]

@[simp] theorem silenceTimer_inReset (p : PortId) :
    (inReset q held n d o).silenceTimer p = inReset q held n d o := by
  simp [State.silenceTimer, State.due, Port.reset, Link.reset]

@[simp] theorem idleTimer_inReset (p : PortId) : (inReset q held n d o).idleTimer p = inReset q held n d o := by
  simp [State.idleTimer, State.due, Port.reset, Link.reset]

@[simp] theorem warmTimer_inReset (p : PortId) : (inReset q held n d o).warmTimer p = inReset q held n d o := by
  simp [State.warmTimer, State.warmDue, Port.reset, Link.reset]

end

/-- With RESET_N asserted a command holds a host's request, releases RESET_N, or changes nothing but the outputs. -/
theorem exec_inReset (i : Instr) (q : List Instr) (held : List HostRequest) (n d : Nat) (o : List Output) :
    (∃ held', exec i (inReset q held n d o) = .next (inReset q held' n d [])) ∨
      ∃ t, exec i (inReset q held n d o) = .next t ∧ t.resetAsserted = false := by
  cases i
  case resetNAssertion => exact .inl ⟨held, rfl⟩
  case resetNRelease a =>
    refine .inr ⟨_, rfl, ?_⟩
    rw [clearOut_inReset, State.releaseReset, if_pos (show (inReset q held n d []).resetAsserted = true from rfl),
      presentSweep_resetAsserted]
  case memoryGrant => exact .inl ⟨held, congrArg Host.Outcome.next (grantNext_inReset ..)⟩
  case recordWritePick => exact .inl ⟨held, congrArg Host.Outcome.next (pickRecord_inReset ..)⟩
  case millisecondCountTick => exact .inl ⟨held, congrArg Host.Outcome.next (tick_inReset ..)⟩
  case activation p => exact .inl ⟨held, congrArg Host.Outcome.next (dispatch_inReset ..)⟩
  case wakeCause p => exact .inl ⟨held, congrArg Host.Outcome.next (wakeCause_inReset ..)⟩
  case dataFrame p => exact .inl ⟨held, congrArg Host.Outcome.next (sendFrame_inReset ..)⟩
  case pacingWindowEnd p => exact .inl ⟨held, congrArg Host.Outcome.next (endWindow_inReset ..)⟩
  case trainingTimerExpiry p => exact .inl ⟨held, congrArg Host.Outcome.next (trainingTimer_inReset ..)⟩
  case silenceTimerExpiry p => exact .inl ⟨held, congrArg Host.Outcome.next (silenceTimer_inReset ..)⟩
  case idleTimerExpiry p => exact .inl ⟨held, congrArg Host.Outcome.next (idleTimer_inReset ..)⟩
  case warmTimerExpiry p => exact .inl ⟨held, congrArg Host.Outcome.next (warmTimer_inReset ..)⟩
  case trainAck | credit | status | badFrame => exact .inl ⟨held, congrArg Host.Outcome.next (receive_inReset ..)⟩
  case sweepWriteAnswer | passingResponse | ticketFetchAnswer | lineFetchAnswer | alertWriteAnswer =>
    exact .inl ⟨held, congrArg Host.Outcome.next (memoryAnswers_inReset ..)⟩
  all_goals exact .inl ⟨_, congrArg Host.Outcome.next (hostRequest_inReset ..)⟩

/-- After release only RESET_N_ASSERTION asserts RESET_N. -/
theorem exec_released (i : Instr) (s : State) (h : s.resetAsserted = false) :
    i = .resetNAssertion ∨ ∃ t, exec i s = .next t ∧ t.resetAsserted = false := by
  cases i
  case resetNAssertion => exact .inl rfl
  case resetNRelease a =>
    refine .inr ⟨_, rfl, ?_⟩
    rw [State.releaseReset, if_neg (by simp [h]), State.clearOut_resetAsserted, h]
  all_goals
    refine .inr ⟨_, rfl, ?_⟩
    simp [State.settingWrite, State.commandWrite, State.postWrite, h]

/-- Settles O59: from a state in reset by what each command does there, from a released one by the level every command but
the assertion keeps. -/
theorem resetHoldsEveryBlock : Obligations.ResetHoldsEveryBlock := by
  intro s t hs hstep
  cases hr : s.resetAsserted with
  | true =>
    obtain ⟨q, held, n, d, o, rfl⟩ := (heldInReset_iff s).1 hs hr
    cases q with
    | nil =>
      cases hstep
      exact heldInReset_inReset [] held n d []
    | cons i q =>
      obtain ⟨held', h⟩ | ⟨u, h, hu⟩ := exec_inReset i q held n d o
      · cases hstep.symm.trans h
        exact heldInReset_inReset q held' n d []
      · cases hstep.symm.trans h
        exact heldInReset_of_released hu
  | false =>
    cases hq : s.pending with
    | nil =>
      rw [step, hq] at hstep
      cases hstep
      exact heldInReset_of_released (by simp [hr])
    | cons i q =>
      rw [step, hq] at hstep
      obtain rfl | ⟨u, h, hu⟩ := exec_released i (s.withPending q) hr
      · cases hstep
        rw [assertReset_eq]
        exact heldInReset_inReset _ _ _ _ _
      · cases hstep.symm.trans h
        exact heldInReset_of_released hu

/-- Settles O2: the assertion is `assertReset`, which keeps what the statement names and takes the rest from `State.reset`. -/
theorem resetAssertionReturnsEveryBlock : Obligations.ResetAssertionReturnsEveryBlock :=
  fun s => congrArg Host.Outcome.next (assertReset_eq s.clearOut)

end Sys2Proof.Machine

/-! ## The state after reset meets every invariant -/

namespace Sys2Proof.Machine

@[simp] theorem reset_port (p : PortId) : State.reset.port p = Port.reset := port_inReset [] [] 0 0 [] p

@[simp] theorem reset_ticket (t : Slot) : State.reset.ticket t = Ticket.reset := by
  simp [State.ticket, tget, State.reset]

@[simp] theorem reset_account (a : AccountId) : State.reset.account a = Account.reset := by
  simp [State.account, tget, State.reset]

@[simp] theorem reset_guard (b : Fin 4096) : State.reset.guard b = 0 := by
  simp [State.guard, tget, State.reset]

@[simp] theorem reset_inHand (p : PortId) : State.reset.inHand p = none := by
  simp [State.inHand, Port.reset, Engine.reset]

theorem reset_openEntry : Port.reset.openEntry = none := rfl

/-- A sum over the ports that is 0 at each. -/
theorem sum_allPorts_zero (f : PortId → Nat) (h : ∀ p, f p = 0) : (allPorts.map f).sum = 0 := by
  rw [List.sum_eq_zero_iff]
  simp [h]

theorem reset_ticketLaws : State.reset.ticketLaws := by
  refine ⟨fun b => ?_, fun p => ?_, fun p => ?_, ?_, fun t h => ?_, fun p j h => ?_, fun p e h => ?_, fun t h => ?_⟩
  · rw [reset_guard, eq_comm, List.countP_eq_zero]
    intro t ht
    rw [State.reset, Vector.toList_replicate, List.mem_replicate] at ht
    simp [ht.2, Ticket.reset, TicketState.inUse]
  · simp [Port.reset, Ticket.reset]
  · simp [Port.reset]
  · refine ⟨List.nodup_nil, fun t => ?_, nofun⟩
    rw [reset_ticket]
    exact ⟨nofun, nofun⟩
  · rw [reset_ticket] at h
    cases h
  · rw [reset_port] at h
    cases h
  · rw [reset_port] at h
    cases h
  · rw [reset_ticket] at h
    cases h

theorem reset_fetchLaws : State.reset.fetchLaws := by
  refine ⟨⟨List.nodup_nil, nofun⟩, ⟨nofun, fun p _ => rfl⟩, fun p _ => ?_, nofun, fun t => ?_, fun p j h => ?_, fun t _ => ?_⟩
  · rw [reset_port]
    rfl
  · rw [reset_ticket, sum_allPorts_zero _ fun p => by simp]
    rfl
  · rw [reset_port] at h
    cases h
  · rw [reset_ticket]
    exact ⟨rfl, rfl⟩

theorem reset_reservationsMatch : State.reset.reservationsMatch := fun a => by
  rw [reset_account, State.entriesOf, sum_allPorts_zero _ fun p => by rw [reset_port]; rfl]
  rfl

theorem reset_policy (a : AccountId) : State.reset.policy a = .none := by
  have h : State.reset.accountWord a = 0x0000000100000000#64 := by
    simp [State.accountWord, tget, State.reset, defaultImage]
  rw [State.policy, h]
  decide

theorem reset_quotaSound : State.reset.quotaSound := fun a => by
  rw [reset_account, reset_policy]
  exact ⟨by decide, nofun, nofun⟩

theorem reset_settledLaw : State.reset.settledLaw := by
  refine ⟨fun p => ?_, fun p => ⟨fun h => ?_, fun _ => ?_⟩, fun p j h => ?_⟩
  · rw [judged_idle (by rw [reset_port]; decide) (by rw [reset_port]; rfl), reset_port]
    simp [Port.reset, Port.onHold, Engine.reset]
  · have hlink := h.1
    rw [reset_port] at hlink
    cases hlink
  · rw [reset_port]
    rfl
  · rw [reset_port] at h
    cases h

/-- Every setting's default value is in range and sets no unused bit (R21, R188). -/
theorem reset_imageSound : State.reset.imageSound := by
  have hrep {α : Type} {n : Nat} (x : α) (i : Fin n) : tget (Vector.replicate n x) i = x := by simp [tget]
  intro loc
  cases loc <;> simp only [State.reset, defaultImage, Image.get, hrep, outOfRange, fieldMask]
  case condition p c => revert c; decide
  all_goals decide

/-- With no window enabled only the control page is kept apart, and no record write is outstanding (R28). -/
theorem reset_apart : State.reset.apart State.reset.image false := by
  refine ⟨?_, nofun⟩
  have h : State.reset.keptApart State.reset.image false = [⟨0, 65536⟩] := by decide
  rw [h]
  exact List.pairwise_singleton _ _

theorem reset_windowsSound : State.reset.windowsSound := ⟨fun loc _ => (reset_imageSound loc).2, reset_apart⟩

theorem reset_ringSound : State.reset.ringSound :=
  ⟨reset_apart, nofun, Nat.zero_le _, nofun⟩

theorem reset_relay_sound : State.reset.stackNested ∧ State.reset.backlogOrdered ∧ State.reset.sourcesInRange ∧
    State.reset.attnJudged ∧ State.reset.shadowMatches := by
  refine ⟨List.Pairwise.nil, List.Pairwise.nil, ⟨nofun, nofun⟩, ⟨nofun, ?_⟩, rfl, nofun⟩
  rintro (h | ⟨c, hc, -⟩)
  · cases h
  · cases hc

theorem reset_bounds : State.reset.tagsBounded ∧ State.reset.creditsBounded ∧ State.reset.pageListsSound ∧
    State.reset.fetchesBounded ∧ State.reset.pageCountsBounded := by
  refine ⟨⟨Nat.zero_le _, Nat.zero_le _⟩, fun p => ?_, fun p => ?_, fun p => ⟨Nat.zero_le _, Nat.zero_le _⟩, fun t => ?_⟩
  · rw [reset_port]; exact Nat.zero_le _
  · rw [reset_port]; exact ⟨Nat.zero_le _, nofun⟩
  · rw [reset_ticket]; exact ⟨Nat.zero_le _, Nat.zero_le _⟩

/-- Settles O60, from the invariants above. -/
theorem resetMeetsTheInvariants : Obligations.ResetMeetsTheInvariants := by
  obtain ⟨htags, hcredits, hpages, hfetches, hcounts⟩ := reset_bounds
  obtain ⟨hstack, hbacklog, hsources, hattn, hshadow⟩ := reset_relay_sound
  refine ⟨reset_ticketLaws, reset_fetchLaws, reset_reservationsMatch, reset_quotaSound, htags, hcredits, hpages, hfetches,
    hstack, hbacklog, hsources, hattn, hshadow, heldInReset_inReset [] [] 0 0 [], reset_settledLaw, hcounts,
    reset_imageSound, reset_windowsSound, reset_ringSound, fun p e h => ?_, fun p h => ?_⟩
  · rw [reset_port, reset_openEntry] at h
    cases h
  · rw [reset_port, Port.hasOpenPage, reset_openEntry] at h
    cases h

end Sys2Proof.Machine

/-! ## The bounds are not kept where two granted requests bear one name -/

namespace Sys2Proof.Machine

/-- A job with a line left to fetch. -/
def sharedNameJob : Job where
  slot := 0
  dataBase := 0
  length := 4096
  copies := 1
  account := 0
  rule := none
  copy := 1
  page := 1
  offset := 0
  next := 0
  buffer := []
  cursor := some ⟨1, 512⟩
  lead := false

/-- A port with a job in hand and its link DISABLED, so that its engine is judged PAUSED. -/
def sharedNamePort : Port :=
  { Port.reset with engine := { Engine.reset with state := .paused, job := some sharedNameJob } }

/-- The fetch of a line for port 0. -/
def sharedNameFetch (k : Nat) : MemRequest := ⟨.lineFetch 0 .current 1 (64 * k), false, 64 * k, 64, [], []⟩

/-- Port 0 has eight granted line fetches, the most that R93 lets it have. The first bears the name 0, and so does a
granted passing request, which the command at the queue's front answers. No run reaches this state (`namesLaw`). -/
def sharedName : State :=
  { State.reset with
    pending := [.passingResponse ⟨0, true, []⟩]
    msp := { State.reset.msp with
      outstanding := ⟨0, ⟨.passing 0 .whole, true, 0, 8, [], []⟩⟩ ::
        (List.range 8).map fun k => ⟨k, sharedNameFetch k⟩ }
    ports := tset State.reset.ports 0 sharedNamePort }

/-- What PASSING_RESPONSE leaves of it: the answer frees every tag of its name, that of the line fetch too, and settles no
port. -/
def sharedNameAnswered : State :=
  { sharedName with
    pending := []
    msp := { sharedName.msp with outstanding := (List.range' 1 7).map fun k => ⟨k, sharedNameFetch k⟩ } }

theorem port_sharedName (p : PortId) : sharedName.port p = if p = 0 then sharedNamePort else Port.reset := by
  rw [State.port, show sharedName.ports = tset State.reset.ports 0 sharedNamePort from rfl, tget_tset]
  split
  · rfl
  · simp [tget, State.reset]

theorem step_sharedName : step sharedName = .next sharedNameAnswered := by
  have hfind : (sharedName.clearOut.msp.outstanding.find? fun g => g.id == 0 && g.request.owner.isPassing) =
      some ⟨0, ⟨.passing 0 .whole, true, 0, 8, [], []⟩⟩ := rfl
  show Host.Outcome.next _ = _
  rw [memoryAnswers_found (s := (sharedName.withPending []).clearOut) hfind]
  rfl

theorem settledLaw_sharedName : sharedName.settledLaw := by
  refine ⟨fun p => ?_, fun p => ⟨fun hd => ?_, fun _ => ?_⟩, fun p j hj _ hm => ?_⟩
  · by_cases h : p = 0
    · subst h; rfl
    · have hp : sharedName.port p = Port.reset := by rw [port_sharedName, if_neg h]
      have hhold : (sharedName.port p).onHold = false := by rw [hp]; rfl
      rw [judged_idle (by rw [hp]; decide) (by rw [hp]; rfl), hhold, hp]
      simp [Port.reset, Engine.reset]
  · have hlink := hd.1
    rw [port_sharedName] at hlink
    split at hlink <;> cases hlink
  · rw [port_sharedName]
    split <;> rfl
  · by_cases h : p = 0
    · subst h
      exact absurd hm.2.2.2 (by decide)
    · rw [port_sharedName, if_neg h] at hj
      cases hj

/-- Refutes O56: an answer frees every tag of the name it bears, so an answered passing request may free a line fetch of that
name as well. PASSING_RESPONSE settles no port, and the engine is left with a line it may present (R93). -/
theorem not_stepsKeepTheBounds : ¬ Obligations.StepsKeepTheBounds := by
  intro h
  obtain ⟨-, -, -, -, -, hsettled, -⟩ := h _ _ step_sharedName
  obtain ⟨-, -, hlines⟩ := hsettled settledLaw_sharedName
  refine hlines 0 sharedNameJob rfl (by decide) ⟨?_, rfl, ?_, ?_⟩ <;> decide

end Sys2Proof.Machine

/-! ## Where a word lies, by its address (R4, R39, R76, R185) -/

namespace Sys2Proof.Machine

/-! ### The setting words of the control page -/

theorem offsetOf_bounds (loc : SettingLoc) : offsetOf loc < 65536 ∧ offsetOf loc % 8 = 0 := by
  cases loc with
  | ticketWindow | meterWindow | spoolWindow | ring | consume => decide
  | markRule | pacing | port | condition | account => simp only [offsetOf]; omega

theorem settingAt_offsetOf (loc : SettingLoc) : settingAt (offsetOf loc) = some loc := by
  cases loc with
  | ticketWindow | meterWindow | spoolWindow | ring | consume => rfl
  | markRule n => revert n; decide
  | pacing n => revert n; decide
  | port p => revert p; decide
  | account a => revert a; decide
  | condition p c =>
    have hp := p.isLt
    have hc := c.isLt
    have hk : (8 + 64 * p.val + 8 * c.val) % 64 / 8 = c.val + 1 := by omega
    have hport : Fin.ofNat 16 ((8 + 64 * p.val + 8 * c.val) / 64) = p := Fin.ext (by simp only [Fin.ofNat]; omega)
    have hcond : Fin.ofNat 4 (c.val + 1 - 1) = c := Fin.ext (by simp only [Fin.ofNat]; omega)
    have ho : 0x208 + 64 * p.val + 8 * c.val - 0x200 = 8 + 64 * p.val + 8 * c.val := by omega
    simp only [offsetOf, settingAt, ho, hk, hport, hcond]
    repeat rw [if_neg (by omega)]
    rw [if_pos (by omega), if_neg (by omega), if_pos (by omega)]

/-- A setting word lies at one offset of the control page, and nothing else lies there (R185). -/
theorem settingAt_iff {off : Nat} (h : off % 8 = 0) (loc : SettingLoc) :
    settingAt off = some loc ↔ off = offsetOf loc := by
  refine ⟨fun hs => ?_, fun e => e ▸ settingAt_offsetOf loc⟩
  simp only [settingAt] at hs
  split_ifs at hs <;> cases hs <;> simp only [offsetOf, Fin.ofNat] <;> omega

theorem settingAt_none {off : Nat} (h : off % 8 = 0) : settingAt off = none ↔ ∀ loc, off ≠ offsetOf loc := by
  simp only [Option.eq_none_iff_forall_ne_some, ne_eq, settingAt_iff h]

/-! ### The control page -/

/-- The control page's word at an offset, told apart (R185). -/
theorem controlPlace_cases {off : Nat} (h : off % 8 = 0) :
    (off = 0 ∧ controlPlace off = .commandWord) ∨
    (∃ i < 4, off = 0x40 + 8 * i ∧ controlPlace off = .statusBlock i) ∨
    (∃ loc, off = offsetOf loc ∧ controlPlace off = .setting loc) ∨
    (off ≠ 0 ∧ (∀ i < 4, off ≠ 0x40 + 8 * i) ∧ (∀ loc, off ≠ offsetOf loc) ∧ controlPlace off = .plain) := by
  unfold controlPlace
  split_ifs with h0 h1
  · exact .inl ⟨h0, rfl⟩
  · exact .inr (.inl ⟨(off - 0x40) / 8, by omega, by omega, rfl⟩)
  · refine .inr (.inr ?_)
    cases hs : settingAt off with
    | some loc => exact .inl ⟨loc, (settingAt_iff h loc).1 hs, rfl⟩
    | none => exact .inr ⟨h0, fun i hi => by omega, (settingAt_none h).1 hs, rfl⟩

theorem offsetOf_ne_status (loc : SettingLoc) : 0x60 ≤ offsetOf loc := by
  cases loc <;> simp only [offsetOf] <;> omega

theorem offsetOf_inj {a b : SettingLoc} (h : offsetOf a = offsetOf b) : a = b := by
  have e := settingAt_offsetOf a
  rw [h, settingAt_offsetOf] at e
  exact (Option.some.inj e).symm

theorem controlPlace_commandWord_iff {off : Nat} (h : off % 8 = 0) : controlPlace off = .commandWord ↔ off = 0 := by
  obtain ⟨h0, e⟩ | ⟨i, _, ho, e⟩ | ⟨loc, ho, e⟩ | ⟨h0, -, -, e⟩ := controlPlace_cases h
  · exact ⟨fun _ => h0, fun _ => e⟩
  · simp only [e, reduceCtorEq, false_iff]
    omega
  · have := offsetOf_ne_status loc
    simp only [e, reduceCtorEq, false_iff]
    omega
  · simp only [e, reduceCtorEq, h0]

theorem controlPlace_statusBlock_iff {off : Nat} (h : off % 8 = 0) (i : Nat) :
    controlPlace off = .statusBlock i ↔ i < 4 ∧ off = 0x40 + 8 * i := by
  obtain ⟨h0, e⟩ | ⟨k, _, ho, e⟩ | ⟨loc, ho, e⟩ | ⟨_, hn, -, e⟩ := controlPlace_cases h <;> simp only [e]
  · simp only [reduceCtorEq, false_iff]
    omega
  · simp only [Place.statusBlock.injEq]
    omega
  · have := offsetOf_ne_status loc
    simp
    omega
  · simp
    exact fun hi => hn i hi

theorem controlPlace_setting_iff {off : Nat} (h : off % 8 = 0) (loc : SettingLoc) :
    controlPlace off = .setting loc ↔ off = offsetOf loc := by
  have hlow := offsetOf_ne_status loc
  obtain ⟨h0, e⟩ | ⟨k, _, ho, e⟩ | ⟨loc', ho, e⟩ | ⟨_, -, hn, e⟩ := controlPlace_cases h <;> simp only [e]
  · simp
    omega
  · simp
    omega
  · rw [Place.setting.injEq, ho]
    exact ⟨fun e => e ▸ rfl, offsetOf_inj⟩
  · simp [hn loc]

theorem controlPlace_plain_iff {off : Nat} (h : off % 8 = 0) :
    controlPlace off = .plain ↔ off ≠ 0 ∧ (∀ i < 4, off ≠ 0x40 + 8 * i) ∧ ∀ loc, off ≠ offsetOf loc := by
  obtain ⟨h0, e⟩ | ⟨k, hk, ho, e⟩ | ⟨loc, ho, e⟩ | ⟨h0, hs, hn, e⟩ := controlPlace_cases h <;> simp only [e]
  · simp [h0]
  · simp
    exact fun _ hs => absurd ho (hs k hk)
  · simp
    exact fun _ _ => ⟨loc, ho⟩
  · simpa using ⟨h0, hs, hn⟩

/-! ### The windows as R27 and R28 keep them -/

/-- Two runs of bytes share none. -/
def runsApart (a m b n : Nat) : Prop := a + m ≤ b ∨ b + n ≤ a

/-- The enabled windows on their alignment, apart from the control page and from one another (R27, R28). -/
structure WindowLayout (s : State) : Prop where
  ticketAligned : baseOf s.image.ticketWindow % 8192 = 0
  meterAligned : baseOf s.image.meterWindow % 4096 = 0
  spoolAligned : baseOf s.image.spoolWindow % (4096 * s.blockBytes) = 0
  pageTicket : windowOn s.image.ticketWindow = true →
    runsApart (s.anchor.toNat * 65536) 65536 (baseOf s.image.ticketWindow) 8192
  pageMeter : windowOn s.image.meterWindow = true →
    runsApart (s.anchor.toNat * 65536) 65536 (baseOf s.image.meterWindow) 4096
  pageSpool : windowOn s.image.spoolWindow = true →
    runsApart (s.anchor.toNat * 65536) 65536 (baseOf s.image.spoolWindow) (4096 * s.blockBytes)
  ticketMeter : windowOn s.image.ticketWindow = true → windowOn s.image.meterWindow = true →
    runsApart (baseOf s.image.ticketWindow) 8192 (baseOf s.image.meterWindow) 4096
  ticketSpool : windowOn s.image.ticketWindow = true → windowOn s.image.spoolWindow = true →
    runsApart (baseOf s.image.ticketWindow) 8192 (baseOf s.image.spoolWindow) (4096 * s.blockBytes)
  meterSpool : windowOn s.image.meterWindow = true → windowOn s.image.spoolWindow = true →
    runsApart (baseOf s.image.meterWindow) 4096 (baseOf s.image.spoolWindow) (4096 * s.blockBytes)

theorem spoolSize_eq (s : State) : spoolSize s.image.spoolWindow = 4096 * s.blockBytes := rfl

theorem windowLayout_of_sound {s : State} (h : s.windowsSound) : WindowLayout s := by
  obtain ⟨hrange, hapart, -⟩ := h
  have hticket := hrange .ticketWindow (by simp)
  have hmeter := hrange .meterWindow (by simp)
  have hspool := hrange .spoolWindow (by simp)
  simp only [outOfRange, Image.get, not_not, not_or] at hticket hmeter hspool
  have hblock : 4096 * 16384 * 2 ^ sizeCode s.image.spoolWindow = 4096 * s.blockBytes := by
    rw [State.blockBytes, Nat.mul_assoc]
  simp only [State.keptApart, windowExtents, Bool.false_eq_true, if_false, List.append_nil, List.pairwise_cons,
    List.pairwise_append, spoolSize_eq] at hapart
  obtain ⟨hpage, ⟨-, -, htm⟩, -, hs⟩ := hapart
  constructor
  · exact hticket
  · exact hmeter
  · exact hblock ▸ hspool.2
  · exact fun ht => hpage ⟨baseOf s.image.ticketWindow, 8192⟩ (by simp [ht])
  · exact fun hm => hpage ⟨baseOf s.image.meterWindow, 4096⟩ (by simp [hm])
  · exact fun hw => hpage ⟨baseOf s.image.spoolWindow, 4096 * s.blockBytes⟩ (by simp [hw])
  · exact fun ht hm => htm ⟨baseOf s.image.ticketWindow, 8192⟩ (by simp [ht]) ⟨baseOf s.image.meterWindow, 4096⟩
      (by simp [hm])
  · exact fun ht hw => hs ⟨baseOf s.image.ticketWindow, 8192⟩ (by simp [ht])
      ⟨baseOf s.image.spoolWindow, 4096 * s.blockBytes⟩ (by simp [hw])
  · exact fun hm hw => hs ⟨baseOf s.image.meterWindow, 4096⟩ (by simp [hm])
      ⟨baseOf s.image.spoolWindow, 4096 * s.blockBytes⟩ (by simp [hw])

/-! ### Places by address -/

/-- An address in the control page. -/
def State.inPage (s : State) (a : Nat) : Prop := s.anchor.toNat * 65536 ≤ a ∧ a < s.anchor.toNat * 65536 + 65536

theorem holds_controlExtent (s : State) (a : Nat) : (controlExtent s.anchor).holds a = true ↔ s.inPage a :=
  Extent.holds_iff _ _

theorem holds_window (w : Word) (n a : Nat) :
    (windowOn w && Extent.holds ⟨baseOf w, n⟩ a) = true ↔ inWindow w n a := by
  rw [Bool.and_eq_true, Extent.holds_iff]
  rfl

theorem placeOf_page {s : State} {a : Nat} (h : s.inPage a) :
    s.placeOf a = controlPlace (a - s.anchor.toNat * 65536) := by
  simp only [State.placeOf, (holds_controlExtent s a).2 h, if_true]
  rfl

theorem placeOf_ticket {s : State} {a : Nat} (hp : ¬s.inPage a) (h : inWindow s.image.ticketWindow 8192 a) :
    s.placeOf a = ticketPlace (a - baseOf s.image.ticketWindow) := by
  simp only [State.placeOf, if_neg (mt (holds_controlExtent s a).1 hp), if_pos ((holds_window _ _ _).2 h)]

theorem placeOf_meter {s : State} {a : Nat} (hp : ¬s.inPage a) (ht : ¬inWindow s.image.ticketWindow 8192 a)
    (h : inWindow s.image.meterWindow 4096 a) : s.placeOf a = .meter (a - baseOf s.image.meterWindow) := by
  simp only [State.placeOf, if_neg (mt (holds_controlExtent s a).1 hp), if_neg (mt (holds_window _ _ _).1 ht),
    if_pos ((holds_window _ _ _).2 h)]

theorem placeOf_spool {s : State} {a : Nat} (hp : ¬s.inPage a) (ht : ¬inWindow s.image.ticketWindow 8192 a)
    (hm : ¬inWindow s.image.meterWindow 4096 a) (h : inWindow s.image.spoolWindow (4096 * s.blockBytes) a) :
    s.placeOf a = .spool (Fin.ofNat 4096 ((a - baseOf s.image.spoolWindow) / s.blockBytes)) := by
  simp only [State.placeOf, if_neg (mt (holds_controlExtent s a).1 hp), if_neg (mt (holds_window _ _ _).1 ht),
    if_neg (mt (holds_window _ _ _).1 hm), if_pos ((holds_window _ (spoolSize s.image.spoolWindow) _).2 h)]
  rfl

theorem placeOf_elsewhere {s : State} {a : Nat} (hp : ¬s.inPage a) (ht : ¬inWindow s.image.ticketWindow 8192 a)
    (hm : ¬inWindow s.image.meterWindow 4096 a) (h : ¬inWindow s.image.spoolWindow (4096 * s.blockBytes) a) :
    s.placeOf a = .elsewhere := by
  simp only [State.placeOf, if_neg (mt (holds_controlExtent s a).1 hp), if_neg (mt (holds_window _ _ _).1 ht),
    if_neg (mt (holds_window _ _ _).1 hm), if_neg (mt (holds_window _ (spoolSize s.image.spoolWindow) _).1 h)]

/-- An address lies in one place at most. -/
theorem WindowLayout.regions {s : State} (h : WindowLayout s) (a : Nat) :
    (inWindow s.image.ticketWindow 8192 a → ¬s.inPage a) ∧
    (inWindow s.image.meterWindow 4096 a → ¬s.inPage a ∧ ¬inWindow s.image.ticketWindow 8192 a) ∧
    (inWindow s.image.spoolWindow (4096 * s.blockBytes) a → ¬s.inPage a ∧ ¬inWindow s.image.ticketWindow 8192 a ∧
      ¬inWindow s.image.meterWindow 4096 a) := by
  refine ⟨fun ht hp => ?_, fun hm => ⟨fun hp => ?_, fun ht => ?_⟩, fun hs => ⟨fun hp => ?_, fun ht => ?_, fun hm => ?_⟩⟩
  · exact (h.pageTicket ht.1).elim (fun _ => by have := hp.2; have := ht.2.1; omega)
      fun _ => by have := hp.1; have := ht.2.2; omega
  · exact (h.pageMeter hm.1).elim (fun _ => by have := hp.2; have := hm.2.1; omega)
      fun _ => by have := hp.1; have := hm.2.2; omega
  · exact (h.ticketMeter ht.1 hm.1).elim (fun _ => by have := ht.2.2; have := hm.2.1; omega)
      fun _ => by have := ht.2.1; have := hm.2.2; omega
  · exact (h.pageSpool hs.1).elim (fun _ => by have := hp.2; have := hs.2.1; omega)
      fun _ => by have := hp.1; have := hs.2.2; omega
  · exact (h.ticketSpool ht.1 hs.1).elim (fun _ => by have := ht.2.2; have := hs.2.1; omega)
      fun _ => by have := ht.2.1; have := hs.2.2; omega
  · exact (h.meterSpool hm.1 hs.1).elim (fun _ => by have := hm.2.2; have := hs.2.1; omega)
      fun _ => by have := hm.2.1; have := hs.2.2; omega

/-- The five regions an address may lie in, each with the place found there. -/
theorem WindowLayout.placeOf_cases {s : State} (h : WindowLayout s) (a : Nat) :
    (s.inPage a ∧ s.placeOf a = controlPlace (a - s.anchor.toNat * 65536)) ∨
    (inWindow s.image.ticketWindow 8192 a ∧ ¬s.inPage a ∧
      s.placeOf a = ticketPlace (a - baseOf s.image.ticketWindow)) ∨
    (inWindow s.image.meterWindow 4096 a ∧ ¬s.inPage a ∧ s.placeOf a = .meter (a - baseOf s.image.meterWindow)) ∨
    (inWindow s.image.spoolWindow (4096 * s.blockBytes) a ∧ ¬s.inPage a ∧
      s.placeOf a = .spool (Fin.ofNat 4096 ((a - baseOf s.image.spoolWindow) / s.blockBytes))) ∨
    (¬s.inPlace a ∧ s.placeOf a = .elsewhere) := by
  obtain ⟨ht, hm, hs⟩ := h.regions a
  by_cases hp : s.inPage a
  · exact .inl ⟨hp, placeOf_page hp⟩
  by_cases hta : inWindow s.image.ticketWindow 8192 a
  · exact .inr (.inl ⟨hta, hp, placeOf_ticket hp hta⟩)
  by_cases hma : inWindow s.image.meterWindow 4096 a
  · exact .inr (.inr (.inl ⟨hma, hp, placeOf_meter hp hta hma⟩))
  by_cases hsa : inWindow s.image.spoolWindow (4096 * s.blockBytes) a
  · exact .inr (.inr (.inr (.inl ⟨hsa, hp, placeOf_spool hp hta hma hsa⟩)))
  · refine .inr (.inr (.inr (.inr ⟨?_, placeOf_elsewhere hp hta hma hsa⟩)))
    rintro (x | x | x | x)
    · exact hp x
    · exact hta x
    · exact hma x
    · exact hsa x

end Sys2Proof.Machine


namespace Sys2Proof.Machine

/-- The places a word of the control page may have. -/
def Place.ofPage : Place → Prop
  | .commandWord | .statusBlock _ | .setting _ | .plain => True
  | .fieldWord _ | .postWord _ | .meter _ | .spool _ | .elsewhere => False

theorem ofPage_controlPlace (off : Nat) : (controlPlace off).ofPage := by
  unfold controlPlace
  split_ifs
  · trivial
  · trivial
  · split <;> trivial

theorem ticketPlace_cases (off : Nat) :
    (off % 32 / 8 ≠ 3 ∧ ticketPlace off = .fieldWord (Fin.ofNat 256 (off / 32))) ∨
      (off % 32 / 8 = 3 ∧ ticketPlace off = .postWord (Fin.ofNat 256 (off / 32))) := by
  simp only [ticketPlace]
  split_ifs with h
  · exact .inr ⟨h, rfl⟩
  · exact .inl ⟨h, rfl⟩

namespace WindowLayout

variable {s : State} {a : Nat}

/-- A word has a place of the control page exactly when it lies there. -/
theorem placeOf_ofPage_iff (h : WindowLayout s) {x : Place} (hx : x.ofPage) :
    s.placeOf a = x ↔ s.inPage a ∧ controlPlace (a - s.anchor.toNat * 65536) = x := by
  obtain ⟨hp, e⟩ | ⟨-, hp, e⟩ | ⟨-, hp, e⟩ | ⟨-, hp, e⟩ | ⟨hn, e⟩ := h.placeOf_cases a
  · simp only [e, hp, true_and]
  · obtain ⟨-, et⟩ | ⟨-, et⟩ := ticketPlace_cases (a - baseOf s.image.ticketWindow)
    all_goals
      rw [e, et]
      exact ⟨fun hc => (hc ▸ hx).elim, fun hc => absurd hc.1 hp⟩
  · exact ⟨fun hc => ((e.symm.trans hc) ▸ hx).elim, fun hc => absurd hc.1 hp⟩
  · exact ⟨fun hc => ((e.symm.trans hc) ▸ hx).elim, fun hc => absurd hc.1 hp⟩
  · exact ⟨fun hc => ((e.symm.trans hc) ▸ hx).elim, fun hc => absurd (.inl hc.1) hn⟩

/-- A word of the page at an offset, by its address. -/
theorem page_offset_iff (ha : a % 8 = 0) {off : Nat} (ho : off < 65536) :
    a = s.anchor.toNat * 65536 + off ↔ s.inPage a ∧ a - s.anchor.toNat * 65536 = off := by
  simp only [State.inPage]
  omega

theorem offset_mod (ha : a % 8 = 0) : (a - s.anchor.toNat * 65536) % 8 = 0 := by omega

theorem placeOf_commandWord_iff (h : WindowLayout s) (ha : a % 8 = 0) :
    s.placeOf a = .commandWord ↔ a = s.anchor.toNat * 65536 := by
  rw [h.placeOf_ofPage_iff (x := .commandWord) trivial, controlPlace_commandWord_iff (offset_mod ha), ← page_offset_iff ha (by decide),
    Nat.add_zero]

theorem placeOf_statusBlock_iff (h : WindowLayout s) (ha : a % 8 = 0) (i : Nat) :
    s.placeOf a = .statusBlock i ↔ i < 4 ∧ a = s.anchor.toNat * 65536 + 0x40 + 8 * i := by
  rw [h.placeOf_ofPage_iff (x := .statusBlock i) trivial, controlPlace_statusBlock_iff (offset_mod ha)]
  simp only [State.inPage]
  omega

theorem placeOf_setting_iff (h : WindowLayout s) (ha : a % 8 = 0) (loc : SettingLoc) :
    s.placeOf a = .setting loc ↔ a = s.anchor.toNat * 65536 + offsetOf loc := by
  rw [h.placeOf_ofPage_iff (x := .setting loc) trivial, controlPlace_setting_iff (offset_mod ha),
    ← page_offset_iff ha (offsetOf_bounds loc).1]

theorem placeOf_plain_iff (h : WindowLayout s) (ha : a % 8 = 0) :
    s.placeOf a = .plain ↔ s.anchor.toNat * 65536 ≤ a ∧ a < s.anchor.toNat * 65536 + 65536 ∧
      a ≠ s.anchor.toNat * 65536 ∧ (∀ i < 4, a ≠ s.anchor.toNat * 65536 + 0x40 + 8 * i) ∧
      ∀ loc, a ≠ s.anchor.toNat * 65536 + offsetOf loc := by
  rw [h.placeOf_ofPage_iff (x := .plain) trivial, controlPlace_plain_iff (offset_mod ha)]
  simp only [State.inPage, and_assoc]
  refine and_congr_right fun hlo => and_congr_right fun _ => and_congr (by omega) (and_congr ?_ ?_)
  · exact forall₂_congr fun i _ => by omega
  · exact forall_congr' fun loc => by omega

/-- A word has a place of the ticket window exactly when it lies there. -/
theorem placeOf_ticket_iff (h : WindowLayout s) {x : Place} (hx : ∃ t, x = .fieldWord t ∨ x = .postWord t) :
    s.placeOf a = x ↔
      inWindow s.image.ticketWindow 8192 a ∧ ticketPlace (a - baseOf s.image.ticketWindow) = x := by
  obtain ⟨ht, hm, hs⟩ := h.regions a
  obtain ⟨t, hx⟩ := hx
  have hpage : ¬x.ofPage := by obtain rfl | rfl := hx <;> exact id
  have hne (y : Place) (hf : ∀ t, y ≠ .fieldWord t) (hp : ∀ t, y ≠ .postWord t) : y ≠ x := by
    obtain rfl | rfl := hx
    · exact hf t
    · exact hp t
  obtain ⟨hp, e⟩ | ⟨hw, -, e⟩ | ⟨hw, -, e⟩ | ⟨hw, -, e⟩ | ⟨hn, e⟩ := h.placeOf_cases a <;> rw [e]
  · exact ⟨fun hc => absurd (hc ▸ ofPage_controlPlace _) hpage, fun hc => absurd hp (ht hc.1)⟩
  · simp only [hw, true_and]
  · exact ⟨fun hc => absurd hc (hne _ nofun nofun), fun hc => absurd hc.1 (hm hw).2⟩
  · exact ⟨fun hc => absurd hc (hne _ nofun nofun), fun hc => absurd hc.1 (hs hw).2.1⟩
  · exact ⟨fun hc => absurd hc (hne _ nofun nofun), fun hc => absurd (.inr (.inl hc.1)) hn⟩

theorem placeOf_fieldWord_iff (h : WindowLayout s) (ha : a % 8 = 0) (t : Slot) :
    s.placeOf a = .fieldWord t ↔
      windowOn s.image.ticketWindow = true ∧ ∃ k < 3, a = baseOf s.image.ticketWindow + 32 * t.val + 8 * k := by
  have hal := h.ticketAligned
  have htv := t.isLt
  rw [h.placeOf_ticket_iff ⟨t, .inl rfl⟩, inWindow, and_assoc]
  refine and_congr_right fun _ => ?_
  obtain ⟨hk, e⟩ | ⟨hk, e⟩ := ticketPlace_cases (a - baseOf s.image.ticketWindow) <;> rw [e]
  · rw [Place.fieldWord.injEq, Fin.ext_iff, Fin.val_ofNat]
    refine ⟨fun ⟨⟨hlo, hhi⟩, ht⟩ => ⟨(a - baseOf s.image.ticketWindow) % 32 / 8, by omega, by omega⟩, ?_⟩
    rintro ⟨k, _, e⟩
    omega
  · simp only [reduceCtorEq, and_false, false_iff]
    rintro ⟨k, _, e⟩
    omega

theorem placeOf_postWord_iff (h : WindowLayout s) (ha : a % 8 = 0) (t : Slot) :
    s.placeOf a = .postWord t ↔
      windowOn s.image.ticketWindow = true ∧ a = baseOf s.image.ticketWindow + 32 * t.val + 24 := by
  have hal := h.ticketAligned
  have htv := t.isLt
  rw [h.placeOf_ticket_iff ⟨t, .inr rfl⟩, inWindow, and_assoc]
  refine and_congr_right fun _ => ?_
  obtain ⟨hk, e⟩ | ⟨hk, e⟩ := ticketPlace_cases (a - baseOf s.image.ticketWindow) <;> rw [e]
  · simp only [reduceCtorEq, and_false, false_iff]
    omega
  · rw [Place.postWord.injEq, Fin.ext_iff, Fin.val_ofNat]
    omega

theorem placeOf_meter_iff (h : WindowLayout s) (o : Nat) :
    s.placeOf a = .meter o ↔
      windowOn s.image.meterWindow = true ∧ o < 4096 ∧ a = baseOf s.image.meterWindow + o := by
  obtain ⟨ht, hm, hs⟩ := h.regions a
  have hin (hc : windowOn s.image.meterWindow = true ∧ o < 4096 ∧ a = baseOf s.image.meterWindow + o) :
      inWindow s.image.meterWindow 4096 a := ⟨hc.1, by omega, by omega⟩
  obtain ⟨hp, e⟩ | ⟨hw, -, e⟩ | ⟨hw, -, e⟩ | ⟨hw, -, e⟩ | ⟨hn, e⟩ := h.placeOf_cases a <;> rw [e]
  · exact ⟨fun hc => (hc ▸ ofPage_controlPlace (a - s.anchor.toNat * 65536) : (Place.meter o).ofPage).elim,
      fun hc => absurd hp (hm (hin hc)).1⟩
  · obtain ⟨-, et⟩ | ⟨-, et⟩ := ticketPlace_cases (a - baseOf s.image.ticketWindow) <;> rw [et]
    all_goals exact ⟨nofun, fun hc => absurd hw (hm (hin hc)).2⟩
  · obtain ⟨hon, hlo, hhi⟩ := hw
    simp only [Place.meter.injEq, hon, true_and]
    omega
  · exact ⟨nofun, fun hc => absurd (hin hc) (hs hw).2.2⟩
  · exact ⟨nofun, fun hc => absurd (.inr (.inr (.inl (hin hc)))) hn⟩

theorem blockBytes_pos (s : State) : 0 < s.blockBytes := Nat.mul_pos (by decide) (Nat.two_pow_pos _)

/-- The block an address of the spool window lies in is one of its 4096. -/
theorem block_lt (hw : inWindow s.image.spoolWindow (4096 * s.blockBytes) a) :
    (a - baseOf s.image.spoolWindow) / s.blockBytes < 4096 := by
  obtain ⟨-, hlo, hhi⟩ := hw
  rw [Nat.div_lt_iff_lt_mul (blockBytes_pos s)]
  omega

theorem placeOf_spool_iff (h : WindowLayout s) (b : Fin 4096) :
    s.placeOf a = .spool b ↔ inWindow s.image.spoolWindow (4096 * s.blockBytes) a ∧
      b.val = (a - baseOf s.image.spoolWindow) / s.blockBytes := by
  obtain ⟨ht, hm, hs⟩ := h.regions a
  obtain ⟨hp, e⟩ | ⟨hw, -, e⟩ | ⟨hw, -, e⟩ | ⟨hw, -, e⟩ | ⟨hn, e⟩ := h.placeOf_cases a <;> rw [e]
  · exact ⟨fun hc => (hc ▸ ofPage_controlPlace (a - s.anchor.toNat * 65536) : (Place.spool b).ofPage).elim,
      fun hc => absurd hp (hs hc.1).1⟩
  · obtain ⟨-, et⟩ | ⟨-, et⟩ := ticketPlace_cases (a - baseOf s.image.ticketWindow) <;> rw [et]
    all_goals exact ⟨nofun, fun hc => absurd hw (hs hc.1).2.1⟩
  · exact ⟨nofun, fun hc => absurd hw (hs hc.1).2.2⟩
  · rw [Place.spool.injEq, Fin.ext_iff, Fin.val_ofNat, Nat.mod_eq_of_lt (block_lt hw), eq_comm]
    exact ⟨fun e => ⟨hw, e⟩, And.right⟩
  · exact ⟨nofun, fun hc => absurd (.inr (.inr (.inr hc.1))) hn⟩

theorem placeOf_elsewhere_iff (h : WindowLayout s) : s.placeOf a = .elsewhere ↔ ¬s.inPlace a := by
  obtain ⟨hp, e⟩ | ⟨hw, -, e⟩ | ⟨hw, -, e⟩ | ⟨hw, -, e⟩ | ⟨hn, e⟩ := h.placeOf_cases a <;> rw [e]
  · exact ⟨fun hc => (hc ▸ ofPage_controlPlace (a - s.anchor.toNat * 65536) : Place.elsewhere.ofPage).elim,
      fun hc => absurd (.inl hp) hc⟩
  · obtain ⟨-, et⟩ | ⟨-, et⟩ := ticketPlace_cases (a - baseOf s.image.ticketWindow) <;> rw [et]
    all_goals exact ⟨nofun, fun hc => absurd (.inr (.inl hw)) hc⟩
  · exact ⟨nofun, fun hc => absurd (.inr (.inr (.inl hw))) hc⟩
  · exact ⟨nofun, fun hc => absurd (.inr (.inr (.inr hw))) hc⟩
  · exact ⟨fun _ => hn, fun _ => rfl⟩

/-! ### A line lies in one place (R4, R5) -/

/-- The windows are made of whole lines, so the words of a line lie in the same window, and in the same block of the spool
window. -/
theorem line_inWindow {w : Word} {n b : Nat} (hb : baseOf w % 64 = 0) (hn : n % 64 = 0) (hline : a / 64 = b / 64) :
    inWindow w n a ↔ inWindow w n b := by
  refine and_congr_right fun _ => ?_
  omega

theorem line_inPage {b : Nat} (hline : a / 64 = b / 64) : s.inPage a ↔ s.inPage b := by
  simp only [State.inPage]
  omega

theorem blockBytes_mod (s : State) : s.blockBytes % 64 = 0 := by
  rw [State.blockBytes, Nat.mul_mod]
  simp

theorem spool_base_mod (h : WindowLayout s) : baseOf s.image.spoolWindow % 64 = 0 := by
  obtain ⟨k, hk⟩ := Nat.dvd_of_mod_eq_zero h.spoolAligned
  obtain ⟨j, hj⟩ := Nat.dvd_of_mod_eq_zero (blockBytes_mod s)
  rw [hk, hj, Nat.mul_assoc, Nat.mul_assoc, Nat.mul_left_comm, Nat.mul_mod_right]

theorem spool_size_mod (s : State) : 4096 * s.blockBytes % 64 = 0 := by
  have := blockBytes_mod s
  omega

theorem line_inPlace (h : WindowLayout s) {b : Nat} (hline : a / 64 = b / 64) : s.inPlace a ↔ s.inPlace b := by
  have ht := h.ticketAligned
  have hm := h.meterAligned
  exact or_congr (line_inPage hline) (or_congr (line_inWindow (by omega) (by decide) hline)
    (or_congr (line_inWindow (by omega) (by decide) hline)
      (line_inWindow h.spool_base_mod (spool_size_mod s) hline)))

theorem line_block (h : WindowLayout s) {b : Nat} (hline : a / 64 = b / 64) (ha : baseOf s.image.spoolWindow ≤ a)
    (hb : baseOf s.image.spoolWindow ≤ b) :
    (a - baseOf s.image.spoolWindow) / s.blockBytes = (b - baseOf s.image.spoolWindow) / s.blockBytes := by
  obtain ⟨j, hj⟩ := Nat.dvd_of_mod_eq_zero (blockBytes_mod s)
  have hbase := h.spool_base_mod
  rw [hj, ← Nat.div_div_eq_div_mul, ← Nat.div_div_eq_div_mul]
  congr 1
  omega

end WindowLayout

end Sys2Proof.Machine

/-! ## Requests at the port, and reads (R1 to R3, R5, R13 to R15) -/

namespace Sys2Proof.Machine

/-! ### Taken at once, or held -/

theorem hostRequest_atHand {s : State} (h : s.atHand) (r : HostRequest) :
    s.clearOut.hostRequest r = s.clearOut.takeRequest r := by
  simp [State.hostRequest, h.1, h.2]

theorem hostRequest_notAtHand {s : State} (h : ¬s.atHand) (r : HostRequest) :
    s.clearOut.hostRequest r = { s with psp := { s.psp with held := s.psp.held ++ [r] }, out := [] } := by
  have hn : ¬((s.clearOut.psp.accepting && s.clearOut.psp.held.isEmpty) = true) := by
    rw [Bool.and_eq_true, List.isEmpty_iff]
    exact h
  rw [State.hostRequest, if_neg hn]
  rfl

/-- A request that a wrong shape, a busy tag or a line boundary in a place stops (R1, R2, R5). -/
def State.stops (s : State) (addr : Addr) (size : Nat) (tag : Tag) : Prop :=
  ¬(size ∈ [8, 16, 24, 32, 40, 48, 56, 64] ∧ addr.toNat % 8 = 0) ∨ s.record tag ≠ none ∨
    (addr.toNat / 64 ≠ (addr.toNat + size - 1) / 64 ∧ s.inAnyPlace addr.toNat size = true)

/-- Such a request fails the first test of a READ or WRITE, or the second. -/
theorem State.stops.tests {s : State} {addr : Addr} {size : Nat} {tag : Tag} (h : s.stops addr size tag) :
    (!wellShaped addr size || (s.record tag).isSome) = true ∨
      (crossesLine addr.toNat size = true ∧ s.inAnyPlace addr.toNat size = true) := by
  obtain h | h | h := h
  · exact .inl (by rw [Bool.or_eq_true, Bool.not_eq_true', ← Bool.not_eq_true, wellShaped_iff]; exact .inl h)
  · exact .inl (by rw [Bool.or_eq_true, Option.isSome_iff_ne_none]; exact .inr h)
  · exact .inr ⟨(crossesLine_iff _ _).2 h.1, h.2⟩

theorem takeRead_stops {s : State} {r : ReadRequest} (h : s.stops r.addr r.size r.tag) :
    s.takeRead r = s.dataError r.tag r.size := by
  unfold State.takeRead
  obtain h | ⟨hc, hp⟩ := h.tests
  · rw [if_pos h]
  · simp [hc, hp]

theorem takeWrite_stops {s : State} {w : WriteRequest} (h : s.stops w.addr w.size w.tag) :
    s.takeWrite w = s.ack w.tag .error := by
  unfold State.takeWrite
  obtain h | ⟨hc, hp⟩ := h.tests
  · rw [if_pos h]
  · simp [hc, hp]

/-! ### Requests split at a line boundary (R5) -/

theorem crossesLine_over {a n : Nat} (h : 64 < a % 64 + n) : crossesLine a n = true := by
  rw [crossesLine_iff]
  omega

theorem passes_tests {s : State} {addr : Addr} {size : Nat} {tag : Tag} (hfree : s.record tag = none)
    (hsize : size ∈ [8, 16, 24, 32, 40, 48, 56, 64]) (ha : addr.toNat % 8 = 0) :
    (!wellShaped addr size || (s.record tag).isSome) = false := by
  simp [(wellShaped_iff addr size).2 ⟨hsize, ha⟩, hfree]

theorem takeRead_split {s : State} {r : ReadRequest} (hfree : s.record r.tag = none)
    (hsize : r.size ∈ [8, 16, 24, 32, 40, 48, 56, 64]) (ha : r.addr.toNat % 8 = 0)
    (hover : 64 < r.addr.toNat % 64 + r.size) (helse : s.inAnyPlace r.addr.toNat r.size = false) :
    s.clearOut.takeRead r = s.withForward r.tag
      ⟨false, r.addr, r.size, List.replicate (r.size / 8) none, .halves none none⟩
      [⟨.passing r.tag .first, false, r.addr.toNat, 64 - r.addr.toNat % 64, [], []⟩,
        ⟨.passing r.tag .second, false, r.addr.toNat + (64 - r.addr.toNat % 64), r.size - (64 - r.addr.toNat % 64), [],
          []⟩] := by
  have hpos : r.size / 8 ≠ 0 := by
    simp only [List.mem_cons, List.not_mem_nil, or_false] at hsize
    omega
  have hcross := crossesLine_over hover
  have helse' : s.clearOut.inAnyPlace r.addr.toNat r.size = false := helse
  simp only [State.takeRead, passes_tests (s := s.clearOut) hfree hsize ha, helse', State.classifyRead,
    substituted_elsewhere helse',
    List.all_replicate, hpos, Option.isSome_none, Bool.and_false, Bool.false_eq_true, if_false, partsFor, hcross,
    if_true, State.pass]
  simp [State.withForward, State.enqueue, State.modMsp, State.setRecord, State.clearOut, firstHalf]

theorem takeWrite_split {s : State} {w : WriteRequest} (hfree : s.record w.tag = none)
    (hsize : w.size ∈ [8, 16, 24, 32, 40, 48, 56, 64]) (ha : w.addr.toNat % 8 = 0)
    (hover : 64 < w.addr.toNat % 64 + w.size) (helse : s.inAnyPlace w.addr.toNat w.size = false)
    (hen : ∃ i < w.size, w.enables[i]? = some true) :
    s.clearOut.takeWrite w = s.withForward w.tag ⟨true, w.addr, w.size, [], .halves none none⟩
      [⟨.passing w.tag .first, true, w.addr.toNat, 64 - w.addr.toNat % 64, w.enables.take (64 - w.addr.toNat % 64),
          w.data.take (64 - w.addr.toNat % 64)⟩,
        ⟨.passing w.tag .second, true, w.addr.toNat + (64 - w.addr.toNat % 64), w.size - (64 - w.addr.toNat % 64),
          w.enables.drop (64 - w.addr.toNat % 64), w.data.drop (64 - w.addr.toNat % 64)⟩] := by
  have hcross := crossesLine_over hover
  have helse' : s.clearOut.inAnyPlace w.addr.toNat w.size = false := helse
  simp only [State.takeWrite, passes_tests (s := s.clearOut) hfree hsize ha, helse', (anyEnabled_iff w).2 hen,
    Bool.false_eq_true, if_false, hcross, if_true, State.forwardWrite, partsFor, State.pass]
  simp [State.withForward, State.enqueue, State.modMsp, State.setRecord, State.clearOut, firstHalf]

/-- Settles O6: a request that is not at hand is held, one that stops is answered ERROR, and one over a line boundary
elsewhere is split. -/
theorem requestsAreStoppedHeldOrSplit : Obligations.RequestsAreStoppedHeldOrSplit := by
  refine ⟨fun r w s => ⟨fun hh hstop => ?_, fun hh hstop => ?_, fun hh => ⟨?_, ?_⟩⟩, fun r w s => ⟨?_, ?_⟩⟩
  · exact congrArg Host.Outcome.next
      ((hostRequest_atHand hh (.read r)).trans (takeRead_stops (s := s.clearOut) hstop))
  · exact congrArg Host.Outcome.next
      ((hostRequest_atHand hh (.write w)).trans (takeWrite_stops (s := s.clearOut) hstop))
  · exact congrArg Host.Outcome.next (hostRequest_notAtHand hh _)
  · exact congrArg Host.Outcome.next (hostRequest_notAtHand hh _)
  · intro ⟨hh, hfree⟩ hsize ha hover helse
    exact congrArg Host.Outcome.next
      ((hostRequest_atHand hh (.read r)).trans (takeRead_split hfree hsize ha hover helse))
  · intro ⟨hh, hfree⟩ hsize ha hover helse hen
    exact congrArg Host.Outcome.next
      ((hostRequest_atHand hh (.write w)).trans (takeWrite_split hfree hsize ha hover helse hen))

end Sys2Proof.Machine

/-! ## The start-up sweep and the requests held behind it (R3, R22, R23) -/

namespace Sys2Proof.Machine

theorem exec_sweepWriteAnswer {s : State} {g : Granted} {rest : List Granted} (ok : Bool) (h : s.awaits g rest)
    (ho : g.request.owner = .sweep) :
    exec (.sweepWriteAnswer g.id ok) s =
      .next (({ s with msp := { s.msp with outstanding := rest }, out := [] } : State).sweepAnswered ok) := by
  have hk : g.request.owner.isSweep = true := by rw [ho]; rfl
  have ha := memoryAnswers_awaits Owner.isSweep ok [] h hk
  rw [ho] at ha
  exact congrArg Host.Outcome.next ha

theorem sweepAnswered_eq (s : State) (ok : Bool) :
    s.sweepAnswered ok =
      let t : State := { s with
        sweep := { s.sweep with answered := s.sweep.answered + 1, fault := s.sweep.fault || !ok } }
      if s.sweep.answered + 1 = 28 then t.openPort else t := rfl

theorem exec_row (r : HostRequest) (s : State) : exec r.row s = .next (s.clearOut.hostRequest r) := by
  cases r <;> rfl

theorem step_quiet {s : State} (h : s.pending = []) : step s = .next s.clearOut.unprompted := by
  rw [step, h]

/-- Settles O4. -/
theorem sweepAnswersOpenThePort : Obligations.SweepAnswersOpenThePort := by
  refine ⟨fun g rest ok s h ho => ⟨fun hn => ?_, fun hn => ?_⟩, fun r rest s hp hopen hheld => ?_⟩
  · rw [exec_sweepWriteAnswer ok h ho, sweepAnswered_eq]
    exact congrArg Host.Outcome.next (if_neg hn)
  · rw [exec_sweepWriteAnswer ok h ho, sweepAnswered_eq]
    exact congrArg Host.Outcome.next (if_pos hn)
  · refine ⟨_, exec_row r _, ?_⟩
    rw [step_quiet hp, unprompted_held (s := s.clearOut) hopen hheld, takeHeld_eq (s := s.clearOut) hopen hheld]
    rfl

end Sys2Proof.Machine

/-! ## Answers to passing requests (R5, R14, R15) -/

namespace Sys2Proof.Machine

/-- Word `i` of a read's response: the bytes taken at arrival, or memory's (R14, R15). -/
def relayedWord (straddles ok : Bool) (ws : List (Option (List Byte))) (bytes : List Byte) (i : Nat) : List Byte :=
  match ws[i]? with
  | some (some taken) => taken
  | _ => if straddles && !ok then List.replicate 8 0 else padTo 8 (bytes.drop (8 * i))

theorem relayedWord_succ (straddles ok : Bool) (w : Option (List Byte)) (ws : List (Option (List Byte)))
    (bytes : List Byte) (i : Nat) :
    relayedWord straddles ok (w :: ws) bytes (i + 1) = relayedWord straddles ok ws (bytes.drop 8) i := by
  simp only [relayedWord, List.getElem?_cons_succ, List.drop_drop, Nat.mul_succ, Nat.add_comm]

/-- A forwarded read's data, word by word. -/
theorem mergeRead_eq (straddles ok : Bool) (ws : List (Option (List Byte))) (bytes : List Byte) :
    mergeRead straddles ok ws bytes = (List.range ws.length).flatMap (relayedWord straddles ok ws bytes) := by
  induction ws generalizing bytes with
  | nil => rfl
  | cons w ws ih =>
    rw [List.length_cons, List.range_succ_eq_map, List.flatMap_cons, List.flatMap_map]
    simp only [relayedWord_succ, ← ih]
    cases w <;> rfl

theorem response_eq (r : PspRecord) (tag : Tag) (ok : Bool) (data : List Byte) :
    r.response tag ok data = if r.isWrite then .ack tag (if ok then .ok else .error)
      else .data tag ok ((List.range r.subst.length).flatMap (relayedWord (r.subst.any Option.isSome) ok r.subst data)) := by
  rw [PspRecord.response, mergeRead_eq]

theorem exec_passingResponse {s : State} {a : MemoryAnswer} {g : Granted} {rest : List Granted} {tag : Tag} {half : Half}
    (h : s.awaits g rest) (ha : a.grant = g.id) (ho : g.request.owner = .passing tag half) :
    exec (.passingResponse a) s = .next (({ s with msp := { s.msp with outstanding := rest }, out := [] } :
      State).passingAnswered tag half ⟨a.ok, g.request.answerData a.data⟩) := by
  have hk : g.request.owner.isPassing = true := by rw [ho]; rfl
  have he := memoryAnswers_awaits Owner.isPassing a.ok a.data h hk
  rw [ho, ← ha] at he
  exact congrArg Host.Outcome.next he

/-- The last part of an answer closes the record. -/
theorem passingAnswered_last {s : State} {tag : Tag} {half : Half} {a whole : KeptAnswer} {r : PspRecord}
    (hr : s.record tag = some r) (hw : (r.parts.keep half a).complete a = some whole) :
    s.passingAnswered tag half a = (s.setRecord tag none).emit (r.response tag whole.ok whole.data) := by
  simp only [State.passingAnswered, hr, hw]

/-- A part of an answer is kept until the other has come. -/
theorem passingAnswered_part {s : State} {tag : Tag} {half : Half} {a : KeptAnswer} {r : PspRecord}
    (hr : s.record tag = some r) (hw : (r.parts.keep half a).complete a = none) :
    s.passingAnswered tag half a = s.setRecord tag (some { r with parts := r.parts.keep half a }) := by
  simp only [State.passingAnswered, hr, hw]

/-- Settles O36: by the parts the record waits for. -/
theorem passingAnswersAreRelayed : Obligations.PassingAnswersAreRelayed := by
  intro a g rest tag half r s hg ha ho hr hwr
  have hdata : g.request.answerData a.data = if r.isWrite then [] else padTo g.request.size a.data := by
    rw [MemRequest.answerData, hwr]
  have last (whole : KeptAnswer) (hw : (r.parts.keep half ⟨a.ok, g.request.answerData a.data⟩).complete
      ⟨a.ok, g.request.answerData a.data⟩ = some whole) := by
    have h := exec_passingResponse hg ha ho
    rw [passingAnswered_last (s := { s with msp := { s.msp with outstanding := rest }, out := [] }) hr hw,
      response_eq] at h
    exact h
  have part (hw : (r.parts.keep half ⟨a.ok, g.request.answerData a.data⟩).complete
      ⟨a.ok, g.request.answerData a.data⟩ = none) := by
    have h := exec_passingResponse hg ha ho
    rw [passingAnswered_part (s := { s with msp := { s.msp with outstanding := rest }, out := [] }) hr hw] at h
    exact h
  rw [hdata] at last part
  refine ⟨fun hp => last ⟨a.ok, _⟩ (by rw [hp]; cases half <;> rfl), fun x y hp => ⟨?_, ?_, ?_, ?_⟩⟩
  · rintro rfl rfl
    rw [hp] at part
    exact part (by cases x <;> rfl)
  · rintro rfl rfl
    rw [hp] at part
    exact part (by cases y <;> rfl)
  · rintro z rfl rfl
    exact last ⟨a.ok && z.ok, _ ++ z.data⟩ (by rw [hp]; rfl)
  · rintro z rfl rfl
    exact last ⟨z.ok && a.ok, z.data ++ _⟩ (by rw [hp]; rfl)

end Sys2Proof.Machine

/-! ## Reads answered from the part's state (R13, R29, R34, R58, R168) -/

namespace Sys2Proof.Machine

/-- A read of words within a line, each of which the part gives, is answered with their values and changes nothing. -/
theorem exec_read_shown {s : State} {tag : Tag} {addr n : Nat} {vs : List (List Byte)} (h : s.canTake tag)
    (ha : addr % 8 = 0) (hl : addr % 64 + 8 * n ≤ 64) (h0 : 0 < n) (hb : addr < 2 ^ 36)
    (hv : (wordAddrs addr n).map s.substituted = vs.map some) :
    exec (.read ⟨BitVec.ofNat 36 addr, 8 * n, tag⟩) s = .next { s with out := [.data tag true vs.flatten] } :=
  congrArg Host.Outcome.next ((hostRequest_atHand h.1 (.read ⟨BitVec.ofNat 36 addr, 8 * n, tag⟩)).trans
    (takeRead_shown (s := s.clearOut) h.2 ha hl h0 hb hv))

theorem wordAddrs_one (a : Nat) : wordAddrs a 1 = [a] := rfl

/-! ### The control page -/

theorem substituted_commandWord (s : State) : s.substituted s.controlBase = some s.commandRecord := by
  rw [State.substituted, placeOf_commandWord]

theorem substituted_status (s : State) {i : Nat} (h : i < 4) :
    s.substituted (s.controlBase + (0x40 + 8 * i)) = some (s.statusWord i) := by
  have hp : controlPlace (0x40 + 8 * i) = .statusBlock i :=
    (controlPlace_statusBlock_iff (by omega) i).2 ⟨h, by omega⟩
  rw [State.substituted, placeOf_control s (by omega), hp]

theorem commandRecord_bytes (s : State) : s.commandRecord =
    [s.ctl.lastCode,
      match s.ctl.lastResult with | .done => 0 | .state => 1 | .arg => 2 | .nothing => 3 | .complement => 4] ++
      leBytes 2 s.ctl.taken.toNat ++ [0, 0, 0, 0] := by
  have hcode : leBytes 1 s.ctl.lastResult.code = [match s.ctl.lastResult with
      | .done => 0 | .state => 1 | .arg => 2 | .nothing => 3 | .complement => 4] := by
    cases s.ctl.lastResult <;> rfl
  rw [State.commandRecord, hcode]
  rfl

theorem leBytes_byte (b : Byte) : leBytes 1 b.toNat = [b] := by
  simp [leBytes]

theorem statusWords_bytes (s : State) :
    [s.statusWord 0, s.statusWord 1, s.statusWord 2, s.statusWord 3].flatten =
      [match s.ctl.global with | .stopped => 0 | .running => 1 | .quiescing => 2, s.anchor,
        match s.relay.ringState with | .unset => 0 | .running => 1 | .faulted => 2,
        if s.sweep.fault then 1 else 0] ++ leBytes 2 s.relay.backlog.length ++ [0, 0] ++
        leBytes 2 s.relay.produced.toNat ++ leBytes 2 s.relay.consumed.toNat ++
        leBytes 1 s.relay.stack.length ++ [0, 0, 0] ++
        padTo 8 (s.relay.stack.reverse.map fun c => BitVec.ofNat 8 c.rank) ++
        leBytes 4 s.ctl.refusals.toNat ++ leBytes 4 s.milliseconds.toNat := by
  have hglobal : leBytes 1 s.ctl.global.code =
      [match s.ctl.global with | .stopped => 0 | .running => 1 | .quiescing => 2] := by
    cases s.ctl.global <;> rfl
  have hring : leBytes 1 s.relay.ringState.code =
      [match s.relay.ringState with | .unset => 0 | .running => 1 | .faulted => 2] := by
    cases s.relay.ringState <;> rfl
  have h0 : s.statusWord 0 = [match s.ctl.global with | .stopped => 0 | .running => 1 | .quiescing => 2, s.anchor,
      match s.relay.ringState with | .unset => 0 | .running => 1 | .faulted => 2,
      if s.sweep.fault then 1 else 0] ++ leBytes 2 s.relay.backlog.length ++ [0, 0] := by
    rw [State.statusWord, hglobal, hring, leBytes_byte]
    rfl
  have h1 : s.statusWord 1 = leBytes 2 s.relay.produced.toNat ++ leBytes 2 s.relay.consumed.toNat ++
      leBytes 1 s.relay.stack.length ++ [0, 0, 0] := rfl
  rw [h0, h1, State.statusWord, State.statusWord]
  simp only [List.flatten_cons, List.flatten_nil, List.append_nil, List.append_assoc]

/-- Settles O7. -/
theorem controlPageReadsShowTheState : Obligations.ControlPageReadsShowTheState := by
  intro tag s h
  have hbase := controlBase_le s
  have hmod := controlBase_mod s
  refine ⟨?_, ?_⟩
  · have hread := exec_read_shown (n := 1) (vs := [s.commandRecord]) h (addr := s.controlBase) (by omega) (by omega)
      (by decide) (by omega) (by rw [wordAddrs_one, List.map_singleton, substituted_commandWord]; rfl)
    rw [List.flatten_singleton, commandRecord_bytes] at hread
    exact hread
  · have hwords : (wordAddrs (s.controlBase + 0x40) 4).map s.substituted =
        [s.statusWord 0, s.statusWord 1, s.statusWord 2, s.statusWord 3].map some := by
      have hw {i : Nat} (hi : i < 4) := substituted_status s hi
      exact congrArg₂ List.cons (hw (i := 0) (by decide)) (congrArg₂ List.cons (hw (i := 1) (by decide))
        (congrArg₂ List.cons (hw (i := 2) (by decide)) (congrArg₂ List.cons (hw (i := 3) (by decide)) rfl)))
    have hread := exec_read_shown h (addr := s.controlBase + 0x40) (n := 4) (by omega) (by omega) (by decide) (by omega)
      hwords
    rw [statusWords_bytes] at hread
    exact hread

end Sys2Proof.Machine

/-! ## Reads of tickets and of the meter window (R39, R58, R168, R191, R192) -/

namespace Sys2Proof.Machine

/-! ### Post words -/

theorem ticketWindowSet_of_apart {s : State} (hon : windowOn s.image.ticketWindow = true)
    (hal : baseOf s.image.ticketWindow % 8192 = 0)
    (hap : s.anchor.toNat * 65536 + 65536 ≤ baseOf s.image.ticketWindow ∨
      baseOf s.image.ticketWindow + 8192 ≤ s.anchor.toNat * 65536) : s.ticketWindowSet := by
  refine ⟨hon, hal, ?_⟩
  rw [← Bool.not_eq_true, Extent.overlaps_iff]
  simp only [controlExtent, controlBase]
  omega

/-- The third byte and the page of a ticket's status, by its state (R58). -/
def Ticket.shown (t : Ticket) : Byte × Nat :=
  match t.state with
  | .free | .done | .cancelled | .failed =>
    (match t.reason with
      | .noReason => 0 | .extent => 1 | .port => 2 | .account => 3 | .copies => 4 | .rule => 5 | .memoryReject => 6
      | .complete => 0x81 | .cancel => 0x82 | .flush => 0x83 | .memoryEnd => 0x84, 0)
  | .posting => (0, 0)
  | .queued => match t.resume with | some r => (BitVec.ofNat 8 r.copy, r.page) | none => (0, 0)
  | .active | .draining | .cancelling | .failing => (BitVec.ofNat 8 t.copy, t.page)

theorem copyOrReason_byte (t : Ticket) : leBytes 1 t.copyOrReason = [t.shown.1] := by
  unfold Ticket.copyOrReason Ticket.shown
  cases t.state with
  | queued => cases t.resume <;> rfl
  | free | done | cancelled | failed => cases t.reason <;> rfl
  | posting | active | draining | cancelling | failing => rfl

theorem shownPage_eq (t : Ticket) : t.shownPage = t.shown.2 := by
  unfold Ticket.shownPage Ticket.shown
  cases t.state with
  | queued => cases t.resume <;> rfl
  | free | done | cancelled | failed | posting | active | draining | cancelling | failing => rfl

theorem TicketState.code_eq_idxOf (x : TicketState) :
    x.code = [TicketState.free, .posting, .queued, .active, .draining, .cancelling, .failing, .done, .cancelled,
      .failed].idxOf x := by
  cases x <;> rfl

theorem Ticket.statusBytes_eq (t : Ticket) : t.statusBytes =
    leBytes 2 ([TicketState.free, .posting, .queued, .active, .draining, .cancelling, .failing, .done, .cancelled,
      .failed].idxOf t.state + 16 * min t.shown.2 4095) ++ [t.shown.1] ++ leBytes 3 t.delivered ++
      leBytes 2 t.spoiled := by
  rw [Ticket.statusBytes, copyOrReason_byte, shownPage_eq, TicketState.code_eq_idxOf]

/-! ### The meter window -/

/-- The meter window is enabled, on its alignment, and clear of the control page and the ticket window (R27, R28). -/
structure State.MeterWindowSet (s : State) : Prop where
  on : windowOn s.image.meterWindow = true
  aligned : baseOf s.image.meterWindow % 4096 = 0
  page : s.anchor.toNat * 65536 + 65536 ≤ baseOf s.image.meterWindow ∨
    baseOf s.image.meterWindow + 4096 ≤ s.anchor.toNat * 65536
  tickets : windowOn s.image.ticketWindow = true → baseOf s.image.ticketWindow + 8192 ≤ baseOf s.image.meterWindow ∨
    baseOf s.image.meterWindow + 4096 ≤ baseOf s.image.ticketWindow

theorem State.MeterWindowSet.substituted {s : State} (h : s.MeterWindowSet) {o : Nat} (ho : o < 4096) :
    s.substituted (baseOf s.image.meterWindow + o) = some (s.meterWord o) := by
  have hpage := h.page
  have hp : ¬s.inPage (baseOf s.image.meterWindow + o) := fun ⟨hlo, hhi⟩ => by omega
  have ht : ¬inWindow s.image.ticketWindow 8192 (baseOf s.image.meterWindow + o) := fun ⟨hon, hlo, hhi⟩ => by
    have := h.tickets hon
    omega
  have hm : inWindow s.image.meterWindow 4096 (baseOf s.image.meterWindow + o) := ⟨h.on, by omega, by omega⟩
  rw [State.substituted, placeOf_meter hp ht hm]
  simp only [Nat.add_sub_cancel_left]

/-- A read of a record of the meter window shows its four words. -/
theorem State.MeterWindowSet.shows {s : State} (h : s.MeterWindowSet) {tag : Tag} (hs : s.canTake tag) {o : Nat}
    (ho : o < 4096) (hal : o % 32 = 0) :
    exec (.read ⟨BitVec.ofNat 36 (baseOf s.image.meterWindow + o), 32, tag⟩) s = .next { s with out := [.data tag true
      [s.meterWord o, s.meterWord (o + 8), s.meterWord (o + 16), s.meterWord (o + 24)].flatten] } := by
  have hbase := baseOf_lt s.image.meterWindow
  have hwin := h.aligned
  refine exec_read_shown hs (n := 4) (by omega) (by omega) (by decide) (by omega) ?_
  have hw {k : Nat} (hk : o + k < 4096) := h.substituted (o := o + k) hk
  exact congrArg₂ List.cons (hw (k := 0) (by omega)) (congrArg₂ List.cons (hw (k := 8) (by omega))
    (congrArg₂ List.cons (hw (k := 16) (by omega)) (congrArg₂ List.cons (hw (k := 24) (by omega)) rfl)))

theorem meterWord_account (s : State) (a : AccountId) {i : Nat} (hi : i < 4) :
    s.meterWord (32 * a.val + 8 * i) = s.accountRecord a i := by
  have ha := a.isLt
  have hdiv : (32 * a.val + 8 * i) / 32 = a.val := by omega
  have hmod : (32 * a.val + 8 * i) % 32 / 8 = i := by omega
  rw [State.meterWord, if_pos (by omega), hdiv, hmod]
  exact congrArg (s.accountRecord · i) (Fin.ext (Nat.mod_eq_of_lt ha))

theorem meterWord_port (s : State) (p : PortId) {i : Nat} (hi : i < 4) :
    s.meterWord (0x800 + 32 * p.val + 8 * i) = (s.port p).recordWord i := by
  have hp := p.isLt
  have hdiv : (0x800 + 32 * p.val + 8 * i - 0x800) / 32 = p.val := by omega
  have hmod : (0x800 + 32 * p.val + 8 * i) % 32 / 8 = i := by omega
  rw [State.meterWord, if_neg (by omega), if_pos (by omega), hdiv, hmod]
  exact congrArg (fun q => (s.port q).recordWord i) (Fin.ext (Nat.mod_eq_of_lt hp))

theorem meterWord_rest (s : State) {o : Nat} (ho : 0xA00 ≤ o) : s.meterWord o = zeroWord := by
  rw [State.meterWord, if_neg (by omega), if_neg (by omega)]

theorem accountRecord_bytes (s : State) (a : AccountId) :
    [s.accountRecord a 0, s.accountRecord a 1, s.accountRecord a 2, s.accountRecord a 3].flatten =
      [if accountOn (s.accountWord a) then 1#8 else 0#8,
        match s.policy a with | .none => 0#8 | .hold => 1#8 | .reload => 2#8] ++ leBytes 2 (s.account a).reserved ++
        leBytes 3 (s.account a).remaining ++ [0] ++ leBytes 4 (s.account a).sent.toNat ++
        leBytes 4 (s.account a).delivered.toNat ++ leBytes 4 (s.account a).spoiled.toNat ++ List.replicate 12 0 := by
  have hpolicy : leBytes 1 (s.policy a).code =
      [match s.policy a with | .none => 0#8 | .hold => 1#8 | .reload => 2#8] := by
    cases s.policy a <;> rfl
  rw [State.accountRecord, hpolicy]
  rfl

theorem LinkState.code_eq_idxOf (x : LinkState) :
    x.code = [LinkState.disabled, .training, .ready, .drowsy, .waking, .offline].idxOf x := by
  cases x <;> rfl

theorem EngineState.code_eq_idxOf (x : EngineState) :
    x.code = [EngineState.idle, .sending, .waitCredit, .waitPace, .waitPage, .waitQuota, .paused, .held,
      .jamStop].idxOf x := by
  cases x <;> rfl

theorem portRecord_bytes (x : Port) :
    [x.recordWord 0, x.recordWord 1, x.recordWord 2, x.recordWord 3].flatten =
      [BitVec.ofNat 8 ([LinkState.disabled, .training, .ready, .drowsy, .waking, .offline].idxOf x.link.state),
        BitVec.ofNat 8 ([EngineState.idle, .sending, .waitCredit, .waitPace, .waitPage, .waitQuota, .paused, .held,
          .jamStop].idxOf x.engine.state),
        BitVec.ofNat 8 x.link.credits, BitVec.ofNat 8 x.pages.length] ++ leBytes 2 x.queue.length ++
        leBytes 2 x.watch.bits.toNat ++ leBytes 4 x.link.framesSent.toNat ++ leBytes 4 x.link.badFrames.toNat ++
        leBytes 4 x.link.overflows.toNat ++ leBytes 4 x.stray.toNat ++
        [BitVec.ofNat 8 x.watch.truthBits] ++ List.replicate 7 0 := by
  rw [← LinkState.code_eq_idxOf, ← EngineState.code_eq_idxOf]
  rfl

/-- Settles O8. -/
theorem readsShowTicketsAndMeters : Obligations.ReadsShowTicketsAndMeters := by
  intro tag s h
  refine ⟨fun t hon hal hap => ?_, fun hon hal hpage htickets => ?_⟩
  · have hset := ticketWindowSet_of_apart hon hal hap
    obtain ⟨hb, hmod⟩ := postAddr_bounds hset t
    have hread := exec_read_shown (n := 1) (vs := [(s.ticket t).statusBytes]) h (addr := s.postAddr t) hmod (by omega)
      (by decide) hb (by rw [wordAddrs_one, List.map_singleton, State.substituted, placeOf_postAddr hset]; rfl)
    rw [List.flatten_singleton, Ticket.statusBytes_eq] at hread
    exact hread
  · have hset : s.MeterWindowSet := ⟨hon, hal, hpage, htickets⟩
    refine ⟨fun a => ?_, fun p => ?_, fun k hk => ?_⟩
    · have hread := hset.shows h (o := 32 * a.val) (by omega) (by omega)
      have hw {i : Nat} (hi : i < 4) := meterWord_account s a hi
      rw [show s.meterWord (32 * a.val) = _ from hw (i := 0) (by decide), hw (i := 1) (by decide),
        hw (i := 2) (by decide), hw (i := 3) (by decide), accountRecord_bytes] at hread
      exact hread
    · have hread := hset.shows h (o := 0x800 + 32 * p.val) (by omega) (by omega)
      have hw {i : Nat} (hi : i < 4) := meterWord_port s p hi
      rw [show s.meterWord (0x800 + 32 * p.val) = _ from hw (i := 0) (by decide), hw (i := 1) (by decide),
        hw (i := 2) (by decide), hw (i := 3) (by decide), portRecord_bytes, ← Nat.add_assoc] at hread
      exact hread
    · have hread := hset.shows h (o := 0xA00 + 32 * k) (by omega) (by omega)
      rw [meterWord_rest s (by omega), meterWord_rest s (by omega), meterWord_rest s (by omega),
        meterWord_rest s (by omega), ← Nat.add_assoc] at hread
      exact hread

end Sys2Proof.Machine

/-! ## Reads answered or forwarded (R6, R13 to R15) -/

namespace Sys2Proof.Machine

theorem shapedInLine.wellShaped {addr : Addr} {size : Nat} (h : shapedInLine addr size) : wellShaped addr size = true :=
  (wellShaped_iff addr size).2 ⟨h.1, h.2.1⟩

theorem shapedInLine.size_pos {addr : Addr} {size : Nat} (h : shapedInLine addr size) : 8 ≤ size := by
  have hs := h.1
  simp only [List.mem_cons, List.not_mem_nil, or_false] at hs
  omega

theorem shapedInLine.crossesLine {addr : Addr} {size : Nat} (h : shapedInLine addr size) :
    crossesLine addr.toNat size = false :=
  crossesLine_within h.2.2 (Nat.lt_of_lt_of_le (by decide) h.size_pos)

theorem exec_read_within {s : State} {r : ReadRequest} (h : s.canTake r.tag) (hs : shapedInLine r.addr r.size) :
    exec (.read r) s = .next (s.clearOut.classifyRead r) :=
  congrArg Host.Outcome.next
    (hostRequest_read (s := s.clearOut) h.1.1 h.1.2 hs.wellShaped h.2 hs.crossesLine)

/-- The words of a read as the part gives them, or none. -/
def State.wordsOf (s : State) (r : ReadRequest) : List (Option (List Byte)) :=
  (List.range (r.size / 8)).map fun i => s.substituted (r.addr.toNat + 8 * i)

theorem wordsOf_eq (s : State) (r : ReadRequest) :
    (wordAddrs r.addr.toNat (r.size / 8)).map s.clearOut.substituted = s.wordsOf r := by
  rw [wordAddrs, List.map_map]
  rfl

theorem classifyRead_given {s : State} {r : ReadRequest} (h : none ∉ s.wordsOf r) :
    s.clearOut.classifyRead r =
      { s with out := [.data r.tag true ((s.wordsOf r).flatMap fun x => x.getD [])] } := by
  have hall : (s.wordsOf r).all Option.isSome = true := by
    rw [List.all_eq_true]
    exact fun x hx => Option.isSome_iff_ne_none.2 fun e => h (e ▸ hx)
  simp only [State.classifyRead, wordsOf_eq, hall, if_true]
  rfl

/-- A read within a line forwarded whole, with the part's words taken now (R13, R15). -/
def State.withRead (s : State) (r : ReadRequest) (taken : List (Option (List Byte))) : State :=
  s.withForward r.tag ⟨false, r.addr, r.size, taken, .whole⟩
    [⟨.passing r.tag .whole, false, r.addr.toNat, r.size, [], []⟩]

theorem classifyRead_forwarded {s : State} {r : ReadRequest} (hs : shapedInLine r.addr r.size)
    (h : none ∈ s.wordsOf r) : s.clearOut.classifyRead r = s.withRead r (s.wordsOf r) := by
  have hall : ¬(s.wordsOf r).all Option.isSome = true := by
    rw [List.all_eq_true]
    exact fun hc => nomatch hc none h
  simp only [State.classifyRead, wordsOf_eq, if_neg hall, State.pass, hs.crossesLine, partsFor, Bool.false_eq_true,
    if_false]
  rfl

/-! ### The words the part gives (R6) -/

theorem substituted_none_iff (s : State) (a : Nat) : s.substituted a = none ↔ (s.placeOf a).readPasses := by
  unfold State.substituted Place.readPasses
  cases s.placeOf a with
  | commandWord | statusBlock i | postWord t | meter o => exact ⟨nofun, False.elim⟩
  | setting loc | plain | fieldWord t | spool b | elsewhere => exact ⟨fun _ => trivial, fun _ => rfl⟩

theorem not_readPasses_iff (x : Place) : ¬x.readPasses ↔
    x = .commandWord ∨ (∃ i, x = .statusBlock i) ∨ (∃ t, x = .postWord t) ∨ ∃ o, x = .meter o := by
  cases x <;> simp [Place.readPasses]

theorem substituted_some_iff {s : State} (h : WindowLayout s) {a : Nat} (ha : a % 8 = 0) :
    s.substituted a ≠ none ↔
      a = s.anchor.toNat * 65536 ∨ (∃ i < 4, a = s.anchor.toNat * 65536 + 0x40 + 8 * i) ∨
      (windowOn s.image.ticketWindow = true ∧ ∃ t : Slot, a = baseOf s.image.ticketWindow + 32 * t.val + 24) ∨
      inWindow s.image.meterWindow 4096 a := by
  have hmeter : (∃ o, s.placeOf a = .meter o) ↔ inWindow s.image.meterWindow 4096 a := by
    simp only [h.placeOf_meter_iff]
    constructor
    · rintro ⟨o, hon, ho, rfl⟩
      exact ⟨hon, by omega, by omega⟩
    · rintro ⟨hon, hlo, hhi⟩
      exact ⟨a - baseOf s.image.meterWindow, hon, by omega, by omega⟩
  rw [ne_eq, substituted_none_iff, not_readPasses_iff, hmeter, h.placeOf_commandWord_iff ha]
  simp only [h.placeOf_statusBlock_iff ha, h.placeOf_postWord_iff ha, exists_and_left]

/-- Settles O9. -/
theorem readsAreAnsweredOrForwarded : Obligations.ReadsAreAnsweredOrForwarded := by
  refine ⟨fun r s h hs => ⟨fun hw => ?_, fun hw => ?_, fun hpass => ?_⟩, fun a s => ⟨substituted_none_iff s a, ?_⟩⟩
  · rw [exec_read_within h hs, classifyRead_given hw]
    rfl
  · rw [exec_read_within h hs, classifyRead_forwarded hs hw]
    rfl
  · have hnone : s.wordsOf r = List.replicate (r.size / 8) none := by
      rw [List.eq_replicate_iff]
      refine ⟨by simp [State.wordsOf], fun x hx => ?_⟩
      obtain ⟨i, hi, rfl⟩ := List.mem_map.1 hx
      exact (substituted_none_iff s _).2 (hpass i (List.mem_range.1 hi))
    have hmem : none ∈ s.wordsOf r := by
      have := hs.size_pos
      rw [hnone, List.mem_replicate]
      exact ⟨by omega, rfl⟩
    rw [exec_read_within h hs, classifyRead_forwarded hs hmem, hnone]
    rfl
  · exact fun hw ha => substituted_some_iff (windowLayout_of_sound hw) ha

end Sys2Proof.Machine

/-! ## Writes refused or passed (R6 to R8, R11, R12, R15) -/

namespace Sys2Proof.Machine

/-! ### The words a write touches -/

/-- The write touches a word whose place passes a test (R6). -/
def State.writesTo (s : State) (w : WriteRequest) (f : Place → Prop) : Prop :=
  ∃ i < w.size / 8, (∃ j < 8, w.enables[8 * i + j]? = some true) ∧ f (s.placeOf (w.addr.toNat + 8 * i))

theorem writesTo_congr {s : State} {w : WriteRequest} {f g : Place → Prop} (h : ∀ x, f x ↔ g x) :
    s.writesTo w f ↔ s.writesTo w g := by
  rw [show f = g from funext fun x => propext (h x)]

theorem State.writesTo.anyEnabled {s : State} {w : WriteRequest} {f : Place → Prop} (h : s.writesTo w f) :
    anyEnabled w = true := by
  obtain ⟨i, hi, ⟨j, hj, he⟩, -⟩ := h
  exact (anyEnabled_iff w).2 ⟨8 * i + j, by omega, he⟩

/-- A write with a byte enabled touches a word. -/
theorem writesTo_of_all {s : State} {w : WriteRequest} {f : Place → Prop} (hsize : w.size % 8 = 0)
    (hen : ∃ i < w.size, w.enables[i]? = some true) (h : ∀ i < w.size / 8, f (s.placeOf (w.addr.toNat + 8 * i))) :
    s.writesTo w f := by
  obtain ⟨i, hi, he⟩ := hen
  refine ⟨i / 8, by omega, ⟨i % 8, by omega, ?_⟩, h _ (by omega)⟩
  rw [Nat.div_add_mod, he]

/-- A write all of whose words lie in one place touches no other. -/
theorem not_writesTo_of_all {s : State} {w : WriteRequest} {g : Place → Prop} {x : Place}
    (h : ∀ i < w.size / 8, s.placeOf (w.addr.toNat + 8 * i) = x) (hx : ¬g x) : ¬s.writesTo w g :=
  fun ⟨i, hi, _, hg⟩ => hx (h i hi ▸ hg)

theorem shapedInLine.size_mod {addr : Addr} {size : Nat} (h : shapedInLine addr size) : size % 8 = 0 := by
  have hs := h.1
  simp only [List.mem_cons, List.not_mem_nil, or_false] at hs
  omega

/-! ### The tests of the classifier (R6, R11, R12) -/

theorem isAbsorbed_iff (x : Place) : x.isAbsorbed = true ↔ x = .commandWord ∨ ∃ t, x = .postWord t := by
  cases x <;> simp [Place.isAbsorbed]

theorem isReadOnly_iff (x : Place) : x.isReadOnly = true ↔ (∃ i, x = .statusBlock i) ∨ ∃ o, x = .meter o := by
  cases x <;> simp [Place.isReadOnly]

theorem fieldLocked_iff (s : State) (x : Place) :
    s.fieldLocked x = true ↔ ∃ t, x = .fieldWord t ∧ (s.ticket t).state ≠ .free := by
  cases x <;> simp [State.fieldLocked]

theorem guarded_iff (s : State) (x : Place) : s.guarded x = true ↔ ∃ b, x = .spool b ∧ s.guard b ≠ 0 := by
  cases x <;> simp [State.guarded]

/-! What the classifier asks of the touched words, in its order (R7). -/

def State.writesAbsorbed (s : State) (w : WriteRequest) : Prop :=
  s.writesTo w fun x => x = .commandWord ∨ ∃ t, x = .postWord t

def State.writesReadOnly (s : State) (w : WriteRequest) : Prop :=
  s.writesTo w fun x => (∃ i, x = .statusBlock i) ∨ ∃ o, x = .meter o

def State.writesLocked (s : State) (w : WriteRequest) : Prop :=
  s.writesTo w fun x => ∃ t, x = .fieldWord t ∧ (s.ticket t).state ≠ .free

def State.writesGuarded (s : State) (w : WriteRequest) : Prop :=
  s.writesTo w fun x => ∃ b, x = .spool b ∧ s.guard b ≠ 0

/-- The classifier's tests, in their order (R7). -/
theorem judgeWrite_eq (s : State) (w : WriteRequest) [Decidable (s.writesAbsorbed w)] [Decidable (s.writesReadOnly w)]
    [Decidable (s.writesLocked w)] [Decidable (s.writesGuarded w)] :
    s.judgeWrite w =
      if s.writesAbsorbed w ∧ ¬(w.size = 8 ∧ w.enables = List.replicate 8 true) then some .shape
      else if s.writesReadOnly w then some .subst
      else if s.writesLocked w then some .ticket
      else if s.writesGuarded w then some .guard
      else match s.settingParts w with
        | [] => none
        | parts => s.judgeSettings parts := by
  let any (f : Place → Bool) : Bool := ((touchedWords w).map fun x => s.placeOf x.addr).any f
  have habs : any Place.isAbsorbed = true ↔ s.writesAbsorbed w :=
    (touchedPlaces_any s w Place.isAbsorbed).trans (writesTo_congr isAbsorbed_iff)
  have hro : any Place.isReadOnly = true ↔ s.writesReadOnly w :=
    (touchedPlaces_any s w Place.isReadOnly).trans (writesTo_congr isReadOnly_iff)
  have hlock : any s.fieldLocked = true ↔ s.writesLocked w :=
    (touchedPlaces_any s w s.fieldLocked).trans (writesTo_congr (fieldLocked_iff s))
  have hguard : any s.guarded = true ↔ s.writesGuarded w :=
    (touchedPlaces_any s w s.guarded).trans (writesTo_congr (guarded_iff s))
  have hshape : (any Place.isAbsorbed && !isExactWord w) = true ↔
      s.writesAbsorbed w ∧ ¬(w.size = 8 ∧ w.enables = List.replicate 8 true) := by
    rw [Bool.and_eq_true, Bool.not_eq_true', ← Bool.not_eq_true, isExactWord_iff]
    exact and_congr_left fun _ => habs
  have hj : s.judgeWrite w = if any Place.isAbsorbed && !isExactWord w then some .shape
      else if any Place.isReadOnly then some .subst
      else if any s.fieldLocked then some .ticket
      else if any s.guarded then some .guard
      else match s.settingParts w with
        | [] => none
        | parts => s.judgeSettings parts := rfl
  rw [hj, if_congr hshape rfl (if_congr hro rfl (if_congr hlock rfl (if_congr hguard rfl rfl)))]

theorem exec_write_within {s : State} {w : WriteRequest} (h : s.canTake w.tag) (hs : shapedInLine w.addr w.size)
    (hen : anyEnabled w = true) : exec (.write w) s = .next (s.clearOut.classifyWrite w) :=
  congrArg Host.Outcome.next
    (hostRequest_write (s := s.clearOut) h.1.1 h.1.2 hs.wellShaped h.2 hs.crossesLine hen)

theorem exec_write_refused {s : State} {w : WriteRequest} {reason : RefusalReason} (h : s.canTake w.tag)
    (hs : shapedInLine w.addr w.size) (hen : anyEnabled w = true) (hj : s.clearOut.judgeWrite w = some reason) :
    exec (.write w) s = .next (s.refusedWith w reason) := by
  rw [exec_write_within h hs hen, State.classifyWrite, hj]
  rfl

/-! ### Refusals (R7, R8) -/

section Refusals
variable {s : State} {w : WriteRequest} (h : s.canTake w.tag) (hs : shapedInLine w.addr w.size)
include h hs

theorem exec_write_shape (ha : s.writesAbsorbed w) (he : ¬(w.size = 8 ∧ w.enables = List.replicate 8 true)) :
    exec (.write w) s = .next (s.refusedWith w .shape) := by
  classical
  exact exec_write_refused h hs ha.anyEnabled ((judgeWrite_eq s.clearOut w).trans (if_pos ⟨ha, he⟩))

theorem exec_write_subst (ha : ¬s.writesAbsorbed w) (hr : s.writesReadOnly w) :
    exec (.write w) s = .next (s.refusedWith w .subst) := by
  classical
  exact exec_write_refused h hs hr.anyEnabled ((judgeWrite_eq s.clearOut w).trans
    ((if_neg fun hc => ha hc.1).trans (if_pos hr)))

theorem exec_write_ticket (ha : ¬s.writesAbsorbed w) (hr : ¬s.writesReadOnly w) (hl : s.writesLocked w) :
    exec (.write w) s = .next (s.refusedWith w .ticket) := by
  classical
  exact exec_write_refused h hs hl.anyEnabled ((judgeWrite_eq s.clearOut w).trans
    ((if_neg fun hc => ha hc.1).trans ((if_neg hr).trans (if_pos hl))))

theorem exec_write_guard (ha : ¬s.writesAbsorbed w) (hr : ¬s.writesReadOnly w) (hl : ¬s.writesLocked w)
    (hg : s.writesGuarded w) : exec (.write w) s = .next (s.refusedWith w .guard) := by
  classical
  exact exec_write_refused h hs hg.anyEnabled ((judgeWrite_eq s.clearOut w).trans
    ((if_neg fun hc => ha hc.1).trans ((if_neg hr).trans ((if_neg hl).trans (if_pos hg)))))

end Refusals

/-! ### Writes all of whose words lie in one place, by address -/

/-- The words of a write within a line, each in the same line as the first. -/
theorem shapedInLine.word_line {addr : Addr} {size i : Nat} (h : shapedInLine addr size) (hi : i < size / 8) :
    (addr.toNat + 8 * i) / 64 = addr.toNat / 64 := by
  have := h.2.2
  have := h.size_mod
  omega

theorem WindowLayout.words_spool {s : State} (h : WindowLayout s) {addr : Addr} {size : Nat}
    (hs : shapedInLine addr size) {b : Fin 4096} (hw : inWindow s.image.spoolWindow (4096 * s.blockBytes) addr.toNat)
    (hb : b.val = (addr.toNat - baseOf s.image.spoolWindow) / s.blockBytes) :
    ∀ i < size / 8, s.placeOf (addr.toNat + 8 * i) = .spool b := by
  intro i hi
  have hline := hs.word_line hi
  have hin := (WindowLayout.line_inWindow h.spool_base_mod (WindowLayout.spool_size_mod s) hline).2 hw
  exact (h.placeOf_spool_iff b).2 ⟨hin, hb.trans (h.line_block hline hin.2.1 hw.2.1).symm⟩

theorem WindowLayout.words_elsewhere {s : State} (h : WindowLayout s) {addr : Addr} {size : Nat}
    (hs : shapedInLine addr size) (hn : ¬s.inPlace addr.toNat) :
    ∀ i < size / 8, s.placeOf (addr.toNat + 8 * i) = .elsewhere :=
  fun _ hi => h.placeOf_elsewhere_iff.2 fun hc => hn ((h.line_inPlace (hs.word_line hi)).1 hc)

theorem WindowLayout.word_field {s : State} (h : WindowLayout s) {addr : Addr} (hs : shapedInLine addr 8) {t : Slot}
    {k : Fin 3} (hon : windowOn s.image.ticketWindow = true)
    (ha : addr.toNat = baseOf s.image.ticketWindow + 32 * t.val + 8 * k.val) :
    ∀ i < 8 / 8, s.placeOf (addr.toNat + 8 * i) = .fieldWord t := by
  intro i hi
  have hi0 : i = 0 := by omega
  subst hi0
  exact (h.placeOf_fieldWord_iff hs.2.1 t).2 ⟨hon, k.val, k.isLt, ha⟩

/-- Settles O11. -/
theorem refusedWritesChangeNothing : Obligations.RefusedWritesChangeNothing := by
  refine ⟨fun w s h hs => ⟨exec_write_shape h hs, exec_write_subst h hs, exec_write_ticket h hs, exec_write_guard h hs,
    fun hw hen => ⟨fun b hin hb hg => ?_, fun t k hon hsize ha ht => ?_⟩⟩, fun a s hw ha => ?_⟩
  · have hall := (windowLayout_of_sound hw).words_spool hs hin hb
    refine exec_write_guard h hs ?_ ?_ ?_ (writesTo_of_all hs.size_mod hen fun i hi => ⟨b, hall i hi, hg⟩) <;>
      exact not_writesTo_of_all hall (by simp)
  · have hall : ∀ i < w.size / 8, s.placeOf (w.addr.toNat + 8 * i) = .fieldWord t := by
      rw [hsize] at hs ⊢
      exact (windowLayout_of_sound hw).word_field hs hon ha
    refine exec_write_ticket h hs ?_ ?_ (writesTo_of_all hs.size_mod hen fun i hi => ⟨t, hall i hi, ht⟩) <;>
      exact not_writesTo_of_all hall (by simp)
  · have hl := windowLayout_of_sound hw
    exact ⟨hl.placeOf_commandWord_iff ha, hl.placeOf_statusBlock_iff ha, hl.placeOf_setting_iff ha,
      hl.placeOf_plain_iff ha, hl.placeOf_fieldWord_iff ha, hl.placeOf_postWord_iff ha, hl.placeOf_meter_iff,
      hl.placeOf_spool_iff, hl.placeOf_elsewhere_iff⟩

end Sys2Proof.Machine

/-! ## Writes that pass (R6, R11, R12, R15) -/

namespace Sys2Proof.Machine

/-- A word whose writes pass to memory (R6, R11, R12). -/
def State.writePasses (s : State) : Place → Prop
  | .plain | .elsewhere => True
  | .fieldWord t => (s.ticket t).state = .free
  | .spool b => s.guard b = 0
  | .commandWord | .statusBlock _ | .setting _ | .postWord _ | .meter _ => False

/-- Every word the write touches passes. -/
def State.writesPass (s : State) (w : WriteRequest) : Prop :=
  ∀ i < w.size / 8, (∃ j < 8, w.enables[8 * i + j]? = some true) → s.writePasses (s.placeOf (w.addr.toNat + 8 * i))

theorem State.writesPass.not_writesTo {s : State} {w : WriteRequest} (h : s.writesPass w) {f : Place → Prop}
    (hf : ∀ x, f x → ¬s.writePasses x) : ¬s.writesTo w f :=
  fun ⟨i, hi, he, hx⟩ => hf _ hx (h i hi he)

theorem State.writesPass.settingParts {s : State} {w : WriteRequest} (h : s.writesPass w) : s.settingParts w = [] := by
  rw [State.settingParts, List.filterMap_eq_nil_iff]
  intro x hx
  have hno : ¬∃ x ∈ touchedWords w, ∃ loc, s.placeOf x.addr = .setting loc := by
    rw [exists_touched_iff w fun a => ∃ loc, s.placeOf a = .setting loc]
    exact h.not_writesTo (f := fun x => ∃ loc, x = .setting loc) (by rintro x ⟨loc, rfl⟩; exact id)
  split
  case h_1 loc hloc => exact absurd ⟨x, hx, loc, hloc⟩ hno
  case h_2 => rfl

theorem State.writesPass.not_absorbed {s : State} {w : WriteRequest} (h : s.writesPass w) : ¬s.writesAbsorbed w :=
  h.not_writesTo (by rintro x (rfl | ⟨t, rfl⟩) <;> exact id)

theorem State.writesPass.judgeWrite {s : State} {w : WriteRequest} (h : s.writesPass w) : s.judgeWrite w = none := by
  classical
  have hro : ¬s.writesReadOnly w := h.not_writesTo (by rintro x (⟨i, rfl⟩ | ⟨o, rfl⟩) <;> exact id)
  have hlock : ¬s.writesLocked w := h.not_writesTo (by rintro x ⟨t, rfl, ht⟩; exact ht)
  have hguard : ¬s.writesGuarded w := h.not_writesTo (by rintro x ⟨b, rfl, hb⟩; exact hb)
  rw [judgeWrite_eq, if_neg fun hc => h.not_absorbed hc.1, if_neg hro, if_neg hlock, if_neg hguard, h.settingParts]

/-- A write of no absorbed word and no setting is forwarded. -/
theorem State.writesPass.proceed {s : State} {w : WriteRequest} (h : s.writesPass w) : s.proceed w = s.forwardWrite w := by
  have hab : ¬((touchedWords w).map fun x => s.placeOf x.addr).any Place.isAbsorbed = true := fun hc =>
    h.not_absorbed (((touchedPlaces_any s w _).trans (writesTo_congr isAbsorbed_iff)).1 hc)
  unfold State.proceed
  split
  case h_1 e => exact absurd (by rw [e]; rfl) hab
  case h_2 t e => exact absurd (by rw [e]; rfl) hab
  case h_3 => rw [h.settingParts]

theorem forwardWrite_clearOut {s : State} {w : WriteRequest} (h : shapedInLine w.addr w.size) :
    s.clearOut.forwardWrite w = s.withWrite w := by
  rw [forwardWrite_within h.crossesLine]
  rfl

theorem exec_write_passes {s : State} {w : WriteRequest} (h : s.canTake w.tag) (hs : shapedInLine w.addr w.size)
    (hen : ∃ i < w.size, w.enables[i]? = some true) (hp : s.writesPass w) :
    exec (.write w) s = .next (s.withWrite w) := by
  have hp' : s.clearOut.writesPass w := hp
  rw [exec_write_within h hs ((anyEnabled_iff w).2 hen), State.classifyWrite, hp'.judgeWrite, hp'.proceed,
    forwardWrite_clearOut hs]

theorem exec_write_nothing {s : State} {w : WriteRequest} (h : s.canTake w.tag) (hs : shapedInLine w.addr w.size)
    (hen : ∀ i < w.size, w.enables[i]? ≠ some true) : exec (.write w) s = .next { s with out := [.ack w.tag .ok] } := by
  have hno : anyEnabled w = false := by
    rw [← Bool.not_eq_true, anyEnabled_iff]
    rintro ⟨i, hi, he⟩
    exact hen i hi he
  refine congrArg Host.Outcome.next ((hostRequest_atHand h.1 (.write w)).trans ?_)
  have hfree : s.clearOut.record w.tag = none := h.2
  simp only [State.takeRequest, State.takeWrite, hs.wellShaped, hfree, hs.crossesLine, hno, Option.isSome_none,
    Bool.not_true, Bool.or_false, Bool.false_eq_true, if_false]
  rfl

/-- A write all of whose words lie in one place that writes pass. -/
theorem writesPass_of_all {s : State} {w : WriteRequest} {x : Place}
    (h : ∀ i < w.size / 8, s.placeOf (w.addr.toNat + 8 * i) = x) (hx : s.writePasses x) : s.writesPass w :=
  fun i hi _ => h i hi ▸ hx

/-- The first conjunct of O10: writes that pass, by the places of their words and by address. -/
theorem plainWrites_pass (w : WriteRequest) (s : State) (h : s.canTake w.tag) (hs : shapedInLine w.addr w.size) :
    ((∃ i < w.size, w.enables[i]? = some true) → s.writesPass w → exec (.write w) s = .next (s.withWrite w)) ∧
    ((∀ i < w.size, w.enables[i]? ≠ some true) → exec (.write w) s = .next { s with out := [.ack w.tag .ok] }) ∧
    (s.windowsSound → (∃ i < w.size, w.enables[i]? = some true) →
      let a := w.addr.toNat
      (∀ b : Fin 4096, inWindow s.image.spoolWindow (4096 * s.blockBytes) a →
        b.val = (a - baseOf s.image.spoolWindow) / s.blockBytes → s.guard b = 0 → exec (.write w) s = .next (s.withWrite w)) ∧
      (∀ (t : Slot) (k : Fin 3), windowOn s.image.ticketWindow = true → w.size = 8 →
        a = baseOf s.image.ticketWindow + 32 * t.val + 8 * k.val → (s.ticket t).state = .free →
        exec (.write w) s = .next (s.withWrite w)) ∧
      (¬s.inPlace a → exec (.write w) s = .next (s.withWrite w))) := by
  refine ⟨exec_write_passes h hs, exec_write_nothing h hs, fun hw hen => ⟨?_, ?_, ?_⟩⟩
  · intro b hin hb hg
    exact exec_write_passes h hs hen (writesPass_of_all ((windowLayout_of_sound hw).words_spool hs hin hb) hg)
  · intro t k hon hsize ha ht
    refine exec_write_passes h hs hen (writesPass_of_all (x := .fieldWord t) ?_ ht)
    rw [hsize] at hs ⊢
    exact (windowLayout_of_sound hw).word_field hs hon ha
  · intro hn
    exact exec_write_passes h hs hen
      (writesPass_of_all (x := .elsewhere) ((windowLayout_of_sound hw).words_elsewhere hs hn) trivial)

end Sys2Proof.Machine

/-! ## Setting words judged (R24 to R28, R80, R85, R87, R130, R165 to R167) -/

namespace Sys2Proof.Machine

/-! ### Ranges, changes and overlaps -/

theorem inRange_iff (loc : SettingLoc) (v : Word) : inRange loc v = true ↔ ¬outOfRange v loc := by
  cases loc with
  | ticketWindow | meterWindow => simp [inRange, outOfRange]
  | spoolWindow =>
    simp only [inRange, outOfRange, Bool.and_eq_true, decide_eq_true_eq, beq_iff_eq, not_or, Nat.not_lt, ne_eq,
      Decidable.not_not, spoolSize, blockSize, Nat.mul_assoc]
  | ring =>
    simp only [inRange, outOfRange, ringBytes, ringRecords, Bool.and_eq_true, decide_eq_true_eq, beq_iff_eq, not_or,
      Nat.not_lt, ne_eq, Decidable.not_not, and_assoc]
    exact and_congr_right fun _ => and_congr_right fun _ => decide_eq_true_iff
  | consume | markRule n => simp [inRange, outOfRange]
  | pacing n =>
    simp only [inRange, outOfRange, Bool.and_eq_true, decide_eq_true_eq]
    omega
  | port p =>
    simp only [inRange, outOfRange, portSilenceMs, decide_eq_true_eq]
    omega
  | condition p c =>
    have : condClassCode v < 4 := Nat.mod_lt _ (by decide)
    simp only [inRange, outOfRange, decide_eq_true_eq]
    omega
  | account a =>
    have : policyCode v < 4 := Nat.mod_lt _ (by decide)
    simp only [inRange, outOfRange, Bool.and_eq_true, decide_eq_true_eq, Bool.not_eq_true', Bool.and_eq_false_iff,
      beq_eq_false_iff_ne]
    omega

theorem unusedZero_iff (loc : SettingLoc) (v : Word) : unusedZero loc v = true ↔ v &&& ~~~(fieldMask loc) = 0 :=
  beq_iff_eq

theorem isChanged_iff (old new : Image) (loc : SettingLoc) :
    isChanged old new loc = true ↔ (old.get loc ^^^ new.get loc) &&& fieldMask loc ≠ 0 :=
  bne_iff_ne

theorem isDroppedRecord_iff (o : Owner) : o.isDroppedRecord = true ↔ o = .record true := by
  cases o <;> simp [Owner.isDroppedRecord]

theorem extentsApart_iff (s : State) (im : Image) (ringSet : Bool) :
    s.extentsApart im ringSet = true ↔ s.apart im ringSet := by
  have hlist : controlExtent s.anchor :: windowExtents im ++ (if ringSet then [ringExtent im] else []) =
      s.keptApart im ringSet := rfl
  have hplaces : controlExtent s.anchor :: windowExtents im = s.keptApart im false := (List.append_nil _).symm
  have hdropped : (s.droppedExtents.all fun e => (s.keptApart im false).all fun x => !e.overlaps x) = true ↔
      ∀ g ∈ s.msp.outstanding, g.request.owner = .record true → ∀ x ∈ s.keptApart im false,
        g.request.addr + 32 ≤ x.first ∨ x.first + x.length ≤ g.request.addr := by
    simp only [State.droppedExtents, List.all_eq_true, List.mem_map, List.mem_filter, isDroppedRecord_iff]
    constructor
    · intro h g hg ho x hx
      have hno := h _ ⟨g, ⟨hg, ho⟩, rfl⟩ x hx
      rw [Bool.not_eq_true', ← Bool.not_eq_true, Extent.overlaps_iff] at hno
      dsimp only at hno
      omega
    · rintro h _ ⟨g, ⟨hg, ho⟩, rfl⟩ x hx
      have hno := h g hg ho x hx
      rw [Bool.not_eq_true', ← Bool.not_eq_true, Extent.overlaps_iff]
      dsimp only
      omega
  simp only [State.extentsApart, Bool.and_eq_true, hlist, pairwiseApart_iff, State.apart]
  rw [hplaces]
  exact and_congr_right fun _ => hdropped

/-! ### Locks -/

/-- A field that a mask covers is the same in two words that differ nowhere under the mask. -/
theorem bits_eq_of_unchanged {a b m : Word} {lo n : Nat} (h : (a ^^^ b) &&& m = 0)
    (hm : ∀ k < n, m.getLsbD (lo + k) = true) : bits a lo n = bits b lo n := by
  apply Nat.eq_of_testBit_eq
  intro k
  simp only [bits, Nat.testBit_mod_two_pow, Nat.testBit_shiftRight]
  by_cases hk : k < n
  · have hbit := congrArg (fun w : Word => w.getLsbD (lo + k)) h
    simp only [BitVec.getLsbD_and, BitVec.getLsbD_xor, hm k hk, Bool.and_true] at hbit
    have hab : a.getLsbD (lo + k) = b.getLsbD (lo + k) := by simpa using hbit
    simp only [BitVec.getLsbD] at hab
    rw [hab]
  · simp [hk]

theorem ticket_uses_iff (s : State) (f : Mirror → Prop) [DecidablePred f] :
    (s.anyTicket fun t => t.state.inUse && t.mirror.any fun m => decide (f m)) = true ↔ ∃ t, (s.ticket t).uses f := by
  simp only [anyTicket_iff, Bool.and_eq_true, TicketState.inUse_iff, Option.any_eq_true, decide_eq_true_eq, Ticket.uses]

theorem portInUse_iff (s : State) (p : PortId) :
    s.portInUse p = true ↔ ∃ t, (s.ticket t).uses fun m => m.port = p :=
  ticket_uses_iff s fun m => m.port = p

theorem accountInUse_iff (s : State) (a : AccountId) :
    s.accountInUse a = true ↔ ∃ t, (s.ticket t).uses fun m => m.account = a :=
  ticket_uses_iff s fun m => m.account = a

theorem ticketWindowLocked_iff (s : State) : s.ticketWindowLocked = true ↔ ∃ t, (s.ticket t).state ≠ .free := by
  simp only [State.ticketWindowLocked, anyTicket_iff, bne_iff_ne]

theorem spoolLocked_iff (s : State) : s.spoolLocked = true ↔ s.ctl.global ≠ .stopped ∨ ∃ b, s.guard b ≠ 0 := by
  rw [State.spoolLocked, Bool.not_eq_true', ← Bool.not_eq_true, Bool.and_eq_true, unguarded_iff, beq_iff_eq,
    Classical.not_and_iff_not_or_not, Classical.not_forall]

theorem policyLocked_iff (x : Account) (old new : Nat) : policyLocked x old new = true ↔
    old ≠ new ∧ ((new = 1 ∧ x.remaining < x.reserved) ∨ (new = 2 ∧ x.remaining = 0)) := by
  simp only [policyLocked, Bool.and_eq_true, Bool.or_eq_true, bne_iff_ne, beq_iff_eq, decide_eq_true_eq]

/-- A setting is locked exactly when it is changed and its lock holds. -/
theorem isLocked_iff (s : State) (new : Image) (loc : SettingLoc) : s.isLocked new loc = true ↔
    isChanged s.image new loc = true ∧ s.lockHolds (new.get loc) loc := by
  have hchange {m : Word} (hmask : fieldMask loc = m) (lo n : Nat) (hm : ∀ k < n, m.getLsbD (lo + k) = true)
      (hd : bits (s.image.get loc) lo n ≠ bits (new.get loc) lo n) : isChanged s.image new loc = true := by
    rw [isChanged_iff, hmask]
    exact fun hz => hd (bits_eq_of_unchanged hz hm)
  cases loc with
  | ticketWindow =>
    simp only [State.isLocked, Bool.and_eq_true, ticketWindowLocked_iff]
    rfl
  | spoolWindow =>
    simp only [State.isLocked, Bool.and_eq_true, spoolLocked_iff]
    rfl
  | port p =>
    simp only [State.isLocked, Bool.and_eq_true, Bool.not_eq_true', portInUse_iff, and_assoc]
    refine ⟨fun ⟨hon, hoff, huse⟩ => ⟨hchange (m := 0x0107FFFF01070301#64) rfl 0 1 (by decide) fun e => ?_, hon, hoff, huse⟩, fun h => h.2⟩
    rw [portOn, bit, e] at hon
    rw [portOn, bit, hon] at hoff
    exact absurd hoff (by decide)
  | account a =>
    simp only [State.isLocked, Bool.and_eq_true, Bool.or_eq_true, Bool.not_eq_true', accountInUse_iff, policyLocked_iff,
      and_assoc]
    refine ⟨?_, fun h => h.2⟩
    rintro (⟨hon, hoff, huse⟩ | ⟨hne, hlock⟩)
    · refine ⟨hchange (m := 0x00FFFFFF00000301#64) rfl 0 1 (by decide) fun e => ?_, .inl ⟨hon, hoff, huse⟩⟩
      rw [accountOn, bit, e] at hon
      rw [accountOn, bit, hon] at hoff
      exact absurd hoff (by decide)
    · exact ⟨hchange (m := 0x00FFFFFF00000301#64) rfl 8 2 (by decide) hne, .inr ⟨hne, hlock⟩⟩
  | meterWindow | ring | consume | markRule n | pacing n | condition p c =>
    exact ⟨nofun, fun h => h.2.elim⟩

end Sys2Proof.Machine

/-! ## Setting writes refused or captured (R8, R10, R24, R25) -/

namespace Sys2Proof.Machine

/-! ### The rows that carry a write of one setting word -/

theorem settingRows_exec {w : SettingWrite} {s : State} {i : Instr} (h : i ∈ settingRows w s) :
    exec i s = .next (s.clearOut.settingWrite w) := by
  simp only [settingRows, List.mem_cons, List.not_mem_nil, or_false] at h
  obtain rfl | rfl | rfl | rfl | rfl | rfl | rfl | rfl := h <;> rfl

/-- The touched word of a write of one setting word. -/
def WordBytes.part (x : WordBytes) (loc : SettingLoc) : SettingPart := ⟨loc, x.enables, x.data⟩

theorem controlPlace_offsetOf (loc : SettingLoc) : controlPlace (offsetOf loc) = .setting loc :=
  (controlPlace_setting_iff (offsetOf_bounds loc).2 loc).2 rfl

theorem settingWrite_one {s : State} {x : WordBytes} (loc : SettingLoc) (h : s.canTake x.tag) (hx : x.given) :
    s.clearOut.settingWrite (x.write loc) =
      match s.clearOut.judgeSettings [x.part loc] with
      | some reason => s.refusedWith (s.settingRequest (x.write loc)) reason
      | none => (s.clearOut.capture [x.part loc]).forwardWrite (s.settingRequest (x.write loc)) := by
  obtain ⟨hlen, hdata, hen⟩ := hx
  exact hostRequest_setting (s := s.clearOut) (offsetOf_bounds loc).1 (offsetOf_bounds loc).2
    (controlPlace_offsetOf loc) h.1.1 h.1.2 h.2 hlen hen hdata

theorem settingRequest_line {s : State} {w : SettingWrite} (h : w.offset.toNat % 64 + w.size ≤ 64) (h0 : 0 < w.size) :
    crossesLine (s.settingRequest w).addr.toNat (s.settingRequest w).size = false := by
  have hbase := controlBase_le s
  have hmod := controlBase_mod s
  have hoff := w.offset.isLt
  have haddr : (s.settingRequest w).addr.toNat = s.controlBase + w.offset.toNat := addr_toNat (by omega)
  rw [haddr]
  exact crossesLine_within (by show _ + w.size ≤ 64; omega) h0

/-! ### Captures (R24, R25) -/

/-- A captured write is forwarded from the state the capture leaves. -/
theorem forwards_of_settled {s : State} {i : Instr} {w : SettingWrite} {v u : State} (hu : settled v u)
    (hw : crossesLine (s.settingRequest w).addr.toNat (s.settingRequest w).size = false)
    (he : exec i s = .next (u.forwardWrite (s.settingRequest w))) : s.forwards i w v := by
  refine ⟨u, hu, he.trans ?_⟩
  rw [forwardWrite_within hw, ← State.out_of_still hu.1]
  rfl

/-- A setting whose capture brings nothing about but the settling of the ports. -/
def SettingLoc.capturesAlone : SettingLoc → Prop
  | .ring | .consume | .port _ => False
  | .ticketWindow | .meterWindow | .spoolWindow | .markRule _ | .pacing _ | .condition _ _ | .account _ => True

theorem touchesRing_false {parts : List SettingPart} (h : ∀ x ∈ parts, x.loc ≠ .ring) : touchesRing parts = false := by
  simp only [touchesRing, List.any_eq_false, Bool.and_eq_true, beq_iff_eq]
  exact fun x hx hc => h x hx hc.1

theorem touchesConsume_false {parts : List SettingPart} (h : ∀ x ∈ parts, x.loc ≠ .consume) :
    touchesConsume parts = false := by
  simp only [touchesConsume, List.any_eq_false, beq_iff_eq]
  exact h

theorem writesConsume_false {parts : List SettingPart} (h : ∀ x ∈ parts, x.loc ≠ .consume) :
    writesConsume parts = false := by
  simp only [writesConsume, List.any_eq_false, Bool.and_eq_true, beq_iff_eq]
  exact fun x hx hc => h x hx hc.1

theorem partCaptured_alone (old : Image) (s : State) {x : SettingPart} (h : x.loc.capturesAlone) :
    s.partCaptured old x = s := by
  unfold State.partCaptured
  split
  case h_1 p e => rw [e] at h; exact h.elim
  case h_2 => rfl

theorem foldl_partCaptured_alone (old : Image) (s : State) {parts : List SettingPart}
    (h : ∀ x ∈ parts, x.loc.capturesAlone) : parts.foldl (State.partCaptured old) s = s := by
  induction parts with
  | nil => rfl
  | cons x xs ih =>
    rw [List.foldl_cons, partCaptured_alone old s (h x List.mem_cons_self)]
    exact ih fun y hy => h y (List.mem_cons_of_mem _ hy)

theorem capture_alone (s : State) {parts : List SettingPart} (h : ∀ x ∈ parts, x.loc.capturesAlone) :
    s.capture parts = ({ s with image := resultingImage s.image parts } : State).settle := by
  have hring : touchesRing parts = false := touchesRing_false fun x hx e => by have := h x hx; rwa [e] at this
  have hcons : writesConsume parts = false := writesConsume_false fun x hx e => by have := h x hx; rwa [e] at this
  simp only [State.capture, hring, hcons, Bool.false_eq_true, if_false, foldl_partCaptured_alone _ _ h]

/-! ### The judgement of several words (R24) -/

theorem judgeSettings_none {s : State} {parts : List SettingPart} {new : Image} (hnew : resultingImage s.image parts = new)
    (hlock : ∀ x ∈ parts, isChanged s.image new x.loc = true → ¬s.lockHolds (new.get x.loc) x.loc)
    (hrange : ∀ x ∈ parts, new.get x.loc &&& ~~~(fieldMask x.loc) = 0 ∧ ¬outOfRange (new.get x.loc) x.loc)
    (hover : overlapDue s.image new parts = true →
      s.apart new (touchesRing parts || s.relay.ringState != .unset))
    (hcons : touchesConsume parts = true → s.consumeAccepted new (touchesRing parts) = true) :
    s.judgeSettings parts = none := by
  have hlocked : ¬(parts.any fun x => s.isLocked new x.loc) = true := by
    rw [List.any_eq_true]
    rintro ⟨x, hx, hl⟩
    obtain ⟨hc, hl⟩ := (isLocked_iff s new x.loc).1 hl
    exact hlock x hx hc hl
  have hparts : parts.all (partInRange s.image new) = true := by
    rw [List.all_eq_true]
    intro x hx
    obtain ⟨hz, hr⟩ := hrange x hx
    rw [partInRange, (unusedZero_iff _ _).2 hz, (inRange_iff _ _).2 hr, Bool.or_true, Bool.and_true]
  have hvalid : s.settingsValid new parts = true := by
    simp only [State.settingsValid, hparts, Bool.true_and, Bool.and_eq_true, Bool.or_eq_true, Bool.not_eq_true',
      or_iff_not_imp_left, Bool.not_eq_false, extentsApart_iff]
    exact ⟨hover, hcons⟩
  simp only [State.judgeSettings, hnew, if_neg hlocked, if_pos hvalid]

/-- A write of one setting word is captured when it changes no locked setting, is in range and overlaps nothing, and its
capture brings nothing else about. -/
theorem forwards_one {s : State} {x : WordBytes} {loc : SettingLoc} {i : Instr}
    (hi : i ∈ settingRows (x.write loc) s) (h : s.canTake x.tag) (hx : x.given) (halone : loc.capturesAlone)
    (hlock : x.result s loc ≠ s.image.get loc → ¬s.lockHolds (x.result s loc) loc)
    (hzero : x.result s loc &&& ~~~(fieldMask loc) = 0) (hrange : ¬outOfRange (x.result s loc) loc)
    (hover : loc.placesExtent = true → s.apart (s.image.put loc (x.result s loc)) (s.relay.ringState != .unset)) :
    s.forwards i (x.write loc) (s.captured x loc) := by
  have hring : loc ≠ .ring := by rintro rfl; exact halone
  have hcons : loc ≠ .consume := by rintro rfl; exact halone
  have hget := Image.get_put s.image loc (x.result s loc)
  have hj : s.clearOut.judgeSettings [x.part loc] = none := by
    refine judgeSettings_none (new := s.image.put loc (x.result s loc)) rfl ?_ ?_ ?_ ?_
    · rintro _ hm hc
      obtain rfl := List.mem_singleton.1 hm
      show ¬s.lockHolds _ loc
      rw [isChanged_iff, show ((s.image.put loc (x.result s loc)).get (x.part loc).loc) = _ from hget] at hc
      rw [show ((s.image.put loc (x.result s loc)).get (x.part loc).loc) = _ from hget]
      refine hlock fun e => hc ?_
      show (s.image.get loc ^^^ x.result s loc) &&& fieldMask loc = 0
      rw [e, BitVec.xor_self]
      exact BitVec.zero_and
    · intro _ hm
      obtain rfl := List.mem_singleton.1 hm
      rw [show ((s.image.put loc (x.result s loc)).get (x.part loc).loc) = _ from hget]
      exact ⟨hzero, hrange⟩
    · intro hdue
      rw [touchesRing_one_none (x := x.part loc) hring, Bool.false_or]
      refine hover ?_
      by_contra hp
      rw [overlapDue_one_none (x := x.part loc) (Bool.not_eq_true _ ▸ hp)] at hdue
      exact absurd hdue (by decide)
    · intro hc
      rw [touchesConsume_one_none (x := x.part loc) hcons] at hc
      exact absurd hc (by decide)
  have hcapture : s.clearOut.capture [x.part loc] = (s.captured x loc).settle :=
    capture_alone s.clearOut fun y hy => by obtain rfl := List.mem_singleton.1 hy; exact halone
  refine forwards_of_settled (settled_settle (s.captured x loc)) (settingRequest_line ?_ (by decide : 0 < 8)) ?_
  · obtain ⟨hlt, hmod⟩ := offsetOf_bounds loc
    have hoff : (x.write loc).offset.toNat = offsetOf loc := by
      rw [WordBytes.write, BitVec.toNat_ofNat, Nat.mod_eq_of_lt hlt]
    show (x.write loc).offset.toNat % 64 + 8 ≤ 64
    omega
  · rw [settingRows_exec hi, settingWrite_one loc h hx, hj, hcapture]

/-- Settles O10. -/
theorem plainWritesPass : Obligations.PlainWritesPass := by
  refine ⟨plainWrites_pass, fun x loc s hloc h hx hzero hrange => ?_⟩
  refine forwards_one List.mem_cons_self h hx ?_ (fun _ => ?_) hzero hrange ?_ <;>
    obtain ⟨n, rfl⟩ | ⟨n, rfl⟩ := hloc
  · trivial
  · trivial
  · exact id
  · exact id
  · nofun
  · nofun

end Sys2Proof.Machine

/-! ## Writes of the window words (R10, R24, R27, R28, R85, R87) -/

namespace Sys2Proof.Machine

/-! ### Writes of setting words only -/

theorem wordWrites_cons {es : List Bool} {ds : List Byte} (he : es.length = 8) (hd : ds.length = 8) (k a : Nat)
    (es' : List Bool) (ds' : List Byte) :
    wordWrites (k + 1) a (es ++ es') (ds ++ ds') = ⟨a, es, ds⟩ :: wordWrites k (a + 8) es' ds' := by
  have hpad : padTo 8 (ds ++ ds') = ds := by
    rw [padTo, List.append_assoc, List.take_append_of_le_length (Nat.le_of_eq hd.symm),
      List.take_of_length_le (Nat.le_of_eq hd)]
  rw [wordWrites, hpad, List.take_left' he, List.drop_left' he, List.drop_left' hd]

theorem WordBytes.given.isTouched {x : WordBytes} (h : x.given) (a : Nat) :
    (⟨a, x.enables, x.data⟩ : WordWrite).isTouched = true :=
  List.any_eq_true.2 ⟨true, h.2.2, rfl⟩

/-- A write that touches setting words and no others is judged by the control image and, unless refused, captured. -/
theorem classifyWrite_settings {s : State} {w : WriteRequest} {p : SettingPart} {ps : List SettingPart}
    (hplaces : ((touchedWords w).map fun x => s.placeOf x.addr) = (p :: ps).map fun q => .setting q.loc)
    (hparts : s.settingParts w = p :: ps) (hj : s.judgeSettings (p :: ps) = none) :
    s.classifyWrite w = (s.capture (p :: ps)).forwardWrite w := by
  have hno (f : Place → Bool) (hf : ∀ loc, f (.setting loc) = false) :
      (((touchedWords w).map fun x => s.placeOf x.addr).any f) = false := by
    rw [hplaces, List.any_eq_false]
    rintro y hy
    obtain ⟨q, -, rfl⟩ := List.mem_map.1 hy
    rw [hf]
    decide
  have hjudge : s.judgeWrite w = none := by
    simp only [State.judgeWrite, hno Place.isAbsorbed fun _ => rfl, hno Place.isReadOnly fun _ => rfl,
      hno s.fieldLocked fun _ => rfl, hno s.guarded fun _ => rfl, hparts, hj, Bool.false_and, Bool.false_eq_true,
      if_false]
  rw [State.classifyWrite, hjudge]
  show s.proceed w = _
  unfold State.proceed
  split
  case h_1 e => rw [hplaces] at e; nomatch e
  case h_2 t e => rw [hplaces] at e; nomatch e
  case h_3 => rw [hparts]

/-! ### The three window words together -/

/-- The three window words written together. -/
def windowsWrite (x y z : WordBytes) : SettingWrite :=
  ⟨0x100, 24, x.enables ++ y.enables ++ z.enables, x.data ++ y.data ++ z.data, x.tag⟩

def windowParts (x y z : WordBytes) : List SettingPart :=
  [x.part .ticketWindow, y.part .meterWindow, z.part .spoolWindow]

/-- The image that the three window words give. -/
def State.withWindows (s : State) (x y z : WordBytes) : Image :=
  ((s.image.put .ticketWindow (x.result s .ticketWindow)).put .meterWindow (y.result s .meterWindow)).put .spoolWindow
    (z.result s .spoolWindow)

section ThreeWords
variable {s : State} {x y z : WordBytes}

theorem windowsRequest_addr (s : State) (x y z : WordBytes) :
    (s.settingRequest (windowsWrite x y z)).addr.toNat = s.controlBase + 0x100 := by
  have hbase := controlBase_le s
  exact addr_toNat (by show s.controlBase + 0x100 < 2 ^ 36; omega)

theorem touchedWords_windows (hx : x.given) (hy : y.given) (hz : z.given) :
    touchedWords (s.settingRequest (windowsWrite x y z)) =
      [⟨s.controlBase + 0x100, x.enables, x.data⟩, ⟨s.controlBase + 0x108, y.enables, y.data⟩,
        ⟨s.controlBase + 0x110, z.enables, z.data⟩] := by
  have hwords : wordWrites 3 (s.controlBase + 0x100) (x.enables ++ y.enables ++ z.enables) (x.data ++ y.data ++ z.data) =
      [⟨s.controlBase + 0x100, x.enables, x.data⟩, ⟨s.controlBase + 0x108, y.enables, y.data⟩,
        ⟨s.controlBase + 0x110, z.enables, z.data⟩] := by
    have hlast := wordWrites_cons hz.1 hz.2.1 0 (s.controlBase + 0x110) [] []
    rw [List.append_nil, List.append_nil] at hlast
    rw [List.append_assoc, List.append_assoc, wordWrites_cons hx.1 hx.2.1, wordWrites_cons hy.1 hy.2.1, hlast,
      wordWrites]
  have hthree : touchedWords (s.settingRequest (windowsWrite x y z)) = (wordWrites 3 (s.controlBase + 0x100)
      (x.enables ++ y.enables ++ z.enables) (x.data ++ y.data ++ z.data)).filter WordWrite.isTouched := by
    have hsize : (s.settingRequest (windowsWrite x y z)).size = 24 := rfl
    rw [touchedWords, windowsRequest_addr, hsize]
    rfl
  rw [hthree, hwords, List.filter_eq_self]
  simp only [List.mem_cons, List.not_mem_nil, or_false]
  rintro _ (rfl | rfl | rfl)
  · exact hx.isTouched _
  · exact hy.isTouched _
  · exact hz.isTouched _

theorem placeOf_setting (s : State) (loc : SettingLoc) : s.placeOf (s.controlBase + offsetOf loc) = .setting loc := by
  rw [placeOf_control s (offsetOf_bounds loc).1, controlPlace_offsetOf]

theorem places_windows (hx : x.given) (hy : y.given) (hz : z.given) :
    ((touchedWords (s.settingRequest (windowsWrite x y z))).map fun x => s.placeOf x.addr) =
      (windowParts x y z).map fun q => .setting q.loc := by
  rw [touchedWords_windows hx hy hz]
  exact congrArg₂ List.cons (placeOf_setting s .ticketWindow) (congrArg₂ List.cons (placeOf_setting s .meterWindow)
    (congrArg₂ List.cons (placeOf_setting s .spoolWindow) rfl))

theorem settingParts_windows (hx : x.given) (hy : y.given) (hz : z.given) :
    s.settingParts (s.settingRequest (windowsWrite x y z)) = windowParts x y z := by
  have ht : s.placeOf (s.controlBase + 0x100) = .setting .ticketWindow := placeOf_setting s .ticketWindow
  have hm : s.placeOf (s.controlBase + 0x108) = .setting .meterWindow := placeOf_setting s .meterWindow
  have hs : s.placeOf (s.controlBase + 0x110) = .setting .spoolWindow := placeOf_setting s .spoolWindow
  rw [State.settingParts, touchedWords_windows hx hy hz]
  simp only [List.filterMap_cons, List.filterMap_nil, ht, hm, hs]
  rfl

theorem windowParts_alone : ∀ p ∈ windowParts x y z, p.loc.capturesAlone := by
  simp only [windowParts, List.mem_cons, List.not_mem_nil, or_false]
  rintro _ (rfl | rfl | rfl) <;> trivial

/-- The three words are accepted when each is unlocked and in range and the image they give overlaps nothing. -/
theorem judgeSettings_windows
    (hwords : ∀ p ∈ windowParts x y z,
      ((s.withWindows x y z).get p.loc ≠ s.image.get p.loc → ¬s.lockHolds ((s.withWindows x y z).get p.loc) p.loc) ∧
      (s.withWindows x y z).get p.loc &&& ~~~(fieldMask p.loc) = 0 ∧
      ¬outOfRange ((s.withWindows x y z).get p.loc) p.loc)
    (hover : s.apart (s.withWindows x y z) (s.relay.ringState != .unset)) :
    s.judgeSettings (windowParts x y z) = none := by
  have hring : touchesRing (windowParts x y z) = false :=
    touchesRing_false fun p hp e => by have := windowParts_alone p hp; rwa [e] at this
  have hcons : touchesConsume (windowParts x y z) = false :=
    touchesConsume_false fun p hp e => by have := windowParts_alone p hp; rwa [e] at this
  refine judgeSettings_none (new := s.withWindows x y z) rfl ?_ (fun p hp => (hwords p hp).2) ?_ ?_
  · intro p hp hc
    refine (hwords p hp).1 fun e => ?_
    rw [isChanged_iff, e, BitVec.xor_self] at hc
    exact hc BitVec.zero_and
  · intro _
    rwa [hring, Bool.false_or]
  · intro hc
    rw [hcons] at hc
    exact absurd hc (by decide)

end ThreeWords

/-- Settles O12. -/
theorem windowSettingsAreCaptured : Obligations.WindowSettingsAreCaptured := by
  refine ⟨fun x s loc hloc h hx hzero hlock hrange hover => ?_, fun x y z s h hx hy hz hwords hover => ?_⟩
  · have halone : loc.capturesAlone := by
      simp only [List.mem_cons, List.not_mem_nil, or_false] at hloc
      obtain rfl | rfl | rfl := hloc <;> trivial
    exact forwards_one (by simp [settingRows]) h hx halone hlock hzero hrange fun _ => hover
  · simp only [List.forall_mem_cons] at hwords
    obtain ⟨⟨hzx, hlx, hrx⟩, ⟨hzy, hly, hry⟩, ⟨hzz, hlz, hrz⟩, -⟩ := hwords
    have hj : s.clearOut.judgeSettings (windowParts x y z) = none := by
      refine judgeSettings_windows ?_ hover
      simp only [windowParts, List.forall_mem_cons]
      exact ⟨⟨hlx, hzx, hrx⟩, ⟨hly, hzy, hry⟩, ⟨hlz, hzz, hrz⟩, fun _ hn => nomatch hn⟩
    have hline : crossesLine (s.settingRequest (windowsWrite x y z)).addr.toNat 24 = false :=
      settingRequest_line (w := windowsWrite x y z) (by show (0x100#16).toNat % 64 + 24 ≤ 64; decide)
        (by show 0 < 24; decide)
    have hshape : wellShaped (s.settingRequest (windowsWrite x y z)).addr 24 = true := by
      rw [wellShaped_iff, windowsRequest_addr]
      have := controlBase_mod s
      exact ⟨by decide, by omega⟩
    have hen : anyEnabled (s.settingRequest (windowsWrite x y z)) = true := by
      obtain ⟨i, hi, he⟩ := List.getElem_of_mem hx.2.2
      refine (anyEnabled_iff _).2 ⟨i, by have := hx.1; show i < 24; omega, ?_⟩
      show (x.enables ++ y.enables ++ z.enables)[i]? = some true
      rw [List.append_assoc, List.getElem?_append_left hi, List.getElem?_eq_getElem hi, he]
    refine forwards_of_settled (settled_settle { s with image := s.withWindows x y z, out := [] }) hline ?_
    have hparts := settingParts_windows (s := s.clearOut) hx hy hz
    have hcapture := capture_alone s.clearOut (windowParts_alone (x := x) (y := y) (z := z))
    exact congrArg Host.Outcome.next ((hostRequest_write (s := s.clearOut) h.1.1 h.1.2 hshape h.2 hline hen).trans
      ((classifyWrite_settings (places_windows (s := s.clearOut) hx hy hz) hparts hj).trans
        (congrArg (State.forwardWrite · _) hcapture)))

end Sys2Proof.Machine

/-! ## Setting words refused (R8, R24, R27, R28, R173, R178) -/

namespace Sys2Proof.Machine

/-- A write that writes a byte of the ring base or of the ring's size code. -/
theorem touchesRing_part (x : WordBytes) (loc : SettingLoc) :
    touchesRing [x.part loc] = true ↔ loc = .ring ∧ true ∈ x.enables.take 6 := by
  simp only [touchesRing, WordBytes.part, List.any_cons, List.any_nil, Bool.or_false, Bool.and_eq_true, beq_iff_eq,
    List.any_eq_true, id, exists_eq_right]

section OneWord
variable {s : State} {x : WordBytes} {loc : SettingLoc}

theorem isChanged_put (s : State) (loc : SettingLoc) (v : Word) :
    isChanged s.image (s.image.put loc v) loc = true ↔ (s.image.get loc ^^^ v) &&& fieldMask loc ≠ 0 := by
  rw [isChanged_iff, Image.get_put]

theorem settingsValid_range {v : Word}
    (h : v &&& ~~~(fieldMask loc) ≠ 0 ∨
      (((s.image.get loc ^^^ v) &&& fieldMask loc ≠ 0 ∨ loc = .ring) ∧ outOfRange v loc)) :
    s.settingsValid (s.image.put loc v) [x.part loc] = false := by
  have hpart : partInRange s.image (s.image.put loc v) (x.part loc) = false := by
    rw [← Bool.not_eq_true]
    simp only [partInRange, WordBytes.part, Image.get_put, Bool.and_eq_true, unusedZero_iff, Bool.or_eq_true,
      Bool.not_eq_true', ← Bool.not_eq_true (isChanged _ _ _ || _), isChanged_put, inRange_iff, beq_iff_eq]
    rintro ⟨hzero, hrange⟩
    obtain h | ⟨hdue, hout⟩ := h
    · exact h hzero
    · exact hrange.elim (fun hn => hn hdue) fun hin => hin hout
  rw [settingsValid_one, hpart, Bool.false_and, Bool.false_and]

theorem settingsValid_overlap {v : Word}
    (hdue : (loc = .ring ∧ true ∈ x.enables.take 6) ∨ ((s.image.get loc ^^^ v) &&& fieldMask loc ≠ 0 ∧
      loc ∈ [SettingLoc.ticketWindow, .meterWindow, .spoolWindow]))
    (hover : ¬s.apart (s.image.put loc v) (loc == .ring || s.relay.ringState != .unset)) :
    s.settingsValid (s.image.put loc v) [x.part loc] = false := by
  have hring : touchesRing [x.part loc] = (loc == .ring) := by
    obtain ⟨rfl, hen⟩ | ⟨-, hloc⟩ := hdue
    · exact (touchesRing_part x .ring).2 ⟨rfl, hen⟩
    · have hne : loc ≠ .ring := by rintro rfl; exact absurd hloc (by decide)
      rw [touchesRing_one_none (x := x.part loc) hne, beq_eq_false_iff_ne.2 hne]
  have hoverlap : overlapDue s.image (s.image.put loc v) [x.part loc] = true := by
    rw [overlapDue, hring, Bool.or_eq_true, beq_iff_eq]
    obtain ⟨rfl, -⟩ | ⟨hc, hloc⟩ := hdue
    · exact .inl rfl
    · refine .inr (List.any_eq_true.2 ⟨x.part loc, List.mem_singleton_self _, ?_⟩)
      rw [Bool.and_eq_true]
      refine ⟨?_, (isChanged_put s loc v).2 hc⟩
      simp only [List.mem_cons, List.not_mem_nil, or_false] at hloc
      obtain rfl | rfl | rfl := hloc <;> rfl
  have hapart : s.extentsApart (s.image.put loc v) (loc == .ring || s.relay.ringState != .unset) = false := by
    rw [← Bool.not_eq_true, extentsApart_iff]
    exact hover
  rw [settingsValid_one, hoverlap, hring, hapart]
  simp

theorem settingsValid_consume {v : Word}
    (h : (s.relay.produced - s.relay.consumed).toNat < (consumeOf v - s.relay.consumed).toNat) :
    s.settingsValid (s.image.put .consume v) [x.part .consume] = false := by
  have hring : touchesRing [x.part .consume] = false := touchesRing_one_none nofun
  have hcons : s.consumeAccepted (s.image.put .consume v) false = false := by
    rw [← Bool.not_eq_true]
    simp only [State.consumeAccepted, Bool.false_eq_true, if_false, decide_eq_true_eq, Nat.not_le]
    exact h
  rw [settingsValid_one, hring, hcons]
  simp [touchesConsume, WordBytes.part]

theorem judgeSettings_locked (h : (s.image.get loc ^^^ x.result s loc) &&& fieldMask loc ≠ 0)
    (hl : s.lockHolds (x.result s loc) loc) : s.judgeSettings [x.part loc] = some .locked := by
  refine (judgeSettings_one s (x.part loc)).trans (if_pos ((isLocked_iff _ _ _).2 ⟨(isChanged_put _ _ _).2 h, ?_⟩))
  rw [Image.get_put]
  exact hl

theorem judgeSettings_range
    (h : ¬((s.image.get loc ^^^ x.result s loc) &&& fieldMask loc ≠ 0 ∧ s.lockHolds (x.result s loc) loc))
    (hv : s.settingsValid (s.image.put loc (x.result s loc)) [x.part loc] = false) :
    s.judgeSettings [x.part loc] = some .range := by
  refine (judgeSettings_one s (x.part loc)).trans ((if_neg fun hl => h ?_).trans (if_neg (Bool.not_eq_true _ ▸ hv)))
  obtain ⟨hc, hlock⟩ := (isLocked_iff _ _ _).1 hl
  rw [Image.get_put] at hlock
  exact ⟨(isChanged_put _ _ _).1 hc, hlock⟩

end OneWord

theorem exec_setting_refused {s : State} {x : WordBytes} {loc : SettingLoc} {i : Instr} {reason : RefusalReason}
    (hi : i ∈ settingRows (x.write loc) s) (h : s.canTake x.tag) (hx : x.given)
    (hj : s.clearOut.judgeSettings [x.part loc] = some reason) :
    exec i s = .next (s.refusedWith (s.settingRequest (x.write loc)) reason) := by
  rw [settingRows_exec hi, settingWrite_one loc h hx, hj]

/-- Settles O18. -/
theorem badSettingsAreRefusedWhole : Obligations.BadSettingsAreRefusedWhole := by
  intro x loc s h hx v w changed ringTouched locked invalid i hi
  refine ⟨fun hl => exec_setting_refused hi h hx (judgeSettings_locked (s := s.clearOut) hl.1 hl.2), fun hl hv =>
    exec_setting_refused hi h hx (judgeSettings_range (s := s.clearOut) hl ?_)⟩
  obtain hzero | hrange | ⟨hdue, hover⟩ | ⟨rfl, hcons⟩ := hv
  · exact settingsValid_range (s := s.clearOut) (.inl hzero)
  · exact settingsValid_range (s := s.clearOut) (.inr hrange)
  · exact settingsValid_overlap (s := s.clearOut) hdue hover
  · exact settingsValid_consume (s := s.clearOut) hcons

end Sys2Proof.Machine

/-! ## Commands and job codes turned away (R9, R30, R32, R33, R44, R54) -/

namespace Sys2Proof.Machine

/-! ### Exact writes of the command word and of post words -/

/-- An exact write of the command word goes to the commands, whatever its code (R9). -/
theorem hostRequest_commandWord {s : State} {tag : Tag} (h : s.canTake tag) (data : List Byte) :
    s.hostRequest (.write (exactWord s.controlBase data tag)) = s.absorbCommand (exactWord s.controlBase data tag) := by
  have hb : s.controlBase < 2 ^ 36 := by have := controlBase_le s; omega
  have ha : s.controlBase % 8 = 0 := by have := controlBase_mod s; omega
  have hp := placeOf_commandWord s
  rw [hostRequest_absorbed hb ha h.1.1 h.1.2 h.2 (by rw [hp]; rfl), State.proceed, touchedWords_exact _ _ _ hb]
  simp only [List.map_cons, List.map_nil, hp]

/-- An exact write of a post word goes to its ticket, whatever its code (R9). -/
theorem hostRequest_postWord {s : State} {tag : Tag} (h : s.canTake tag) (hw : s.ticketWindowSet) (t : Slot)
    (data : List Byte) : s.hostRequest (.write (exactWord (s.postAddr t) data tag)) =
      s.absorbPost t (exactWord (s.postAddr t) data tag) := by
  obtain ⟨hb, ha⟩ := postAddr_bounds hw t
  have hp := placeOf_postAddr hw t
  rw [hostRequest_absorbed hb ha h.1.1 h.1.2 h.2 (by rw [hp]; rfl), State.proceed, touchedWords_exact _ _ _ hb]
  simp only [List.map_cons, List.map_nil, hp]

theorem complementHolds_cons (addr : Nat) (code second : Byte) (rest : List Byte) (tag : Tag) :
    complementHolds (exactWord addr (code :: second :: rest) tag) = true ↔ second = ~~~code :=
  beq_iff_eq

/-! ### Commands that no owner performs -/

theorem exec_commandRow {row : Byte × (CommandWrite → Instr)} (h : row ∈ commandRows) (c : CommandWrite) (s : State) :
    exec (row.2 c) s = .next (s.clearOut.commandWrite row.1 c) := by
  simp only [commandRows, List.mem_cons, List.not_mem_nil, or_false] at h
  obtain rfl | rfl | rfl | rfl | rfl | rfl | rfl | rfl | rfl | rfl | rfl | rfl | rfl := h <;> rfl

theorem onPort_none {s : State} {arg : Byte} (h : 16 ≤ arg.toNat) (f : PortId → State × CommandResult) :
    s.onPort arg f = (s, .arg) := by
  rw [State.onPort, portArg_none h]

theorem onAccount_none {s : State} {arg : Byte} (h : 64 ≤ arg.toNat) (f : AccountId → State × CommandResult) :
    s.onAccount arg f = (s, .arg) := by
  rw [State.onAccount, accountArg_none h]

theorem onQuota_none {s : State} {arg : Byte} {value : Nat} (h : 64 ≤ arg.toNat ∨ 16777215 < value)
    (f : AccountId → State × CommandResult) : s.onQuota arg value f = (s, .arg) := by
  rw [State.onQuota]
  obtain h | h := h
  · exact onAccount_none h _
  · have h' : Config.maxPages < value := h
    simp only [State.onAccount, if_pos h']
    split <;> rfl

theorem perform_portArg {s : State} {code arg : Byte} {value : Nat}
    (hcode : code ∈ [(0x10 : Byte), 0x11, 0x12, 0x13, 0x14, 0x15]) (h : 16 ≤ arg.toNat) :
    s.perform code arg value = (s, .arg) := by
  simp only [List.mem_cons, List.not_mem_nil, or_false] at hcode
  obtain rfl | rfl | rfl | rfl | rfl | rfl := hcode <;> exact onPort_none h _

theorem perform_quotaArg {s : State} {code arg : Byte} {value : Nat} (hcode : code ∈ [(0x20 : Byte), 0x21])
    (h : 64 ≤ arg.toNat ∨ 16777215 < value) : s.perform code arg value = (s, .arg) := by
  simp only [List.mem_cons, List.not_mem_nil, or_false] at hcode
  obtain rfl | rfl := hcode <;> exact onQuota_none h _

theorem perform_meterArg {s : State} {arg : Byte} {value : Nat} (hall : arg ≠ 0xFF#8) (h : 64 ≤ arg.toNat) :
    s.perform 0x22 arg value = (s, .arg) := by
  have he : s.perform 0x22 arg value = s.commandMeterClear arg := rfl
  rw [he, State.commandMeterClear, if_neg hall, onAccount_none h]

theorem perform_unknown {s : State} {code arg : Byte} {value : Nat} (h : code ∉ commandRows.map Prod.fst) :
    s.perform code arg value = (s, .arg) := by
  simp only [commandRows, List.map_cons, List.map_nil, List.mem_cons, List.not_mem_nil, or_false, not_or] at h
  obtain ⟨h1, h2, h3, h4, h5, h6, h7, h8, h9, h10, h11, h12, h13⟩ := h
  unfold State.perform
  exact (if_neg h1).trans <| (if_neg h2).trans <| (if_neg h3).trans <| (if_neg h4).trans <| (if_neg h5).trans <|
    (if_neg h6).trans <| (if_neg h7).trans <| (if_neg h8).trans <| (if_neg h9).trans <| (if_neg h10).trans <|
    (if_neg h11).trans <| (if_neg h12).trans (if_neg h13)

/-- A command that nothing performs is recorded with its result, and answered ACK OK. -/
theorem takeCommand_arg {s : State} {code arg : Byte} {value : Nat} (tag : Tag)
    (h : s.clearOut.perform code arg value = (s.clearOut, .arg)) :
    (s.clearOut.takeCommand code arg value).ack tag .ok = s.commanded code .arg tag := by
  rw [takeCommand_eq h]
  rfl

theorem exec_command_arg {s : State} {c : CommandWrite} {row : Byte × (CommandWrite → Instr)} (hrow : row ∈ commandRows)
    (ht : s.takes row.1 c) (h : s.clearOut.perform row.1 c.argument c.value.toNat = (s.clearOut, .arg)) :
    exec (row.2 c) s = .next (s.commanded row.1 .arg c.tag) := by
  obtain ⟨⟨⟨hopen, hheld⟩, hfree⟩, hcomp⟩ := ht
  rw [exec_commandRow hrow, commandWrite_taken (s := s.clearOut) hopen hheld hfree hcomp, takeCommand_arg c.tag h]

/-- Settles O28. -/
theorem commandsTurnedAwayChangeNothingElse : Obligations.CommandsTurnedAwayChangeNothingElse := by
  refine ⟨fun row hrow c s h hcomp => ?_, fun c s => ⟨fun row hrow hcode harg ht => ?_, fun row hrow hcode harg ht => ?_,
    fun harg hall ht => ?_⟩, fun code second rest tag s h hrest hcode => ⟨fun hsec => ?_, fun hsec => ?_⟩⟩
  · rw [exec_commandRow hrow, commandWrite_mismatch (s := s.clearOut) h.1.1 h.1.2 h.2 hcomp]
    rfl
  · exact exec_command_arg hrow ht (perform_portArg hcode harg)
  · exact exec_command_arg hrow ht (perform_quotaArg hcode harg)
  · exact exec_command_arg (row := (0x22, .meterClear)) (by simp [commandRows]) ht (perform_meterArg hall harg)
  · refine congrArg Host.Outcome.next ((hostRequest_commandWord (s := s.clearOut) h _).trans ?_)
    rw [State.absorbCommand, if_pos ((complementHolds_cons _ _ _ _ _).2 hsec)]
    exact takeCommand_arg tag (perform_unknown hcode)
  · refine congrArg Host.Outcome.next ((hostRequest_commandWord (s := s.clearOut) h _).trans ?_)
    rw [State.absorbCommand, if_neg (mt (complementHolds_cons _ _ _ _ _).1 hsec)]
    rfl

/-! ### Job codes out of place -/

/-- The job rows with their codes, and the states that take them (R44). -/
def jobRows : List (Byte × (PostWrite → Instr) × List TicketState) :=
  [(0x41, .post, [.free]), (0x42, .cancel, [.queued, .active, .draining]), (0x43, .release, [.done, .cancelled, .failed])]

theorem exec_jobRow {row : Byte × (PostWrite → Instr) × List TicketState} (h : row ∈ jobRows) (w : PostWrite)
    (s : State) : exec (row.2.1 w) s = .next (s.clearOut.postWrite row.1 w) := by
  simp only [jobRows, List.mem_cons, List.not_mem_nil, or_false] at h
  obtain rfl | rfl | rfl := h <;> rfl

theorem State.takesJob.ticketWindowSet {s : State} {code : Byte} {w : PostWrite} (h : s.takesJob code w) :
    s.ticketWindowSet := by
  obtain ⟨-, -, hon, hal, hap⟩ := h
  exact ticketWindowSet_of_apart hon hal hap

/-- A job code in a state that does not take it is a post-word fault (R44). -/
theorem takeJob_outOfPlace {s : State} {t : Slot} {row : Byte × (PostWrite → Instr) × List TicketState}
    (hrow : row ∈ jobRows) (addr : Addr) (hst : (s.ticket t).state ∉ row.2.2) :
    s.takeJob t addr row.1 = s.postFault addr .state := by
  simp only [jobRows, List.mem_cons, List.not_mem_nil, or_false] at hrow
  obtain rfl | rfl | rfl := hrow <;>
    simp only [List.mem_cons, List.not_mem_nil, or_false, not_or] at hst
  · show (match (s.ticket t).state with | .free => s.postTicket t | _ => s.postFault addr .state) = _
    split
    case h_1 e => exact absurd e hst
    case h_2 => rfl
  · obtain ⟨hqueued, hactive, hdraining⟩ := hst
    show (match (s.ticket t).state with
      | .queued => s.cancelQueued t | .active | .draining => s.cancelSent t | _ => s.postFault addr .state) = _
    split
    case h_1 e => exact absurd e hqueued
    case h_2 e => exact absurd e hactive
    case h_3 e => exact absurd e hdraining
    case h_4 => rfl
  · obtain ⟨hdone, hcancelled, hfailed⟩ := hst
    show (match (s.ticket t).state with
      | .done | .cancelled | .failed => s.releaseTicket t | _ => s.postFault addr .state) = _
    split
    case h_1 e => exact absurd e hdone
    case h_2 e => exact absurd e hcancelled
    case h_3 e => exact absurd e hfailed
    case h_4 => rfl

theorem takeJob_unknown {s : State} {t : Slot} {code : Byte} (addr : Addr) (h : code ∉ [(0x41 : Byte), 0x42, 0x43]) :
    s.takeJob t addr code = s.postFault addr .arg := by
  simp only [List.mem_cons, List.not_mem_nil, or_false, not_or] at h
  obtain ⟨hpost, hcancel, hrelease⟩ := h
  unfold State.takeJob
  exact (if_neg hpost).trans ((if_neg hcancel).trans (if_neg hrelease))

/-- Settles O32. -/
theorem jobCodesOutOfPlaceChangeNoTicket : Obligations.JobCodesOutOfPlaceChangeNoTicket := by
  refine ⟨fun row hrow w s ht => ?_, fun code second rest k tag s _ hcode ht => ?_⟩
  · have hset : s.clearOut.ticketWindowSet := ht.ticketWindowSet
    obtain ⟨⟨⟨hopen, hheld⟩, hfree⟩, -⟩ := ht
    refine ⟨fun hcomp hst => ?_, fun hcomp => ?_⟩
    · rw [exec_jobRow hrow, postWrite_taken (s := s.clearOut) (w := w) hopen hheld hfree hset hcomp,
        takeJob_outOfPlace (s := s.clearOut) hrow _ hst]
      rfl
    · rw [exec_jobRow hrow, postWrite_mismatch (s := s.clearOut) (w := w) hopen hheld hfree hset hcomp]
      rfl
  · have hset : s.clearOut.ticketWindowSet := ht.ticketWindowSet
    have hexact := hostRequest_postWord (s := s.clearOut) ht.1 hset k (code :: second :: rest)
    refine ⟨fun hsec => ?_, fun hsec => ?_⟩
    · refine congrArg Host.Outcome.next (hexact.trans ?_)
      rw [State.absorbPost, if_pos ((complementHolds_cons _ _ _ _ _).2 hsec)]
      exact congrArg (State.ack · tag .ok) (takeJob_unknown (s := s.clearOut) _ hcode)
    · refine congrArg Host.Outcome.next (hexact.trans ?_)
      rw [State.absorbPost, if_neg (mt (complementHolds_cons _ _ _ _ _).1 hsec)]
      rfl

end Sys2Proof.Machine

/-! ## The arbiter's choice (R15 to R17) -/

namespace Sys2Proof.Machine

/-! ### Requests not held back (R16) -/

theorem mem_unblocked_iff (seen : List Nat) (rs : List MemRequest) (r : MemRequest) :
    r ∈ unblocked seen rs ↔ r.line ∉ seen ∧ ∃ i : Nat, rs[i]? = some r ∧ ∀ j < i, ∀ q, rs[j]? = some q → q.line ≠ r.line := by
  induction rs generalizing seen with
  | nil => simp [unblocked]
  | cons x xs ih =>
    have htail : (∃ i : Nat, xs[i]? = some r ∧ ∀ j < i, ∀ q, xs[j]? = some q → q.line ≠ r.line) ∧ x.line ≠ r.line ↔
        ∃ i : Nat, (x :: xs)[i + 1]? = some r ∧ ∀ j < i + 1, ∀ q, (x :: xs)[j]? = some q → q.line ≠ r.line := by
      constructor
      · rintro ⟨⟨i, hi, hbefore⟩, hx⟩
        refine ⟨i, hi, fun j hj q hq => ?_⟩
        cases j with
        | zero => cases hq; exact hx
        | succ j => exact hbefore j (by omega) q hq
      · rintro ⟨i, hi, hbefore⟩
        exact ⟨⟨i, hi, fun j hj q hq => hbefore (j + 1) (by omega) q hq⟩, hbefore 0 (by omega) x rfl⟩
    have hcases : (∃ i : Nat, (x :: xs)[i]? = some r ∧ ∀ j < i, ∀ q, (x :: xs)[j]? = some q → q.line ≠ r.line) ↔
        x = r ∨ ∃ i : Nat, (x :: xs)[i + 1]? = some r ∧ ∀ j < i + 1, ∀ q, (x :: xs)[j]? = some q → q.line ≠ r.line := by
      constructor
      · rintro ⟨i, hi, hbefore⟩
        cases i with
        | zero => exact .inl (Option.some.inj hi)
        | succ i => exact .inr ⟨i, hi, hbefore⟩
      · rintro (rfl | ⟨i, hi, hbefore⟩)
        · exact ⟨0, rfl, fun j hj => absurd hj (Nat.not_lt_zero j)⟩
        · exact ⟨i + 1, hi, hbefore⟩
    rw [unblocked, hcases, ← htail]
    by_cases hseen : seen.contains x.line = true
    · rw [if_pos hseen, ih]
      have hx : x.line ∈ seen := by simpa using hseen
      refine and_congr_right fun hr => ⟨fun h => .inr ⟨h, fun e => hr (e ▸ hx)⟩, ?_⟩
      rintro (rfl | h)
      · exact absurd hx hr
      · exact h.1
    · rw [if_neg hseen, List.mem_cons, ih, List.mem_cons]
      have hx : x.line ∉ seen := by simpa using hseen
      constructor
      · rintro (rfl | ⟨hr, h⟩)
        · exact ⟨hx, .inl rfl⟩
        · exact ⟨fun hm => hr (.inr hm), .inr ⟨h, fun e => hr (.inl e.symm)⟩⟩
      · rintro ⟨hr, rfl | ⟨h, hne⟩⟩
        · exact .inl rfl
        · exact .inr ⟨fun hm => hm.elim (fun e => hne e.symm) hr, h⟩

theorem mem_ownWaiting_iff (m : Msp) (r : MemRequest) :
    r ∈ m.ownWaiting ↔ ∃ i, m.isFirst i r ∧ r.owner.isPassing = false := by
  have hmem := mem_unblocked_iff [] m.waiting r
  rw [Msp.ownWaiting, List.mem_filter, hmem, Bool.not_eq_true']
  constructor
  · rintro ⟨⟨-, i, hi, hbefore⟩, ho⟩
    exact ⟨i, ⟨hi, hbefore⟩, ho⟩
  · rintro ⟨i, ⟨hi, hbefore⟩, ho⟩
    exact ⟨⟨List.not_mem_nil, i, hi, hbefore⟩, ho⟩

/-! ### The head of the passing queue (R15, R16) -/

/-- The first element of a list that passes a test, by its place. -/
theorem find?_some_iff {α : Type} {p : α → Bool} {l : List α} {a : α} :
    l.find? p = some a ↔ p a = true ∧ ∃ i : Nat, l[i]? = some a ∧ ∀ j < i, ∀ b, l[j]? = some b → p b = false := by
  rw [List.find?_eq_some_iff_getElem]
  refine and_congr_right fun _ => exists_congr fun i => ?_
  constructor
  · rintro ⟨hi, rfl, hbefore⟩
    refine ⟨List.getElem?_eq_getElem hi, fun j hj b hb => ?_⟩
    obtain ⟨hlen, rfl⟩ := List.getElem?_eq_some_iff.1 hb
    exact Bool.not_eq_true' _ ▸ hbefore j hj
  · rintro ⟨hi, hbefore⟩
    obtain ⟨hlen, he⟩ := List.getElem?_eq_some_iff.1 hi
    exact ⟨hlen, he, fun j hj => by rw [hbefore j hj _ (List.getElem?_eq_getElem (by omega))]; rfl⟩

theorem passingHead_iff (m : Msp) (r : MemRequest) : m.passingHead = some r ↔ ∃ i, m.isHead i r := by
  rw [Msp.passingHead, find?_some_iff]
  constructor
  · rintro ⟨hr, i, hi, hbefore⟩
    exact ⟨i, hi, hr, hbefore⟩
  · rintro ⟨i, hi, hr, hbefore⟩
    exact ⟨hr, i, hi, hbefore⟩

/-- The request granted for a waiting request is the first to its line, at its place or before it. -/
theorem forHead_first {m : Msp} {i : Nat} {r : MemRequest} (h : m.waiting[i]? = some r) :
    ∃ j ≤ i, m.isFirst j (m.forHead r) ∧ (m.forHead r).line = r.line := by
  have hfind : m.waiting.find? (fun q => q.line == r.line) ≠ none := fun hnone =>
    List.find?_eq_none.1 hnone r (List.mem_of_getElem? h) (beq_self_eq_true _)
  obtain ⟨q, hq⟩ := Option.ne_none_iff_exists'.1 hfind
  have hfor : m.forHead r = q := by rw [Msp.forHead, hq]; rfl
  obtain ⟨hline, j, hj, hbefore⟩ := find?_some_iff.1 hq
  have hline : q.line = r.line := beq_iff_eq.1 hline
  rw [hfor]
  refine ⟨j, ?_, ⟨hj, fun k hk b hb e => ?_⟩, hline⟩
  · by_contra hlt
    have hno := hbefore i (by omega) r h
    rw [beq_self_eq_true] at hno
    exact absurd hno (by decide)
  · have hno := hbefore k hk b hb
    rw [beq_eq_false_iff_ne] at hno
    exact hno ((show b.line = q.line from e).trans hline)

/-- A head with an earlier request to its line is held back. -/
theorem isHeld_of_not_first {m : Msp} {i : Nat} {r : MemRequest} (h : m.isHead i r) (hn : ¬m.isFirst i r) :
    m.isHeld r = true := by
  obtain ⟨hi, -, hbefore⟩ := h
  obtain ⟨j, hj, hfirst, -⟩ := forHead_first hi
  have hlt : j < i := by
    refine Nat.lt_of_le_of_ne hj ?_
    rintro rfl
    have he : some (m.forHead r) = some r := hfirst.1.symm.trans hi
    rw [Option.some.inj he] at hfirst
    exact hn hfirst
  rw [Msp.isHeld, hbefore j hlt _ hfirst.1]
  rfl

theorem isHeld_of_first {m : Msp} {i : Nat} {r : MemRequest} (h : m.isHead i r) (hf : m.isFirst i r) :
    m.isHeld r = false := by
  obtain ⟨hi, hp, -⟩ := h
  obtain ⟨j, hj, hfirst, hline⟩ := forHead_first hi
  have hji : j = i := by
    by_contra hne
    exact hf.2 j (by omega) _ hfirst.1 hline
  subst hji
  have he : some (m.forHead r) = some r := hfirst.1.symm.trans hi
  rw [Msp.isHeld, Option.some.inj he, hp]
  rfl

/-! ### The own requester chosen (R17) -/

theorem ownChoice_nil (last : PortId) : ownChoice last [] = none := by
  simp [ownChoice, List.findSome?_eq_none_iff]

/-- The rotation of the engines is in the order of their ranks. -/
theorem portsAfter_ranked (last : PortId) :
    (portsAfter last).Pairwise fun p q => (p.val + 15 - last.val) % 16 ≤ (q.val + 15 - last.val) % 16 := by
  revert last
  decide

theorem mem_portsAfter (last p : PortId) : p ∈ portsAfter last := by
  revert last p
  decide

theorem isFetchOf_iff (p : PortId) (r : MemRequest) :
    r.isFetchOf p = true ↔ ∃ mark copy off, r.owner = .lineFetch p mark copy off := by
  unfold MemRequest.isFetchOf
  split
  case h_1 q mark copy off e => simp [e]
  case h_2 hno => exact ⟨nofun, fun ⟨mark, copy, off, e⟩ => (hno _ _ _ _ e).elim⟩

/-- The engines' fetches in their rotation: the one chosen has the least rank of them. -/
theorem fetchChoice_least {last : PortId} {own : List MemRequest} {r : MemRequest}
    (h : (portsAfter last).findSome? (fun p => own.find? fun q => q.isFetchOf p) = some r) :
    r ∈ own ∧ ∃ p, r.isFetchOf p = true ∧ ∀ q ∈ own, ∀ p', q.isFetchOf p' = true →
      (p.val + 15 - last.val) % 16 ≤ (p'.val + 15 - last.val) % 16 := by
  obtain ⟨before, p, after, hports, hp, hnone⟩ := List.findSome?_eq_some_iff.1 h
  refine ⟨List.mem_of_find?_eq_some hp, p, List.find?_some hp, fun q hq p' hp' => ?_⟩
  have hranked := portsAfter_ranked last
  have hmem := mem_portsAfter last p'
  rw [hports] at hranked hmem
  obtain hmem | hmem := List.mem_append.1 hmem
  · exact absurd hp' (List.find?_eq_none.1 (hnone p' hmem) q hq)
  · obtain rfl | hmem := List.mem_cons.1 hmem
    · exact Nat.le_refl _
    · exact (List.pairwise_cons.1 (List.pairwise_append.1 hranked).2.1).1 p' hmem

/-- An own request that the choice may find: no passing request, and no dropped record write. -/
def Owner.isOwn (o : Owner) : Prop := o.isPassing = false ∧ o ≠ .record true

theorem Owner.isOwn.cases {r : MemRequest} (h : r.owner.isOwn) : r.owner.isLiveRecord = true ∨
    r.owner.isTicketFetch = true ∨ r.owner.isSweep = true ∨ ∃ p, r.isFetchOf p = true := by
  unfold MemRequest.isFetchOf
  obtain ⟨hp, hd⟩ := h
  cases ho : r.owner with
  | passing tag half => rw [ho] at hp; nomatch hp
  | record dropped =>
    cases dropped with
    | true => exact absurd ho hd
    | false => exact .inl rfl
  | ticketFetch t => exact .inr (.inl rfl)
  | sweep => exact .inr (.inr (.inl rfl))
  | lineFetch p mark copy off => exact .inr (.inr (.inr ⟨p, beq_self_eq_true p⟩))

theorem ownRank_record {last : PortId} {o : Owner} (h : o.isLiveRecord = true) : ownRank last o = 0 := by
  cases o with
  | record dropped => rfl
  | passing tag half | ticketFetch t | sweep | lineFetch p mark copy off => nomatch h

theorem ownRank_ticketFetch {last : PortId} {o : Owner} (h : o.isTicketFetch = true) : ownRank last o = 1 := by
  cases o with
  | ticketFetch t => rfl
  | passing tag half | record dropped | sweep | lineFetch p mark copy off => nomatch h

theorem ownRank_sweep {last : PortId} {o : Owner} (h : o.isSweep = true) : ownRank last o = 2 := by
  cases o with
  | sweep => rfl
  | passing tag half | record dropped | ticketFetch t | lineFetch p mark copy off => nomatch h

theorem ownRank_fetch {last p : PortId} {r : MemRequest} (h : r.isFetchOf p = true) :
    ownRank last r.owner = 3 + (p.val + 15 - last.val) % 16 := by
  obtain ⟨mark, copy, off, e⟩ := (isFetchOf_iff p r).1 h
  rw [e]
  rfl

/-- An own grant goes to the own requester of least rank. -/
theorem ownChoice_least (last : PortId) {own : List MemRequest} (hown : ∀ r ∈ own, r.owner.isOwn) (hne : own ≠ []) :
    ∃ r ∈ own, ownChoice last own = some r ∧ ∀ q ∈ own, ownRank last r.owner ≤ ownRank last q.owner := by
  unfold ownChoice
  cases hrecord : own.find? fun r => r.owner.isLiveRecord with
  | some r =>
    have hr := List.find?_some hrecord
    exact ⟨r, List.mem_of_find?_eq_some hrecord, rfl, fun q _ => by rw [ownRank_record hr]; exact Nat.zero_le _⟩
  | none =>
  have norecord := List.find?_eq_none.1 hrecord
  cases hticket : own.find? fun r => r.owner.isTicketFetch with
  | some r =>
    have hr := List.find?_some hticket
    refine ⟨r, List.mem_of_find?_eq_some hticket, rfl, fun q hq => ?_⟩
    rw [ownRank_ticketFetch hr]
    obtain h | h | h | ⟨p, h⟩ := (hown q hq).cases
    · exact absurd h (norecord q hq)
    · rw [ownRank_ticketFetch h]
    · rw [ownRank_sweep h]; decide
    · rw [ownRank_fetch h]; omega
  | none =>
  have noticket := List.find?_eq_none.1 hticket
  cases hsweep : own.find? fun r => r.owner.isSweep with
  | some r =>
    have hr := List.find?_some hsweep
    refine ⟨r, List.mem_of_find?_eq_some hsweep, rfl, fun q hq => ?_⟩
    rw [ownRank_sweep hr]
    obtain h | h | h | ⟨p, h⟩ := (hown q hq).cases
    · exact absurd h (norecord q hq)
    · exact absurd h (noticket q hq)
    · rw [ownRank_sweep h]
    · rw [ownRank_fetch h]; omega
  | none =>
  have nosweep := List.find?_eq_none.1 hsweep
  have hfetch (q : MemRequest) (hq : q ∈ own) : ∃ p, q.isFetchOf p = true := by
    obtain h | h | h | h := (hown q hq).cases
    · exact absurd h (norecord q hq)
    · exact absurd h (noticket q hq)
    · exact absurd h (nosweep q hq)
    · exact h
  cases hport : (portsAfter last).findSome? fun p => own.find? fun q => q.isFetchOf p with
  | some r =>
    obtain ⟨hr, p, hp, hleast⟩ := fetchChoice_least hport
    refine ⟨r, hr, rfl, fun q hq => ?_⟩
    obtain ⟨p', hp'⟩ := hfetch q hq
    rw [ownRank_fetch hp, ownRank_fetch hp']
    exact Nat.add_le_add_left (hleast q hq p' hp') 3
  | none =>
    obtain ⟨q, hq⟩ := List.exists_mem_of_ne_nil own hne
    obtain ⟨p, hp⟩ := hfetch q hq
    exact absurd hp (List.find?_eq_none.1 (List.findSome?_eq_none_iff.1 hport p (mem_portsAfter last p)) q hq)

/-! ### The choice (R17) -/

theorem ownWaiting_own {m : Msp} (h : ∀ r ∈ m.waiting, r.owner ≠ .record true) : ∀ r ∈ m.ownWaiting, r.owner.isOwn := by
  intro r hr
  obtain ⟨i, hfirst, ho⟩ := (mem_ownWaiting_iff m r).1 hr
  exact ⟨ho, h r (List.mem_of_getElem? hfirst.1)⟩

theorem choice_full {m : Msp} (h : 48 ≤ m.outstanding.length) : m.choice = none := if_pos h

theorem choice_noHead {m : Msp} (hlen : m.outstanding.length < 48) (h : m.passingHead = none) :
    m.choice = ownChoice m.lastEngine m.ownWaiting := by
  have hfree : ¬Config.memoryTags ≤ m.outstanding.length := Nat.not_le.2 hlen
  rw [Msp.choice, if_neg hfree, h]

theorem choice_head {m : Msp} {r : MemRequest} (hlen : m.outstanding.length < 48) (h : m.passingHead = some r) :
    m.choice = if m.isHeld r || m.ownWaiting.isEmpty || decide (m.runCount < 4) then some (m.forHead r)
      else ownChoice m.lastEngine m.ownWaiting := by
  have hfree : ¬Config.memoryTags ≤ m.outstanding.length := Nat.not_le.2 hlen
  rw [Msp.choice, if_neg hfree, h]

theorem choice_nothing {m : Msp} (h : m.waiting = []) : m.choice = none := by
  by_cases hlen : m.outstanding.length < 48
  · have hhead : m.passingHead = none := by rw [Msp.passingHead, h]; rfl
    have hown : m.ownWaiting = [] := by rw [Msp.ownWaiting, h]; rfl
    rw [choice_noHead hlen hhead, hown, ownChoice_nil]
  · exact choice_full (Nat.not_lt.1 hlen)

/-- Settles O33: by the head of the passing queue, held back or not, and the own requests that wait. -/
theorem grantsFollowTheArbiter : Obligations.GrantsFollowTheArbiter := by
  intro m hrecord ownWaits
  have hwaits : m.ownWaiting = [] ↔ ¬ownWaits := by
    rw [List.eq_nil_iff_forall_not_mem]
    simp only [mem_ownWaiting_iff]
    exact ⟨fun h ⟨i, r, hr⟩ => h r ⟨i, hr⟩, fun h r ⟨i, hr⟩ => h ⟨i, r, hr⟩⟩
  refine ⟨choice_full, choice_nothing, fun hlen => ⟨fun i r hhead hturn => ?_, fun how hnot => ?_⟩⟩
  · have hcond : (m.isHeld r || m.ownWaiting.isEmpty || decide (m.runCount < 4)) = true := by
      simp only [Bool.or_eq_true, decide_eq_true_eq, List.isEmpty_iff]
      obtain h | h | h := hturn
      · exact .inl (.inr (hwaits.2 h))
      · exact .inr h
      · exact .inl (.inl (isHeld_of_not_first hhead h))
    obtain ⟨j, hj, hfirst, hline⟩ := forHead_first hhead.1
    refine ⟨j, _, hj, hfirst, hline, ?_⟩
    rw [choice_head hlen ((passingHead_iff m r).2 ⟨i, hhead⟩), if_pos hcond]
  · have hchoice : m.choice = ownChoice m.lastEngine m.ownWaiting := by
      cases hp : m.passingHead with
      | none => exact choice_noHead hlen hp
      | some r =>
        obtain ⟨i, hhead⟩ := (passingHead_iff m r).1 hp
        obtain ⟨hrun, hfirst⟩ := hnot i r hhead
        have hcond : ¬(m.isHeld r || m.ownWaiting.isEmpty || decide (m.runCount < 4)) = true := by
          simp only [Bool.or_eq_true, decide_eq_true_eq, List.isEmpty_iff, isHeld_of_first hhead hfirst, hwaits]
          rintro ((h | h) | h)
          · exact absurd h (by decide)
          · exact h how
          · omega
        rw [choice_head hlen hp, if_neg hcond]
    obtain ⟨r, hr, he, hleast⟩ := ownChoice_least m.lastEngine (ownWaiting_own hrecord) fun h => hwaits.1 h how
    obtain ⟨i, hfirst, ho⟩ := (mem_ownWaiting_iff m r).1 hr
    exact ⟨i, r, hfirst, ho, hchoice.trans he, fun j q hq hqo => hleast q ((mem_ownWaiting_iff m q).2 ⟨j, hq, hqo⟩)⟩

end Sys2Proof.Machine

/-! ## Grants (R17, R18, R22, R46, R93) -/

namespace Sys2Proof.Machine

/-- The state once the request chosen has left for memory, before its requester presents its next one (R17, R18). -/
def State.handed (s : State) (r : MemRequest) : State :=
  { s with
    msp := {
      waiting := s.msp.waiting.erase r
      outstanding := s.msp.outstanding ++ [⟨s.msp.nextGrant, r⟩]
      nextGrant := s.msp.nextGrant + 1
      runCount := if r.owner.isPassing && !s.msp.ownWaiting.isEmpty then s.msp.runCount + 1 else 0
      lastEngine := match r.owner with | .lineFetch p _ _ _ => p | _ => s.msp.lastEngine }
    out := [.memory s.msp.nextGrant r] }

theorem granted_eq (m : Msp) (r : MemRequest) : m.granted r =
    { waiting := m.waiting.erase r
      outstanding := m.outstanding ++ [⟨m.nextGrant, r⟩]
      nextGrant := m.nextGrant + 1
      runCount := if r.owner.isPassing && !m.ownWaiting.isEmpty then m.runCount + 1 else 0
      lastEngine := match r.owner with | .lineFetch p _ _ _ => p | _ => m.lastEngine } := by
  have hrun : m.runCountAfter r = if r.owner.isPassing && !m.ownWaiting.isEmpty then m.runCount + 1 else 0 := by
    rw [Msp.runCountAfter]
    cases r.owner.isPassing <;> cases m.ownWaiting.isEmpty <;> rfl
  rw [Msp.granted, hrun]
  rfl

theorem exec_memoryGrant_none {s : State} (h : s.msp.choice = none) :
    exec .memoryGrant s = .next { s with out := [] } := by
  have he : s.clearOut.grantNext = s.clearOut := by
    rw [State.grantNext, show s.clearOut.msp.choice = none from h]
  exact congrArg Host.Outcome.next he

theorem exec_memoryGrant_some {s : State} {r : MemRequest} (h : s.msp.choice = some r) :
    exec .memoryGrant s = .next ((s.handed r).afterGrant r.owner) := by
  have he : s.clearOut.grantNext = (s.handed r).afterGrant r.owner := by
    rw [State.grantNext, show s.clearOut.msp.choice = some r from h]
    simp only [State.modMsp, granted_eq]
    rfl
  exact congrArg Host.Outcome.next he

/-- The next posting fetch is presented once the one before it has left (R46). -/
theorem ticketFetchGranted_eq {s : State} {k : Slot} {rest : List Slot} (hq : s.fetcher.queue = k :: rest)
    (hw : (s.msp.waiting.any fun q => q.owner.isTicketFetch) = false) :
    s.ticketFetchGranted = { s with
      fetcher := { queue := rest, inFlight := s.fetcher.inFlight ++ [⟨k, none⟩] }
      msp := { s.msp with waiting := s.msp.waiting ++ rest.head?.toList.map fun h =>
        ⟨.ticketFetch h, false, baseOf s.image.ticketWindow + 32 * h.val, 32, [], []⟩ } } := by
  rw [State.ticketFetchGranted, hq]
  cases rest with
  | nil => simp [State.presentTicketFetch]
  | cons h hs =>
    simp only [State.presentTicketFetch, hw, Bool.false_eq_true, if_false]
    rfl

/-- The sweep writer presents its next line, if one is left (R22). -/
theorem presentSweep_eq (s : State) : s.presentSweep = { s with
    sweep := { s.sweep with presented := if s.sweep.presented < 28 then s.sweep.presented + 1 else s.sweep.presented }
    msp := { s.msp with
      waiting := s.msp.waiting ++ (sweepLines[s.sweep.presented]?).toList.map s.sweepRequest } } := by
  have hlen : sweepLines.length = 28 := rfl
  rw [State.presentSweep]
  by_cases hleft : s.sweep.presented < 28
  · rw [if_pos hleft, List.getElem?_eq_getElem (by omega)]
    rfl
  · rw [if_neg hleft, List.getElem?_eq_none (by omega)]
    simp

/-! What each requester does once its request has left. -/

theorem afterGrant_rest (s : State) {o : Owner} (h : o.isPassing = true ∨ o.isRecord = true) : s.afterGrant o = s := by
  cases o with
  | passing tag half | record dropped => rfl
  | ticketFetch t | lineFetch p mark copy off | sweep => exact h.elim nofun nofun

theorem afterGrant_ticketFetch (s : State) {o : Owner} (h : o.isTicketFetch = true) :
    s.afterGrant o = s.ticketFetchGranted := by
  cases o with
  | ticketFetch t => rfl
  | passing tag half | record dropped | lineFetch p mark copy off | sweep => nomatch h

theorem afterGrant_sweep (s : State) {o : Owner} (h : o.isSweep = true) : s.afterGrant o = s.presentSweep := by
  cases o with
  | sweep => rfl
  | passing tag half | record dropped | lineFetch p mark copy off | ticketFetch t => nomatch h

/-- Settles O34: by the requester whose request is granted. -/
theorem aGrantHandsTheRequest : Obligations.AGrantHandsTheRequest := by
  refine fun s r => ⟨exec_memoryGrant_none, fun h => ?_⟩
  have hexec := exec_memoryGrant_some h
  refine ⟨fun ho => ?_, fun p mark copy off ho => ⟨_, hexec, ?_⟩, fun k rest ho hq hw => ?_, fun ho => ?_⟩
  · rw [afterGrant_rest _ ho] at hexec
    exact hexec
  · have he : (s.handed r).afterGrant r.owner = (s.handed r).settlePort p := by rw [ho]; rfl
    rw [he]
    exact settledAt_settlePort (s.handed r) p
  · rw [afterGrant_ticketFetch _ ho, ticketFetchGranted_eq (s := s.handed r) hq hw] at hexec
    exact hexec
  · rw [afterGrant_sweep _ ho, presentSweep_eq] at hexec
    exact hexec

end Sys2Proof.Machine

/-! ## The rewind's first step: the engine stops (R106, R107, R139) -/

namespace Sys2Proof.Machine

/-! ### The withdrawal of the open page (R106) -/

/-- A page list is the entries a rewind spoils, and then the open one. -/
theorem pages_eq (x : Port) : x.pages = x.closedPages ++ x.openEntry.toList := by
  unfold Port.closedPages Port.hasOpenPage
  cases h : x.openEntry with
  | none => simp
  | some e =>
    have hlast : x.pages.getLast? = some e := by
      unfold Port.openEntry at h
      split at h
      case h_1 l hl =>
        split at h
        · rw [hl, h]
        · nomatch h
      case h_2 => nomatch h
    obtain ⟨before, hl⟩ := List.getLast?_eq_some_iff.1 hlast
    rw [Option.isSome_some, if_pos rfl, Option.toList_some, hl, List.dropLast_concat]

/-- A state with the open page of a port taken off its list, before the report of the page's end. -/
def State.withdrawing (s : State) (p : PortId) (e : Entry) : State :=
  { s with
    ports := tset s.ports p { s.port p with pages := (s.port p).pages.dropLast }
    accounts := tset s.accounts e.account { s.account e.account with reserved := (s.account e.account).reserved - 1 }
    tickets := tset s.tickets e.slot { s.ticket e.slot with entryCount := (s.ticket e.slot).entryCount - 1 }
    out := s.out ++ if (s.port p).link.state == .ready then [.frame p Frame.cut.wire] else [] }

theorem withdrawOpen_none {s : State} {p : PortId} (h : (s.port p).openEntry = none) : s.withdrawOpen p = s := by
  simp only [State.withdrawOpen, h]

theorem withdrawOpen_some {s : State} {p : PortId} {e : Entry} (h : (s.port p).openEntry = some e) :
    s.withdrawOpen p = (s.withdrawing p e).pageEnded := by
  simp only [State.withdrawOpen, h]
  congr 1
  cases hready : (s.port p).link.state == .ready with
  | false =>
    simp only [State.withdrawing, hready, Bool.false_eq_true, if_false, List.append_nil]
    rfl
  | true =>
    simp only [State.withdrawing, hready, if_true]
    rfl

@[simp] theorem pageEnded_port (s : State) (q : PortId) : s.pageEnded.port q = s.port q :=
  by rw [pageEnded_frame]; rfl

@[simp] theorem pageEnded_ticket (s : State) (t : Slot) : s.pageEnded.ticket t = s.ticket t :=
  by rw [pageEnded_frame]; rfl

@[simp] theorem pageEnded_account (s : State) (a : AccountId) : s.pageEnded.account a = s.account a :=
  by rw [pageEnded_frame]; rfl

@[simp] theorem pageEnded_msp (s : State) : s.pageEnded.msp = s.msp := by rw [pageEnded_frame]

@[simp] theorem pageEnded_out (s : State) : s.pageEnded.out = s.out := by rw [pageEnded_frame]

theorem pageEnded_global (s : State) : s.pageEnded.ctl.global =
    if s.ctl.global = .quiescing ∧ s.anyOpenPage = false then .stopped else s.ctl.global := by
  unfold State.pageEnded
  split <;> rfl

/-! What a withdrawal leaves alone: all but the ports, the tickets, the accounts, the global state and the outputs. -/

theorem withdrawOpen_frame (s : State) (p : PortId) : s.withdrawOpen p = { s with
    ports := (s.withdrawOpen p).ports, tickets := (s.withdrawOpen p).tickets, accounts := (s.withdrawOpen p).accounts
    ctl := { s.ctl with global := (s.withdrawOpen p).ctl.global }, out := (s.withdrawOpen p).out } := by
  cases h : (s.port p).openEntry with
  | none => rw [withdrawOpen_none h]
  | some e => rw [withdrawOpen_some h, pageEnded_frame]; rfl

theorem withdrawOpen_port (s : State) (p q : PortId) : (s.withdrawOpen p).port q =
    if q = p then { s.port p with pages := (s.port p).closedPages } else s.port q := by
  unfold Port.closedPages Port.hasOpenPage
  cases h : (s.port p).openEntry with
  | none =>
    rw [withdrawOpen_none h]
    split
    case isTrue e => rw [e]; rfl
    case isFalse => rfl
  | some e =>
    rw [withdrawOpen_some h, pageEnded_port]
    exact tget_tset s.ports p q _

theorem withdrawOpen_ticket (s : State) (p : PortId) (t : Slot) : (s.withdrawOpen p).ticket t =
    { s.ticket t with entryCount :=
        (s.ticket t).entryCount - (s.port p).openEntry.toList.countP fun e => e.slot == t } := by
  cases h : (s.port p).openEntry with
  | none => rw [withdrawOpen_none h]; rfl
  | some e =>
    rw [withdrawOpen_some h, pageEnded_ticket]
    by_cases ht : t = e.slot
    · subst ht
      simp [State.ticket, State.withdrawing]
    · have hne : (e.slot == t) = false := beq_eq_false_iff_ne.2 (Ne.symm ht)
      simp [State.ticket, State.withdrawing, tget_tset_ne _ _ ht, hne]

theorem withdrawOpen_account (s : State) (p : PortId) (a : AccountId) : (s.withdrawOpen p).account a =
    { s.account a with reserved :=
        (s.account a).reserved - (s.port p).openEntry.toList.countP fun e => e.account == a } := by
  cases h : (s.port p).openEntry with
  | none => rw [withdrawOpen_none h]; rfl
  | some e =>
    rw [withdrawOpen_some h, pageEnded_account]
    by_cases ha : a = e.account
    · subst ha
      simp [State.account, State.withdrawing]
    · have hne : (e.account == a) = false := beq_eq_false_iff_ne.2 (Ne.symm ha)
      simp [State.account, State.withdrawing, tget_tset_ne _ _ ha, hne]

theorem withdrawOpen_out (s : State) (p : PortId) : (s.withdrawOpen p).out =
    s.out ++ if (s.port p).hasOpenPage && (s.port p).link.state == .ready then [.frame p Frame.cut.wire] else [] := by
  cases h : (s.port p).openEntry with
  | none => simp [withdrawOpen_none h, Port.hasOpenPage, h]
  | some e => simp [withdrawOpen_some h, State.withdrawing, Port.hasOpenPage, h]

theorem hasOpenPage_dropLast {x : Port} (h : x.opensNewestOnly) :
    ({ x with pages := x.pages.dropLast } : Port).hasOpenPage = false := by
  rw [Port.hasOpenPage, Option.isSome_eq_false_iff, Option.isNone_iff_eq_none, Port.openEntry]
  split
  case h_1 e he =>
    have hclosed := h e (List.mem_of_getLast? he)
    rw [if_neg (by rw [hclosed]; decide)]
  case h_2 => rfl

theorem anyOpenPage_false_iff (s : State) : s.anyOpenPage = false ↔ ∀ q, (s.port q).hasOpenPage = false := by
  rw [State.anyOpenPage, List.any_eq_false]
  exact ⟨fun h q => by simpa using h q (mem_allPorts q), fun h q _ => by simp [h q]⟩

theorem withdrawOpen_global {s : State} {p : PortId} (h : (s.port p).opensNewestOnly) :
    (s.withdrawOpen p).ctl.global =
      if (s.port p).hasOpenPage = true ∧ s.ctl.global = .quiescing ∧ ∀ q, q ≠ p → (s.port q).hasOpenPage = false
      then .stopped else s.ctl.global := by
  cases ho : (s.port p).openEntry with
  | none =>
    rw [withdrawOpen_none ho, if_neg]
    rintro ⟨hopen, -⟩
    rw [Port.hasOpenPage, ho] at hopen
    exact absurd hopen (by decide)
  | some e =>
    have hopen : (s.port p).hasOpenPage = true := by rw [Port.hasOpenPage, ho]; rfl
    have hlast : (s.withdrawing p e).anyOpenPage = false ↔ ∀ q, q ≠ p → (s.port q).hasOpenPage = false := by
      rw [anyOpenPage_false_iff]
      constructor
      · intro hall q hq
        have hq' := hall q
        rwa [State.port, State.withdrawing, tget_tset_ne _ _ hq] at hq'
      · intro hall q
        rw [State.port, State.withdrawing]
        by_cases hq : q = p
        · rw [hq, tget_tset_self]
          exact hasOpenPage_dropLast h
        · rw [tget_tset_ne _ _ hq]
          exact hall q hq
    rw [withdrawOpen_some ho, pageEnded_global]
    refine if_congr ?_ rfl rfl
    rw [hlast]
    exact ⟨fun h => ⟨hopen, h⟩, fun h => h.2⟩

end Sys2Proof.Machine

/-! ## The engine stopped, and the entries spoiled (R107, R139, R140) -/

namespace Sys2Proof.Machine

/-! ### The engine stops sending (R107, R139) -/

/-- A port whose engine has stopped for a rewind. -/
def Port.stopped (x : Port) : Port :=
  match x.engine.job with
  | none => x
  | some _ => { x with pages := x.closedPages, engine := { x.engine with state := .idle, job := none } }

theorem closedPages_of_pageInHand {x : Port} (h : x.pageInHand) (hj : x.engine.job = none) : x.closedPages = x.pages :=
  if_neg fun ho => h ho hj

theorem openEntry_of_pageInHand {x : Port} (h : x.pageInHand) (hj : x.engine.job = none) : x.openEntry = none := by
  have hno : ¬x.openEntry.isSome = true := fun ho => h ho hj
  exact Option.not_isSome_iff_eq_none.1 hno

theorem Port.stopped_pages {x : Port} (h : x.pageInHand) : x.stopped.pages = x.closedPages := by
  unfold Port.stopped
  split
  case h_1 hj => exact (closedPages_of_pageInHand h hj).symm
  case h_2 => rfl

theorem rewindStop_none {s : State} {p : PortId} (h : (s.port p).engine.job = none) : s.rewindStop p = s := by
  simp only [State.rewindStop, h]

theorem rewindStop_some {s : State} {p : PortId} {j : Job} (h : (s.port p).engine.job = some j) :
    s.rewindStop p = { s.withdrawOpen p with
      ports := tset (s.withdrawOpen p).ports p (s.port p).stopped
      tickets := tset (s.withdrawOpen p).tickets j.slot
        { (s.withdrawOpen p).ticket j.slot with fetchCount := 0, sending := false }
      msp := { s.msp with
        waiting := s.msp.waiting.filter fun r => !r.isFetchOf p
        outstanding := s.msp.outstanding.map (Granted.remark p .stale) } } := by
  have hport : (s.port p).stopped = { (s.withdrawOpen p).port p with
      engine := { ((s.withdrawOpen p).port p).engine with job := none, state := .idle } } := by
    rw [withdrawOpen_port, if_pos rfl, Port.stopped, h]
  have hmsp : (s.withdrawOpen p).msp = s.msp := by rw [withdrawOpen_frame]
  rw [hport]
  simp only [State.rewindStop, h]
  simp only [State.takeBackFetch, State.remarkFetches, State.dropJob, State.modMsp, State.modTicket,
    State.modEngine, State.modPort, State.setTicket, State.setPort, State.ticket, State.port, tget_tset_self, tset_tset,
    hmsp]

theorem rewindStop_port (s : State) (p q : PortId) :
    (s.rewindStop p).port q = if q = p then (s.port p).stopped else s.port q := by
  cases h : (s.port p).engine.job with
  | none =>
    rw [rewindStop_none h, Port.stopped, h]
    split
    case isTrue e => rw [e]
    case isFalse => rfl
  | some j =>
    rw [rewindStop_some h]
    refine (tget_tset _ p q _).trans ?_
    split
    case isTrue => rfl
    case isFalse hq => exact (withdrawOpen_port s p q).trans (if_neg hq)

/-- What the stop of an engine does to a ticket (R106, R107, R139). -/
theorem rewindStop_ticket {s : State} {p : PortId} (hp : (s.port p).pageInHand) (t : Slot) :
    (s.rewindStop p).ticket t = { s.ticket t with
      entryCount := (s.ticket t).entryCount - (s.port p).openEntry.toList.countP fun e => e.slot == t
      fetchCount := if s.inHand p = some t then 0 else (s.ticket t).fetchCount
      sending := (s.ticket t).sending && s.inHand p != some t } := by
  cases h : (s.port p).engine.job with
  | none =>
    have hhand : s.inHand p = none := by rw [State.inHand, h]; rfl
    have hne : (none : Option Slot) ≠ some t := nofun
    rw [rewindStop_none h, openEntry_of_pageInHand hp h, hhand, if_neg hne, bne_iff_ne.2 hne, Bool.and_true]
    rfl
  | some j =>
    have hhand : s.inHand p = some j.slot := by rw [State.inHand, h]; rfl
    have hw := withdrawOpen_ticket s p t
    rw [rewindStop_some h, hhand]
    refine (tget_tset _ j.slot t _).trans ?_
    split
    case isTrue e =>
      rw [← e, hw, if_pos rfl, bne_self_eq_false, Bool.and_false]
    case isFalse hne =>
      have hne' : some j.slot ≠ some t := fun e => hne (Option.some.inj e).symm
      rw [if_neg hne', bne_iff_ne.2 hne', Bool.and_true]
      exact hw

theorem rewindStop_account {s : State} {p : PortId} (hp : (s.port p).pageInHand) (a : AccountId) :
    (s.rewindStop p).account a = { s.account a with reserved :=
        (s.account a).reserved - (s.port p).openEntry.toList.countP fun e => e.account == a } := by
  cases h : (s.port p).engine.job with
  | none => rw [rewindStop_none h, openEntry_of_pageInHand hp h]; rfl
  | some j => rw [rewindStop_some h]; exact withdrawOpen_account s p a

theorem rewindStop_msp (s : State) (p : PortId) : (s.rewindStop p).msp = { s.msp with
    waiting := if (s.port p).engine.job = none then s.msp.waiting else s.msp.waiting.filter fun r => !r.isFetchOf p
    outstanding := if (s.port p).engine.job = none then s.msp.outstanding
      else s.msp.outstanding.map (Granted.remark p .stale) } := by
  cases h : (s.port p).engine.job with
  | none => rw [rewindStop_none h, if_pos rfl, if_pos rfl]
  | some j => rw [rewindStop_some h, if_neg nofun, if_neg nofun]

theorem rewindStop_out (s : State) (p : PortId) : (s.rewindStop p).out = s.out ++
    if (s.port p).hasOpenPage && (s.port p).link.state == .ready && (s.port p).engine.job.isSome
    then [.frame p Frame.cut.wire] else [] := by
  cases h : (s.port p).engine.job with
  | none => simp [rewindStop_none h]
  | some j => rw [rewindStop_some h, Option.isSome_some, Bool.and_true]; exact withdrawOpen_out s p

theorem rewindStop_global {s : State} {p : PortId} (hp : (s.port p).pageInHand) (h : (s.port p).opensNewestOnly) :
    (s.rewindStop p).ctl.global =
      if (s.port p).hasOpenPage = true ∧ s.ctl.global = .quiescing ∧ ∀ q, q ≠ p → (s.port q).hasOpenPage = false
      then .stopped else s.ctl.global := by
  cases hj : (s.port p).engine.job with
  | none => rw [rewindStop_none hj, if_neg fun hc => hp hc.1 hj]
  | some j => rw [rewindStop_some hj]; exact withdrawOpen_global h

theorem rewindStop_frame (s : State) (p : PortId) : s.rewindStop p = { s with
    ports := (s.rewindStop p).ports, tickets := (s.rewindStop p).tickets, accounts := (s.rewindStop p).accounts
    msp := (s.rewindStop p).msp, ctl := { s.ctl with global := (s.rewindStop p).ctl.global }
    out := (s.rewindStop p).out } := by
  cases h : (s.port p).engine.job with
  | none => rw [rewindStop_none h]
  | some j => rw [rewindStop_some h, withdrawOpen_frame]

/-! ### The entries are spoiled (R140) -/

/-- A count of spoiled pages raised `n` times, each time stopping at 65,535 (R41). -/
def raisedSpoiled (n v : Nat) : Nat := if n = 0 then v else min (v + n) 65535

theorem raisedSpoiled_of_le {n v : Nat} (h : v ≤ 65535) : raisedSpoiled n v = min (v + n) 65535 := by
  unfold raisedSpoiled
  split <;> omega

theorem raisedSpoiled_succ (n v : Nat) : raisedSpoiled n (min (v + 1) 65535) = raisedSpoiled (n + 1) v := by
  unfold raisedSpoiled
  split <;> simp <;> omega

theorem spoilEntries_frame (es : List Entry) (s : State) : es.foldl State.spoilEntry s = { s with
    tickets := (es.foldl State.spoilEntry s).tickets, accounts := (es.foldl State.spoilEntry s).accounts } := by
  induction es generalizing s with
  | nil => rfl
  | cons e es ih => rw [List.foldl_cons, ih]; rfl

theorem spoilEntries_ticket (es : List Entry) (s : State) (t : Slot) :
    (es.foldl State.spoilEntry s).ticket t = { s.ticket t with
      entryCount := (s.ticket t).entryCount - es.countP fun e => e.slot == t
      spoiled := raisedSpoiled (es.countP fun e => e.slot == t) (s.ticket t).spoiled } := by
  induction es generalizing s with
  | nil => rfl
  | cons e es ih =>
    rw [List.foldl_cons, ih, List.countP_cons]
    have hone : (s.spoilEntry e).ticket t = if t = e.slot then { s.ticket t with
        entryCount := (s.ticket t).entryCount - 1, spoiled := min ((s.ticket t).spoiled + 1) 65535 } else s.ticket t := by
      refine (State.ticket_modTicket _ _ _ _).trans ?_
      split
      case isTrue h => rw [h]; rfl
      case isFalse => rfl
    rw [hone]
    by_cases h : t = e.slot
    · rw [if_pos h, beq_iff_eq.2 h.symm, if_pos rfl, raisedSpoiled_succ, Nat.sub_sub, Nat.add_comm 1]
    · rw [if_neg h, beq_eq_false_iff_ne.2 (Ne.symm h), if_neg (by decide), Nat.add_zero]

theorem spoilEntries_account (es : List Entry) (s : State) (a : AccountId) :
    (es.foldl State.spoilEntry s).account a = { s.account a with
      reserved := (s.account a).reserved - es.countP fun e => e.account == a
      spoiled := (s.account a).spoiled + BitVec.ofNat 32 (es.countP fun e => e.account == a) } := by
  induction es generalizing s with
  | nil => simp
  | cons e es ih =>
    rw [List.foldl_cons, ih, List.countP_cons]
    have hone : (s.spoilEntry e).account a = if a = e.account then { s.account a with
        reserved := (s.account a).reserved - 1, spoiled := (s.account a).spoiled + 1 } else s.account a := by
      show (s.claimSpoil e.account).account a = _
      refine (State.account_modAccount s e.account _ a).trans ?_
      split
      case isTrue h => rw [h]
      case isFalse => rfl
    rw [hone]
    by_cases h : a = e.account
    · rw [if_pos h, beq_iff_eq.2 h.symm, if_pos rfl, Nat.sub_sub, Nat.add_comm 1, BitVec.add_assoc, BitVec.ofNat_add,
        BitVec.add_comm (1 : BitVec 32)]
      rfl
    · rw [if_neg h, beq_eq_false_iff_ne.2 (Ne.symm h), if_neg (by decide), Nat.add_zero]

end Sys2Proof.Machine

/-! ## The tickets a rewind deals with (R56, R57, R141) -/

namespace Sys2Proof.Machine

/-! ### The drain test (R56, R57) -/

/-- A CANCELLING or FAILING ticket with nothing left to drain. -/
def Ticket.drains (k : Ticket) : Bool :=
  (k.state == .cancelling || k.state == .failing) && k.entryCount == 0 && k.fetchCount == 0 && !k.sending

def Ticket.endReason (k : Ticket) : Reason := if k.state = .failing then .memoryEnd else .cancel

/-- The ticket as its drain end leaves it. -/
def Ticket.ended (k : Ticket) : Ticket :=
  { k with state := if k.state = .failing then .failed else .cancelled, reason := k.endReason, resume := none }

/-- The backlog after a ticket's drain end (R57, R172). -/
def Ticket.raisesAtEnd (k : Ticket) (t : Slot) (now : BitVec 32) (ls : List Latch) : List Latch :=
  match k.mirror with
  | some m =>
    if k.state = .failing ∨ m.notify then
      addRaise ⟨.job, t.val, now, 1, .job t m.jobTag k.endReason k.delivered k.spoiled⟩ ls
    else ls
  | none => ls

theorem drains_state {k : Ticket} (h : k.drains = true) : k.state = .cancelling ∨ k.state = .failing := by
  simp only [Ticket.drains, Bool.and_eq_true, Bool.or_eq_true, beq_iff_eq] at h
  exact h.1.1.1

theorem drainTest_eq (s : State) (t : Slot) : s.drainTest t =
    if (s.ticket t).drains then s.endTicket t (s.ticket t).ended.state (s.ticket t).endReason else s := by
  cases hd : (s.ticket t).drains with
  | true =>
    have hrest : (s.ticket t).entryCount = 0 ∧ (s.ticket t).fetchCount = 0 ∧ (s.ticket t).sending = false := by
      simp only [Ticket.drains, Bool.and_eq_true, beq_iff_eq, Bool.not_eq_true'] at hd
      exact ⟨hd.1.1.2, hd.1.2, hd.2⟩
    rw [if_pos rfl]
    simp only [State.drainTest, if_pos hrest]
    obtain hst | hst := drains_state hd <;> simp [hst, Ticket.ended, Ticket.endReason]
  | false =>
    rw [if_neg (by decide)]
    refine drainTest_stays ?_
    simp only [Ticket.drains, Bool.and_eq_false_iff, Bool.or_eq_false_iff, beq_eq_false_iff_ne, Bool.not_eq_false'] at hd
    obtain ((hd | hd) | hd) | hd := hd
    · exact .inr (.inr (.inr hd))
    · exact .inl hd
    · exact .inr (.inl hd)
    · exact .inr (.inr (.inl hd))

theorem endTicket_backlog (s : State) (t : Slot) (st : TicketState) (r : Reason) :
    (s.endTicket t st r).relay.backlog =
      match (s.ticket t).mirror with
      | some m =>
        if st = .failed ∨ m.notify then
          addRaise ⟨.job, t.val, s.milliseconds, 1, .job t m.jobTag r (s.ticket t).delivered (s.ticket t).spoiled⟩
            s.relay.backlog
        else s.relay.backlog
      | none => s.relay.backlog := by
  unfold State.endTicket
  cases hm : (s.ticket t).mirror with
  | none => simp only [hm]; rfl
  | some m =>
    simp only [hm]
    split <;> rfl

/-- The backlog after the drain end of a ticket that drains. -/
theorem endTicket_raises (s : State) {t : Slot} (h : (s.ticket t).drains = true) :
    (s.endTicket t (s.ticket t).ended.state (s.ticket t).endReason).relay.backlog =
      (s.ticket t).raisesAtEnd t s.milliseconds s.relay.backlog := by
  have hst : (s.ticket t).ended.state = .failed ↔ (s.ticket t).state = .failing := by
    obtain h | h := drains_state h <;> simp [Ticket.ended, h]
  rw [endTicket_backlog]
  unfold Ticket.raisesAtEnd
  cases (s.ticket t).mirror with
  | none => rfl
  | some m => exact if_congr (or_congr_left hst) rfl rfl

/-! ### One ticket dealt with (R141) -/

/-- A ticket as a rewind leaves it: back in the queue, ended, or as it was. -/
def Ticket.dealt (k : Ticket) (r : ResumePoint) : Ticket :=
  if k.state.rewinds then { k with state := .queued, resume := some r, fetchCount := 0, sending := false }
  else if k.drains then k.ended
  else k

theorem not_rewinds_of_drains {k : Ticket} (h : k.drains = true) : k.state.rewinds = false := by
  obtain h | h := drains_state h <;> rw [h] <;> rfl

section OneTicket
variable (pages : List Entry) (job : Option Job) (s : State) (t : Slot)

/-- The three ways a rewind deals with a ticket. -/
theorem rewindTicket_cases :
    ((s.ticket t).state.rewinds = true ∧ State.rewindTicket pages job s t = s.modTicket t fun x =>
      { x with state := .queued, resume := some (resumePointOf pages job t), fetchCount := 0, sending := false }) ∨
    ((s.ticket t).drains = true ∧ State.rewindTicket pages job s t =
      s.endTicket t (s.ticket t).ended.state (s.ticket t).endReason) ∨
    ((s.ticket t).state.rewinds = false ∧ (s.ticket t).drains = false ∧ State.rewindTicket pages job s t = s) := by
  unfold State.rewindTicket
  rw [drainTest_eq]
  cases hr : (s.ticket t).state.rewinds with
  | true => exact .inl ⟨rfl, if_pos rfl⟩
  | false =>
    cases hd : (s.ticket t).drains with
    | true => exact .inr (.inl ⟨rfl, rfl⟩)
    | false => exact .inr (.inr ⟨rfl, rfl, rfl⟩)

theorem rewindTicket_frame : State.rewindTicket pages job s t = { s with
    tickets := (State.rewindTicket pages job s t).tickets, guards := (State.rewindTicket pages job s t).guards
    relay := { s.relay with backlog := (State.rewindTicket pages job s t).relay.backlog } } := by
  obtain ⟨-, e⟩ | ⟨-, e⟩ | ⟨-, -, e⟩ := rewindTicket_cases pages job s t
  · rw [e]; rfl
  · rw [e, endTicket_frame]
  · rw [e]

theorem rewindTicket_ticket (u : Slot) : (State.rewindTicket pages job s t).ticket u =
    if u = t then (s.ticket t).dealt (resumePointOf pages job t) else s.ticket u := by
  unfold Ticket.dealt
  obtain ⟨hr, e⟩ | ⟨hd, e⟩ | ⟨hr, hd, e⟩ := rewindTicket_cases pages job s t
  · rw [e, State.ticket_modTicket]
    simp only [hr, if_true]
  · rw [e, endTicket_ticket]
    simp only [not_rewinds_of_drains hd, hd, if_true, Bool.false_eq_true, if_false]
    rfl
  · rw [e]
    simp only [hr, hd, Bool.false_eq_true, if_false]
    split
    case isTrue h => rw [h]
    case isFalse => rfl

/-- The ticket ends in the rewind, and its extent touches the block. -/
def Ticket.freesBlock (k : Ticket) (w : Word) (b : Fin 4096) : Bool :=
  k.drains && k.mirror.any fun m => isTouchedBlock w m b

theorem rewindTicket_guard (b : Fin 4096) : (State.rewindTicket pages job s t).guard b =
    s.guard b - if (s.ticket t).freesBlock s.image.spoolWindow b then 1 else 0 := by
  unfold Ticket.freesBlock
  obtain ⟨hr, e⟩ | ⟨hd, e⟩ | ⟨hr, hd, e⟩ := rewindTicket_cases pages job s t
  · have hd : (s.ticket t).drains = false := by
      rw [← Bool.not_eq_true]
      intro hd
      rw [not_rewinds_of_drains hd] at hr
      exact absurd hr (by decide)
    rw [e, hd, Bool.false_and, if_neg (by decide)]
    rfl
  · rw [e, endTicket_guard, hd, Bool.true_and]
    split <;> rfl
  · rw [e, hd, Bool.false_and, if_neg (by decide)]
    rfl

theorem rewindTicket_backlog : (State.rewindTicket pages job s t).relay.backlog =
    if (s.ticket t).drains then (s.ticket t).raisesAtEnd t s.milliseconds s.relay.backlog else s.relay.backlog := by
  obtain ⟨hr, e⟩ | ⟨hd, e⟩ | ⟨hr, hd, e⟩ := rewindTicket_cases pages job s t
  · have hd : ¬(s.ticket t).drains = true := fun hd => by
      rw [not_rewinds_of_drains hd] at hr
      exact absurd hr (by decide)
    rw [e, if_neg hd]
    rfl
  · rw [e, if_pos hd, endTicket_raises s hd]
  · rw [e, if_neg (by rw [hd]; decide)]

end OneTicket

/-! ### All of them, in page-list order (R141) -/

section AllTickets
variable (pages : List Entry) (job : Option Job)

theorem rewindTickets_frame (ts : List Slot) (s : State) : ts.foldl (State.rewindTicket pages job) s = { s with
    tickets := (ts.foldl (State.rewindTicket pages job) s).tickets
    guards := (ts.foldl (State.rewindTicket pages job) s).guards
    relay := { s.relay with backlog := (ts.foldl (State.rewindTicket pages job) s).relay.backlog } } := by
  induction ts generalizing s with
  | nil => rfl
  | cons t ts ih => rw [List.foldl_cons, ih, rewindTicket_frame pages job s t]

theorem rewindTickets_ticket {ts : List Slot} (h : ts.Nodup) (s : State) (u : Slot) :
    (ts.foldl (State.rewindTicket pages job) s).ticket u =
      if u ∈ ts then (s.ticket u).dealt (resumePointOf pages job u) else s.ticket u := by
  induction ts generalizing s with
  | nil => rfl
  | cons t ts ih =>
    obtain ⟨hnot, hnodup⟩ := List.nodup_cons.1 h
    rw [List.foldl_cons, ih hnodup, rewindTicket_ticket]
    by_cases hu : u = t
    · subst hu
      rw [if_pos rfl, if_neg hnot, if_pos List.mem_cons_self]
    · rw [if_neg hu]
      exact if_congr ⟨List.mem_cons_of_mem t, fun hm => (List.mem_cons.1 hm).resolve_left hu⟩ rfl rfl

theorem rewindTicket_ticket_ne {t u : Slot} (s : State) (h : u ≠ t) :
    (State.rewindTicket pages job s t).ticket u = s.ticket u := by
  rw [rewindTicket_ticket, if_neg h]

theorem rewindTickets_guard {ts : List Slot} (h : ts.Nodup) (s : State) (b : Fin 4096) :
    (ts.foldl (State.rewindTicket pages job) s).guard b =
      s.guard b - ts.countP fun t => (s.ticket t).freesBlock s.image.spoolWindow b := by
  induction ts generalizing s with
  | nil => rfl
  | cons t ts ih =>
    obtain ⟨hnot, hnodup⟩ := List.nodup_cons.1 h
    have himage : (State.rewindTicket pages job s t).image = s.image := by rw [rewindTicket_frame]
    have hcount : ts.countP (fun u => ((State.rewindTicket pages job s t).ticket u).freesBlock s.image.spoolWindow b) =
        ts.countP fun u => (s.ticket u).freesBlock s.image.spoolWindow b :=
      List.countP_congr fun u hu => by rw [rewindTicket_ticket_ne pages job s (ne_of_mem_of_not_mem hu hnot)]
    rw [List.foldl_cons, ih hnodup, himage, hcount, rewindTicket_guard, List.countP_cons, Nat.sub_sub, Nat.add_comm]

/-- The JOB alerts of the tickets that end, in the order of the list. -/
def raisesOf (ticket : Slot → Ticket) (now : BitVec 32) (ts : List Slot) (ls : List Latch) : List Latch :=
  ts.foldl (fun ls t => if (ticket t).drains then (ticket t).raisesAtEnd t now ls else ls) ls

theorem rewindTickets_backlog {ts : List Slot} (h : ts.Nodup) (s : State) :
    (ts.foldl (State.rewindTicket pages job) s).relay.backlog =
      raisesOf s.ticket s.milliseconds ts s.relay.backlog := by
  induction ts generalizing s with
  | nil => rfl
  | cons t ts ih =>
    obtain ⟨hnot, hnodup⟩ := List.nodup_cons.1 h
    have hnow : (State.rewindTicket pages job s t).milliseconds = s.milliseconds := by rw [rewindTicket_frame]
    rw [List.foldl_cons, ih hnodup, hnow, rewindTicket_backlog]
    refine List.foldl_ext _ _ _ fun ls u hu => ?_
    rw [rewindTicket_ticket_ne pages job s (ne_of_mem_of_not_mem hu hnot)]

end AllTickets

theorem mem_uniqueSlots (ts : List Slot) (t : Slot) : t ∈ uniqueSlots ts ↔ t ∈ ts := by
  induction ts with
  | nil => rfl
  | cons u us ih =>
    rw [uniqueSlots, List.mem_cons, List.mem_cons, List.mem_filter, ih, bne_iff_ne]
    by_cases h : t = u
    · simp [h]
    · simp [h]

theorem uniqueSlots_nodup (ts : List Slot) : (uniqueSlots ts).Nodup := by
  induction ts with
  | nil => exact List.nodup_nil
  | cons u us ih =>
    rw [uniqueSlots, List.nodup_cons]
    refine ⟨fun h => ?_, ih.filter _⟩
    exact absurd (List.mem_filter.1 h).2 (by simp)

end Sys2Proof.Machine

/-! ## The rewind of a port (R138 to R143) -/

namespace Sys2Proof.Machine

/-- A ticket at a rewind of a port, once the engine has stopped and the port's entries are spoiled (R139, R140). -/
def Port.spoils (x : Port) (k : Ticket) (t : Slot) : Ticket :=
  { k with
    entryCount := k.entryCount - x.pages.countP fun e => e.slot == t
    spoiled := raisedSpoiled (x.closedPages.countP fun e => e.slot == t) k.spoiled
    fetchCount := if x.engine.job.map Job.slot = some t then 0 else k.fetchCount
    sending := k.sending && x.engine.job.map Job.slot != some t }

/-- What the rewind of a port does, from `s` to `v`: where the jobs, the tickets and the records stand. `before` is the
backlog that its JOB alerts join. -/
structure AfterRewind (s : State) (before : List Latch) (v : State) (p : PortId) : Prop where
  pages : (v.port p).pages = []
  queue : (v.port p).queue =
    ((s.port p).concerned.filter s.returns).map (fun t => ⟨t, .resume⟩) ++ (s.port p).queue
  engine : (v.port p).engine = { state := .jamStop, job := none, pacer := (v.port p).engine.pacer,
                                 recordedMode := portMode (s.portWord p), consent := false }
  holdFlag : (v.port p).holdFlag = (s.port p).holdFlag
  quiesceHold : (v.port p).quiesceHold = (s.port p).quiesceHold
  others : ∀ q, q ≠ p → v.port q = s.port q
  account : ∀ a, v.account a = { s.account a with
    reserved := (s.account a).reserved - (s.port p).pages.countP fun e => e.account == a
    spoiled := (s.account a).spoiled + BitVec.ofNat 32 ((s.port p).closedPages.countP fun e => e.account == a) }
  ticket : ∀ t, v.ticket t =
    if t ∈ (s.port p).concerned then
      ((s.port p).spoils (s.ticket t) t).dealt (resumePointOf (s.port p).pages (s.port p).engine.job t)
    else (s.port p).spoils (s.ticket t) t
  guard : ∀ b, v.guard b = s.guard b - (s.port p).concerned.countP fun t =>
    ((s.port p).spoils (s.ticket t) t).freesBlock s.image.spoolWindow b
  backlog : v.relay.backlog =
    raisesOf (fun t => (s.port p).spoils (s.ticket t) t) s.milliseconds (s.port p).concerned before
  msp : v.msp = { s.msp with
    waiting := if (s.port p).engine.job = none then s.msp.waiting
      else s.msp.waiting.filter fun r => !r.isFetchOf p
    outstanding := if (s.port p).engine.job = none then s.msp.outstanding
      else s.msp.outstanding.map (Granted.remark p .stale) }
  relay : v.relay = { s.relay with backlog := v.relay.backlog }
  global : (s.port p).opensNewestOnly → v.ctl.global =
    if (s.port p).hasOpenPage = true ∧ s.ctl.global = .quiescing ∧ ∀ q, q ≠ p → (s.port q).hasOpenPage = false
    then .stopped else s.ctl.global
  refusals : v.ctl.refusals = s.ctl.refusals
  image : v.image = s.image
  psp : v.psp = s.psp
  fetcher : v.fetcher = s.fetcher
  sweep : v.sweep = s.sweep
  anchor : v.anchor = s.anchor
  milliseconds : v.milliseconds = s.milliseconds
  microseconds : v.microseconds = s.microseconds
  resetAsserted : v.resetAsserted = s.resetAsserted

/-! ### The steps of a rewind together -/

/-- The state with the engine stopped and the entries spoiled. -/
def State.spoiledAt (s : State) (p : PortId) : State := (s.rewindStop p).spoilAll p

/-- The state with the tickets dealt with. -/
def State.dealtAt (s : State) (p : PortId) : State :=
  (s.port p).concerned.foldl (State.rewindTicket (s.port p).pages (s.port p).engine.job) (s.spoiledAt p)

theorem spoilAll_frame (s : State) (p : PortId) : s.spoilAll p = { s with
    ports := tset s.ports p { s.port p with pages := [] }
    tickets := (s.spoilAll p).tickets, accounts := (s.spoilAll p).accounts } := by
  rw [State.spoilAll, spoilEntries_frame]
  rfl

theorem spoiledAt_port (s : State) (p q : PortId) : (s.spoiledAt p).port q =
    if q = p then { (s.port p).stopped with pages := [] } else s.port q := by
  rw [State.spoiledAt, spoilAll_frame]
  refine (tget_tset _ p q _).trans ?_
  rw [rewindStop_port, if_pos rfl]
  split
  case isTrue => rfl
  case isFalse h => exact (rewindStop_port s p q).trans (if_neg h)

theorem countP_pages (x : Port) (f : Entry → Bool) :
    x.pages.countP f = x.openEntry.toList.countP f + x.closedPages.countP f := by
  conv_lhs => rw [pages_eq x]
  rw [List.countP_append, Nat.add_comm]

theorem spoiledAt_ticket {s : State} {p : PortId} (hp : (s.port p).pageInHand) (t : Slot) :
    (s.spoiledAt p).ticket t = (s.port p).spoils (s.ticket t) t := by
  have hpages : ((s.rewindStop p).port p).pages = (s.port p).closedPages := by
    rw [rewindStop_port, if_pos rfl, Port.stopped_pages hp]
  refine (spoilEntries_ticket _ (s.rewindStop p) t).trans ?_
  rw [hpages, rewindStop_ticket hp, Port.spoils, countP_pages, ← Nat.sub_sub]
  rfl

theorem spoiledAt_account {s : State} {p : PortId} (hp : (s.port p).pageInHand) (a : AccountId) :
    (s.spoiledAt p).account a = { s.account a with
      reserved := (s.account a).reserved - (s.port p).pages.countP fun e => e.account == a
      spoiled := (s.account a).spoiled + BitVec.ofNat 32 ((s.port p).closedPages.countP fun e => e.account == a) } := by
  have hpages : ((s.rewindStop p).port p).pages = (s.port p).closedPages := by
    rw [rewindStop_port, if_pos rfl, Port.stopped_pages hp]
  refine (spoilEntries_account _ (s.rewindStop p) a).trans ?_
  rw [hpages, rewindStop_account hp, countP_pages, ← Nat.sub_sub]

end Sys2Proof.Machine

/-! ## What the rewind of a port leaves (R138 to R143) -/

namespace Sys2Proof.Machine

theorem concerned_nodup (x : Port) : x.concerned.Nodup := uniqueSlots_nodup _

theorem mem_concerned_iff (x : Port) (t : Slot) :
    t ∈ x.concerned ↔ (∃ e ∈ x.pages, e.slot = t) ∨ x.engine.job.map Job.slot = some t := by
  rw [Port.concerned, mem_uniqueSlots, List.mem_append, List.mem_map, Option.mem_toList]

/-- The state of a ticket is what it was until the rewind deals with it. -/
theorem spoiledAt_state (s : State) (p : PortId) (t : Slot) :
    ((s.spoiledAt p).ticket t).state = (s.ticket t).state := by
  have hspoil : ((s.spoiledAt p).ticket t).state = ((s.rewindStop p).ticket t).state := by
    rw [State.spoiledAt]
    exact (congrArg Ticket.state (spoilEntries_ticket ((s.rewindStop p).port p).pages (s.rewindStop p) t) :)
  rw [hspoil]
  cases h : (s.port p).engine.job with
  | none => rw [rewindStop_none h]
  | some j =>
    have hw : ((s.withdrawOpen p).ticket t).state = (s.ticket t).state :=
      (congrArg Ticket.state (withdrawOpen_ticket s p t) :)
    rw [rewindStop_some h, ← hw]
    refine (congrArg Ticket.state (tget_tset _ j.slot t _)).trans ?_
    split
    case isTrue e => rw [e]
    case isFalse => rfl

/-- The rewind, step by step. -/
theorem rewind_eq (s : State) (p : PortId) : s.rewind p =
    ((s.dealtAt p).modPort p fun x => { x with
      queue := rejoinQueue ((s.port p).concerned.filter s.returns) x.queue }).enterJamStop p := by
  have hback : ((s.port p).concerned.filter fun t => ((s.spoiledAt p).ticket t).state.rewinds) =
      (s.port p).concerned.filter s.returns := by
    refine List.filter_congr fun t _ => ?_
    rw [spoiledAt_state, State.returns]
    cases (s.ticket t).state <;> rfl
  rw [← hback]
  rfl

theorem dealtAt_frame (s : State) (p : PortId) : s.dealtAt p = { s with
    ports := (s.spoiledAt p).ports, tickets := (s.dealtAt p).tickets, accounts := (s.spoiledAt p).accounts
    guards := (s.dealtAt p).guards, msp := (s.rewindStop p).msp
    ctl := { s.ctl with global := (s.rewindStop p).ctl.global }
    relay := { s.relay with backlog := (s.dealtAt p).relay.backlog }, out := (s.rewindStop p).out } := by
  have hspoil := spoilAll_frame (s.rewindStop p) p
  have hstop := rewindStop_frame s p
  rw [State.dealtAt, rewindTickets_frame, State.spoiledAt, hspoil, hstop]

/-- The rewind leaves its port with no page, no ticket in hand and its engine in JAM_STOP. -/
theorem rewind_port (s : State) (p q : PortId) : (s.rewind p).port q =
    if q = p then { s.port p with
      pages := []
      queue := ((s.port p).concerned.filter s.returns).map (fun t => ⟨t, .resume⟩) ++ (s.port p).queue
      engine := { (s.port p).engine with
        state := .jamStop, job := none, recordedMode := portMode (s.portWord p), consent := false } }
    else s.port q := by
  have hdealt (r : PortId) : (s.dealtAt p).port r = (s.spoiledAt p).port r := by rw [dealtAt_frame]; rfl
  have hword : (s.dealtAt p).portWord p = s.portWord p := by rw [dealtAt_frame]; rfl
  rw [rewind_eq, State.enterJamStop, State.port_modEngine, State.port_modPort, State.port_modPort, if_pos rfl, hdealt,
    hdealt, spoiledAt_port, spoiledAt_port, if_pos rfl]
  split
  case isTrue =>
    have hw : (State.modPort (s.dealtAt p) p fun x =>
        { x with queue := rejoinQueue ((s.port p).concerned.filter s.returns) x.queue }).portWord p = s.portWord p := hword
    simp only [hw]
    unfold Port.stopped
    split <;> rfl
  case isFalse => rfl

theorem rewind_frame (s : State) (p : PortId) : s.rewind p = { s with
    ports := (s.rewind p).ports, tickets := (s.dealtAt p).tickets, accounts := (s.spoiledAt p).accounts
    guards := (s.dealtAt p).guards, msp := (s.rewindStop p).msp
    ctl := { s.ctl with global := (s.rewindStop p).ctl.global }
    relay := { s.relay with backlog := (s.dealtAt p).relay.backlog }, out := (s.rewindStop p).out } := by
  have hdealt := dealtAt_frame s p
  rw [rewind_eq, State.enterJamStop, hdealt]
  rfl

theorem rewind_out (s : State) (p : PortId) : (s.rewind p).out = s.out ++
    if (s.port p).hasOpenPage && (s.port p).link.state == .ready && (s.port p).engine.job.isSome
    then [.frame p Frame.cut.wire] else [] := by
  rw [rewind_frame]
  exact rewindStop_out s p

/-- The rewind of a port whose open page, if it has one, belongs to a ticket in hand. -/
theorem afterRewind_rewind {s : State} {p : PortId} (hp : (s.port p).pageInHand) :
    AfterRewind s s.relay.backlog (s.rewind p) p := by
  have hframe := rewind_frame s p
  have hself := rewind_port s p p
  rw [if_pos rfl] at hself
  have hrelay : (s.spoiledAt p).relay = s.relay := by rw [State.spoiledAt, spoilAll_frame, rewindStop_frame]
  have hnow : (s.spoiledAt p).milliseconds = s.milliseconds := by rw [State.spoiledAt, spoilAll_frame, rewindStop_frame]
  have himage : (s.spoiledAt p).image = s.image := by rw [State.spoiledAt, spoilAll_frame, rewindStop_frame]
  have hguards : (s.spoiledAt p).guards = s.guards := by rw [State.spoiledAt, spoilAll_frame, rewindStop_frame]
  have htickets : (s.spoiledAt p).ticket = fun t => (s.port p).spoils (s.ticket t) t := funext (spoiledAt_ticket hp)
  have hnodup := concerned_nodup (s.port p)
  refine
    { pages := by rw [hself], queue := by rw [hself], engine := by rw [hself], holdFlag := by rw [hself]
      quiesceHold := by rw [hself], others := fun q hq => by rw [rewind_port, if_neg hq]
      account := fun a => ?_, ticket := fun t => ?_, guard := fun b => ?_, backlog := ?_, msp := ?_
      relay := by rw [hframe], global := fun hn => ?_, refusals := by rw [hframe]
      image := by rw [hframe], psp := by rw [hframe], fetcher := by rw [hframe], sweep := by rw [hframe]
      anchor := by rw [hframe], milliseconds := by rw [hframe], microseconds := by rw [hframe]
      resetAsserted := by rw [hframe] }
  · rw [hframe]
    exact spoiledAt_account hp a
  · rw [hframe]
    refine (rewindTickets_ticket _ _ hnodup (s.spoiledAt p) t).trans ?_
    rw [htickets]
  · rw [hframe]
    refine (rewindTickets_guard _ _ hnodup (s.spoiledAt p) b).trans ?_
    rw [htickets, himage, State.guard, hguards]
    rfl
  · rw [hframe]
    refine (rewindTickets_backlog _ _ hnodup (s.spoiledAt p)).trans ?_
    rw [htickets, hrelay, hnow]
  · rw [hframe]
    exact rewindStop_msp s p
  · rw [hframe]
    exact rewindStop_global hp hn

end Sys2Proof.Machine

/-! ## The rewind as the statements read it (R38, R139 to R143) -/

namespace Sys2Proof.Machine

/-! ### From what a rewind does to what it leaves once the ports have settled -/

section Dealt
variable (s : State) (p : PortId) (t : Slot)

/-- A ticket at the rewind of a port. -/
def State.spoilsAt : Ticket := (s.port p).spoils (s.ticket t) t

theorem spoilsAt_drains : (s.spoilsAt p t).drains = s.endsInRewind p t := by
  have hfetch : ((s.spoilsAt p t).fetchCount == 0 && !(s.spoilsAt p t).sending) =
      (s.inHand p == some t || ((s.ticket t).fetchCount == 0 && !(s.ticket t).sending)) := by
    unfold State.spoilsAt Port.spoils
    by_cases h : (s.port p).engine.job.map Job.slot = some t
    · have hh : s.inHand p = some t := h
      rw [hh]
      simp [h]
    · have hh : s.inHand p ≠ some t := h
      have hb : ((s.port p).engine.job.map Job.slot != some t) = true := bne_iff_ne.2 h
      rw [beq_eq_false_iff_ne.2 hh]
      simp [h, hb]
  unfold Ticket.drains
  rw [Bool.and_assoc, hfetch]
  rfl

variable {s p t}

theorem spoilsAt_spoiled (h : (s.ticket t).spoiled ≤ 65535) : (s.spoilsAt p t).spoiled = s.spoiledAfter p t :=
  raisedSpoiled_of_le h

theorem concerned_of_count (h : t ∉ (s.port p).concerned) :
    ((s.port p).pages.countP fun e => e.slot == t) = 0 ∧
      ((s.port p).closedPages.countP fun e => e.slot == t) = 0 ∧ s.inHand p ≠ some t := by
  rw [mem_concerned_iff, not_or] at h
  have hpages : ((s.port p).pages.countP fun e => e.slot == t) = 0 :=
    List.countP_eq_zero.2 fun e he hs => h.1 ⟨e, he, beq_iff_eq.1 hs⟩
  refine ⟨hpages, ?_, h.2⟩
  rw [countP_pages] at hpages
  exact Nat.eq_zero_of_add_eq_zero_left hpages

theorem spoilsAt_apart (h : t ∉ (s.port p).concerned) : s.spoilsAt p t = s.ticket t := by
  obtain ⟨hpages, hclosed, hhand⟩ := concerned_of_count h
  have hhand : (s.port p).engine.job.map Job.slot ≠ some t := hhand
  rw [State.spoilsAt, Port.spoils, hpages, hclosed, if_neg hhand, bne_iff_ne.2 hhand, Bool.and_true]
  rfl

theorem returns_iff : s.returns t = (s.spoilsAt p t).state.rewinds := by
  show (_ || _) = (s.ticket t).state.rewinds
  cases (s.ticket t).state <;> rfl

/-- A ticket that returns to its queue (R141, R143). -/
theorem dealt_returns (r : ResumePoint) (h : s.returns t = true) : (s.spoilsAt p t).dealt r =
    { s.spoilsAt p t with state := .queued, resume := some r, fetchCount := 0, sending := false } := by
  rw [returns_iff (p := p)] at h
  rw [Ticket.dealt, if_pos h]

/-- A CANCELLING or FAILING ticket at a rewind (R56, R141). -/
theorem dealt_ending (r : ResumePoint) (h : (s.ticket t).state = .cancelling ∨ (s.ticket t).state = .failing) :
    (s.spoilsAt p t).dealt r = if s.endsInRewind p t then (s.spoilsAt p t).ended else s.spoilsAt p t := by
  have hno : ¬(s.spoilsAt p t).state.rewinds = true := by
    show ¬(s.ticket t).state.rewinds = true
    obtain h | h := h <;> rw [h] <;> decide
  rw [Ticket.dealt, if_neg hno, spoilsAt_drains]

theorem dealt_fetchCount (r : ResumePoint) : ((s.spoilsAt p t).dealt r).fetchCount =
    if s.returns t = true ∨ s.inHand p = some t then 0 else (s.ticket t).fetchCount := by
  have hmid : (s.spoilsAt p t).fetchCount = if s.inHand p = some t then 0 else (s.ticket t).fetchCount := rfl
  by_cases hr : s.returns t = true
  · rw [dealt_returns r hr, if_pos (.inl hr)]
  · have hno : ¬(s.spoilsAt p t).state.rewinds = true := by rwa [← returns_iff]
    have hkept : ((s.spoilsAt p t).dealt r).fetchCount = (s.spoilsAt p t).fetchCount := by
      rw [Ticket.dealt, if_neg hno]
      split <;> rfl
    rw [hkept, hmid]
    exact if_congr (or_iff_right hr).symm rfl rfl

/-- The resume point of a ticket that the rewind deals with (R143). -/
theorem resumePoint_concerned (h : t ∈ (s.port p).concerned) :
    some (resumePointOf (s.port p).pages (s.port p).engine.job t) =
      match (s.port p).pages.find? (fun e => e.slot == t) with
      | some e => some ⟨e.copy, e.page, e.start⟩
      | none => (s.port p).engine.job.map fun j => ⟨j.copy, j.page, j.offset⟩ := by
  unfold resumePointOf
  cases hf : (s.port p).pages.find? fun e => e.slot == t with
  | some e => rfl
  | none =>
    obtain ⟨e, he, hs⟩ | hj := (mem_concerned_iff _ _).1 h
    · exact absurd (beq_iff_eq.2 hs) (List.find?_eq_none.1 hf e he)
    · obtain ⟨j, hj, -⟩ := Option.map_eq_some_iff.1 hj
      rw [hj]
      rfl

end Dealt

/-- The JOB alerts of a rewind, when no count of spoiled pages is past its range. -/
theorem raisesOf_eq {s : State} {p : PortId} (before : List Latch)
    (hcounted : ∀ t ∈ (s.port p).concerned, (s.ticket t).spoiled ≤ 65535) :
    raisesOf (s.spoilsAt p) s.milliseconds (s.port p).concerned before = s.rewindBacklog p before := by
  refine List.foldl_ext _ _ _ fun ls t ht => ?_
  have hmirror : (s.spoilsAt p t).mirror = (s.ticket t).mirror := rfl
  have hspoiled := spoilsAt_spoiled (p := p) (hcounted t ht)
  rw [spoilsAt_drains, Ticket.raisesAtEnd, hmirror, hspoiled]
  cases (s.ticket t).mirror with
  | none => exact ite_self _
  | some m =>
    by_cases hends : s.endsInRewind p t = true
    · simp only [hends, if_true, true_and]
      rfl
    · simp only [hends, if_false, false_and, Bool.false_eq_true]

/-- A port whose engine holds no ticket, past what settling touches. -/
theorem Port.eq_of_still {x y : Port} (h : y.still = x.still) (hs : y.engine.state = x.engine.state)
    (hx : x.engine.job = none) (hi : y.link.idle = x.link.idle) : y = x := by
  obtain ⟨queue, hold, quiesce, ⟨state, job, pacer, mode, consent⟩, pages, link, watch, stray⟩ := y
  obtain ⟨queue', hold', quiesce', ⟨state', job', pacer', mode', consent'⟩, pages', link', watch', stray'⟩ := x
  obtain ⟨a, b, c, d, e, f, i, g⟩ := link
  obtain ⟨a', b', c', d', e', f', i', g'⟩ := link'
  simp only at hs hx hi
  subst hs hx hi
  simp only [Port.still, Port.mk.injEq, Engine.mk.injEq, Link.mk.injEq, Option.map_eq_none_iff, Option.map_none] at h
  simp only [Port.mk.injEq, Engine.mk.injEq, Link.mk.injEq]
  tauto

end Sys2Proof.Machine

/-! ## What a rewind leaves once the ports have settled -/

namespace Sys2Proof.Machine

section Settled
variable {s v u : State} {before : List Latch} {p : PortId}

/-- Settling leaves a port in JAM_STOP as it is, with no ticket in hand and its idle timer stopped. -/
theorem jammedPort_settled (hu : settled v u) (hjam : (v.port p).engine.state = .jamStop)
    (hjob : (v.port p).engine.job = none) (hidle : (v.port p).link.idle = .stopped) : u.port p = v.port p := by
  obtain ⟨hstill, -, hports⟩ := hu
  obtain ⟨hstate, -, hstop⟩ := (hports p).1 trivial
  have hstate : (u.port p).engine.state = (v.port p).engine.state := by
    rw [hstate, State.judged, hjam]
  have hasleep : ¬u.drowsing p := fun hd => by
    have he := hd.2.1
    rw [hstate, hjam] at he
    exact absurd he (by decide)
  exact Port.eq_of_still (State.port_still hstill p) hstate hjob ((hstop hasleep).trans hidle.symm)

theorem AfterRewind.port_settled (h : AfterRewind s before v p) (hu : settled v u)
    (hidle : (v.port p).link.idle = .stopped) : u.port p = v.port p :=
  jammedPort_settled hu (by rw [h.engine]) (by rw [h.engine]) hidle

/-- Any state with the parts that settling touches put back is the state before the ports settled. -/
theorem unsettled_eq (hu : u.still = v.still) {ports : Vector Port 16} {tickets : Vector Ticket 256}
    {waiting : List MemRequest} (hp : ports = v.ports) (ht : tickets = v.tickets) (hw : waiting = v.msp.waiting) :
    { u with ports := ports, tickets := tickets, msp := { u.msp with waiting := waiting } } = v := by
  subst hp ht hw
  have hmsp : ({ u.msp with waiting := v.msp.waiting } : Msp) = v.msp := by
    dsimp only
    rw [State.outstanding_of_still hu, State.nextGrant_of_still hu, State.runCount_of_still hu,
      State.lastEngine_of_still hu]
  rw [hmsp]
  exact congrArg (fun x : State => { x with ports := v.ports, tickets := v.tickets, msp := v.msp }) hu

theorem AfterRewind.ports_eq (h : AfterRewind s before v p) : tset s.ports p (v.port p) = v.ports := by
  refine table_ext fun q => ?_
  rw [tget_tset]
  split
  case isTrue e => rw [e]; rfl
  case isFalse hq => exact (h.others q hq).symm

theorem AfterRewind.ticket_eq (h : AfterRewind s before v p) (t : Slot) : v.ticket t =
    if t ∈ (s.port p).concerned then
      (s.spoilsAt p t).dealt (resumePointOf (s.port p).pages (s.port p).engine.job t)
    else s.ticket t := by
  rw [h.ticket]
  split
  case isTrue => rfl
  case isFalse hc => exact spoilsAt_apart hc

/-- The tickets' fetch counts, which settling raises, put back (R139, R141). -/
theorem AfterRewind.tickets_eq (h : AfterRewind s before v p) (hu : u.still = v.still) :
    (Vector.ofFn fun t => { u.ticket t with
      fetchCount := if (t ∈ (s.port p).concerned ∧ s.returns t = true) ∨ s.inHand p = some t then 0
        else (s.ticket t).fetchCount }) = v.tickets := by
  refine table_ext fun t => ?_
  have hstill : (u.ticket t).still = (v.ticket t).still := State.ticket_still hu t
  have hcount : (v.ticket t).fetchCount =
      if (t ∈ (s.port p).concerned ∧ s.returns t = true) ∨ s.inHand p = some t then 0
        else (s.ticket t).fetchCount := by
    rw [h.ticket_eq]
    split
    case isTrue hc =>
      rw [dealt_fetchCount]
      exact if_congr (or_congr_left (and_iff_right hc).symm) rfl rfl
    case isFalse hc =>
      rw [if_neg]
      rintro (⟨hm, -⟩ | hm)
      · exact hc hm
      · exact (concerned_of_count hc).2.2 hm
  have hget : tget (Vector.ofFn fun t => { u.ticket t with
      fetchCount := if (t ∈ (s.port p).concerned ∧ s.returns t = true) ∨ s.inHand p = some t then 0
        else (s.ticket t).fetchCount }) t = { u.ticket t with fetchCount := (v.ticket t).fetchCount } := by
    rw [hcount, tget, Vector.getElem_ofFn]
  rw [hget]
  exact congrArg (fun k : Ticket => { k with fetchCount := (v.ticket t).fetchCount }) hstill

/-- What a rewind does, read after the ports have settled, is the rewind of the statements. -/
theorem AfterRewind.rewound (h : AfterRewind s before v p) (hu : settled v u)
    (hidle : (v.port p).link.idle = .stopped) : rewound s before u p := by
  have hport := h.port_settled hu hidle
  have hstill := hu.1
  have hticket (t : Slot) : (u.ticket t).still = (v.ticket t).still := State.ticket_still hstill t
  have hmsp := h.msp
  refine ⟨by rw [hport, h.pages], by rw [hport, h.queue], by rw [hport]; exact h.engine, fun a => ?_,
    fun hcounted t ht hr => ?_, fun hcounted t ht hst => ?_, fun t ht => ?_, ?_, by rw [hport, h.holdFlag],
    by rw [hport, h.quiesceHold], fun b => ?_, fun hcounted => ?_, ?_, ?_, ?_, ?_, ?_, fun hn => ?_, ?_, ?_, ?_, ?_, ?_,
    ?_, ?_, ?_, ?_⟩
  · have ha : u.account a = v.account a := by rw [State.account, State.accounts_of_still hstill, State.account]
    rw [ha, h.account]
    exact ⟨rfl, rfl, rfl, rfl, rfl⟩
  · rw [hticket, h.ticket_eq, if_pos ht, dealt_returns _ hr, resumePoint_concerned ht,
      ← spoilsAt_spoiled (p := p) (hcounted t ht)]
    rfl
  · rw [hticket, h.ticket_eq, if_pos ht, dealt_ending _ hst, ← spoilsAt_spoiled (p := p) (hcounted t ht)]
    split <;> rfl
  · rw [hticket, h.ticket_eq, if_neg ht]
  · rw [unsettled_eq (v := v) hstill (by rw [hport, h.ports_eq]) (h.tickets_eq hstill) (by rw [hmsp])]
    exact hu
  · have hb : u.guard b = v.guard b := by rw [State.guard, State.guards_of_still hstill, State.guard]
    rw [hb, h.guard]
    congr 1
    refine List.countP_congr fun t _ => ?_
    show (s.spoilsAt p t).freesBlock s.image.spoolWindow b = true ↔ _
    rw [Ticket.freesBlock, spoilsAt_drains]
    rfl
  · rw [State.relay_of_still hstill, h.backlog]
    exact raisesOf_eq before hcounted
  · rw [State.outstanding_of_still hstill, hmsp]
  · rw [State.runCount_of_still hstill, hmsp]
  · rw [State.lastEngine_of_still hstill, hmsp]
  · rw [State.nextGrant_of_still hstill, hmsp]
  · rw [State.relay_of_still hstill]
    exact h.relay
  · rw [State.ctl_of_still hstill, h.global hn]
  · rw [State.image_of_still hstill, h.image]
  · rw [State.psp_of_still hstill, h.psp]
  · rw [State.fetcher_of_still hstill, h.fetcher]
  · rw [State.sweep_of_still hstill, h.sweep]
  · rw [State.anchor_of_still hstill, h.anchor]
  · rw [State.milliseconds_of_still hstill, h.milliseconds]
  · rw [State.microseconds_of_still hstill, h.microseconds]
  · rw [State.resetAsserted_of_still hstill, h.resetAsserted]
  · rw [State.ctl_of_still hstill, h.refusals]

end Settled

/-! ### Links and backlogs set before a rewind, and what is set after it -/

/-- A state with the link of a port set, a backlog and outputs. -/
def State.relinked (s : State) (p : PortId) (l : Link) (before : List Latch) (out : List Output) : State :=
  { s with
    ports := tset s.ports p { s.port p with link := l }
    relay := { s.relay with backlog := before }
    out := out }

theorem relinked_port (s : State) (p q : PortId) (l : Link) (before : List Latch) (out : List Output) :
    (s.relinked p l before out).port q = if q = p then { s.port p with link := l } else s.port q :=
  tget_tset s.ports p q _

/-- A rewind reads nothing of the link of its port. -/
theorem AfterRewind.of_relinked {s v : State} {p : PortId} {l : Link} {before : List Latch} {out : List Output}
    (h : AfterRewind (s.relinked p l before out) before v p) : AfterRewind s before v p := by
  have hself := relinked_port s p p l before out
  rw [if_pos rfl] at hself
  obtain ⟨hpages, hqueue, hengine, hhold, hquiesce, hothers, haccount, hticket, hguard, hbacklog, hmsp, hrelay, hglobal,
    hrefusals, himage, hpsp, hfetcher, hsweep, hanchor, hms, hus, hreset⟩ := h
  rw [hself] at hqueue hhold hquiesce hbacklog hmsp
  simp only [hself] at haccount hticket hguard
  refine ⟨hpages, hqueue, hengine, hhold, hquiesce, fun q hq => ?_, haccount, hticket, hguard, hbacklog, hmsp, hrelay,
    fun hn => ?_, hrefusals, himage, hpsp, hfetcher, hsweep, hanchor, hms, hus, hreset⟩
  · rw [hothers q hq, relinked_port, if_neg hq]
  · have hg := hglobal (by rw [hself]; exact hn)
    rw [hg, hself]
    refine if_congr (and_congr_right fun _ => and_congr_right fun _ => forall_congr' fun q => ?_) rfl rfl
    refine imp_congr_right fun hq => ?_
    rw [relinked_port, if_neg hq]

end Sys2Proof.Machine

/-! ## Link losses, training failures and the timers that bring them about (R117, R118, R121, R122) -/

namespace Sys2Proof.Machine

/-! ### The link and the DOWN alert before the rewind -/

/-- The link after a training failure (R117). -/
def Link.failed (l : Link) (now : BitVec 32) (us : Nat) : Link :=
  { l with state := .offline, credits := 0, training := .running now us 250 }

/-- The link after a link loss (R122). -/
def Link.lost (l : Link) (now : BitVec 32) (us : Nat) : Link :=
  { l.failed now us with silence := .stopped, idle := .stopped, warm := .stopped, onlineSeen := false }

/-- TRAIN handed and the DOWN alert raised over a link set anew. -/
theorem handTrain_raiseLinkDown (s : State) (p : PortId) (f : Link → Link) :
    ((s.modLink p f).handTrain p).raiseLinkDown p =
      s.relinked p { f (s.port p).link with training := .running s.milliseconds s.microseconds 250 } (s.withLinkDown p)
        (s.out ++ [.frame p Frame.train.wire]) := by
  simp only [State.relinked, State.withLinkDown, State.handTrain, State.startTimer, State.hand, State.emit,
    State.raiseLinkDown, State.raise, State.modRelay, State.modLink, State.modPort, State.setPort, State.port,
    State.inHand, tget_tset_self, tset_tset]
  rfl

theorem trainingFailure_eq (s : State) (p : PortId) : s.trainingFailure p =
    s.relinked p ((s.port p).link.failed s.milliseconds s.microseconds) (s.withLinkDown p)
      (s.out ++ [.frame p Frame.train.wire]) :=
  handTrain_raiseLinkDown s p fun l => { l with state := .offline, credits := 0 }

theorem linkLoss_eq (s : State) (p : PortId) : s.linkLoss p =
    ((s.relinked p ((s.port p).link.lost s.milliseconds s.microseconds) (s.withLinkDown p)
      (s.out ++ [.frame p Frame.train.wire])).rewind p).settle := by
  have h := handTrain_raiseLinkDown s p fun l =>
    { l with state := .offline, credits := 0, silence := .stopped, idle := .stopped, warm := .stopped,
             onlineSeen := false }
  exact congrArg (fun t : State => (t.rewind p).settle) h

/-! ### The DOWN alert stays in the backlog (R170, R171) -/

/-- A backlog whose sources are in range, with a latch of a key. -/
def holdsLatch (key : Nat) (ls : List Latch) : Prop := (∀ l ∈ ls, l.source < 256) ∧ ∃ l ∈ ls, l.key = key

theorem sources_addRaise {new : Latch} {ls : List Latch} (hn : new.source < 256) (h : ∀ l ∈ ls, l.source < 256) :
    ∀ l ∈ addRaise new ls, l.source < 256 := by
  intro l hl
  obtain rfl | ⟨k, hk, -, hs⟩ := mem_addRaise hl
  · exact hn
  · rw [hs]
    exact h k hk

theorem holdsLatch.addRaise {key : Nat} {new : Latch} {ls : List Latch} (hn : new.source < 256)
    (h : holdsLatch key ls) : holdsLatch key (addRaise new ls) := by
  obtain ⟨hsources, l, hl, hkey⟩ := h
  obtain ⟨x, hx, hxk⟩ := addRaise_keeps (new := new) hl
  exact ⟨sources_addRaise hn hsources, x, hx, hxk.trans hkey⟩

theorem holdsLatch.raisesOf {key : Nat} {ticket : Slot → Ticket} {now : BitVec 32} {ts : List Slot} {ls : List Latch}
    (h : holdsLatch key ls) : holdsLatch key (raisesOf ticket now ts ls) := by
  induction ts generalizing ls with
  | nil => exact h
  | cons t ts ih =>
    refine ih ?_
    dsimp only
    split
    · unfold Ticket.raisesAtEnd
      split
      · split
        · exact h.addRaise t.isLt
        · exact h
      · exact h
    · exact h

/-- The DOWN alert of a link loss, once the sources are in range. -/
theorem down_in_backlog {s : State} {p : PortId} {ticket : Slot → Ticket} {now : BitVec 32} {ts : List Slot}
    (h : ∀ k ∈ s.relay.backlog, k.source < 256) :
    ∃ l ∈ raisesOf ticket now ts (s.withLinkDown p), l.cls = .down ∧ l.source = p.val := by
  have hp : p.val < 256 := Nat.lt_trans p.isLt (by decide)
  obtain ⟨x, hx, hkey⟩ := addRaise_holds
    ⟨.down, p.val, s.milliseconds, 1, .printer .link (s.port p).watch.bits (s.inHand p)⟩ s.relay.backlog
  have hheld : holdsLatch x.key (s.withLinkDown p) := ⟨sources_addRaise hp h, x, hx, rfl⟩
  obtain ⟨hsources, l, hl, hlk⟩ := hheld.raisesOf (ticket := ticket) (now := now) (ts := ts)
  exact ⟨l, hl, Latch.key_inj (hsources l hl) hp (hlk.trans hkey)⟩

/-! ### The link loss (R122) -/

theorem pageInHand_relinked {s : State} {p : PortId} {l : Link} {before : List Latch} {out : List Output}
    (h : (s.port p).pageInHand) : ((s.relinked p l before out).port p).pageInHand := by
  rw [relinked_port, if_pos rfl]
  exact h

/-- The port after a link loss: what a rewind of it leaves, over the link set before. -/
theorem rewind_relinked_port (s : State) (p : PortId) (l : Link) (before : List Latch) (out : List Output) :
    (((s.relinked p l before out).rewind p).port p).link = l ∧
      (((s.relinked p l before out).rewind p).port p).watch = (s.port p).watch ∧
      (((s.relinked p l before out).rewind p).port p).stray = (s.port p).stray ∧
      (((s.relinked p l before out).rewind p).port p).engine.pacer = (s.port p).engine.pacer := by
  rw [rewind_port, if_pos rfl, relinked_port, if_pos rfl]
  exact ⟨rfl, rfl, rfl, rfl⟩

theorem lost_settle {s : State} {p : PortId} {l : Link} (hp : (s.port p).pageInHand)
    (hsent : l.framesSent = (s.port p).link.framesSent) (hover : l.overflows = (s.port p).link.overflows) :
    lost s ((s.relinked p (l.lost s.milliseconds s.microseconds) (s.withLinkDown p)
      [.frame p Frame.train.wire]).rewind p).settle p ∧
    ((((s.relinked p (l.lost s.milliseconds s.microseconds) (s.withLinkDown p)
      [.frame p Frame.train.wire]).rewind p).settle).port p).link = l.lost s.milliseconds s.microseconds := by
  have hafter := afterRewind_rewind (pageInHand_relinked (l := l.lost s.milliseconds s.microseconds)
    (before := s.withLinkDown p) (out := [.frame p Frame.train.wire]) hp)
  have hback : AfterRewind s (s.withLinkDown p) _ p := hafter.of_relinked
  obtain ⟨hlink, hwatch, hstray, hpacer⟩ := rewind_relinked_port s p (l.lost s.milliseconds s.microseconds)
    (s.withLinkDown p) [.frame p Frame.train.wire]
  have hout := rewind_out (s.relinked p (l.lost s.milliseconds s.microseconds) (s.withLinkDown p)
    [.frame p Frame.train.wire]) p
  rw [relinked_port, if_pos rfl] at hout
  generalize (s.relinked p (l.lost s.milliseconds s.microseconds) (s.withLinkDown p)
    [.frame p Frame.train.wire]).rewind p = v at *
  have hu := settled_settle v
  have hidle : (v.port p).link.idle = .stopped := by rw [hlink]; rfl
  have hport := hback.port_settled hu hidle
  refine ⟨⟨hback.rewound hu hidle, ?_, ?_, ?_, ?_, ?_, ?_, ?_, ?_, ?_, ?_, ?_, ?_, ?_, fun hs => ?_⟩, ?_⟩
  · rw [hport, hpacer]
  · rw [hport, hwatch]
  · rw [hport, hlink]; rfl
  · rw [hport, hlink]; rfl
  · rw [hport, hlink]; rfl
  · rw [hport, hlink]; rfl
  · rw [hport, hlink]; rfl
  · rw [hport, hlink]; rfl
  · rw [hport, hlink]; exact hsent
  · rw [hport, hlink]; exact hover
  · rw [hport, hstray]
  · rw [hport, hlink]; rfl
  · rw [State.settle_out, hout]
    simp [State.relinked, Link.lost, Link.failed]
  · rw [State.settle_relay, hback.backlog]
    exact down_in_backlog hs
  · rw [hport, hlink]

/-! ### The timers (R31, R117, R118, R121) -/

theorem due_running (s : State) (since : BitVec 32) (sinceUs ms : Nat) :
    s.due (.running since sinceUs ms) = true ↔
      1000 * ms ≤ 1000 * (s.milliseconds - since).toNat + s.microseconds - sinceUs + 1000 :=
  decide_eq_true_iff

theorem exec_silenceTimerExpiry_due {s : State} {p : PortId} (h : s.due (s.port p).link.silence = true) :
    exec (.silenceTimerExpiry p) s = .next (s.clearOut.linkLoss p) :=
  congrArg Host.Outcome.next (if_pos h)

theorem exec_silenceTimerExpiry_early {s : State} {p : PortId} (h : ¬s.due (s.port p).link.silence = true) :
    exec (.silenceTimerExpiry p) s = .next { s with out := [] } :=
  congrArg Host.Outcome.next (if_neg h)

theorem exec_trainingTimerExpiry_due {s : State} {p : PortId} (h : s.due (s.port p).link.training = true) :
    exec (.trainingTimerExpiry p) s = .next (s.clearOut.trainingExpires p) :=
  congrArg Host.Outcome.next (if_pos h)

theorem exec_trainingTimerExpiry_early {s : State} {p : PortId} (h : ¬s.due (s.port p).link.training = true) :
    exec (.trainingTimerExpiry p) s = .next { s with out := [] } :=
  congrArg Host.Outcome.next (if_neg h)

theorem clearOut_linkLoss (s : State) (p : PortId) : s.clearOut.linkLoss p =
    ((s.relinked p ((s.port p).link.lost s.milliseconds s.microseconds) (s.withLinkDown p)
      [.frame p Frame.train.wire]).rewind p).settle :=
  linkLoss_eq s.clearOut p

/-- Settles O52. -/
theorem silenceAndTrainingTimersExpire : Obligations.SilenceAndTrainingTimersExpire := by
  refine ⟨fun p since us ms s htimer => ⟨fun hdue hp => ?_, fun hearly => ?_⟩,
    fun p since us ms s htimer => ⟨fun hdue => ⟨fun hst => ?_, fun hst => ?_⟩, fun hearly => ?_⟩⟩
  · have hd : s.due (s.port p).link.silence = true := by rw [htimer, due_running]; exact hdue
    obtain ⟨hlost, hlink⟩ := lost_settle (l := (s.port p).link) hp rfl rfl
    refine ⟨_, (exec_silenceTimerExpiry_due hd).trans (congrArg Host.Outcome.next (clearOut_linkLoss s p)), hlost,
      ?_, ?_⟩
    · rw [hlink]; rfl
    · rw [hlink]; rfl
  · refine exec_silenceTimerExpiry_early ?_
    rw [htimer, due_running]
    omega
  · have hd : s.due (s.port p).link.training = true := by rw [htimer, due_running]; exact hdue
    rw [exec_trainingTimerExpiry_due hd]
    simp only [State.trainingExpires, show (s.clearOut.port p).link.state = .offline from hst]
    rfl
  · have hd : s.due (s.port p).link.training = true := by rw [htimer, due_running]; exact hdue
    refine ⟨_, exec_trainingTimerExpiry_due hd, ?_⟩
    simp only [State.trainingExpires, show (s.clearOut.port p).link.state = .training from hst]
    rw [trainingFailure_eq]
    exact settledAt_settlePort _ p
  · refine exec_trainingTimerExpiry_early ?_
    rw [htimer, due_running]
    omega

end Sys2Proof.Machine

/-! ## PORT_RESET (R129) -/

namespace Sys2Proof.Machine

/-- A port after the reset step of PORT_RESET (R129). -/
def Port.afterReset (x : Port) (now : BitVec 32) (us : Nat) : Port :=
  { x with
    link := { state := .training, credits := 0, badRun := 0, training := .running now us 250, silence := .stopped,
              idle := .stopped, warm := .stopped, onlineSeen := false, framesSent := 0, badFrames := 0, overflows := 0 }
    engine := { x.engine with pacer := none }
    watch := { x.watch with conditions := x.watch.conditions.map fun c => { c with truth := false } }
    stray := 0 }

theorem resetLink_eq (s : State) (p : PortId) : s.resetLink p = { s with
    ports := tset s.ports p ((s.port p).afterReset s.milliseconds s.microseconds)
    out := s.out ++ [.frame p Frame.train.wire] } := by
  simp only [State.resetLink, State.handTrain, State.startTimer, State.hand, State.emit, State.modLink, State.modPort,
    State.setPort, State.port, tget_tset_self, tset_tset]
  rfl

/-- The state that PORT_RESET leaves from a rewound one before the ports settle, with the command record and the answer. -/
def State.wasReset (v : State) (p : PortId) (tag : Tag) : State :=
  ((v.resetLink p).modCtl (Control.recorded 0x14 .done)).ack tag .ok

section Reset
variable {s v : State} {p : PortId} {tag : Tag}

theorem wasReset_eq (v : State) (p : PortId) (tag : Tag) : v.wasReset p tag = { v with
    ports := tset v.ports p ((v.port p).afterReset v.milliseconds v.microseconds)
    ctl := Control.recorded 0x14 .done v.ctl
    out := v.out ++ [.frame p Frame.train.wire] ++ [.ack tag .ok] } := by
  rw [State.wasReset, resetLink_eq]
  rfl

theorem wasReset_port (v : State) (p q : PortId) (tag : Tag) : (v.wasReset p tag).port q =
    if q = p then (v.port p).afterReset v.milliseconds v.microseconds else v.port q := by
  rw [wasReset_eq]
  exact tget_tset v.ports p q _

/-- What is reset after a rewind is nothing of what the rewind settles. -/
theorem AfterRewind.wasReset {before : List Latch} (h : AfterRewind s before v p) :
    AfterRewind s before (v.wasReset p tag) p := by
  have hself : (v.wasReset p tag).port p = (v.port p).afterReset v.milliseconds v.microseconds := by
    rw [wasReset_port, if_pos rfl]
  refine
    { pages := by rw [hself]; exact h.pages, queue := by rw [hself]; exact h.queue
      engine := by rw [hself]; exact congrArg (fun e : Engine => { e with pacer := none }) h.engine
      holdFlag := by rw [hself]; exact h.holdFlag, quiesceHold := by rw [hself]; exact h.quiesceHold
      others := fun q hq => by rw [wasReset_port, if_neg hq]; exact h.others q hq
      account := fun a => ?_, ticket := fun t => ?_, guard := fun b => ?_, backlog := ?_, msp := ?_
      relay := ?_, global := fun hn => ?_, refusals := ?_
      image := ?_, psp := ?_, fetcher := ?_, sweep := ?_
      anchor := ?_, milliseconds := ?_, microseconds := ?_, resetAsserted := ?_ } <;> rw [wasReset_eq]
  exacts [h.account a, h.ticket t, h.guard b, h.backlog, h.msp, h.relay, h.global hn, h.refusals, h.image, h.psp,
    h.fetcher, h.sweep, h.anchor, h.milliseconds, h.microseconds, h.resetAsserted]

/-- A rewind of a port leaves the settings, the ports' side, the fetcher, the sweep and the time base as they were. -/
theorem rewind_keeps (s : State) (p : PortId) : ∃ ports tickets accounts guards msp global backlog,
    s.rewind p = { s with
      ports := ports, tickets := tickets, accounts := accounts, guards := guards, msp := msp
      ctl := { s.ctl with global := global }
      relay := { s.relay with backlog := backlog }
      out := s.out ++ if (s.port p).hasOpenPage && (s.port p).link.state == .ready && (s.port p).engine.job.isSome
        then [.frame p Frame.cut.wire] else [] } := by
  rw [← rewind_out]
  exact ⟨_, _, _, _, _, _, _, (rewind_frame s p).trans (by rw [rewind_frame s p])⟩

theorem exec_portReset {c : CommandWrite} (ht : s.takes 0x14 c) (hp : c.argument.toNat = p.val) :
    exec (.portReset c) s = .next ((s.clearOut.takeCommand 0x14 c.argument c.value.toNat).ack c.tag .ok) ∧
      s.clearOut.perform 0x14 c.argument c.value.toNat = s.clearOut.portReset p := by
  obtain ⟨⟨⟨hopen, hheld⟩, hfree⟩, hcomp⟩ := ht
  refine ⟨congrArg Host.Outcome.next (commandWrite_taken (s := s.clearOut) hopen hheld hfree hcomp), ?_⟩
  show s.clearOut.onPort c.argument s.clearOut.portReset = _
  rw [State.onPort, portArg_eq hp]

end Reset

/-- Settles O47. -/
theorem portResetRetrains : Obligations.PortResetRetrains := by
  intro c p s hp ht
  obtain ⟨hexec, hperform⟩ := exec_portReset ht hp
  refine ⟨fun hst => ?_, fun hst => ?_⟩
  · have hstate : s.clearOut.portReset p = (s.clearOut, .state) := if_pos hst
    rw [hexec, takeCommand_eq (hperform.trans hstate)]
    rfl
  · have hdone : s.clearOut.portReset p = (((s.clearOut.rewind p).resetLink p).settle, .done) := if_neg hst
    have hu : settled ((s.clearOut.rewind p).wasReset p c.tag) _ := takeCommand_settled c.tag (hperform.trans hdone)
    refine ⟨_, hexec, ?_⟩
    generalize (s.clearOut.takeCommand 0x14 c.argument c.value.toNat).ack c.tag .ok = u at hu
    have hback := afterRewind_rewind (s := s.clearOut) (p := p)
    have hself := rewind_port s.clearOut p p
    rw [if_pos rfl] at hself
    have hothers (q : PortId) (hq : q ≠ p) : (s.clearOut.rewind p).port q = s.port q := by
      rw [rewind_port, if_neg hq]
      rfl
    obtain ⟨ports, tickets, accounts, guards, msp, global, backlog, hkeeps⟩ := rewind_keeps s.clearOut p
    generalize s.clearOut.rewind p = v at *
    have hreset : (v.wasReset p c.tag).port p = (v.port p).afterReset s.milliseconds s.microseconds := by
      rw [wasReset_port, if_pos rfl, hkeeps]
      rfl
    rw [hself] at hreset
    have hidle : ((v.wasReset p c.tag).port p).link.idle = .stopped := by rw [hreset]; rfl
    have hport : u.port p = (v.wasReset p c.tag).port p :=
      jammedPort_settled hu (by rw [hreset]; rfl) (by rw [hreset]; rfl) hidle
    have hstill := hu.1
    rw [hreset] at hport
    refine ⟨by rw [hport]; rfl, by rw [hport]; rfl, by rw [hport]; rfl, by rw [hport]; rfl, by rw [hport]; rfl,
      by rw [hport]; rfl, by rw [hport]; rfl, fun k => ?_, fun q hq => ?_,
      fun hhand => (hback hhand).wasReset.rewound hu hidle, ?_⟩
    · have hcond : (tget (u.port p).watch.conditions k) =
          { tget (s.port p).watch.conditions k with truth := false } := by
        rw [hport]
        exact tget_map _ _ k
      rw [hcond]
      exact ⟨rfl, rfl⟩
    · rw [State.port_still hstill, wasReset_port, if_neg hq, hothers q hq]
    · rw [State.out_of_still hstill, State.image_of_still hstill, State.psp_of_still hstill,
        State.fetcher_of_still hstill, State.sweep_of_still hstill, State.relay_of_still hstill,
        State.ctl_of_still hstill, wasReset_eq, hkeeps]
      exact ⟨List.append_assoc _ _ _, rfl, rfl, rfl, rfl, rfl, rfl⟩

end Sys2Proof.Machine

/-! ## The CRC and the judging of received frames (R114, R184) -/

namespace Sys2Proof.Machine

/-! ### The register bit by bit -/

/-- A bit of byte `j` enters the register. -/
theorem crcRegister_bit (bytes : List Byte) (j i : Nat) (hi : i < 8) : crcRegister bytes (8 * j + i + 1) =
    crcBit (crcRegister bytes (8 * j + i)) ((bytes.getD j 0).getLsbD (7 - i)) := by
  have hbyte : (8 * j + i) / 8 = j := by omega
  have hplace : (8 * j + i) % 8 = i := by omega
  rw [crcRegister, hbyte, hplace]
  rfl

/-- The first bits of byte `j` enter the register, the most significant first. -/
theorem crcRegister_bits (bytes : List Byte) (j i : Nat) (hi : i ≤ 8) : crcRegister bytes (8 * j + i) =
    (List.range i).foldl (fun r k => crcBit r ((bytes.getD j 0).getLsbD (7 - k))) (crcRegister bytes (8 * j)) := by
  induction i with
  | zero => rfl
  | succ i ih =>
    rw [List.range_succ, List.foldl_append, ← ih (Nat.le_of_succ_le hi)]
    exact crcRegister_bit bytes j i hi

/-- Eight bits are a byte. -/
theorem crcRegister_byte (bytes : List Byte) (j : Nat) : crcRegister bytes (8 * (j + 1)) =
    crcByte (crcRegister bytes (8 * j)) (bytes.getD j 0) := by
  rw [crcByte_bits]
  exact crcRegister_bits bytes j 8 (Nat.le_refl 8)

/-- The register reads nothing of the bytes after the bits it has taken. -/
theorem crcRegister_append (body rest : List Byte) (j : Nat) (hj : j ≤ body.length) :
    crcRegister (body ++ rest) (8 * j) = crcRegister body (8 * j) := by
  induction j with
  | zero => rfl
  | succ j ih =>
    rw [crcRegister_byte, crcRegister_byte, ih (Nat.le_of_succ_le hj), List.getD_append _ _ _ _ hj]

theorem crcRegister_length (body : List Byte) : crcRegister body (8 * body.length) = crc body := by
  induction body using List.reverseRecOn with
  | nil => rfl
  | append_singleton body b ih =>
    rw [List.length_append, List.length_singleton, crcRegister_byte, crcRegister_append body [b] _ (Nat.le_refl _), ih,
      crc_snoc, List.getD_append_right _ _ _ _ (Nat.le_refl _), Nat.sub_self]
    rfl

theorem checkBytes_eq (body : List Byte) : checkBytes body = leBytes 2 (crc body).toNat := by
  rw [leBytes_two, ← crcRegister_length]
  rfl

theorem onWire_eq (body : List Byte) : onWire body = closeFrame body :=
  congrArg (body ++ ·) (checkBytes_eq body)

/-! ### When a frame is bad -/

/-- A kind byte that is none of an inbound frame's, a length that is not its kind's, or TRAIN_ACK credits out of range. -/
def malformed (bytes : List Byte) : Prop :=
  (bytes.head? ≠ some 0x81#8 ∧ bytes.head? ≠ some 0x82#8 ∧ bytes.head? ≠ some 0x83#8) ∨
    (bytes.head? = some 0x81#8 ∧ bytes.length ≠ 4) ∨ (bytes.head? = some 0x82#8 ∧ bytes.length ≠ 4) ∨
    (bytes.head? = some 0x83#8 ∧ bytes.length ≠ 6) ∨
    (bytes.head? = some 0x81#8 ∧ ∃ n, bytes[1]? = some n ∧ (n.toNat = 0 ∨ 32 < n.toNat))

theorem malformed_cons (k : Byte) (bytes : List Byte) : malformed (k :: bytes) ↔
    (k = 0x81#8 → bytes.length ≠ 3 ∨ ∃ n, bytes[0]? = some n ∧ (n.toNat = 0 ∨ 32 < n.toNat)) ∧
    (k = 0x82#8 → bytes.length ≠ 3) ∧ (k = 0x83#8 → bytes.length ≠ 5) := by
  have hdistinct : (0x81#8 ≠ 0x82#8 ∧ 0x81#8 ≠ 0x83#8) ∧ 0x82#8 ≠ 0x83#8 := by decide
  simp only [malformed, List.head?_cons, Option.some.injEq, List.length_cons, List.getElem?_cons_succ]
  grind

/-- A body that its CRC closes is a bad frame's exactly when the frame is malformed: by the length of the body. -/
theorem judgeBody_bad_iff_malformed (body : List Byte) :
    judgeBody body = .bad ↔ malformed (closeFrame body) := by
  rw [judgeBody_bad_iff]
  rcases body with _ | ⟨k, _ | ⟨n, _ | ⟨hi, _ | ⟨m, _ | ⟨x, xs⟩⟩⟩⟩⟩
  case nil => simp [malformed, closeFrame, crc, leBytes]
  all_goals simp [closeFrame, leBytes, malformed_cons]
  case cons.cons.nil => exact fun _ => imp_congr_right fun _ => by omega

theorem judgeFrame_bad_iff (bytes : List Byte) : judgeFrame bytes = .bad ↔
    bytes.drop (bytes.length - 2) ≠ checkBytes (bytes.take (bytes.length - 2)) ∨ malformed bytes := by
  rw [checkBytes_eq]
  by_cases hcrc : bytes.drop (bytes.length - 2) = leBytes 2 (crc (bytes.take (bytes.length - 2))).toNat
  · have hbytes : closeFrame (bytes.take (bytes.length - 2)) = bytes := by
      rw [closeFrame, ← hcrc, List.take_append_drop]
    generalize bytes.take (bytes.length - 2) = body at *
    rw [← hbytes, judgeFrame_closeFrame, judgeBody_bad_iff_malformed, hbytes]
    exact ⟨Or.inr, fun h => h.resolve_left (not_not_intro hcrc)⟩
  · exact ⟨fun _ => .inl hcrc, fun _ => judgeFrame_wrongCrc hcrc⟩

/-! ### The good frames -/

/-- The rows TRAIN_ACK, CREDIT and STATUS are the frames on the wire of their kind bytes. -/
theorem trainAckBytes_eq (n : Byte) : trainAckBytes n = onWire [0x81, n] := (onWire_eq _).symm

theorem creditBytes_eq (n : Byte) : creditBytes n = onWire [0x82, n] := (onWire_eq _).symm

theorem status_bits (lo hi : Byte) : leBytes 2 (hi ++ lo).toNat = [lo, hi] := by
  rw [leBytes_two, BitVec.extractLsb'_append_eq_of_add_le (by decide), BitVec.extractLsb'_append_eq_of_le (by decide),
    BitVec.extractLsb'_eq_self, BitVec.extractLsb'_eq_self]

theorem statusBytes_eq (lo hi n : Byte) : statusBytes (hi ++ lo) n = onWire [0x83, lo, hi, n] := by
  rw [onWire_eq, statusBytes, status_bits]
  rfl

theorem leNat_status (lo hi : Byte) : BitVec.ofNat 16 (leNat [lo, hi]) = hi ++ lo := by
  rw [← status_bits, leNat_leBytes]
  exact BitVec.eq_of_toNat_eq (by simpa using (hi ++ lo).isLt)

end Sys2Proof.Machine

/-! ## Bad frames (R114) -/

namespace Sys2Proof.Machine

/-- A link that has dropped a bad frame, with its consecutive-bad count (R114). -/
def Link.afterBad (l : Link) (run : Nat) : Link := { l with badFrames := l.badFrames + 1, badRun := run }

/-- The state after a bad frame is counted. -/
def State.countedBad (s : State) (p : PortId) (run : Nat) : State := s.modLink p fun l => l.afterBad run

section BadFrame
variable {s : State} {p : PortId}

theorem countedBad_port (s : State) (p : PortId) (run : Nat) :
    (s.countedBad p run).port p = { s.port p with link := (s.port p).link.afterBad run } := by
  rw [State.countedBad, State.modLink, State.port_modPort, if_pos rfl]

theorem takeBadFrame_first (h : (s.port p).link.badRun ≠ 7) :
    s.takeBadFrame p = s.countedBad p ((s.port p).link.badRun + 1) := by
  have hrun : ¬(s.port p).link.badRun + 1 = 8 := by omega
  simp only [State.takeBadFrame, if_neg hrun]
  rfl

theorem takeBadFrame_eighth (h : (s.port p).link.badRun = 7) : s.takeBadFrame p =
    match (s.port p).link.state with
    | .ready | .waking | .drowsy => (s.countedBad p 0).linkLoss p
    | .training => ((s.countedBad p 0).trainingFailure p).settlePort p
    | _ => s.countedBad p 0 := by
  have hstate : ((s.countedBad p 0).port p).link.state = (s.port p).link.state := by rw [countedBad_port]; rfl
  rw [← hstate]
  simp only [State.takeBadFrame, h, if_true]
  rfl

theorem countedBad_withLinkDown (s : State) (p : PortId) (run : Nat) :
    (s.countedBad p run).withLinkDown p = s.withLinkDown p := by
  rw [State.withLinkDown, State.inHand, countedBad_port]
  rfl

theorem countedBad_relinked (s : State) (p : PortId) (run : Nat) (l : Link) (before : List Latch) (out : List Output) :
    (s.countedBad p run).relinked p l before out = s.relinked p l before out := by
  simp only [State.relinked, State.countedBad, State.modLink, State.modPort, State.setPort, State.port, tget_tset_self,
    tset_tset]

/-- The link loss of an eighth bad frame is over the state before the frame, with the frame counted in the link. -/
theorem countedBad_linkLoss (s : State) (p : PortId) (run : Nat) : (s.countedBad p run).linkLoss p =
    ((s.relinked p (((s.port p).link.afterBad run).lost s.milliseconds s.microseconds) (s.withLinkDown p)
      (s.out ++ [.frame p Frame.train.wire])).rewind p).settle := by
  rw [linkLoss_eq, countedBad_relinked, countedBad_withLinkDown, countedBad_port]
  rfl

theorem clearOut_countedBad_linkLoss (s : State) (p : PortId) (run : Nat) : (s.clearOut.countedBad p run).linkLoss p =
    ((s.relinked p (((s.port p).link.afterBad run).lost s.milliseconds s.microseconds) (s.withLinkDown p)
      [.frame p Frame.train.wire]).rewind p).settle :=
  countedBad_linkLoss s.clearOut p run

theorem exec_badFrame {bytes : List Byte} (hb : judgeFrame bytes = .bad) (hst : (s.port p).link.state ≠ .disabled) :
    exec (.badFrame p bytes) s = .next (s.clearOut.takeBadFrame p) :=
  congrArg Host.Outcome.next (receive_bad (s := s.clearOut) hst hb)

theorem exec_badFrame_closed (bytes : List Byte) (hst : (s.port p).link.state = .disabled) :
    exec (.badFrame p bytes) s = .next { s with out := [] } :=
  congrArg Host.Outcome.next (receive_closed s.clearOut p bytes hst)

end BadFrame

/-- Settles O51. -/
theorem badFramesAreCounted : Obligations.BadFramesAreCounted := by
  refine ⟨judgeFrame_bad_iff, fun p n lo hi s => ⟨fun hlow hhigh => ?_, ?_, ?_, ?_, ?_, ?_⟩,
    fun p bytes s hb => ⟨exec_badFrame_closed bytes, fun hst hrun => ?_, fun hst hrun => ?_, fun hst hrun => ?_,
      fun hst hrun hp => ?_⟩⟩
  · rw [onWire_eq, judgeFrame_closeFrame]
    exact if_pos ⟨rfl, hlow, hhigh⟩
  · rw [onWire_eq, judgeFrame_closeFrame]
    rfl
  · rw [onWire_eq, judgeFrame_closeFrame, ← leNat_status]
    rfl
  · rw [← trainAckBytes_eq]
    rfl
  · rw [← creditBytes_eq]
    rfl
  · rw [← statusBytes_eq]
    rfl
  · rw [exec_badFrame hb hst, takeBadFrame_first (s := s.clearOut) hrun]
    rfl
  · rw [exec_badFrame hb (by rw [hst]; decide), takeBadFrame_eighth (s := s.clearOut) hrun]
    simp only [show (s.clearOut.port p).link.state = .offline from hst]
    rfl
  · refine ⟨_, exec_badFrame hb (by rw [hst]; decide), ?_⟩
    rw [takeBadFrame_eighth (s := s.clearOut) hrun]
    simp only [show (s.clearOut.port p).link.state = .training from hst]
    rw [trainingFailure_eq, countedBad_withLinkDown]
    exact settledAt_settlePort _ p
  · have hup : (s.port p).link.state ≠ .disabled := by
      rintro hd
      rw [hd] at hst
      simp at hst
    have hloss : s.clearOut.takeBadFrame p = (s.clearOut.countedBad p 0).linkLoss p := by
      rw [takeBadFrame_eighth (s := s.clearOut) hrun]
      obtain hst | hst | hst := hst <;> simp only [show (s.clearOut.port p).link.state = _ from hst]
    obtain ⟨hlost, hlink⟩ := lost_settle (l := (s.port p).link.afterBad 0) hp rfl rfl
    refine ⟨_, (exec_badFrame hb hup).trans (congrArg Host.Outcome.next (hloss.trans (clearOut_countedBad_linkLoss s p 0))), hlost,
      ?_, ?_⟩
    · rw [hlink]; rfl
    · rw [hlink]; rfl

end Sys2Proof.Machine

/-! ## The queue and the time base (R20, R31, R33, R112) -/

namespace Sys2Proof.Machine

/-- Settles O1. -/
theorem stepRunsTheFrontCommand : Obligations.StepRunsTheFrontCommand := fun _ _ _ => rfl

theorem step_empty {s : State} (h : s.pending = []) : step s = .next s.clearOut.unprompted := by
  rw [step, h]

theorem windowDue_iff (s : State) (w : PacerWindow) : s.windowDue w = true ↔
    w.lengthUs ≤ 1000 * (s.milliseconds - w.since).toNat + s.microseconds - w.sinceUs + 1 :=
  decide_eq_true_iff

/-- The pacing window's end, once due: the window is gone and the port settles (R112). -/
theorem exec_pacingWindowEnd_due {s : State} {p : PortId} {w : PacerWindow} (hw : (s.port p).engine.pacer = some w)
    (h : s.windowDue w = true) : exec (.pacingWindowEnd p) s =
      .next ((s.clearOut.modEngine p fun e => { e with pacer := none }).settlePort p) := by
  have hdue : s.clearOut.paceDue p = true := by
    rw [State.paceDue, State.port_clearOut, hw]
    exact h
  exact congrArg Host.Outcome.next (if_pos hdue)

theorem exec_pacingWindowEnd_early {s : State} {p : PortId}
    (h : ∀ w, (s.port p).engine.pacer = some w → ¬s.windowDue w = true) :
    exec (.pacingWindowEnd p) s = .next { s with out := [] } := by
  have hearly : ¬s.clearOut.paceDue p = true := by
    rw [State.paceDue, State.port_clearOut, Option.any_eq_true]
    rintro ⟨w, hw, hdue⟩
    exact h w hw hdue
  exact congrArg Host.Outcome.next (if_neg hearly)

/-- Settles O5. -/
theorem theTimeBaseRuns : Obligations.TheTimeBaseRuns := by
  refine ⟨fun s => ⟨fun hrun => ?_, fun hheld => ?_⟩, fun s hpending hidle => ⟨fun hrun => ?_, fun hheld => ?_⟩,
    fun p s => ⟨fun w hw hdue => ?_, fun hearly => ?_⟩⟩
  · exact congrArg Host.Outcome.next (tick_released (s := s.clearOut) hrun)
  · exact congrArg Host.Outcome.next (tick_held (s := s.clearOut) hheld)
  · rw [step_empty hpending, unprompted_idle (s := s.clearOut) hidle, idle_released (s := s.clearOut) hrun]
    rfl
  · rw [step_empty hpending, unprompted_idle (s := s.clearOut) hidle, idle_held (s := s.clearOut) hheld]
    rfl
  · exact ⟨_, exec_pacingWindowEnd_due hw ((windowDue_iff s w).2 hdue), settledAt_settlePort _ p⟩
  · refine exec_pacingWindowEnd_early fun w hw => ?_
    rw [windowDue_iff]
    exact Nat.not_le.2 (hearly w hw)

end Sys2Proof.Machine

/-! ## The release of RESET_N and the sweep's lines (R19 to R22, R185) -/

namespace Sys2Proof.Machine

/-! ### The lines with setting bytes -/

/-- The sweep's lines are the 28 lines from the first one with setting bytes on. -/
theorem sweepLines_eq : sweepLines = (List.range 28).map fun i => 64 * (i + 4) := by decide

theorem mem_sweepLines (k : Nat) : 64 * k ∈ sweepLines ↔ 4 ≤ k ∧ k < 32 := by
  rw [sweepLines_eq, List.mem_map]
  constructor
  · rintro ⟨i, hi, he⟩
    have := List.mem_range.1 hi
    omega
  · rintro ⟨hlo, hhi⟩
    exact ⟨k - 4, List.mem_range.2 (by omega), by omega⟩

theorem offsetOf_in_lines (loc : SettingLoc) : 0x100 ≤ offsetOf loc ∧ offsetOf loc < 0x800 := by
  cases loc with
  | ticketWindow | meterWindow | spoolWindow | ring | consume => decide
  | markRule | pacing | port | condition | account => simp only [offsetOf]; omega

/-- Every line of the sweep begins with a setting word. -/
theorem sweepLine_begins : ∀ off ∈ sweepLines, (settingAt off).isSome = true := by decide

theorem sweepLine_iff (k : Nat) :
    64 * k ∈ sweepLines ↔ ∃ i < 8, (settingAt (64 * k + 8 * i)).isSome = true := by
  refine ⟨fun h => ⟨0, by decide, sweepLine_begins _ h⟩, ?_⟩
  rintro ⟨i, hi, hs⟩
  obtain ⟨loc, hloc⟩ := Option.isSome_iff_exists.1 hs
  have he := (settingAt_iff (by omega) loc).1 hloc
  have hb := offsetOf_in_lines loc
  exact (mem_sweepLines k).2 (by omega)

/-! ### The words of a line -/

/-- Block `i` of blocks of one length laid end to end. -/
theorem block_flatMap {α β : Type} {f : α → List β} {n : Nat} (hf : ∀ a, (f a).length = n) (l : List α) {i : Nat}
    (hi : i < l.length) : ((l.flatMap f).drop (n * i)).take n = f l[i] := by
  induction l generalizing i with
  | nil => exact absurd hi (Nat.not_lt_zero i)
  | cons a l ih =>
    rw [List.flatMap_cons]
    cases i with
    | zero => rw [Nat.mul_zero, List.drop_zero, List.take_left' (hf a)]; rfl
    | succ i =>
      rw [Nat.mul_succ, Nat.add_comm, ← List.drop_drop, List.drop_left' (hf a)]
      exact ih (Nat.lt_of_succ_lt_succ hi)

theorem sweepEnables_length (off : Nat) : (sweepEnables off).length = 8 := List.length_replicate

theorem sweepData_length (off : Nat) : (sweepData off).length = 8 := by
  unfold sweepData
  split
  case h_1 loc _ => exact leBytes_length 8 _
  case h_2 => rfl

/-- A word of the sweep write of a line: enabled when it is a setting word, and carrying its default value (R21, R22). -/
theorem sweepRequest_word (s : State) (off : Nat) {i : Nat} (hi : i < 8) :
    ((s.sweepRequest off).enables.drop (8 * i)).take 8 = sweepEnables (off + 8 * i) ∧
      ((s.sweepRequest off).data.drop (8 * i)).take 8 = sweepData (off + 8 * i) := by
  have hlen : i < (wordAddrs off 8).length := by rwa [wordAddrs, List.length_map, List.length_range]
  have hget : (wordAddrs off 8)[i] = off + 8 * i := by simp only [wordAddrs, List.getElem_map, List.getElem_range]
  refine ⟨(block_flatMap sweepEnables_length _ hlen).trans ?_, (block_flatMap sweepData_length _ hlen).trans ?_⟩ <;>
    rw [hget]

/-! ### The release -/

/-- The first line's sweep write: the three window words at their default 0. -/
theorem sweepRequest_first (s : State) : s.sweepRequest 0x100 =
    ⟨.sweep, true, s.anchor.toNat * 65536 + 0x100, 64, List.replicate 24 true ++ List.replicate 40 false,
      List.replicate 64 0⟩ := by
  have he : (wordAddrs 0x100 8).flatMap sweepEnables = List.replicate 24 true ++ List.replicate 40 false := by decide
  have hd : (wordAddrs 0x100 8).flatMap sweepData = List.replicate 64 0 := by decide
  rw [State.sweepRequest, he, hd]
  rfl

theorem presentSweep_first {s : State} (h : s.sweep.presented = 0) : s.presentSweep =
    { s with
      sweep := { s.sweep with presented := 1 }
      msp := { s.msp with waiting := s.msp.waiting ++ [s.sweepRequest 0x100] } } := by
  rw [State.presentSweep, h]
  rfl

/-- Settles O3. -/
theorem releaseStartsTheSweep : Obligations.ReleaseStartsTheSweep := by
  refine ⟨fun a s => ⟨fun hheld hnone => ?_, fun hrun => ?_⟩, ?_, ?_, fun k _ => sweepLine_iff k, fun s off _ i hi => ?_⟩
  · have hpresent := presentSweep_first (s := { s.clearOut with resetAsserted := false, anchor := a }) hnone
    rw [sweepRequest_first] at hpresent
    exact congrArg Host.Outcome.next ((if_pos hheld).trans hpresent)
  · exact congrArg Host.Outcome.next (if_neg (Bool.not_eq_true _ ▸ hrun))
  · rw [sweepLines_eq, List.length_map, List.length_range]
  · rw [sweepLines_eq, List.pairwise_map]
    exact List.pairwise_lt_range.imp fun h => by omega
  · exact ⟨rfl, sweepRequest_word s off hi⟩

end Sys2Proof.Machine

/-! ## START and STOP (R36, R37, R75) -/

namespace Sys2Proof.Machine

/-- Settling the ports neither enters nor leaves JAM_STOP (R145). -/
theorem settled_jamStop {v u : State} (h : settled v u) (p : PortId) :
    (u.port p).engine.state = .jamStop ↔ (v.port p).engine.state = .jamStop :=
  Port.jamStop_of_still (State.port_still h.1 p)

/-- A taken command that moves the global state to `g` and every quiesce hold to `b`, and then settles the ports. -/
theorem exec_quiesce {i : Instr} {c : CommandWrite} {s : State} {code : Byte} {g : GlobalState} {b : Bool}
    (hi : exec i s = .next (s.clearOut.commandWrite code c)) (ht : s.takes code c)
    (hperform : s.clearOut.perform code c.argument c.value.toNat =
      (((s.clearOut.modCtl fun x => { x with global := g }).setQuiesceHolds b).settle, .done)) :
    ∃ t, exec i s = .next t ∧ settled { s with
      ctl := { s.ctl with global := g, lastCode := code, lastResult := .done, taken := s.ctl.taken + 1 }
      ports := s.ports.map fun x => { x with quiesceHold := b }
      out := [.ack c.tag .ok] } t ∧
      ∀ p, (s.port p).engine.state = .jamStop → (t.port p).engine.state = .jamStop := by
  obtain ⟨⟨⟨hopen, hheld⟩, hfree⟩, hcomp⟩ := ht
  have hu := takeCommand_settled c.tag hperform
  refine ⟨_, hi.trans (congrArg Host.Outcome.next (commandWrite_taken (s := s.clearOut) hopen hheld hfree hcomp)), hu,
    fun p hjam => (settled_jamStop hu p).2 ?_⟩
  show (tget (s.ports.map fun x : Port => { x with quiesceHold := b }) p).engine.state = .jamStop
  rw [tget_map]
  exact hjam

/-- Settles O19. -/
theorem startAndStopMoveTheGlobalState : Obligations.StartAndStopMoveTheGlobalState := by
  refine ⟨fun c s ht => exec_quiesce (code := 0x01) rfl ht rfl, fun c s ht => ⟨fun hrun => ?_, fun hrun => ?_⟩⟩
  · refine exec_quiesce (code := 0x02) rfl ht ?_
    show s.clearOut.commandStop = _
    rw [State.commandStop, show s.clearOut.ctl.global = .running from hrun]
    rfl
  · have hstop : s.clearOut.commandStop = (s.clearOut, .done) := by
      unfold State.commandStop
      split
      case h_1 e => exact absurd e hrun
      case h_2 | h_3 => rfl
    obtain ⟨⟨⟨hopen, hheld⟩, hfree⟩, hcomp⟩ := ht
    refine (congrArg Host.Outcome.next (commandWrite_taken (s := s.clearOut) hopen hheld hfree hcomp)).trans ?_
    rw [takeCommand_eq (s := s.clearOut) (code := 0x02#8) (arg := c.argument) (value := c.value.toNat) hstop]
    rfl

end Sys2Proof.Machine

/-! ## The idle and warm timers (R69, R121, R124, R127, R145 to R147) -/

namespace Sys2Proof.Machine

/-- Settling a port that has no reason to drowse afterwards does not read its idle timer (R123). -/
theorem settles_modIdle {acts : PortId → Prop} {v u : State} {p : PortId} (h : settles acts v u) (hp : acts p)
    (hawake : ¬u.drowsing p) (t : Timer) : settles acts (v.modLink p fun l => { l with idle := t }) u := by
  obtain ⟨hstill, ⟨hfetches, hports⟩, hsettled⟩ := h
  have hsame : (v.modLink p fun l => { l with idle := t }).still = v.still := still_modPort v p _ rfl
  have hengine (q : PortId) : ((v.modLink p fun l => { l with idle := t }).port q).engine = (v.port q).engine := by
    rw [State.port_modLink]
    split
    case isTrue e => rw [e]
    case isFalse => rfl
  have hhand (q : PortId) : (v.modLink p fun l => { l with idle := t }).inHand q = v.inHand q := by
    rw [State.inHand, hengine, State.inHand]
  refine ⟨hstill.trans hsame.symm, ⟨⟨hfetches.1, ?_⟩, ?_⟩, fun q => ⟨fun hq => ⟨?_, ?_⟩, fun hq => ?_⟩⟩
  · simp only [hhand]
    exact hfetches.2
  · simp only [hhand, hengine]
    exact hports
  · rw [judged_of_all_still hsame]
    exact ((hsettled q).1 hq).1
  · by_cases e : q = p
    · subst e
      exact ⟨fun hd => absurd hd hawake, ((hsettled q).1 hp).2.2⟩
    · rw [idleFollows, State.port_modLink_ne _ _ _ e]
      exact ((hsettled q).1 hq).2
  · have e : q ≠ p := fun e => hq (e ▸ hp)
    rw [State.port_modLink_ne _ _ _ e]
    exact (hsettled q).2 hq

/-! ### The idle timer (R69, R123, R124) -/

theorem dispatchOpen_iff (s : State) (p : PortId) : s.dispatchOpen p = true ↔ s.dispatches p := by
  simp only [State.dispatchOpen, State.dispatches, Bool.and_eq_true, beq_iff_eq, Bool.not_eq_true', and_assoc]

theorem startable_iff (s : State) (t : Slot) : s.startable t = true ↔ s.canStart t := by
  unfold State.startable State.canStart
  cases h : (s.ticket t).mirror with
  | none => simp
  | some m => simp [grants_iff]

/-- Dispatch has a wake cause when it may act and a startable ticket is queued (R69). -/
theorem wakeWanted_iff (s : State) (p : PortId) :
    s.wakeWanted p = true ↔ s.dispatches p ∧ ∃ e ∈ (s.port p).queue, s.canStart e.slot := by
  simp only [State.wakeWanted, State.firstStartable, Bool.and_eq_true, dispatchOpen_iff, Option.isSome_map,
    List.find?_isSome, startable_iff]

theorem exec_idleTimerExpiry_due {s : State} {p : PortId} (h : s.due (s.port p).link.idle = true) :
    exec (.idleTimerExpiry p) s = .next (s.clearOut.idleExpires p) :=
  congrArg Host.Outcome.next (if_pos h)

theorem exec_idleTimerExpiry_early {s : State} {p : PortId} (h : ¬s.due (s.port p).link.idle = true) :
    exec (.idleTimerExpiry p) s = .next { s with out := [] } :=
  congrArg Host.Outcome.next (if_neg h)

theorem idleExpires_wake {s : State} {p : PortId} (h : s.wakeWanted p = true) :
    s.idleExpires p = (s.modLink p fun l => { l with idle := .stopped }).settlePort p :=
  if_pos h

/-- DROWSE handed, the link DROWSY, the idle and silence timers stopped (R124). -/
def State.drowsed (s : State) (p : PortId) : State :=
  (s.modLink p fun l => { l with state := .drowsy, idle := .stopped, silence := .stopped }).hand p .drowse

theorem idleExpires_drowse {s : State} {p : PortId} (h : ¬s.wakeWanted p = true) :
    s.idleExpires p = (s.drowsed p).settlePort p :=
  if_neg h

theorem drowsed_link (s : State) (p : PortId) : ((s.drowsed p).port p).link.state ≠ .ready := by
  rw [State.drowsed, State.hand, State.port_emit, State.port_modLink_self]
  nofun

/-- The same but for the idle timer, put back as it ran. -/
theorem drowsed_running (s : State) (p : PortId) :
    ((s.clearOut.drowsed p).modLink p fun l => { l with idle := (s.port p).link.idle }) =
      { s.modLink p fun l => { l with state := .drowsy, silence := .stopped } with
        out := [.frame p Frame.drowse.wire] } := by
  simp only [State.drowsed, State.hand, State.emit, State.modLink, State.modPort, State.setPort, State.port,
    tget_tset_self, tset_tset]
  rfl

/-- A port whose link is not READY has no reason to drowse, before or after the ports settle (R123). -/
theorem awake_of_link {acts : PortId → Prop} {v u : State} {p : PortId} (h : settles acts v u)
    (hlink : (v.port p).link.state ≠ .ready) : ¬u.drowsing p := fun hd =>
  hlink ((Port.state_of_still (State.port_still h.1 p)).symm.trans hd.1)

/-! ### The warm timer (R121, R127) -/

theorem warmDue_running (s : State) (since : BitVec 32) (sinceUs ms : Nat) :
    s.warmDue (.running since sinceUs ms) = true ↔
      1000 * ms ≤ 1000 * (s.milliseconds - since).toNat + s.microseconds - sinceUs + 1000 :=
  decide_eq_true_iff

theorem exec_warmTimerExpiry_due {s : State} {p : PortId} (h : s.warmDue (s.port p).link.warm = true) :
    exec (.warmTimerExpiry p) s = .next (s.clearOut.warmExpires p) :=
  congrArg Host.Outcome.next (if_pos h)

theorem exec_warmTimerExpiry_early {s : State} {p : PortId} (h : ¬s.warmDue (s.port p).link.warm = true) :
    exec (.warmTimerExpiry p) s = .next { s with out := [] } :=
  congrArg Host.Outcome.next (if_neg h)

/-- The warm timer expired, and the silence timer started (R121, R127). -/
def State.warmed (s : State) (p : PortId) : State :=
  s.modLink p fun l =>
    { l with warm := .expired, silence := .running s.milliseconds s.microseconds (portSilenceMs (s.portWord p)) }

theorem warmExpires_eq (s : State) (p : PortId) : s.warmExpires p =
    if (s.port p).link.onlineSeen then (s.warmed p).becomeReady p else s.warmed p := by
  have hwarmed : (s.modLink p fun l => { l with warm := .expired }).startSilence p = s.warmed p := by
    simp only [State.startSilence, State.startTimer, State.warmed, State.modLink, State.modPort, State.setPort,
      State.port, tget_tset_self, tset_tset]
    rfl
  rw [State.warmExpires, hwarmed, State.warmed, State.port_modLink_self]

/-! ### The link becomes READY (R127, R145 to R147) -/

/-- The jam stop of a READY port is over exactly when the port may resume (R146, R147). -/
theorem jamStopOver_iff {x : Port} (h : x.link.state = .ready) : x.jamStopOver = true ↔ x.mayResume := by
  simp only [Port.jamStopOver, Port.mayResume, h, Bool.and_eq_true, Bool.or_eq_true, beq_iff_eq, Bool.not_eq_true',
    and_true, and_assoc]

theorem judgeJamStop_over {s : State} {p : PortId} (h : (s.port p).jamStopOver = true) :
    s.judgeJamStop p = s.modEngine p fun e => { e with state := .idle, consent := false } :=
  if_pos h

theorem judgeJamStop_stays {s : State} {p : PortId} (h : ¬(s.port p).jamStopOver = true) : s.judgeJamStop p = s :=
  if_neg h

/-- A READY port's jam stop judged, and then ports settled: the stop ends exactly when its condition holds. -/
theorem becameReady_of_settles {acts : PortId → Prop} {v u : State} {p : PortId} (hlink : (v.port p).link.state = .ready)
    (hu : settles acts (v.judgeJamStop p) u) : becameReady acts v u p := by
  refine ⟨fun hmay => ?_, fun hmay => ?_⟩
  · rw [judgeJamStop_over ((jamStopOver_iff hlink).2 hmay)] at hu
    refine ⟨hu, fun hjam => ?_⟩
    have hidle := (Port.jamStop_of_still (State.port_still hu.1 p)).1 hjam
    rw [State.port_modEngine_self] at hidle
    exact EngineState.noConfusion hidle
  · rw [judgeJamStop_stays fun hover => hmay ((jamStopOver_iff hlink).1 hover)] at hu
    exact ⟨hu, Port.jamStop_of_still (State.port_still hu.1 p)⟩

theorem becameReady_becomeReady (s : State) (p : PortId) :
    becameReady (· = p) (s.modLink p fun l => { l with state := .ready }) (s.becomeReady p) p :=
  becameReady_of_settles (by rw [State.port_modLink_self]) (settledAt_settlePort _ p)

/-- Settles O53. -/
theorem idleAndWarmTimersExpire : Obligations.IdleAndWarmTimersExpire := by
  refine ⟨fun p since us ms s htimer => ⟨fun hdue hno => ?_, fun hdue hwake => ?_, fun hearly => ?_⟩,
    fun p since us ms s htimer => ⟨fun hdue => ⟨fun hseen => ?_, fun hseen => ?_⟩, fun hearly => ?_⟩⟩
  · have hd : s.due (s.port p).link.idle = true := by rw [htimer, due_running]; exact hdue
    have hno : ¬s.clearOut.wakeWanted p = true := fun h => hno ((wakeWanted_iff s p).1 h)
    refine ⟨_, (exec_idleTimerExpiry_due hd).trans (congrArg Host.Outcome.next (idleExpires_drowse hno)), ?_⟩
    have hu : settledAt p (s.clearOut.drowsed p) ((s.clearOut.drowsed p).settlePort p) := settledAt_settlePort _ p
    have hasleep := awake_of_link hu (drowsed_link s.clearOut p)
    refine ⟨((hu.2.2 p).1 rfl).2.2 hasleep, ?_⟩
    rw [← drowsed_running s p]
    exact settles_modIdle hu rfl hasleep _
  · have hd : s.due (s.port p).link.idle = true := by rw [htimer, due_running]; exact hdue
    exact ⟨_, (exec_idleTimerExpiry_due hd).trans (congrArg Host.Outcome.next
      (idleExpires_wake (s := s.clearOut) ((wakeWanted_iff s p).2 hwake))), settledAt_settlePort _ p⟩
  · refine exec_idleTimerExpiry_early ?_
    rw [htimer, due_running]
    omega
  · have hd : s.warmDue (s.port p).link.warm = true := by rw [htimer, warmDue_running]; exact hdue
    have hready : s.clearOut.warmExpires p = (s.clearOut.warmed p).becomeReady p := by
      rw [warmExpires_eq, State.port_clearOut, hseen, if_pos rfl]
    exact ⟨_, (exec_warmTimerExpiry_due hd).trans (congrArg Host.Outcome.next hready),
      becameReady_becomeReady (s.clearOut.warmed p) p⟩
  · have hd : s.warmDue (s.port p).link.warm = true := by rw [htimer, warmDue_running]; exact hdue
    rw [exec_warmTimerExpiry_due hd, warmExpires_eq, State.port_clearOut, hseen]
    rfl
  · refine exec_warmTimerExpiry_early ?_
    rw [htimer, warmDue_running]
    omega

end Sys2Proof.Machine

/-! ## Setting words whose capture moves a port's idle timer or the alert ring's counts (R24, R25, R123, R178) -/

namespace Sys2Proof.Machine

/-! ### A write of one setting word, accepted -/

section Accepted
variable {s v : State} {x : WordBytes} {loc : SettingLoc} {i : Instr}

/-- A write of one setting word stays within its line. -/
theorem WordBytes.write_line (s : State) (x : WordBytes) (loc : SettingLoc) :
    crossesLine (s.settingRequest (x.write loc)).addr.toNat (s.settingRequest (x.write loc)).size = false := by
  obtain ⟨hlt, hmod⟩ := offsetOf_bounds loc
  have hoff : (x.write loc).offset.toNat = offsetOf loc := by
    rw [WordBytes.write, BitVec.toNat_ofNat, Nat.mod_eq_of_lt hlt]
  refine settingRequest_line ?_ (by decide : 0 < 8)
  show (x.write loc).offset.toNat % 64 + 8 ≤ 64
  omega

theorem exec_setting_captured (hi : i ∈ settingRows (x.write loc) s) (h : s.canTake x.tag) (hx : x.given)
    (hj : s.clearOut.judgeSettings [x.part loc] = none) (hcapture : s.clearOut.capture [x.part loc] = v.settle) :
    exec i s = .next (v.settle.forwardWrite (s.settingRequest (x.write loc))) := by
  rw [settingRows_exec hi, settingWrite_one loc h hx, hj, hcapture]

theorem forwards_captured (hi : i ∈ settingRows (x.write loc) s) (h : s.canTake x.tag) (hx : x.given)
    (hj : s.clearOut.judgeSettings [x.part loc] = none) (hcapture : s.clearOut.capture [x.part loc] = v.settle) :
    s.forwards i (x.write loc) v :=
  forwards_of_settled (settled_settle v) (x.write_line s loc) (exec_setting_captured hi h hx hj hcapture)

theorem drowsing_forwardWrite (s : State) {w : WriteRequest} (h : crossesLine w.addr.toNat w.size = false) (p : PortId) :
    (s.forwardWrite w).drowsing p ↔ s.drowsing p := by
  have hword : (s.forwardWrite w).portWord p = s.portWord p := by
    rw [forwardWrite_within h]
    rfl
  rw [State.drowsing, port_forwardWrite s h, hword, State.drowsing]

/-- A word that places no extent, changes no locked setting and is in range is accepted, unless the consume index runs
ahead. -/
theorem judgeSettings_word (hplace : loc.placesExtent = false) (hlock : ¬s.lockHolds (x.result s loc) loc)
    (hzero : x.result s loc &&& ~~~(fieldMask loc) = 0) (hrange : ¬outOfRange (x.result s loc) loc)
    (hcons : loc = .consume → s.consumeAccepted (s.image.put loc (x.result s loc)) false = true) :
    s.judgeSettings [x.part loc] = none := by
  have hring : touchesRing [x.part loc] = false :=
    touchesRing_one_none (x := x.part loc) (by show loc ≠ .ring; rintro rfl; exact absurd hplace (by decide))
  refine judgeSettings_accepted (x := x.part loc) (v := x.result s loc) rfl ?_ ((unusedZero_iff _ _).2 hzero)
    ((inRange_iff _ _).2 hrange) (fun hdue => ?_) fun hc => ?_
  · rw [← Bool.not_eq_true, isLocked_iff]
    rintro ⟨-, hl⟩
    have hl : s.lockHolds ((s.image.put loc (x.result s loc)).get loc) loc := hl
    rw [Image.get_put] at hl
    exact hlock hl
  · rw [overlapDue_one_none (x := x.part loc) hplace] at hdue
    exact Bool.noConfusion hdue
  · rw [hring]
    refine hcons ?_
    by_contra hne
    rw [touchesConsume_one_none (x := x.part loc) hne] at hc
    exact Bool.noConfusion hc

end Accepted

/-! ### A port's word (R25, R123) -/

section PortWord
variable {s : State} {x : WordBytes} {p : PortId}

/-- A port's word captured with its enable as it was: a change of the idle time stops the idle timer (R123). -/
def State.portSet (s : State) (x : WordBytes) (p : PortId) : State :=
  if portIdleMs (x.result s (.port p)) = portIdleMs (s.portWord p) then s.captured x (.port p)
  else (s.captured x (.port p)).modLink p fun l => { l with idle := .stopped }

theorem portCaptured_sameEnable (s : State) (p : PortId) {before after : Word} (h : portOn after = portOn before) :
    s.portCaptured p before after =
      if portIdleMs after = portIdleMs before then s else s.modLink p fun l => { l with idle := .stopped } := by
  rw [State.portCaptured, h, Bool.not_and_self, Bool.and_not_self, if_neg Bool.false_ne_true,
    if_neg Bool.false_ne_true]
  by_cases he : portIdleMs before = portIdleMs after
  · rw [if_neg (by rw [he, bne_self_eq_false]; exact Bool.false_ne_true), if_pos he.symm]
  · rw [if_pos (bne_iff_ne.2 he), if_neg (Ne.symm he)]

theorem capture_portWord (h : portOn (x.result s (.port p)) = portOn (s.portWord p)) :
    s.clearOut.capture [x.part (.port p)] = (s.portSet x p).settle := by
  have hpart : State.partCaptured s.image (s.captured x (.port p)) (x.part (.port p)) = s.portSet x p := by
    refine (portCaptured_sameEnable (s.captured x (.port p)) p (before := s.portWord p)
      (after := (s.image.put (.port p) (x.result s (.port p))).get (.port p)) ?_).trans ?_ <;>
      rw [Image.get_put]
    · exact h
    · rfl
  exact congrArg State.settle hpart

theorem judgeSettings_portWord (h : portOn (x.result s (.port p)) = portOn (s.portWord p))
    (hzero : x.result s (.port p) &&& ~~~(fieldMask (.port p)) = 0) (hsilence : portSilenceMs (x.result s (.port p)) ≠ 0) :
    s.judgeSettings [x.part (.port p)] = none := by
  refine judgeSettings_word rfl ?_ hzero hsilence nofun
  rintro ⟨hon, hoff, -⟩
  rw [h, hon] at hoff
  exact Bool.noConfusion hoff

/-- The port's word as the capture leaves it. -/
theorem portSet_portWord (s : State) (x : WordBytes) (p : PortId) : (s.portSet x p).portWord p = x.result s (.port p) := by
  have hword : (s.captured x (.port p)).portWord p = x.result s (.port p) := Image.get_put s.image (.port p) _
  unfold State.portSet
  split
  case isTrue => exact hword
  case isFalse => exact (State.portWord_modLink _ _ _ _).trans hword

/-- The idle timer after the capture of a port's word: it starts anew with a changed idle time, and stops at 0 (R123). -/
theorem idle_of_portSet {u : State} (hu : settled (s.portSet x p) u) :
    (portIdleMs (x.result s (.port p)) ≠ portIdleMs (s.portWord p) → u.drowsing p →
      (u.port p).link.idle = .running s.milliseconds s.microseconds (portIdleMs (x.result s (.port p)))) ∧
    (portIdleMs (x.result s (.port p)) = 0 → (u.port p).link.idle = .stopped) := by
  obtain ⟨-, hruns, hstops⟩ := (hu.2.2 p).1 trivial
  have hword : u.portWord p = x.result s (.port p) := by
    rw [State.portWord, State.image_of_still hu.1]
    exact portSet_portWord s x p
  refine ⟨fun hchange hd => ?_, fun hnever => hstops fun hd => ?_⟩
  · have hidle : ((s.portSet x p).port p).link.idle = .stopped := by
      rw [State.portSet, if_neg hchange, State.port_modLink_self]
    have hnow : (s.portSet x p).milliseconds = s.milliseconds ∧ (s.portSet x p).microseconds = s.microseconds := by
      rw [State.portSet, if_neg hchange]
      exact ⟨rfl, rfl⟩
    rw [hruns hd, if_pos hidle, portSet_portWord, hnow.1, hnow.2]
  · obtain ⟨-, -, -, -, hms⟩ := hd
    rw [hword] at hms
    exact hms hnever

end PortWord

/-- Settles O16. -/
theorem portSettingsAreCaptured : Obligations.PortSettingsAreCaptured := by
  refine fun x p s h hx => ⟨fun hon hzero hsilence => ?_, fun c hzero hcls => ?_⟩
  · have hrow : Instr.portSettingWrite (x.write (.port p)) ∈ settingRows (x.write (.port p)) s := by simp [settingRows]
    have hj := judgeSettings_portWord (s := s.clearOut) (p := p) hon hzero hsilence
    have hcapture := capture_portWord hon
    refine ⟨forwards_captured hrow h hx hj hcapture, _, exec_setting_captured hrow h hx hj hcapture, ?_⟩
    have hport := port_forwardWrite (s.portSet x p).settle (x.write_line s (.port p)) p
    have hidle := idle_of_portSet (settled_settle (s.portSet x p))
    rw [hport]
    exact ⟨fun hchange hd => hidle.1 hchange ((drowsing_forwardWrite _ (x.write_line s (.port p)) p).1 hd), hidle.2⟩
  · have hrow : Instr.portSettingWrite (x.write (.condition p c)) ∈ settingRows (x.write (.condition p c)) s := by
      simp [settingRows]
    exact forwards_one hrow h hx trivial (fun _ => id) hzero hcls nofun

/-! ### The consume index (R178) -/

section Consume
variable {s : State} {x : WordBytes}

theorem writesConsume_part (x : WordBytes) (h : true ∈ x.enables.take 2) : writesConsume [x.part .consume] = true := by
  simp only [writesConsume, WordBytes.part, List.any_cons, List.any_nil, Bool.or_false, Bool.and_eq_true, beq_self_eq_true,
    List.any_eq_true, id, exists_eq_right, true_and]
  exact h

theorem judgeSettings_consume (hzero : x.result s .consume &&& ~~~(fieldMask .consume) = 0)
    (hd : (consumeOf (x.result s .consume) - s.relay.consumed).toNat ≤ (s.relay.produced - s.relay.consumed).toNat) :
    s.judgeSettings [x.part .consume] = none :=
  judgeSettings_word rfl id hzero id fun _ => decide_eq_true hd

theorem capture_consume (h : true ∈ x.enables.take 2) : s.clearOut.capture [x.part .consume] =
    ((s.captured x .consume).consumeTo (consumeOf (x.result s .consume))).settle := by
  rw [State.capture, touchesRing_one_none (x := x.part .consume) nofun, if_neg Bool.false_ne_true,
    writesConsume_part x h]
  rfl

theorem capture_consume_untouched (h : true ∉ x.enables.take 2) :
    s.clearOut.capture [x.part .consume] = (s.captured x .consume).settle := by
  rw [State.capture, touchesRing_one_none (x := x.part .consume) nofun, if_neg Bool.false_ne_true,
    writesConsume_one_none (x := x.part .consume) h]
  rfl

end Consume

/-! ### The ring's word and the consume index's together (R174, R176, R178) -/

/-- The ring's word and the consume index's written together. -/
def ringWrite (x y : WordBytes) : SettingWrite := ⟨0x140, 16, x.enables ++ y.enables, x.data ++ y.data, x.tag⟩

def ringParts (x y : WordBytes) : List SettingPart := [x.part .ring, y.part .consume]

/-- The image that the two words give. -/
def State.withRing (s : State) (x y : WordBytes) : Image :=
  (s.image.put .ring (x.result s .ring)).put .consume (y.result s .consume)

section TwoWords
variable {s : State} {x y : WordBytes}

theorem ringRequest_addr (s : State) (x y : WordBytes) :
    (s.settingRequest (ringWrite x y)).addr.toNat = s.controlBase + 0x140 := by
  have hbase := controlBase_le s
  exact addr_toNat (by show s.controlBase + 0x140 < 2 ^ 36; omega)

theorem ringWrite_shaped (s : State) (x y : WordBytes) :
    shapedInLine (s.settingRequest (ringWrite x y)).addr (s.settingRequest (ringWrite x y)).size := by
  have hmod := controlBase_mod s
  refine ⟨by show 16 ∈ _; decide, ?_, ?_⟩ <;> rw [ringRequest_addr]
  · omega
  · show _ + 16 ≤ 64
    omega

theorem touchedWords_ring (hx : x.given) (hy : y.given) : touchedWords (s.settingRequest (ringWrite x y)) =
    [⟨s.controlBase + 0x140, x.enables, x.data⟩, ⟨s.controlBase + 0x148, y.enables, y.data⟩] := by
  have hwords : wordWrites 2 (s.controlBase + 0x140) (x.enables ++ y.enables) (x.data ++ y.data) =
      [⟨s.controlBase + 0x140, x.enables, x.data⟩, ⟨s.controlBase + 0x148, y.enables, y.data⟩] := by
    have hlast := wordWrites_cons hy.1 hy.2.1 0 (s.controlBase + 0x148) [] []
    rw [List.append_nil, List.append_nil] at hlast
    rw [wordWrites_cons hx.1 hx.2.1, hlast, wordWrites]
  have htwo : touchedWords (s.settingRequest (ringWrite x y)) = (wordWrites 2 (s.controlBase + 0x140)
      (x.enables ++ y.enables) (x.data ++ y.data)).filter WordWrite.isTouched := by
    have hsize : (s.settingRequest (ringWrite x y)).size = 16 := rfl
    rw [touchedWords, ringRequest_addr, hsize]
    rfl
  rw [htwo, hwords, List.filter_eq_self]
  simp only [List.mem_cons, List.not_mem_nil, or_false]
  rintro _ (rfl | rfl)
  · exact hx.isTouched _
  · exact hy.isTouched _

theorem places_ring (hx : x.given) (hy : y.given) :
    ((touchedWords (s.settingRequest (ringWrite x y))).map fun w => s.placeOf w.addr) =
      (ringParts x y).map fun q => .setting q.loc := by
  rw [touchedWords_ring hx hy]
  exact congrArg₂ List.cons (placeOf_setting s .ring) (congrArg₂ List.cons (placeOf_setting s .consume) rfl)

theorem settingParts_ring (hx : x.given) (hy : y.given) :
    s.settingParts (s.settingRequest (ringWrite x y)) = ringParts x y := by
  have hr : s.placeOf (s.controlBase + 0x140) = .setting .ring := placeOf_setting s .ring
  have hc : s.placeOf (s.controlBase + 0x148) = .setting .consume := placeOf_setting s .consume
  rw [State.settingParts, touchedWords_ring hx hy]
  simp only [List.filterMap_cons, List.filterMap_nil, hr, hc]
  rfl

/-- The classifier leaves a write that touches setting words and no others to the control image (R10). -/
theorem judgeWrite_settings {w : WriteRequest} {q : SettingPart} {qs : List SettingPart}
    (hplaces : ((touchedWords w).map fun x => s.placeOf x.addr) = (q :: qs).map fun r => .setting r.loc)
    (hparts : s.settingParts w = q :: qs) : s.judgeWrite w = s.judgeSettings (q :: qs) := by
  have hno (f : Place → Bool) (hf : ∀ loc, f (.setting loc) = false) :
      (((touchedWords w).map fun x => s.placeOf x.addr).any f) = false := by
    rw [hplaces, List.any_map, List.any_eq_false]
    intro r _
    rw [Function.comp_apply, hf]
    exact Bool.false_ne_true
  simp only [State.judgeWrite, hno Place.isAbsorbed fun _ => rfl, hno Place.isReadOnly fun _ => rfl,
    hno s.fieldLocked fun _ => rfl, hno s.guarded fun _ => rfl, hparts, Bool.false_and, Bool.false_eq_true, if_false]

theorem ringParts_unlocked (s : State) (x y : WordBytes) :
    ¬((ringParts x y).any fun q => s.isLocked (s.withRing x y) q.loc) = true := by
  simp only [ringParts, List.any_cons, List.any_nil, Bool.or_false, WordBytes.part, State.isLocked]
  exact Bool.false_ne_true

theorem touchesRing_ringParts (hen : true ∈ x.enables.take 6) : touchesRing (ringParts x y) = true :=
  List.any_eq_true.2 ⟨x.part .ring, List.mem_cons_self, ((Bool.or_false _).symm.trans ((touchesRing_part x .ring).2
    ⟨rfl, hen⟩))⟩

/-- Judged after the restart, no index but 0 is accepted (R178). -/
theorem consumeAccepted_restart (s : State) (x y : WordBytes) :
    s.consumeAccepted (s.withRing x y) true = true ↔ consumeOf (y.result s .consume) = 0 :=
  beq_iff_eq

theorem judgeSettings_ring_refused (hen : true ∈ x.enables.take 6) (hk : consumeOf (y.result s .consume) ≠ 0) :
    s.judgeSettings (ringParts x y) = some .range := by
  have hvalid : ¬s.settingsValid (s.withRing x y) (ringParts x y) = true := by
    rw [State.settingsValid, touchesRing_ringParts hen, Bool.and_eq_true, Bool.or_eq_true, consumeAccepted_restart]
    rintro ⟨-, hfree | hzero⟩
    · exact Bool.noConfusion hfree
    · exact hk hzero
  have hnew : resultingImage s.image (ringParts x y) = s.withRing x y := rfl
  rw [State.judgeSettings, hnew, if_neg (ringParts_unlocked s x y), if_neg hvalid]

theorem judgeSettings_ring (hen : true ∈ x.enables.take 6) (hk : consumeOf (y.result s .consume) = 0)
    (hring : x.result s .ring &&& ~~~(fieldMask .ring) = 0)
    (hconsume : y.result s .consume &&& ~~~(fieldMask .consume) = 0) (hrange : ¬outOfRange (x.result s .ring) .ring)
    (hapart : s.apart (s.image.put .ring (x.result s .ring)) true) : s.judgeSettings (ringParts x y) = none := by
  refine judgeSettings_none (new := s.withRing x y) rfl ?_ ?_ (fun _ => ?_) fun _ => ?_
  · simp only [ringParts, List.mem_cons, List.not_mem_nil, or_false]
    rintro _ (rfl | rfl) - <;> exact id
  · simp only [ringParts, List.mem_cons, List.not_mem_nil, or_false]
    rintro _ (rfl | rfl)
    · exact ⟨hring, hrange⟩
    · exact ⟨hconsume, id⟩
  · rw [touchesRing_ringParts hen]
    exact hapart
  · rw [touchesRing_ringParts hen]
    exact (consumeAccepted_restart s x y).2 hk

end TwoWords

/-! ### The restart before the consume index (R174, R176, R178, R182) -/

theorem isLiveRecord_eq (o : Owner) : o.isLiveRecord = (o == .record false) := by
  rw [Bool.eq_iff_iff, beq_iff_eq]
  cases o <;> simp [Owner.isLiveRecord]

/-- A ring just restarted asks for no attention (R182). -/
theorem attnLevel_restarted {r : Relay} (hr : r.ringState = .running) (hs : r.shadow = []) : r.attnLevel = false := by
  unfold Relay.attnLevel
  rw [hr, hs]
  split <;> rfl

/-- The relay of a ring just restarted, but for the record write in flight (R174, R182). -/
def Relay.cleared (r : Relay) : Relay :=
  { r with ringState := .running, produced := 0, consumed := 0, shadow := [], attn := false }

theorem restartRing_cleared (s : State) :
    s.restartRing = { s.dropRecordWrite with relay := s.dropRecordWrite.relay.cleared } := by
  have hattn (r : Relay) : ({ r.cleared with attn := r.attn } : Relay).attnLevel = false := attnLevel_restarted rfl rfl
  exact congrArg (fun b => { s.dropRecordWrite with relay := { s.dropRecordWrite.relay.cleared with attn := b } })
    (hattn s.dropRecordWrite.relay)

/-- The ring's restart, as the statements say it. -/
theorem restartRing_eq (s : State) : s.restartRing = restarted s s := by
  rw [restartRing_cleared]
  unfold State.dropRecordWrite restarted
  have hdrop : Granted.dropRecord = fun g => if g.request.owner == .record false then
      { g with request := { g.request with owner := .record true } } else g := by
    funext g
    rw [Granted.dropRecord, isLiveRecord_eq]
  simp only [isLiveRecord_eq, hdrop]
  cases h : s.relay.inFlight with
  | none => simp only [Relay.cleared, h]
  | some l =>
    dsimp only
    split <;> rfl

/-- A restart touches the memory side and the relay, whatever write was captured with it. -/
theorem restarted_frame (s c : State) : ∃ msp r, restarted s c = { c with msp := msp, relay := Relay.cleared r } := by
  unfold restarted
  dsimp only
  split
  case h_1 => exact ⟨_, { s.relay with inFlight := none }, rfl⟩
  case h_2 l _ =>
    split
    case isTrue => exact ⟨_, { s.relay with inFlight := none, backlog := putBack l s.relay.backlog }, rfl⟩
    case isFalse => exact ⟨_, { s.relay with inFlight := none }, rfl⟩

/-- An index of 0 taken right after a restart changes nothing (R178). -/
theorem consumeTo_restarted (s c : State) : (restarted s c).consumeTo 0 = restarted s c := by
  obtain ⟨msp, r, hframe⟩ := restarted_frame s c
  rw [hframe]
  simp only [State.consumeTo, State.judgeAttn, State.modRelay, Relay.cleared, List.drop_nil]
  rw [attnLevel_restarted rfl rfl]

/-- The two words captured, before the restart (R24). -/
def State.ringCaptured (s : State) (x y : WordBytes) : State := { s with image := s.withRing x y, out := [] }

theorem capture_ring {s : State} {x y : WordBytes} (hen : true ∈ x.enables.take 6)
    (hk : consumeOf (y.result s .consume) = 0) :
    s.clearOut.capture (ringParts x y) = (restarted s (s.ringCaptured x y)).settle := by
  have hrestart : (s.ringCaptured x y).restartRing = restarted s (s.ringCaptured x y) := restartRing_eq _
  have himage : (restarted s (s.ringCaptured x y)).image = s.withRing x y := by
    obtain ⟨msp, r, hframe⟩ := restarted_frame s (s.ringCaptured x y)
    rw [hframe]
    rfl
  have hindex : (if writesConsume (ringParts x y) then
        (restarted s (s.ringCaptured x y)).consumeTo (consumeOf (restarted s (s.ringCaptured x y)).image.consume)
      else restarted s (s.ringCaptured x y)) = restarted s (s.ringCaptured x y) := by
    rw [himage, show consumeOf (s.withRing x y).consume = 0 from hk, consumeTo_restarted, ite_self]
  have hnew : { s.clearOut with image := resultingImage s.clearOut.image (ringParts x y) } =
      s.ringCaptured x y := rfl
  rw [State.capture, hnew, touchesRing_ringParts hen, if_pos rfl, hrestart, hindex]
  rfl

/-- Settles O14. -/
theorem consumeIndexIsAccepted : Obligations.ConsumeIndexIsAccepted := by
  refine ⟨fun x s h hx hen hzero hd => ?_, fun x s h hx hen hzero hd => ?_, fun x y s h hx hy hen => ?_⟩
  · exact forwards_captured (loc := .consume) (by simp [settingRows]) h hx (judgeSettings_consume (s := s.clearOut) hzero hd)
      (capture_consume hen)
  · exact forwards_captured (loc := .consume) (by simp [settingRows]) h hx (judgeSettings_consume (s := s.clearOut) hzero hd)
      (capture_consume_untouched hen)
  · intro v k w i hi
    have hwrite : exec i s = exec (.write (s.settingRequest w)) s := by
      simp only [List.mem_cons, List.not_mem_nil, or_false] at hi
      obtain rfl | rfl | rfl := hi <;> rfl
    have hshape := ringWrite_shaped s x y
    have henabled : anyEnabled (s.settingRequest w) = true := by
      obtain ⟨n, hn, he⟩ := List.getElem_of_mem hx.2.2
      refine (anyEnabled_iff _).2 ⟨n, by have := hx.1; show n < 16; omega, ?_⟩
      show (x.enables ++ y.enables)[n]? = some true
      rw [List.getElem?_append_left hn, List.getElem?_eq_getElem hn, he]
    have hplaces := places_ring (s := s.clearOut) hx hy
    have hparts := settingParts_ring (s := s.clearOut) hx hy
    rw [hwrite]
    refine ⟨fun hk => exec_write_refused h hshape henabled ((judgeWrite_settings hplaces hparts).trans
      (judgeSettings_ring_refused (s := s.clearOut) hen hk)), fun hk hring hconsume hrange hapart => ?_⟩
    have hj := judgeSettings_ring (s := s.clearOut) hen hk hring hconsume hrange hapart
    refine forwards_of_settled (settled_settle _) hshape.crossesLine ?_
    refine (hwrite.trans (exec_write_within h hshape henabled)).trans (congrArg Host.Outcome.next ?_)
    refine (classifyWrite_settings hplaces hparts hj).trans ?_
    exact congrArg (State.forwardWrite · _) (capture_ring hen hk)

end Sys2Proof.Machine

/-! ## The sending of a frame (R38, R93, R96, R101 to R105, R112, R113, R119) -/

namespace Sys2Proof.Machine

/-! ### The parts of the state that a frame touches -/

/-- A state with one port, one account, one ticket, the global state and the outputs as given. -/
def State.updated (s : State) (p : PortId) (x : Port) (a : AccountId) (y : Account) (t : Slot) (k : Ticket)
    (g : GlobalState) (out : List Output) : State :=
  { s with
    ctl := { s.ctl with global := g }
    ports := tset s.ports p x
    accounts := tset s.accounts a y
    tickets := tset s.tickets t k
    out := out }

section Updated
variable (s : State) (p : PortId) (x : Port) (a : AccountId) (y : Account) (t : Slot) (k : Ticket) (g : GlobalState)
  (out : List Output)

theorem clearOut_updated : s.clearOut =
    s.updated p (s.port p) a (s.account a) t (s.ticket t) s.ctl.global [] := by
  rw [State.updated, State.port, State.account, State.ticket, tset_tget, tset_tget, tset_tget]
  rfl

theorem updated_port (q : PortId) : (s.updated p x a y t k g out).port q = if q = p then x else s.port q :=
  tget_tset s.ports p q x

@[simp] theorem updated_modPort (f : Port → Port) :
    (s.updated p x a y t k g out).modPort p f = s.updated p (f x) a y t k g out := by
  simp only [State.updated, State.modPort, State.setPort, State.port, tget_tset_self, tset_tset]

@[simp] theorem updated_modAccount (f : Account → Account) :
    (s.updated p x a y t k g out).modAccount a f = s.updated p x a (f y) t k g out := by
  simp only [State.updated, State.modAccount, State.setAccount, State.account, tget_tset_self, tset_tset]

@[simp] theorem updated_modTicket (f : Ticket → Ticket) :
    (s.updated p x a y t k g out).modTicket t f = s.updated p x a y t (f k) g out := by
  simp only [State.updated, State.modTicket, State.setTicket, State.ticket, tget_tset_self, tset_tset]

@[simp] theorem updated_emit (o : Output) :
    (s.updated p x a y t k g out).emit o = s.updated p x a y t k g (out ++ [o]) := rfl

/-- The report of a page's end at a port with no page left open (R35, R38). -/
theorem updated_pageEnded (h : x.hasOpenPage = false) : (s.updated p x a y t k g out).pageEnded =
    s.updated p x a y t k
      (if g = .quiescing ∧ ∀ q, q ≠ p → (s.port q).hasOpenPage = false then .stopped else g) out := by
  have hopen : (s.updated p x a y t k g out).anyOpenPage = false ↔ ∀ q, q ≠ p → (s.port q).hasOpenPage = false := by
    rw [anyOpenPage_false_iff]
    refine forall_congr' fun q => ?_
    rw [updated_port]
    split
    case isTrue e => exact ⟨fun _ hq => absurd e hq, fun _ => h⟩
    case isFalse e => exact ⟨fun hq _ => hq, fun hq => hq e⟩
  have hglobal : (s.updated p x a y t k g out).pageEnded.ctl.global =
      if g = .quiescing ∧ ∀ q, q ≠ p → (s.port q).hasOpenPage = false then .stopped else g := by
    rw [pageEnded_global]
    exact if_congr (and_congr_right fun _ => hopen) rfl rfl
  rw [pageEnded_frame, hglobal]
  rfl

end Updated

/-- The newest entry closed leaves no page open (R103). -/
theorem closeLast_closed (x : Port) (es : List Entry) : ({ x with pages := closeLast es } : Port).hasOpenPage = false := by
  unfold closeLast Port.hasOpenPage Port.openEntry
  cases h : es.getLast? <;> simp

/-! ### The steps of a frame -/

section Sending
variable (s : State) (p : PortId) (j : Job) (f : FramePlan)

/-- The page list of a port as a frame of the engine finds it: with the page it begins, when none is open (R101, R102). -/
def Port.entriesFor (x : Port) (j : Job) : List Entry :=
  if x.hasOpenPage then x.pages else x.pages ++ [⟨j.slot, j.account, j.copy, j.page, j.offset, .opened⟩]

/-- The engine's ticket after a frame (R94, R99, R103 to R105). -/
def Job.afterSent (j : Job) (f : FramePlan) : Option Job := if !f.pageEnd then some (j.afterFrame f) else j.afterPage f

/-- The page begun, when the frame begins one: an entry and a reservation (R101, R102). -/
theorem page_begun : (if (s.port p).hasOpenPage then s.clearOut else s.clearOut.openPage p j) =
    s.updated p { s.port p with pages := (s.port p).entriesFor j } j.account
      { s.account j.account with
        reserved := (s.account j.account).reserved + if (s.port p).hasOpenPage then 0 else 1 } j.slot
      { s.ticket j.slot with
        entryCount := (s.ticket j.slot).entryCount + if (s.port p).hasOpenPage then 0 else 1 } s.ctl.global [] := by
  rw [Port.entriesFor, clearOut_updated s p j.account j.slot]
  split
  case isTrue => rfl
  case isFalse => simp only [State.openPage, State.claimReserve, updated_modAccount, updated_modPort, updated_modTicket]

/-- The port once a frame is handed: one credit used, the frame counted by the link and the pacer (R112, R113, R119). -/
def Port.handed (x : Port) (pacer : Option PacerWindow) : Port :=
  { x with
    link := { x.link with credits := x.link.credits - 1, framesSent := x.link.framesSent + 1 }
    engine := { x.engine with pacer := pacer } }

theorem handData_updated (x : Port) (a : AccountId) (y : Account) (t : Slot) (k : Ticket) (g : GlobalState)
    (out : List Output) (payload : List Byte) (hx : x.engine.pacer = (s.port p).engine.pacer) :
    (s.updated p x a y t k g out).handData p payload =
      s.updated p (x.handed (s.pacerAfterFrame p)) a y t k g (out ++ [.frame p (Frame.data payload).wire]) := by
  have hpacer : (s.updated p x a y t k g out).pacerAfterFrame p = s.pacerAfterFrame p := by
    unfold State.pacerAfterFrame
    rw [updated_port, if_pos rfl, hx]
    rfl
  simp only [State.handData, hpacer, State.modLink, State.modEngine, State.hand, updated_modPort, updated_emit]
  rfl

/-- What a frame leaves before the ports settle (R38, R96, R101 to R105, R112, R113, R119). -/
def State.frameSent : State :=
  let x := s.port p
  let after := j.afterSent f
  { s with
    ctl := { s.ctl with
      global := if f.pageEnd ∧ s.ctl.global = .quiescing ∧ ∀ q, q ≠ p → (s.port q).hasOpenPage = false
        then .stopped else s.ctl.global }
    ports := tset s.ports p { x with
      pages := if f.pageEnd then closeLast (x.entriesFor j) else x.entriesFor j
      link := { x.link with credits := x.link.credits - 1, framesSent := x.link.framesSent + 1 }
      engine := { x.engine with
        state := if after = none then .idle else x.engine.state
        job := after
        pacer := s.pacerAfterFrame p } }
    accounts := tset s.accounts j.account { s.account j.account with
      reserved := (s.account j.account).reserved + if x.hasOpenPage then 0 else 1
      sent := (s.account j.account).sent + if f.pageEnd then 1 else 0 }
    tickets := tset s.tickets j.slot { s.ticket j.slot with
      entryCount := (s.ticket j.slot).entryCount + if x.hasOpenPage then 0 else 1
      state := if after = none then .draining else (s.ticket j.slot).state
      sending := if after = none then false else (s.ticket j.slot).sending
      copy := match after with
        | some k => if f.pageEnd then k.copy else (s.ticket j.slot).copy
        | none => (s.ticket j.slot).copy
      page := match after with
        | some k => if f.pageEnd then k.page else (s.ticket j.slot).page
        | none => (s.ticket j.slot).page }
    out := [.frame p (Frame.data f.payload).wire] }

/-- Every gate passed, the engine sends its frame, and the ports settle (R97). -/
theorem sendFrame_passes (hj : (s.port p).engine.job = some j) (hg : s.clearOut.gates p j = .passes f) :
    s.clearOut.sendFrame p = (s.frameSent p j f).settle := by
  have hbegun := page_begun s p j
  have hsend : s.clearOut.sendFrame p = State.settle (
      let t := (if (s.port p).hasOpenPage then s.clearOut else s.clearOut.openPage p j).handData p f.payload
      if f.pageEnd then t.closePage p j f else t.setJob p (some (j.afterFrame f))) := by
    rw [State.sendFrame, State.port_clearOut, hj]
    dsimp only
    rw [hg]
  rw [hsend, hbegun, handData_updated]
  case hx => rfl
  refine congrArg State.settle ?_
  dsimp only
  unfold State.frameSent
  cases hend : f.pageEnd with
  | false =>
    have hafter : j.afterSent f = some (j.afterFrame f) := by rw [Job.afterSent, hend]; rfl
    simp only [hafter, State.setJob, State.modEngine, updated_modPort, Bool.false_eq_true, if_false, false_and,
      reduceCtorEq, BitVec.ofNat_eq_ofNat, BitVec.add_zero]
    rfl
  | true =>
    have hafter : j.afterSent f = j.afterPage f := by rw [Job.afterSent, hend]; rfl
    simp only [hafter, State.closePage, updated_modPort, State.claimClose, updated_modAccount]
    rw [updated_pageEnded _ _ _ _ _ _ _ _ _ (closeLast_closed _ _)]
    cases hpage : j.afterPage f with
    | none =>
      simp only [State.modEngine, updated_modPort, updated_modTicket, if_true, true_and]
      rfl
    | some k =>
      simp only [State.setJob, State.modEngine, updated_modPort, updated_modTicket, if_true, true_and,
        reduceCtorEq, if_false]
      rfl

end Sending

/-- Settles O44. -/
theorem aFrameIsSent : Obligations.AFrameIsSent := by
  refine ⟨⟨fun payload hlo hhi => ⟨BitVec.ofNat 8 (payload.length - 1), ?_, ?_⟩, ?_, ?_, ?_, ?_⟩,
    ?_⟩
  · rw [BitVec.toNat_ofNat]
    omega
  · rw [onWire_eq]
    rfl
  · exact (onWire_eq [0x02]).symm
  · exact (onWire_eq [0x03]).symm
  · exact (onWire_eq [0x04]).symm
  · exact (onWire_eq [0x05]).symm
  · intro p j f s hj x isOpen hhold hlink hdown hcredit hpace hf hroom hquota
    obtain ⟨hlo, hhi⟩ := nextFrame_payload hf
    have hg : s.clearOut.gates p j = .passes f := by
      refine gates_pass (s := s.clearOut) hf (hhold.imp_right fun ⟨hh, hq⟩ => ?_) hlink hdown
        (Nat.one_le_iff_ne_zero.1 hcredit) ((paceOpen_iff _).2 hpace) hroom (hquota.imp_right (grants_iff _ _).2)
      exact Bool.or_eq_false_iff.2 ⟨hh, hq⟩
    exact ⟨hlo, hhi, _, congrArg Host.Outcome.next (sendFrame_passes s p j f hj hg), settled_settle (s.frameSent p j f)⟩

end Sys2Proof.Machine

/-! ## The matching of sheets and the evaluation of the conditions at a STATUS (R120, R134 to R136, R151 to R153) -/

namespace Sys2Proof.Machine

/-! ### What the matching of sheets leaves alone -/

/-- The matching of sheets at a port leaves its engine, its link and its watch, the settings, the time base and the outputs
as they were (R151). -/
structure SheetsFrame (s t : State) (p : PortId) : Prop where
  engine : (t.port p).engine = (s.port p).engine
  link : (t.port p).link = (s.port p).link
  watch : (t.port p).watch = (s.port p).watch
  image : t.image = s.image
  milliseconds : t.milliseconds = s.milliseconds
  microseconds : t.microseconds = s.microseconds
  out : t.out = s.out

theorem SheetsFrame.trans {s t u : State} {p : PortId} (h : SheetsFrame s t p) (k : SheetsFrame t u p) :
    SheetsFrame s u p :=
  ⟨k.engine.trans h.engine, k.link.trans h.link, k.watch.trans h.watch, k.image.trans h.image,
    k.milliseconds.trans h.milliseconds, k.microseconds.trans h.microseconds, k.out.trans h.out⟩

theorem sheetsFrame_modPort (s : State) (p : PortId) {f : Port → Port} (he : (f (s.port p)).engine = (s.port p).engine)
    (hl : (f (s.port p)).link = (s.port p).link) (hw : (f (s.port p)).watch = (s.port p).watch) :
    SheetsFrame s (s.modPort p f) p := by
  refine ⟨?_, ?_, ?_, rfl, rfl, rfl, rfl⟩ <;> rw [State.port_modPort_self]
  exacts [he, hl, hw]

theorem drainTest_frame (s : State) (t : Slot) : s.drainTest t = { s with
    tickets := (s.drainTest t).tickets, guards := (s.drainTest t).guards
    relay := { s.relay with backlog := (s.drainTest t).relay.backlog } } := by
  rw [drainTest_eq]
  split
  case isTrue => exact endTicket_frame s t _ _
  case isFalse => rfl

theorem deliveryTest_frame (s : State) (t : Slot) : s.deliveryTest t = { s with
    tickets := (s.deliveryTest t).tickets, guards := (s.deliveryTest t).guards
    relay := { s.relay with backlog := (s.deliveryTest t).relay.backlog } } := by
  unfold State.deliveryTest
  split
  case h_1 =>
    split
    case isTrue => exact endTicket_frame s t _ _
    case isFalse => rfl
  case h_2 | h_3 => exact drainTest_frame s t
  case h_4 => rfl

theorem claimDeliver_frame (s : State) (a : AccountId) : s.claimDeliver a = { s with
    accounts := (s.claimDeliver a).accounts
    relay := { s.relay with backlog := (s.claimDeliver a).relay.backlog } } := by
  unfold State.claimDeliver
  dsimp only
  split <;> rfl

theorem sheetsFrame_deliverEntry (s : State) (p : PortId) (e : Entry) (rest : List Entry) :
    SheetsFrame s (s.deliverEntry p e rest) p := by
  have hpages : SheetsFrame s (s.setPages p rest) p := sheetsFrame_modPort s p rfl rfl rfl
  refine hpages.trans ?_
  rw [State.deliverEntry, deliveryTest_frame, claimDeliver_frame]
  exact ⟨rfl, rfl, rfl, rfl, rfl, rfl, rfl⟩

theorem sheetsFrame_deliverSheets (s : State) (p : PortId) (n : Nat) : SheetsFrame s (s.deliverSheets p n) p := by
  have hstray (k : Nat) : SheetsFrame s (s.straySheets p k) p := sheetsFrame_modPort s p rfl rfl rfl
  induction n generalizing s with
  | zero => exact ⟨rfl, rfl, rfl, rfl, rfl, rfl, rfl⟩
  | succ n ih =>
    unfold State.deliverSheets
    split
    case h_1 => exact hstray _
    case h_2 e rest _ =>
      split
      case isTrue =>
        exact (sheetsFrame_deliverEntry s p e rest).trans
          (ih _ fun k => sheetsFrame_modPort _ p rfl rfl rfl)
      case isFalse => exact hstray _

/-! ### A STATUS heard (R114, R121) -/

/-- The link of a port that has heard a good frame (R114, R121). -/
def Link.heard (l : Link) (now : BitVec 32) (us ms : Nat) : Link :=
  { l with badRun := 0, silence := if l.silence = .stopped then .stopped else .running now us ms }

theorem heard_eq (s : State) (p : PortId) : s.clearOut.goodFrame p = s.heard p := by
  have hlink : (fun l : Link => { l with
      badRun := 0
      silence := match l.silence with
        | .stopped => .stopped
        | _ => s.startTimer (portSilenceMs (s.portWord p)) }) =
      fun l => l.heard s.milliseconds s.microseconds (portSilenceMs (s.portWord p)) := by
    funext l
    obtain ⟨_, _, _, _, silence⟩ := l
    cases silence <;> rfl
  exact congrArg (fun f => (s.modLink p f).clearOut) hlink

theorem heard_port (s : State) (p : PortId) : (s.heard p).port p = { s.port p with
    link := (s.port p).link.heard s.milliseconds s.microseconds (portSilenceMs (s.portWord p)) } :=
  State.port_modLink_self s p fun l => l.heard s.milliseconds s.microseconds (portSilenceMs (s.portWord p))

theorem exec_status {s : State} {p : PortId} (h : (s.port p).link.state ≠ .disabled) (bits : BitVec 16) (n : Byte) :
    exec (.status p bits n) s = .next ((s.heard p).takeStatus p bits (n.toNat % 16)) := by
  rw [← heard_eq]
  exact congrArg Host.Outcome.next (receive_status (s := s.clearOut) h)

/-! ### The truths of the conditions, and their edges (R134, R135) -/

/-- A condition's truth, bit by bit (R134). -/
theorem condTruth_eq (w : Word) (bits : BitVec 16) : condTruth w bits =
    ((List.finRange 16).any (fun k => (condMask w).getLsbD k) &&
      if condAll w then
        (List.finRange 16).all fun k => !(condMask w).getLsbD k || bits.getLsbD k == (condPattern w).getLsbD k
      else (List.finRange 16).any fun k => (condMask w).getLsbD k && bits.getLsbD k == (condPattern w).getLsbD k) := by
  have hany (m : BitVec 16) : (m != 0#16) = (List.finRange 16).any fun k => m.getLsbD k := by
    rw [Bool.eq_iff_iff, bne_iff_ne, List.any_eq_true, ne_eq, ← not_iff_not, Decidable.not_not]
    simp only [List.mem_finRange, true_and, not_exists, Bool.not_eq_true]
    refine ⟨fun h k => by rw [h]; exact BitVec.getLsbD_zero, fun h => BitVec.eq_of_getLsbD_eq fun i hi => ?_⟩
    rw [BitVec.getLsbD_zero]
    exact h ⟨i, hi⟩
  have hbit (k : Fin 16) : (condMatches (condMask w) (condPattern w) bits).getLsbD k =
      ((condMask w).getLsbD k && bits.getLsbD k == (condPattern w).getLsbD k) := by
    simp only [condMatches, BitVec.getLsbD_and, BitVec.getLsbD_not, BitVec.getLsbD_xor, k.isLt, decide_true,
      Bool.true_and]
    cases bits.getLsbD k <;> cases (condPattern w).getLsbD k <;> rfl
  have hall : (condMatches (condMask w) (condPattern w) bits == condMask w) = (List.finRange 16).all fun k =>
      !(condMask w).getLsbD k || bits.getLsbD k == (condPattern w).getLsbD k := by
    rw [Bool.eq_iff_iff, beq_iff_eq, List.all_eq_true]
    simp only [List.mem_finRange, true_imp_iff]
    have himp (a b : Bool) : (a && b) = a ↔ (!a || b) = true := by cases a <;> simp
    refine ⟨fun h k => (himp _ _).1 ((hbit k).symm.trans (by rw [h])), fun h => BitVec.eq_of_getLsbD_eq fun i hi => ?_⟩
    exact (hbit ⟨i, hi⟩).trans ((himp _ _).2 (h ⟨i, hi⟩))
  unfold condTruth
  dsimp only
  rw [hany (condMask w), hany (condMatches _ _ _), hall]
  simp only [hbit]

theorem evaluated_eq {s t : State} (h : t.image = s.image) (p : PortId) (bits : BitVec 16) :
    t.evaluated p bits = s.truths p bits := by
  unfold State.evaluated State.truths
  rw [h]
  simp only [condTruth_eq]

theorem isEdge_iff (before after : HeldCondition) :
    isEdge before after = true ↔ after.truth = true ∧ (before.truth = false ∨ before.cls ≠ after.cls) := by
  rw [isEdge, Bool.and_eq_true, Bool.or_eq_true, Bool.not_eq_true', bne_iff_ne]

theorem insertByKey_perm (key : CondId → Nat) (c : CondId) (ds : List CondId) :
    (insertByKey key c ds).Perm (c :: ds) := by
  induction ds with
  | nil => exact .refl _
  | cons d ds ih =>
    unfold insertByKey
    split
    case isTrue => exact .refl _
    case isFalse => exact (ih.cons d).trans (.swap c d ds)

theorem edgesInOrder_perm (draw : Nat) (before after : Vector HeldCondition 4) :
    (edgesInOrder draw before after).Perm
      (([0, 1, 2, 3] : List CondId).filter fun c => isEdge (tget before c) (tget after c)) := by
  unfold edgesInOrder
  generalize ([0, 1, 2, 3] : List CondId).filter _ = cs
  induction cs with
  | nil => exact .refl _
  | cons c cs ih => exact (insertByKey_perm _ c _).trans (ih.cons c)

/-- The order in which the edges raise their alerts is one of their orders, whatever value is drawn (log entry 11). -/
theorem edgeOrder_edgesInOrder (s : State) (p : PortId) (bits : BitVec 16) (draw : Nat) :
    s.edgeOrder p bits (edgesInOrder draw (s.port p).watch.conditions (s.truths p bits)) := by
  have hperm := edgesInOrder_perm draw (s.port p).watch.conditions (s.truths p bits)
  have hall : ∀ c : CondId, c ∈ ([0, 1, 2, 3] : List CondId) := by decide
  refine ⟨hperm.nodup_iff.2 (List.Nodup.filter _ (by decide)), fun c => ?_⟩
  rw [hperm.mem_iff, List.mem_filter, and_iff_right (hall c), isEdge_iff, State.edge]

/-! ### The edges' alerts (R135) -/

/-- A state with a port's watch, the backlog and the count of draws as given. -/
def State.rewatched (s : State) (p : PortId) (w : Watch) (before : List Latch) (draws : Nat) : State :=
  { s with
    ports := tset s.ports p { s.port p with watch := w }
    relay := { s.relay with backlog := before }
    draws := draws }

theorem rewatched_port (s : State) (p q : PortId) (w : Watch) (before : List Latch) (draws : Nat) :
    (s.rewatched p w before draws).port q = if q = p then { s.port p with watch := w } else s.port q :=
  tget_tset s.ports p q _

/-- The edges raise their alerts one by one. -/
theorem raiseEdges {s t : State} {p : PortId} {bits : BitVec 16} (ht : t.milliseconds = s.milliseconds)
    (w : Watch) (draws : Nat) (order : List CondId) (before : List Latch) :
    order.foldl (State.raiseEdge p (s.truths p bits) bits (s.inHand p)) (t.rewatched p w before draws) =
      t.rewatched p w (order.foldl (s.withEdge p bits) before) draws := by
  induction order generalizing before with
  | nil => rfl
  | cons c cs ih =>
    have hraise : State.raiseEdge p (s.truths p bits) bits (s.inHand p) (t.rewatched p w before draws) c =
        t.rewatched p w (s.withEdge p bits before c) draws := by
      unfold State.raiseEdge State.raise State.withEdge
      rw [← ht]
      rfl
    rw [List.foldl_cons, List.foldl_cons, hraise, ih]

/-- The sheets of a STATUS matched, its bits and truths stored, and its edges' alerts raised in an order (R134 to R136). -/
def State.alerted (s : State) (p : PortId) (bits : BitVec 16) (n : Byte) (order : List CondId) (draws : Nat) : State :=
  (s.sheetsMatched p n).rewatched p { bits := bits, conditions := s.truths p bits }
    (order.foldl (s.withEdge p bits) (s.sheetsMatched p n).relay.backlog) draws

theorem alerted_port (s : State) (p : PortId) (bits : BitVec 16) (n : Byte) (order : List CondId) (draws : Nat) :
    (s.alerted p bits n order draws).port p =
      { (s.sheetsMatched p n).port p with watch := { bits := bits, conditions := s.truths p bits } } := by
  rw [State.alerted, rewatched_port, if_pos rfl]

/-- A STATUS served: the sheets matched, the bits and the truths stored, the edges' alerts raised, and the port rewound at
a JAM edge (R136). -/
theorem serveStatus_eq (s : State) (p : PortId) (bits : BitVec 16) (n : Byte) :
    ∃ order draws, s.edgeOrder p bits order ∧ (s.heard p).serveStatus p bits (n.toNat % 16) =
      if order.any fun c => (tget (s.truths p bits) c).cls == .jam then (s.alerted p bits n order draws).rewind p
      else s.alerted p bits n order draws := by
  have hframe := sheetsFrame_deliverSheets (s.heard p) p (n.toNat % 16)
  have hd : (s.heard p).deliverSheets p (n.toNat % 16) = s.sheetsMatched p n := rfl
  rw [hd] at hframe
  have hbefore : ((s.sheetsMatched p n).port p).watch.conditions = (s.port p).watch.conditions := by
    rw [hframe.watch, heard_port]
  have hafter : (s.sheetsMatched p n).evaluated p bits = s.truths p bits := evaluated_eq hframe.image p bits
  have hhand : (s.sheetsMatched p n).inHand p = s.inHand p := by
    rw [State.inHand, hframe.engine, heard_port, State.inHand]
  refine ⟨_, (s.sheetsMatched p n).draws + 1, edgeOrder_edgesInOrder s p bits (s.sheetsMatched p n).draws, ?_⟩
  rw [State.serveStatus, hd, State.watchStatus]
  rw [hbefore, hafter, hhand]
  have hraise := raiseEdges (s := s) (t := s.sheetsMatched p n) (p := p) (bits := bits) hframe.milliseconds
    { bits := bits, conditions := s.truths p bits } ((s.sheetsMatched p n).draws + 1)
    (edgesInOrder (s.sheetsMatched p n).draws (s.port p).watch.conditions (s.truths p bits))
    (s.sheetsMatched p n).relay.backlog
  rw [State.alerted, ← hraise]
  rfl

end Sys2Proof.Machine

/-! ## A JAM edge (R125, R127, R136, R138 to R143) -/

namespace Sys2Proof.Machine

section Jam
variable {s v u : State} {before : List Latch} {p : PortId}

/-! ### The rewind between the alerts and what follows at the link -/

/-- A rewind reads nothing of the watch of its port. -/
theorem AfterRewind.of_rewatched {w : Watch} {draws : Nat} (h : AfterRewind (s.rewatched p w before draws) before v p) :
    AfterRewind s before v p := by
  have hself := rewatched_port s p p w before draws
  rw [if_pos rfl] at hself
  obtain ⟨hpages, hqueue, hengine, hhold, hquiesce, hothers, haccount, hticket, hguard, hbacklog, hmsp, hrelay, hglobal,
    hrefusals, himage, hpsp, hfetcher, hsweep, hanchor, hms, hus, hreset⟩ := h
  rw [hself] at hqueue hhold hquiesce hbacklog hmsp
  simp only [hself] at haccount hticket hguard
  refine ⟨hpages, hqueue, hengine, hhold, hquiesce, fun q hq => ?_, haccount, hticket, hguard, hbacklog, hmsp, hrelay,
    fun hn => ?_, hrefusals, himage, hpsp, hfetcher, hsweep, hanchor, hms, hus, hreset⟩
  · rw [hothers q hq, rewatched_port, if_neg hq]
  · have hg := hglobal (by rw [hself]; exact hn)
    rw [hg, hself]
    refine if_congr (and_congr_right fun _ => and_congr_right fun _ => forall_congr' fun q => ?_) rfl rfl
    refine imp_congr_right fun hq => ?_
    rw [rewatched_port, if_neg hq]

/-- What follows at the link of the port, and the outputs, are nothing of what the rewind settles. -/
theorem AfterRewind.relinked (h : AfterRewind s before v p) (l : Link) (out : List Output) :
    AfterRewind s before (v.relinked p l v.relay.backlog out) p := by
  have hself := relinked_port v p p l v.relay.backlog out
  rw [if_pos rfl] at hself
  exact
    { pages := by rw [hself]; exact h.pages, queue := by rw [hself]; exact h.queue
      engine := by rw [hself]; exact h.engine, holdFlag := by rw [hself]; exact h.holdFlag
      quiesceHold := by rw [hself]; exact h.quiesceHold
      others := fun q hq => by rw [relinked_port, if_neg hq]; exact h.others q hq
      account := h.account, ticket := h.ticket, guard := h.guard, backlog := h.backlog, msp := h.msp, relay := h.relay
      global := h.global, refusals := h.refusals, image := h.image, psp := h.psp, fetcher := h.fetcher
      sweep := h.sweep, anchor := h.anchor, milliseconds := h.milliseconds, microseconds := h.microseconds
      resetAsserted := h.resetAsserted }

/-- After a rewind and what follows at the link, the ports settled: the rewind of the statements, and the port as the
rewind left it, with the link set and its idle timer stopped. -/
theorem rewound_of_relinked (h : AfterRewind s before v p) {l : Link} {out : List Output}
    (hu : settled (v.relinked p l v.relay.backlog out) u) :
    rewound s before u p ∧ u.port p = { v.port p with link := { l with idle := .stopped } } ∧ u.out = out := by
  have hjam : ((v.relinked p l v.relay.backlog out).port p).engine.state = .jamStop := by
    rw [relinked_port, if_pos rfl]
    exact (congrArg Engine.state h.engine :)
  have hawake : ¬u.drowsing p := fun hd =>
    EngineState.noConfusion (hd.2.1.symm.trans ((settled_jamStop hu p).2 hjam))
  have hstopped : (v.relinked p l v.relay.backlog out).modLink p (fun k => { k with idle := .stopped }) =
      v.relinked p { l with idle := .stopped } v.relay.backlog out := by
    simp only [State.relinked, State.modLink, State.modPort, State.setPort, State.port, tget_tset_self, tset_tset]
  have hidle := settles_modIdle hu trivial hawake .stopped
  rw [hstopped] at hidle
  have hafter := h.relinked { l with idle := .stopped } out
  have hself := relinked_port v p p { l with idle := .stopped } v.relay.backlog out
  rw [if_pos rfl] at hself
  have hlink : ((v.relinked p { l with idle := .stopped } v.relay.backlog out).port p).link.idle = .stopped := by
    rw [hself]
  exact ⟨hafter.rewound hidle hlink, (hafter.port_settled hidle hlink).trans hself, State.out_of_still hu.1⟩

/-! ### What follows at the link (R125 to R127, R146) -/

/-- While a JAM condition is true the jam stop does not end (R146, R147). -/
theorem judgeJamStop_jammed (h : (v.port p).watch.holds .jam = true) : v.judgeJamStop p = v := by
  refine judgeJamStop_stays fun hover => ?_
  simp only [Port.jamStopOver, h, Bool.not_true, Bool.and_false, Bool.false_and] at hover
  exact Bool.noConfusion hover

/-- The link once a STATUS is served, by its state: WAKING may see ONLINE and become READY, DROWSY may wake (R120, R125 to
R127). -/
def Link.afterStatus (l : Link) (wakes online : Bool) (now : BitVec 32) (us warmMs : Nat) : Link :=
  { l with
    state :=
      if l.state = .waking ∧ online = true ∧ l.warm = .expired then .ready
      else if wakes then .waking else l.state
    warm := if wakes then .running now us warmMs else l.warm
    onlineSeen := if wakes then false else l.onlineSeen || (l.state == .waking && online) }

theorem afterStatus_ready {l : Link} (h : l.state = .ready) (online : Bool) (now : BitVec 32) (us warmMs : Nat) :
    l.afterStatus false online now us warmMs = l := by
  obtain ⟨_⟩ := l
  cases h
  simp [Link.afterStatus]

theorem afterStatus_drowsy {l : Link} (h : l.state = .drowsy) (wakes online : Bool) (now : BitVec 32)
    (us warmMs : Nat) : l.afterStatus wakes online now us warmMs =
      if wakes then { l with state := .waking, warm := .running now us warmMs, onlineSeen := false } else l := by
  obtain ⟨_⟩ := l
  cases h
  cases wakes <;> simp [Link.afterStatus]

theorem afterStatus_waking {l : Link} (h : l.state = .waking) (online : Bool) (now : BitVec 32) (us warmMs : Nat) :
    l.afterStatus false online now us warmMs =
      if online then
        if l.warm = .expired then { l with state := .ready, onlineSeen := true } else { l with onlineSeen := true }
      else l := by
  obtain ⟨_⟩ := l
  cases h
  cases online
  · simp [Link.afterStatus]
  · simp only [Link.afterStatus, true_and, if_true, Bool.false_eq_true, if_false, beq_self_eq_true, Bool.and_true,
      Bool.or_true]
    split <;> rfl

theorem relinked_same (v : State) (p : PortId) :
    v.relinked p (v.port p).link v.relay.backlog v.out = v :=
  congrArg (fun ports => { v with ports := ports }) (tset_tget v.ports p)

theorem relinked_modLink (v : State) (p : PortId) (l : Link) (before : List Latch) (out : List Output) (f : Link → Link) :
    (v.relinked p l before out).modLink p f = v.relinked p (f l) before out := by
  simp only [State.relinked, State.modLink, State.modPort, State.setPort, State.port, tget_tset_self, tset_tset]

/-- Settling a port, the jam stop judged again, and every port settled, while a JAM condition is true. -/
theorem settled_jammed_again (h : (v.port p).watch.holds .jam = true) :
    settled v ((v.settlePort p).judgeJamStop p).settle := by
  rw [judgeJamStop_jammed (by rw [Port.watch_of_still (State.port_still (still_settlePort v p) p)]; exact h)]
  exact settled_settlePort_settle v p

/-- The state a served STATUS leaves at a port, once what follows at the link is done (R120, R125 to R127). -/
def State.statusTaken (v : State) (p : PortId) (wakes online : Bool) : State :=
  v.relinked p
    ((v.port p).link.afterStatus wakes online v.milliseconds v.microseconds (portWarmMs (v.portWord p)))
    v.relay.backlog (v.out ++ if wakes then [.frame p Frame.wake.wire] else [])

/-- A WAKING link served a STATUS while a JAM condition is true (R127). -/
theorem settled_statusInWaking (hst : (v.port p).link.state = .waking) (hjam : (v.port p).watch.holds .jam = true)
    (bits : BitVec 16) :
    settled (v.statusTaken p false (bits.getLsbD 0)) ((v.statusInWaking p bits).judgeJamStop p).settle := by
  have hrelinked (l : Link) : (((v.relinked p l v.relay.backlog v.out).port p).watch.holds .jam) = true := by
    rw [relinked_port, if_pos rfl]
    exact hjam
  have hseen : (v.modLink p fun l => { l with onlineSeen := true }) =
      v.relinked p { (v.port p).link with onlineSeen := true } v.relay.backlog v.out := rfl
  rw [State.statusTaken, afterStatus_waking hst, if_neg Bool.false_ne_true, List.append_nil, State.statusInWaking,
    onlineBit]
  by_cases hon : bits.getLsbD 0 = true
  · rw [if_pos hon, if_pos hon]
    dsimp only
    rw [hseen, relinked_port, if_pos rfl]
    by_cases hwarm : (v.port p).link.warm = .expired
    · rw [if_pos hwarm, if_pos hwarm, State.becomeReady, relinked_modLink, judgeJamStop_jammed (hrelinked _)]
      exact settled_jammed_again (hrelinked _)
    · rw [if_neg hwarm, if_neg hwarm, judgeJamStop_jammed (hrelinked _)]
      exact settled_settle _
  · rw [if_neg hon, if_neg hon, judgeJamStop_jammed hjam, relinked_same]
    exact settled_settle v

/-- A DROWSY link served a STATUS (R125, R126). -/
theorem settled_statusInDrowsy (hst : (v.port p).link.state = .drowsy) (online : Bool) :
    settled (v.statusTaken p (portWakeOnStatus (v.portWord p)) online)
      (if portWakeOnStatus (v.portWord p) then v.wake p else v).settle := by
  rw [State.statusTaken, afterStatus_drowsy hst]
  split
  case isTrue => exact settled_settlePort_settle _ p
  case isFalse =>
    rw [List.append_nil, relinked_same]
    exact settled_settle v

/-- A STATUS taken whose evaluation leaves the port with a JAM condition true: the link follows its state, and the ports
settle. -/
theorem settled_takeStatus_jammed {bits : BitVec 16} {n : Nat} (hv : s.serveStatus p bits n = v)
    (hsame : (v.port p).link.state = (s.port p).link.state) (hjam : (v.port p).watch.holds .jam = true)
    (hst : (s.port p).link.state = .ready ∨ (s.port p).link.state = .waking ∨ (s.port p).link.state = .drowsy) :
    settled (v.statusTaken p ((s.port p).link.state == .drowsy && portWakeOnStatus (v.portWord p)) (bits.getLsbD 0))
      (s.takeStatus p bits n) := by
  unfold State.takeStatus
  obtain h | h | h := hst <;> rw [h] at hsame ⊢ <;> dsimp only <;> rw [hv]
  · show settled (v.statusTaken p false _) _
    rw [State.statusTaken, afterStatus_ready hsame, if_neg Bool.false_ne_true, List.append_nil, relinked_same,
      judgeJamStop_jammed hjam]
    exact settled_settle v
  · exact settled_statusInWaking hsame hjam bits
  · exact settled_statusInDrowsy hsame _

/-! ### The rewind at the edge -/

theorem watch_holds {w : Watch} {c : CondId} {cls : CondClass} (ht : (tget w.conditions c).truth = true)
    (hc : (tget w.conditions c).cls = cls) : w.holds cls = true := by
  refine List.any_eq_true.2 ⟨tget w.conditions c, Vector.mem_toList_iff.2 (Vector.getElem_mem c.isLt), ?_⟩
  rw [ht, hc, Bool.true_and]
  exact beq_self_eq_true cls

end Jam

/-- A port with an open page has a ticket in hand, so that CUT is handed for it whenever the link is READY (R106). -/
theorem cut_of_pageInHand {x : Port} (h : x.pageInHand) :
    (x.hasOpenPage && x.link.state == .ready && x.engine.job.isSome) = (x.link.state == .ready && x.hasOpenPage) := by
  cases hopen : x.hasOpenPage with
  | false => rw [Bool.and_false, Bool.false_and, Bool.false_and]
  | true => rw [Option.isSome_iff_ne_none.2 (h hopen), Bool.and_true, Bool.true_and, Bool.and_true]

/-- The rewind at a JAM edge, which follows the sheets and the alerts (R136, R138). -/
theorem afterRewind_alerted {s : State} {p : PortId} {n : Byte} (h : ((s.sheetsMatched p n).port p).pageInHand)
    (bits : BitVec 16) (order : List CondId) (draws : Nat) :
    AfterRewind (s.sheetsMatched p n) (order.foldl (s.withEdge p bits) (s.sheetsMatched p n).relay.backlog)
      ((s.alerted p bits n order draws).rewind p) p :=
  (afterRewind_rewind (s := s.alerted p bits n order draws) (by rw [alerted_port]; exact h)).of_rewatched

/-- A STATUS with a JAM edge, served. -/
theorem serveStatus_jam {s : State} {p : PortId} {bits : BitVec 16} {c : CondId} (n : Byte) (hedge : s.edge p bits c)
    (hcls : (tget (s.truths p bits) c).cls = .jam) : ∃ order draws, s.edgeOrder p bits order ∧
      (s.heard p).serveStatus p bits (n.toNat % 16) = (s.alerted p bits n order draws).rewind p := by
  obtain ⟨order, draws, horder, hserve⟩ := serveStatus_eq s p bits n
  have hany : (order.any fun c => (tget (s.truths p bits) c).cls == .jam) = true :=
    List.any_eq_true.2 ⟨c, (horder.2 c).2 hedge, beq_iff_eq.2 hcls⟩
  exact ⟨order, draws, horder, hserve.trans (if_pos hany)⟩

/-- Settles O49. -/
theorem aJamEdgeRewindsThePort : Obligations.AJamEdgeRewindsThePort := by
  intro p bits n s d l hst hhand ⟨c, hedge, hcls⟩ wakes
  obtain ⟨order, draws, horder, hserve⟩ := serveStatus_jam n hedge hcls
  have hframe : SheetsFrame (s.heard p) d p := sheetsFrame_deliverSheets (s.heard p) p _
  have hafter := afterRewind_alerted hhand bits order draws
  have hport := rewind_port (s.alerted p bits n order draws) p p
  have hout := rewind_out (s.alerted p bits n order draws) p
  have halerted : (s.alerted p bits n order draws).out = [] := hframe.out
  have hcut := cut_of_pageInHand hhand
  rw [if_pos rfl, alerted_port] at hport
  rw [alerted_port, halerted, List.nil_append] at hout
  refine ⟨order, horder, _, exec_status (fun h => ?_) bits n, ?_⟩
  · obtain e | e | e := hst <;> exact LinkState.noConfusion (h.symm.trans e)
  generalize State.rewind _ p = v at *
  have hheard : ((s.heard p).port p).link = l.heard s.milliseconds s.microseconds (portSilenceMs (s.portWord p)) := by
    rw [heard_port]
  have hdlink : (d.port p).link = l.heard s.milliseconds s.microseconds (portSilenceMs (s.portWord p)) :=
    hframe.link.trans hheard
  have hlink : (v.port p).link = l.heard s.milliseconds s.microseconds (portSilenceMs (s.portWord p)) := by
    rw [hport]
    exact hdlink
  have hword : v.portWord p = s.portWord p := by rw [State.portWord, hafter.image, hframe.image]; rfl
  have hu := settled_takeStatus_jammed hserve (by rw [hlink, hheard]) (by rw [hport]; exact watch_holds hedge.1 hcls)
    (by rw [hheard]; exact hst)
  obtain ⟨hrewound, huport, huout⟩ := rewound_of_relinked hafter hu
  refine ⟨hrewound, by rw [huport, hport], by rw [huport, hport], ?_, ?_, ?_⟩
  · rw [huport, hport]
    show (d.port p).engine.pacer = _
    rw [hframe.engine, heard_port]
  · rw [huport, hlink, hheard, hword, hafter.milliseconds, hafter.microseconds, hframe.milliseconds,
      hframe.microseconds]
    rfl
  · rw [hdlink] at hcut
    rw [huout, hout, hword, hheard, hdlink]
    exact congrArg (fun b : Bool => (if b then _ else _) ++ _) hcut

end Sys2Proof.Machine

/-! ## POST, RELEASE and CANCEL of tickets that no engine sends (R44 to R46, R52, R55, R57, R63, R79) -/

namespace Sys2Proof.Machine

/-! ### Job codes taken in their place -/

/-- A job row's write, taken by the ticket table, is answered ACK OK behind what the ticket table does (R44). -/
theorem exec_takesJob {row : Byte × (PostWrite → Instr) × List TicketState} (hrow : row ∈ jobRows) {w : PostWrite}
    {s : State} (h : s.takesJob row.1 w) : exec (row.2.1 w) s =
      .next ((s.clearOut.takeJob w.slot (BitVec.ofNat 36 (s.postAddr w.slot)) row.1).ack w.tag .ok) := by
  have hset : s.clearOut.ticketWindowSet := h.ticketWindowSet
  obtain ⟨⟨⟨hopen, hheld⟩, hfree⟩, hcomp, -⟩ := h
  rw [exec_jobRow hrow, postWrite_taken (s := s.clearOut) (w := w) hopen hheld hfree hset hcomp]
  rfl

/-- POST in FREE (R45). -/
theorem exec_post {s : State} {w : PostWrite} (h : s.takesJob 0x41#8 w) (hst : (s.ticket w.slot).state = .free) :
    exec (.post w) s = .next ((s.clearOut.postTicket w.slot).ack w.tag .ok) := by
  have hrow := exec_takesJob (row := (0x41, .post, [.free])) (by simp [jobRows]) h
  have hjob : s.clearOut.takeJob w.slot (BitVec.ofNat 36 (s.postAddr w.slot)) 0x41#8 = s.clearOut.postTicket w.slot := by
    simp only [State.takeJob, if_true, State.ticket_clearOut, hst]
  rw [← hjob]
  exact hrow

/-- RELEASE in DONE, CANCELLED or FAILED (R55). -/
theorem exec_release {s : State} {w : PostWrite} (h : s.takesJob 0x43#8 w)
    (hst : (s.ticket w.slot).state ∈ [.done, .cancelled, .failed]) :
    exec (.release w) s = .next ((s.clearOut.releaseTicket w.slot).ack w.tag .ok) := by
  have hrow := exec_takesJob (row := (0x43, .release, [.done, .cancelled, .failed])) (by simp [jobRows]) h
  have hjob : s.clearOut.takeJob w.slot (BitVec.ofNat 36 (s.postAddr w.slot)) 0x43#8 =
      s.clearOut.releaseTicket w.slot := by
    have hcode : s.clearOut.takeJob w.slot (BitVec.ofNat 36 (s.postAddr w.slot)) 0x43#8 =
        (match (s.ticket w.slot).state with
          | .done | .cancelled | .failed => s.clearOut.releaseTicket w.slot
          | _ => s.clearOut.postFault (BitVec.ofNat 36 (s.postAddr w.slot)) .state) := rfl
    simp only [List.mem_cons, List.not_mem_nil, or_false] at hst
    obtain hst | hst | hst := hst <;> rw [hcode, hst]
  rw [← hjob]
  exact hrow

/-- CANCEL by the ticket's state (R52, R53). -/
theorem exec_cancel {s : State} {w : PostWrite} (h : s.takesJob 0x42#8 w) : exec (.cancel w) s = .next
    ((match (s.ticket w.slot).state with
      | .queued => s.clearOut.cancelQueued w.slot
      | .active | .draining => s.clearOut.cancelSent w.slot
      | _ => s.clearOut.postFault (BitVec.ofNat 36 (s.postAddr w.slot)) .state).ack w.tag .ok) :=
  exec_takesJob (row := (0x42, .cancel, [.queued, .active, .draining])) (by simp [jobRows]) h

theorem exec_cancel_queued {s : State} {w : PostWrite} (h : s.takesJob 0x42#8 w)
    (hst : (s.ticket w.slot).state = .queued) :
    exec (.cancel w) s = .next ((s.clearOut.cancelQueued w.slot).ack w.tag .ok) := by
  rw [exec_cancel h, hst]

theorem exec_cancel_sent {s : State} {w : PostWrite} (h : s.takesJob 0x42#8 w)
    (hst : (s.ticket w.slot).state = .active ∨ (s.ticket w.slot).state = .draining) :
    exec (.cancel w) s = .next ((s.clearOut.cancelSent w.slot).ack w.tag .ok) := by
  obtain hst | hst := hst <;> rw [exec_cancel h, hst]

/-! ### POST and RELEASE (R45, R46, R55) -/

theorem presentTicketFetch_cons {s : State} {t : Slot} {ts : List Slot} (h : s.fetcher.queue = t :: ts) :
    s.presentTicketFetch = { s with msp := { s.msp with
      waiting := if s.msp.waiting.any (fun r => r.owner.isTicketFetch) then s.msp.waiting
        else s.msp.waiting ++ [s.ticketFetchRequest t] } } := by
  simp only [State.presentTicketFetch, h]
  split
  · rfl
  · rfl

theorem cons_of_append_singleton (q : List Slot) (t : Slot) : ∃ ts, q ++ [t] = q.headD t :: ts := by
  cases q with
  | nil => exact ⟨[], rfl⟩
  | cons u us => exact ⟨us ++ [t], rfl⟩

/-- Settles O29: the fetch presented is the one of the fetch queue's head, which is the posted ticket's own slot when the
queue was empty. -/
theorem postAndReleaseMoveTheTicket : Obligations.PostAndReleaseMoveTheTicket := by
  refine ⟨fun w s ht hfree => ?_, fun w s ht hst => exec_release ht hst⟩
  obtain ⟨ts, hts⟩ := cons_of_append_singleton s.fetcher.queue w.slot
  rw [exec_post ht hfree, State.postTicket, presentTicketFetch_cons hts]
  rfl

/-! ### CANCEL of a queued ticket (R52, R57, R63, R79) -/

/-- The backlog after the ending of a ticket with a mirror: a JOB raise for FAILED and for `notify` (R57). -/
theorem endTicket_withJobAlert {s : State} {t : Slot} {m : Mirror} (hm : (s.ticket t).mirror = some m)
    (st : TicketState) (r : Reason) : (s.endTicket t st r).relay.backlog =
      s.withJobAlert t m r (decide (st = .failed) || m.notify) := by
  simp only [endTicket_backlog, hm, State.withJobAlert, Bool.or_eq_true, decide_eq_true_eq]

theorem isTouchedBlock_eq_covers (s : State) (m : Mirror) (b : Fin 4096) :
    isTouchedBlock s.image.spoolWindow m b = s.covers m b := rfl

theorem vector_eq_ofFn {α : Type} {n : Nat} {v : Vector α n} {f : Fin n → α} (h : ∀ i, tget v i = f i) :
    v = .ofFn f :=
  table_ext fun i => by rw [h]; simp [tget]

/-- What the ending of a ticket with a mirror leaves (R57, R79). -/
theorem endTicket_eq {s : State} {t : Slot} {m : Mirror} (hm : (s.ticket t).mirror = some m) (st : TicketState)
    (r : Reason) : s.endTicket t st r =
      { s with
        tickets := tset s.tickets t { s.ticket t with state := st, reason := r, resume := none }
        guards := .ofFn fun b => if s.covers m b then s.guard b - 1 else s.guard b
        relay := { s.relay with backlog := s.withJobAlert t m r (decide (st = .failed) || m.notify) } } := by
  have hguards : (s.endTicket t st r).guards = .ofFn fun b => if s.covers m b then s.guard b - 1 else s.guard b :=
    vector_eq_ofFn fun b => by
      have hb := endTicket_guard s t st r b
      simp only [hm, Option.any_some, isTouchedBlock_eq_covers] at hb
      exact hb
  rw [endTicket_frame, endTicket_withJobAlert hm, hguards, endTicket_tickets]
  rfl

/-- Settles O30: the ticket leaves its queue and ends, and its port settles. -/
theorem cancelEndsAQueuedTicket : Obligations.CancelEndsAQueuedTicket := by
  intro w m s ht hst hm
  have hmirror : (s.clearOut.ticket w.slot).mirror = some m := hm
  refine ⟨_, exec_cancel_queued ht hst, ?_⟩
  simp only [State.cancelQueued, hmirror]
  rw [endTicket_eq (s := s.clearOut.modPort m.port fun x => { x with queue := leaveQueue w.slot x.queue }) hmirror]
  exact settles_emit (settledAt_settlePort _ m.port) (.ack w.tag .ok)

end Sys2Proof.Machine

/-! ## PORT_FLUSH (R57, R74, R79) -/

namespace Sys2Proof.Machine

/-! ### The tickets of a list of queue entries ended one after another -/

/-- The tickets of the entries become CANCELLED with end reason FLUSH, in the order of the list (R74). -/
def State.flushing (s : State) (q : List QueueEntry) : State :=
  q.foldl (fun s e => s.endTicket e.slot .cancelled .flush) s

theorem flushing_cons (s : State) (e : QueueEntry) (q : List QueueEntry) :
    s.flushing (e :: q) = (s.endTicket e.slot .cancelled .flush).flushing q := rfl

theorem flushing_frame (q : List QueueEntry) (s : State) : s.flushing q =
    { s with tickets := (s.flushing q).tickets, guards := (s.flushing q).guards,
             relay := { s.relay with backlog := (s.flushing q).relay.backlog } } := by
  induction q generalizing s with
  | nil => rfl
  | cons e q ih =>
    rw [flushing_cons, ih, endTicket_frame]

theorem flushing_ticket (q : List QueueEntry) (s : State) (k : Slot) : (s.flushing q).ticket k =
    if k ∈ q.map QueueEntry.slot then { s.ticket k with state := .cancelled, reason := .flush, resume := none }
    else s.ticket k := by
  induction q generalizing s with
  | nil => rfl
  | cons e q ih =>
    rw [flushing_cons, ih, endTicket_ticket]
    by_cases hk : k = e.slot
    · subst hk
      simp
    · simp only [hk, List.map_cons, List.mem_cons, false_or, if_false]

/-- The ended tickets keep their mirrors, so that each entry's blocks are those of its ticket before the flush. -/
theorem endTicket_mirror (s : State) (t k : Slot) (st : TicketState) (r : Reason) :
    ((s.endTicket t st r).ticket k).mirror = (s.ticket k).mirror := by
  rw [endTicket_ticket]
  split
  case isTrue h => rw [h]
  case isFalse => rfl

theorem flushing_guard (q : List QueueEntry) (s : State) (b : Fin 4096) : (s.flushing q).guard b =
    s.guard b - q.countP fun e => (s.ticket e.slot).mirror.any fun m => isTouchedBlock s.image.spoolWindow m b := by
  induction q generalizing s with
  | nil => rfl
  | cons e q ih =>
    have himage : (s.endTicket e.slot .cancelled .flush).image = s.image := by rw [endTicket_frame]
    rw [flushing_cons, ih, endTicket_guard, List.countP_cons]
    simp only [endTicket_mirror, himage]
    split
    case isTrue => rw [Nat.sub_sub, Nat.add_comm]
    case isFalse => rfl

/-- What a flush raises for a ticket does not depend on the tickets already flushed. -/
theorem addFlushJob_endTicket (s : State) (t k : Slot) (st : TicketState) (r : Reason) (ls : List Latch) :
    addFlushJob (s.endTicket t st r) k ls = addFlushJob s k ls := by
  have hms : (s.endTicket t st r).milliseconds = s.milliseconds := by rw [endTicket_frame]
  have hcounts : ((s.endTicket t st r).ticket k).delivered = (s.ticket k).delivered ∧
      ((s.endTicket t st r).ticket k).spoiled = (s.ticket k).spoiled := by
    rw [endTicket_ticket]
    split
    case isTrue h => rw [h]; exact ⟨rfl, rfl⟩
    case isFalse => exact ⟨rfl, rfl⟩
  simp only [addFlushJob, endTicket_mirror, hms, hcounts]

theorem endTicket_flushJob (s : State) (t : Slot) :
    (s.endTicket t .cancelled .flush).relay.backlog = addFlushJob s t s.relay.backlog := by
  rw [endTicket_backlog, addFlushJob]
  cases (s.ticket t).mirror with
  | none => rfl
  | some m => simp

theorem flushing_backlog (q : List QueueEntry) (s : State) : (s.flushing q).relay.backlog =
    q.foldl (fun ls e => addFlushJob s e.slot ls) s.relay.backlog := by
  induction q generalizing s with
  | nil => rfl
  | cons e q ih =>
    rw [flushing_cons, ih, List.foldl_cons, endTicket_flushJob]
    simp only [addFlushJob_endTicket]

/-! ### The command -/

theorem exec_portFlush {c : CommandWrite} {p : PortId} {s : State} (ht : s.takes 0x12#8 c)
    (hp : c.argument.toNat = p.val) :
    exec (.portFlush c) s = .next ((s.clearOut.takeCommand 0x12 c.argument c.value.toNat).ack c.tag .ok) ∧
      s.clearOut.perform 0x12 c.argument c.value.toNat = s.clearOut.portFlush p := by
  obtain ⟨⟨⟨hopen, hheld⟩, hfree⟩, hcomp⟩ := ht
  refine ⟨congrArg Host.Outcome.next (commandWrite_taken (s := s.clearOut) hopen hheld hfree hcomp), ?_⟩
  change s.clearOut.onPort c.argument s.clearOut.portFlush = _
  rw [State.onPort, portArg_eq hp]

theorem portFlush_nil {s : State} {p : PortId} (h : (s.port p).queue = []) : s.portFlush p = (s, .nothing) := by
  rw [State.portFlush, h]

theorem portFlush_queue {s : State} {p : PortId} (h : (s.port p).queue ≠ []) :
    s.portFlush p = (((s.setQueue p []).flushing (s.port p).queue).settlePort p, .done) := by
  unfold State.portFlush
  split
  case h_1 hnil => exact absurd hnil h
  case h_2 => rfl

/-- Settles O21. -/
theorem flushCancelsTheQueue : Obligations.FlushCancelsTheQueue := by
  intro c p s hp ht
  obtain ⟨hexec, hperform⟩ := exec_portFlush ht hp
  refine ⟨fun hnil => ?_, fun hqueue _ => ?_⟩
  · rw [hexec, takeCommand_eq (hperform.trans (portFlush_nil (s := s.clearOut) hnil))]
    rfl
  · refine ⟨_, hexec, ?_⟩
    have hsettled := takeCommand_settledPort p c.tag (hperform.trans (portFlush_queue (s := s.clearOut) hqueue))
    have htickets : ((s.clearOut.setQueue p []).flushing (s.port p).queue).tickets = .ofFn fun k : Slot =>
        if k ∈ (s.port p).queue.map QueueEntry.slot then
          { s.ticket k with state := .cancelled, reason := .flush, resume := none }
        else s.ticket k :=
      vector_eq_ofFn fun k => flushing_ticket _ _ k
    have hguards : ((s.clearOut.setQueue p []).flushing (s.port p).queue).guards = .ofFn fun b => s.guard b -
        (s.port p).queue.countP fun e => (s.ticket e.slot).mirror.any fun m => isTouchedBlock s.image.spoolWindow m b :=
      vector_eq_ofFn fun b => flushing_guard _ _ b
    rw [State.port_clearOut, flushing_frame, htickets, hguards, flushing_backlog] at hsettled
    exact hsettled

end Sys2Proof.Machine

/-! ## Engines stopped, and CANCEL of a ticket that was sent (R53, R56, R107 to R109) -/

namespace Sys2Proof.Machine

/-! ### What the withdrawal of a page leaves alone (R106) -/

theorem withdrawOpen_image (s : State) (p : PortId) : (s.withdrawOpen p).image = s.image := by rw [withdrawOpen_frame]

theorem withdrawOpen_guards (s : State) (p : PortId) : (s.withdrawOpen p).guards = s.guards := by rw [withdrawOpen_frame]

theorem withdrawOpen_fetcher (s : State) (p : PortId) : (s.withdrawOpen p).fetcher = s.fetcher := by
  rw [withdrawOpen_frame]

theorem withdrawOpen_msp (s : State) (p : PortId) : (s.withdrawOpen p).msp = s.msp := by rw [withdrawOpen_frame]

/-! ### The engine stops after CANCEL or a memory error (R53, R107, R109) -/

/-- The ticket in hand is made CANCELLING or FAILING and its engine stopped, all but the drain test (R53, R107, R109). -/
def State.halted (s : State) (p : PortId) (k : Slot) (st : TicketState) (r : Reason) : State :=
  ((((s.modTicket k fun x => { x with state := st, reason := r }).withdrawOpen p).takeBackFetch p k).remarkFetches p
    (.stopped k)).dropJob p k

section Halted
variable (s : State) (p : PortId) (k : Slot) (st : TicketState) (r : Reason)

theorem halted_port (q : PortId) : (s.halted p k st r).port q = if q = p then
    { s.port p with
      pages := (s.port p).closedPages, engine := { (s.port p).engine with job := none, state := .idle } }
    else s.port q := by
  simp only [State.halted, State.dropJob, State.remarkFetches, State.takeBackFetch, State.port_modTicket,
    State.port_modEngine, State.port_modMsp, withdrawOpen_port, if_pos]
  split <;> rfl

theorem halted_ticket (u : Slot) : (s.halted p k st r).ticket u = if u = k then
    { (s.withdrawOpen p).ticket k with
      state := st, reason := r
      fetchCount := (s.ticket k).fetchCount - s.msp.waiting.countP (·.isFetchOf p)
      sending := false }
    else (s.withdrawOpen p).ticket u := by
  have hmsp : ((s.modTicket k fun x => { x with state := st, reason := r }).withdrawOpen p).msp = s.msp :=
    withdrawOpen_msp _ p
  simp only [State.halted, State.dropJob, State.remarkFetches, State.takeBackFetch, State.ticket_modTicket,
    State.ticket_modEngine, State.ticket_modMsp, withdrawOpen_ticket, State.port_modTicket, hmsp, if_pos]
  split <;> rfl

theorem halted_msp : (s.halted p k st r).msp = { s.msp with
    waiting := s.msp.waiting.filter fun x => !x.isFetchOf p
    outstanding := s.msp.outstanding.map (Granted.remark p (.stopped k)) } := by
  simp only [State.halted, State.dropJob, State.remarkFetches, State.takeBackFetch, State.modTicket_msp,
    State.modEngine_msp, State.modMsp, withdrawOpen_msp]

theorem halted_image : (s.halted p k st r).image = s.image := by
  simp only [State.halted, State.dropJob, State.remarkFetches, State.takeBackFetch, State.modTicket_image,
    State.modEngine_image, State.modMsp_image, withdrawOpen_image]

theorem halted_guards : (s.halted p k st r).guards = s.guards := by
  simp only [State.halted, State.dropJob, State.remarkFetches, State.takeBackFetch, State.modTicket_guards,
    State.modEngine_guards, State.modMsp_guards, withdrawOpen_guards]

theorem halted_fetcher : (s.halted p k st r).fetcher = s.fetcher := by
  simp only [State.halted, State.dropJob, State.remarkFetches, State.takeBackFetch, State.modTicket_fetcher,
    State.modEngine_fetcher, State.modMsp_fetcher, withdrawOpen_fetcher]

end Halted

/-! ### CANCEL of an ACTIVE or DRAINING ticket (R53, R56, R107, R108) -/

theorem pageEnded_withTickets (s : State) (T : Vector Ticket 256) :
    ({ s with tickets := T } : State).pageEnded = { s.pageEnded with tickets := T } := by
  have hopen : ({ s with tickets := T } : State).anyOpenPage = s.anyOpenPage := rfl
  unfold State.pageEnded
  rw [hopen]
  split <;> rfl

/-- What a withdrawal does to the rest of the part does not depend on the tickets. -/
theorem withdrawOpen_modTicket (s : State) (p : PortId) (k : Slot) (f : Ticket → Ticket) :
    (s.modTicket k f).withdrawOpen p =
      { s.withdrawOpen p with tickets := ((s.modTicket k f).withdrawOpen p).tickets } := by
  cases h : (s.port p).openEntry with
  | none =>
    rw [withdrawOpen_none h, withdrawOpen_none (s := s.modTicket k f) h]
    rfl
  | some e =>
    rw [withdrawOpen_some h, withdrawOpen_some (s := s.modTicket k f) h]
    have hcommutes : (s.modTicket k f).withdrawing p e =
        { s.withdrawing p e with tickets := ((s.modTicket k f).withdrawing p e).tickets } := rfl
    rw [hcommutes, pageEnded_withTickets]

theorem halted_frame (s : State) (p : PortId) (k : Slot) (st : TicketState) (r : Reason) : s.halted p k st r =
    { s.withdrawOpen p with
      ports := (s.halted p k st r).ports, tickets := (s.halted p k st r).tickets, msp := (s.halted p k st r).msp } := by
  have hw := withdrawOpen_modTicket s p k fun x => { x with state := st, reason := r }
  unfold State.halted
  generalize (s.modTicket k fun x => { x with state := st, reason := r }).withdrawOpen p = w at hw ⊢
  generalize s.withdrawOpen p = v at hw ⊢
  rw [hw]
  rfl

/-- What a halt leaves, where the open page is the halted ticket's own (R106, R107). -/
theorem halted_eq {s : State} {p : PortId} {k : Slot} (hown : ∀ e, (s.port p).openEntry = some e → e.slot = k)
    (st : TicketState) (r : Reason) : s.halted p k st r =
    { s.withdrawOpen p with
      ports := tset s.ports p { s.port p with
        pages := if (s.port p).openEntry.isSome then (s.port p).pages.dropLast else (s.port p).pages
        engine := { (s.port p).engine with state := .idle, job := none } }
      tickets := tset s.tickets k { s.ticket k with
        state := st, reason := r
        entryCount := (s.ticket k).entryCount - if (s.port p).openEntry.isSome then 1 else 0
        fetchCount := (s.ticket k).fetchCount - s.msp.waiting.countP (·.isFetchOf p)
        sending := false }
      msp := { s.msp with
        waiting := s.msp.waiting.filter fun x => !x.isFetchOf p
        outstanding := s.msp.outstanding.map (Granted.remark p (.stopped k)) } } := by
  have hentries (u : Slot) : ((s.port p).openEntry.toList.countP fun e => e.slot == u) =
      if u = k then (if (s.port p).openEntry.isSome then 1 else 0) else 0 := by
    cases h : (s.port p).openEntry with
    | none => simp
    | some e =>
      by_cases hu : u = k
      · simp [hu, hown e h]
      · simp [hu, hown e h, Ne.symm hu]
  have hports : (s.halted p k st r).ports = tset s.ports p { s.port p with
      pages := if (s.port p).openEntry.isSome then (s.port p).pages.dropLast else (s.port p).pages
      engine := { (s.port p).engine with state := .idle, job := none } } :=
    table_ext fun q => (halted_port s p k st r q).trans (tget_tset s.ports p q _).symm
  have htickets : (s.halted p k st r).tickets = tset s.tickets k { s.ticket k with
      state := st, reason := r
      entryCount := (s.ticket k).entryCount - if (s.port p).openEntry.isSome then 1 else 0
      fetchCount := (s.ticket k).fetchCount - s.msp.waiting.countP (·.isFetchOf p)
      sending := false } := by
    refine table_ext fun u => (halted_ticket s p k st r u).trans ?_
    rw [tget_tset]
    by_cases hu : u = k
    · simp only [if_pos hu, withdrawOpen_ticket, hentries, if_true]
    · simp only [if_neg hu, withdrawOpen_ticket, hentries, Nat.sub_zero]
      rfl
  have hframe := halted_frame s p k st r
  rw [hports, htickets, halted_msp] at hframe
  exact hframe

/-- The accounts after a withdrawal: the reservation of the open page is given back (R106). -/
theorem withdrawOpen_accounts (s : State) (p : PortId) : (s.withdrawOpen p).accounts = .ofFn fun a =>
    if (s.port p).openEntry.any fun e => e.account == a then { s.account a with reserved := (s.account a).reserved - 1 }
    else s.account a := by
  refine vector_eq_ofFn fun a => (withdrawOpen_account s p a).trans ?_
  cases (s.port p).openEntry with
  | none => rfl
  | some e =>
    simp only [Option.toList_some, List.countP_singleton, Option.any_some]
    split <;> rfl

theorem stopEngine_eq (s : State) (p : PortId) (k : Slot) (st : TicketState) (r : Reason) :
    (s.modTicket k fun x => { x with state := st, reason := r }).stopEngine p k = (s.halted p k st r).drainTest k := rfl

section CancelSent
variable {s : State} {k : Slot} {m : Mirror}

/-- A sent ticket that no engine has in hand only becomes CANCELLING while it has pages to drain (R53, R56). -/
theorem cancelSent_elsewhere (hm : (s.ticket k).mirror = some m) (hhand : s.inHand m.port ≠ some k)
    (hentries : (s.ticket k).entryCount ≠ 0) :
    s.cancelSent k = (s.modTicket k fun x => { x with state := .cancelling, reason := .cancel }).settle := by
  have hmirror : ((s.modTicket k fun x => { x with state := .cancelling, reason := .cancel }).ticket k).mirror =
      some m := by
    rw [State.ticket_modTicket_self]
    exact hm
  have hstays : (s.modTicket k fun x => { x with state := .cancelling, reason := .cancel }).drainTest k =
      s.modTicket k fun x => { x with state := .cancelling, reason := .cancel } :=
    drainTest_stays (.inl (by rw [State.ticket_modTicket_self]; exact hentries))
  simp only [State.cancelSent, hmirror, State.inHand_modTicket, if_neg hhand, hstays]

/-- The engine that has the ticket in hand stops (R53, R107). -/
theorem cancelSent_inHand (hm : (s.ticket k).mirror = some m) (hhand : s.inHand m.port = some k) :
    s.cancelSent k = ((s.halted m.port k .cancelling .cancel).drainTest k).settle := by
  have hmirror : ((s.modTicket k fun x => { x with state := .cancelling, reason := .cancel }).ticket k).mirror =
      some m := by
    rw [State.ticket_modTicket_self]
    exact hm
  simp only [State.cancelSent, hmirror, State.inHand_modTicket, hhand, if_true, stopEngine_eq]

end CancelSent

/-- The drain test of a CANCELLING ticket that is no longer sent: with nothing left to drain it ends (R56, R57). -/
theorem drainTest_cancelling {v : State} {k : Slot} {m : Mirror} (hst : (v.ticket k).state = .cancelling)
    (hsend : (v.ticket k).sending = false) (hm : (v.ticket k).mirror = some m) {d : Bool}
    (hd : decide ((v.ticket k).entryCount = 0 ∧ (v.ticket k).fetchCount = 0) = d) : v.drainTest k =
    { v with
      tickets := tset v.tickets k { v.ticket k with
        state := if d then .cancelled else .cancelling
        reason := if d then .cancel else (v.ticket k).reason
        resume := if d then none else (v.ticket k).resume }
      guards := .ofFn fun b => if d && v.covers m b then v.guard b - 1 else v.guard b
      relay := { v.relay with backlog := v.withJobAlert k m .cancel (d && m.notify) } } := by
  cases d with
  | true =>
    obtain ⟨he, hf⟩ := of_decide_eq_true hd
    have hends : v.drainTest k = v.endTicket k .cancelled .cancel := by
      simp only [State.drainTest, he, hf, hsend, and_self, if_true, hst]
    rw [hends, endTicket_eq hm]
    rfl
  | false =>
    have hstays : v.drainTest k = v := by
      rw [State.drainTest, if_neg]
      rintro ⟨he, hf, -⟩
      exact of_decide_eq_false hd ⟨he, hf⟩
    have hticket : tset v.tickets k { v.ticket k with state := .cancelling } = v.tickets := by
      rw [← hst]
      exact tset_tget v.tickets k
    have hguards : Vector.ofFn (fun b => v.guard b) = v.guards := (vector_eq_ofFn fun _ => rfl).symm
    rw [hstays]
    simp only [Bool.false_and, Bool.false_eq_true, if_false, State.withJobAlert, hguards]
    rw [hticket]

/-- The engine of a CANCELLED ticket stopped, and the drain test made (R53, R56, R107). -/
theorem drainTest_halted {s : State} {p : PortId} {k : Slot} {m : Mirror} (hm : (s.ticket k).mirror = some m)
    (hown : ∀ e, (s.port p).openEntry = some e → e.slot = k) {d : Bool} {entries fetches : Nat}
    (he : entries = (s.ticket k).entryCount - if (s.port p).openEntry.isSome then 1 else 0)
    (hf : fetches = (s.ticket k).fetchCount - s.msp.waiting.countP (·.isFetchOf p))
    (hd : d = decide (entries = 0 ∧ fetches = 0)) : (s.halted p k .cancelling .cancel).drainTest k =
    { s.withdrawOpen p with
      ports := tset s.ports p { s.port p with
        pages := if (s.port p).openEntry.isSome then (s.port p).pages.dropLast else (s.port p).pages
        engine := { (s.port p).engine with state := .idle, job := none } }
      tickets := tset s.tickets k { s.ticket k with
        state := if d then .cancelled else .cancelling
        reason := .cancel
        entryCount := entries
        fetchCount := fetches
        sending := false
        resume := if d then none else (s.ticket k).resume }
      guards := .ofFn fun b => if d && s.covers m b then s.guard b - 1 else s.guard b
      msp := { s.msp with
        waiting := s.msp.waiting.filter fun x => !x.isFetchOf p
        outstanding := s.msp.outstanding.map (Granted.remark p (.stopped k)) }
      relay := { s.relay with backlog := s.withJobAlert k m .cancel (d && m.notify) } } := by
  have hhalted := halted_eq hown .cancelling .cancel
  rw [← he, ← hf] at hhalted
  have hticket : (s.halted p k .cancelling .cancel).ticket k = { s.ticket k with
      state := .cancelling, reason := .cancel, entryCount := entries, fetchCount := fetches, sending := false } := by
    rw [hhalted]
    exact tget_tset_self _ _ _
  have hframe := withdrawOpen_frame s p
  generalize s.withdrawOpen p = v at hhalted hframe ⊢
  have hcovers (b : Fin 4096) : (s.halted p k .cancelling .cancel).covers m b = s.covers m b := by
    rw [State.covers, halted_image, State.covers]
  have hguard (b : Fin 4096) : (s.halted p k .cancelling .cancel).guard b = s.guard b := by
    rw [State.guard, halted_guards, State.guard]
  have hrelay : (s.halted p k .cancelling .cancel).relay = s.relay := by rw [hhalted, hframe]
  have hms : (s.halted p k .cancelling .cancel).milliseconds = s.milliseconds := by rw [hhalted, hframe]
  have hjob : (s.halted p k .cancelling .cancel).withJobAlert k m .cancel (d && m.notify) =
      s.withJobAlert k m .cancel (d && m.notify) := by
    simp only [State.withJobAlert, hticket, hrelay, hms]
  rw [drainTest_cancelling (m := m) (d := d) (by rw [hticket]) (by rw [hticket]) (by rw [hticket]; exact hm)
    (by rw [hticket, hd]), hjob, hrelay, hticket]
  simp only [hcovers, hguard, ite_self]
  rw [hhalted]
  simp only [tset_tset]

/-- Settles O31. -/
theorem cancelStopsASentTicket : Obligations.CancelStopsASentTicket := by
  intro w m s ht hst hm
  have hexec := exec_cancel_sent ht hst
  refine ⟨fun hhand hentries => ?_, fun hhand hown hnewest => ?_⟩
  · rw [cancelSent_elsewhere (s := s.clearOut) hm hhand hentries] at hexec
    have hsettled := settles_emit (settled_settle (s.clearOut.modTicket w.slot fun x =>
      { x with state := .cancelling, reason := .cancel })) (.ack w.tag .ok)
    exact ⟨_, hexec, hsettled⟩
  · rw [cancelSent_inHand (s := s.clearOut) hm hhand] at hexec
    have hsettled : settled (((s.clearOut.halted m.port w.slot .cancelling .cancel).drainTest w.slot).ack w.tag .ok) _ :=
      settles_emit (settled_settle _) (.ack w.tag .ok)
    refine ⟨((((s.clearOut.halted m.port w.slot .cancelling .cancel).drainTest w.slot).settle).emit (.ack w.tag .ok)),
      hexec, ?_⟩
    generalize (((s.clearOut.halted m.port w.slot .cancelling .cancel).drainTest w.slot).settle).emit
      (.ack w.tag .ok) = u at hsettled ⊢
    rw [drainTest_halted (s := s.clearOut) hm hown rfl rfl rfl, withdrawOpen_frame, withdrawOpen_accounts,
      withdrawOpen_global (s := s.clearOut) hnewest, withdrawOpen_out] at hsettled
    exact hsettled

end Sys2Proof.Machine

/-! ## The fields of a ticket slot (R40, R184, R189) -/

namespace Sys2Proof.Machine

theorem leNat_lt (bs : List Byte) : leNat bs < 256 ^ bs.length := by
  induction bs with
  | nil => exact Nat.one_pos
  | cons b bs ih =>
    have hb := b.isLt
    rw [leNat, List.length_cons, Nat.pow_succ]
    omega

theorem wordOfBytes_toNat {bs : List Byte} (h : bs.length ≤ 8) : (wordOfBytes bs).toNat = leNat bs := by
  have hlt : leNat bs < 2 ^ 64 :=
    Nat.lt_of_lt_of_le (leNat_lt bs) (Nat.pow_le_pow_right (n := 256) (by decide) h)
  rw [wordOfBytes, BitVec.toNat_ofNat, Nat.mod_eq_of_lt hlt]

/-- A field of a word given by its eight bytes, as a number. -/
theorem bits_wordOfBytes {bs : List Byte} (h : bs.length ≤ 8) (lo n : Nat) :
    bits (wordOfBytes bs) lo n = leNat bs / 2 ^ lo % 2 ^ n := by
  rw [bits, wordOfBytes_toNat h, Nat.shiftRight_eq_div_pow]

theorem byte_getLsbD (b : Byte) (i : Nat) : b.getLsbD i = (b.toNat / 2 ^ i % 2 == 1) := by
  rw [BitVec.getLsbD, Nat.testBit_eq_decide_div_mod_eq]
  rfl

section SlotWords
variable {v0 v1 v2 : List Byte} (h0 : v0.length = 8) (h1 : v1.length = 8) (h2 : v2.length = 8) (rest : List Byte)
include h0

theorem slotWord_zero : slotWord (v0 ++ rest) 0 = wordOfBytes v0 := by
  rw [slotWord, Nat.mul_zero, List.drop_zero, List.take_left' h0]

include h1

theorem slotWord_one : slotWord (v0 ++ (v1 ++ rest)) 1 = wordOfBytes v1 := by
  rw [slotWord, List.drop_left' (by rw [h0]), List.take_left' h1]

include h2

theorem slotWord_two : slotWord (v0 ++ (v1 ++ (v2 ++ rest))) 2 = wordOfBytes v2 := by
  rw [slotWord, ← List.append_assoc, List.drop_left' (by rw [List.length_append, h0, h1]), List.take_left' h2]

/-- The fields of a slot as slices of its first three words' bytes (R40). -/
theorem parseSlot_words : parseSlot (v0 ++ (v1 ++ (v2 ++ rest))) =
    { dataBase := leNat v0 % 2 ^ 36
      length := leNat v1 % 2 ^ 32
      copies := leNat v1 / 2 ^ 32 % 2 ^ 8
      markRule := BitVec.ofNat 3 (leNat v1 / 2 ^ 40 % 2 ^ 3)
      urgent := leNat v1 / 2 ^ 48 % 2 ^ 1 == 1
      notify := leNat v1 / 2 ^ 49 % 2 ^ 1 == 1
      port := Fin.ofNat 16 (leNat v2 % 2 ^ 4)
      account := Fin.ofNat 64 (leNat v2 / 2 ^ 8 % 2 ^ 6)
      jobTag := BitVec.ofNat 32 (leNat v2 / 2 ^ 32 % 2 ^ 32) } := by
  rw [parseSlot, slotWord_zero h0, slotWord_one h0 h1, slotWord_two h0 h1 h2]
  simp only [bit, bits_wordOfBytes (Nat.le_of_eq h0), bits_wordOfBytes (Nat.le_of_eq h1),
    bits_wordOfBytes (Nat.le_of_eq h2), Nat.pow_zero, Nat.div_one]

end SlotWords

/-- Settles O38: each field is a slice of a little-endian number below 2^64. -/
theorem slotBytesCarryTheFields : Obligations.SlotBytesCarryTheFields := by
  intro b0 b1 b2 b3 b4 b5 b6 b7 l0 l1 l2 l3 n r u z p a x y t0 t1 t2 t3 rest m
  have hm : m = _ := parseSlot_words (v0 := [b0, b1, b2, b3, b4, b5, b6, b7]) (v1 := [l0, l1, l2, l3, n, r, u, z])
    (v2 := [p, a, x, y, t0, t1, t2, t3]) rfl rfl rfl rest
  rw [hm]
  simp only [leNat, byte_getLsbD, BitVec.toNat_ofNat, Fin.ofNat]
  refine ⟨?_, ?_, ?_, ?_, ?_, ?_, ?_, ?_, ?_⟩
  · omega
  · omega
  · omega
  · omega
  · congr 1; omega
  · congr 1; omega
  · omega
  · omega
  · omega

end Sys2Proof.Machine

/-! ## Posting fetches judged in order (R47 to R50, R61, R65, R78) -/

namespace Sys2Proof.Machine

/-! ### An activation (R66, R91) -/

/-- A queued ticket taken by a port's engine, before the port settles (R66, R91). -/
def State.activated (s : State) (p : PortId) (t : Slot) (m : Mirror) : State :=
  let j := s.jobFor t m (s.ticket t).resume
  (s.setTicket t { s.ticket t with
    state := .active, resume := none, sending := true, fetchCount := 0, copy := j.copy, page := j.page }).modPort p
    fun y => { y with queue := leaveQueue t y.queue, engine := { y.engine with state := .sending, job := some j } }

theorem activate_none {s : State} {t : Slot} (p : PortId) (h : (s.ticket t).mirror = none) : s.activate p t = s := by
  simp only [State.activate, h]

theorem activate_some {s : State} {t : Slot} {m : Mirror} (p : PortId) (h : (s.ticket t).mirror = some m) :
    s.activate p t = (s.activated p t m).settlePort p := by
  change (match (s.ticket t).mirror with | none => s | some m => (s.activated p t m).settlePort p) = _
  rw [h]

/-! ### What the fetcher's lists do not decide -/

/-- A state with the ticket fetcher's lists replaced. -/
def State.withFetcher (s : State) (f : Fetcher) : State := { s with fetcher := f }

section WithFetcher
variable (s : State) (f : Fetcher)

@[simp] theorem withFetcher_fetcher : (s.withFetcher f).fetcher = f := rfl

@[simp] theorem withFetcher_withFetcher (g : Fetcher) : (s.withFetcher f).withFetcher g = s.withFetcher g := rfl

theorem presentFetch_withFetcher (p : PortId) :
    (s.withFetcher f).presentFetch p = (s.presentFetch p).withFetcher f := by
  have hwanted : (s.withFetcher f).fetchWanted p = s.fetchWanted p := rfl
  rw [State.presentFetch, State.presentFetch, hwanted]
  cases s.fetchWanted p with
  | none => rfl
  | some jc => rfl

theorem settlePort_withFetcher (p : PortId) : (s.withFetcher f).settlePort p = (s.settlePort p).withFetcher f := by
  have hjudge : (s.withFetcher f).judgeEngine p = (s.judgeEngine p).withFetcher f := rfl
  rw [State.settlePort, hjudge, presentFetch_withFetcher]
  rfl

theorem activate_withFetcher (p : PortId) (t : Slot) :
    (s.withFetcher f).activate p t = (s.activate p t).withFetcher f := by
  cases h : (s.ticket t).mirror with
  | none => rw [activate_none p h, activate_none (s := s.withFetcher f) p h]
  | some m =>
    rw [activate_some p h, activate_some (s := s.withFetcher f) p h]
    exact settlePort_withFetcher (s.activated p t m) f p

theorem dispatch_withFetcher (p : PortId) : (s.withFetcher f).dispatch p = (s.dispatch p).withFetcher f := by
  have hchosen : (s.withFetcher f).toActivate p = s.toActivate p := rfl
  unfold State.dispatch
  rw [hchosen]
  cases s.toActivate p with
  | none => rfl
  | some t => exact activate_withFetcher s f p t

theorem dispatchAccepted_withFetcher (t : Slot) :
    (s.withFetcher f).dispatchAccepted t = (s.dispatchAccepted t).withFetcher f := by
  have hticket : (s.withFetcher f).ticket t = s.ticket t := rfl
  unfold State.dispatchAccepted
  rw [hticket]
  split
  · exact dispatch_withFetcher s f _
  · rfl

theorem judgeTicket_withFetcher (t : Slot) (a : KeptAnswer) :
    (s.withFetcher f).judgeTicket t a = (s.judgeTicket t a).withFetcher f := by
  have hjudged : (s.withFetcher f).judgeSlot a = s.judgeSlot a := rfl
  unfold State.judgeTicket
  rw [hjudged]
  cases s.judgeSlot a with
  | none => rfl
  | some r => rfl

end WithFetcher

theorem judgeHead_eq (s : State) (t : Slot) (a : KeptAnswer) (rest : List InFlight) :
    s.judgeHead t a rest = (s.judgeTicket t a).withFetcher { s.fetcher with inFlight := rest } := rfl

/-! ### What dispatch leaves of the fetcher's lists and the outputs -/

theorem activate_fetcher (s : State) (p : PortId) (t : Slot) : (s.activate p t).fetcher = s.fetcher := by
  cases h : (s.ticket t).mirror with
  | none => rw [activate_none p h]
  | some m =>
    rw [activate_some p h, State.settlePort_fetcher]
    rfl

theorem activate_out (s : State) (p : PortId) (t : Slot) : (s.activate p t).out = s.out := by
  cases h : (s.ticket t).mirror with
  | none => rw [activate_none p h]
  | some m =>
    rw [activate_some p h, State.settlePort_out]
    rfl

theorem dispatch_fetcher (s : State) (p : PortId) : (s.dispatch p).fetcher = s.fetcher := by
  unfold State.dispatch
  cases s.toActivate p with
  | none => rfl
  | some t => exact activate_fetcher s p t

theorem dispatch_out (s : State) (p : PortId) : (s.dispatch p).out = s.out := by
  unfold State.dispatch
  cases s.toActivate p with
  | none => rfl
  | some t => exact activate_out s p t

theorem dispatchAccepted_fetcher (s : State) (t : Slot) : (s.dispatchAccepted t).fetcher = s.fetcher := by
  unfold State.dispatchAccepted
  split
  · exact dispatch_fetcher s _
  · rfl

theorem dispatchAccepted_out (s : State) (t : Slot) : (s.dispatchAccepted t).out = s.out := by
  unfold State.dispatchAccepted
  split
  · exact dispatch_out s _
  · rfl

/-! ### One judgement (R48 to R50, R61, R78) -/

theorem extentAccepted_false (w : Word) (dataBase length : Nat) : extentAccepted w dataBase length = false ↔
    windowOn w = false ∨ length = 0 ∨ 67108864 < length ∨ dataBase < baseOf w ∨
      baseOf w + spoolSize w < dataBase + length := by
  have hmax : Config.maxLength = 67108864 := rfl
  simp only [extentAccepted, hmax, Bool.and_eq_false_iff, decide_eq_false_iff_not]
  cases windowOn w with
  | false => simp
  | true => simp only [Bool.true_eq_false, false_or]; omega

/-- The first check that fails, as the statements list the checks (R48). -/
theorem judgeSlot_eq (s : State) (a : KeptAnswer) :
    s.judgeSlot a = if s.firstFailing a = .noReason then none else some (s.firstFailing a) := by
  unfold State.judgeSlot State.firstFailing
  simp only [Bool.not_eq_true', extentAccepted_false]
  split
  · rfl
  · split
    · rfl
    · split
      · rfl
      · split
        · rfl
        · split
          · rfl
          · split
            · rfl
            · rfl

theorem guardRise_guards (s : State) (m : Mirror) :
    (s.guardRise m).guards = .ofFn fun b => if s.covers m b then s.guard b + 1 else s.guard b :=
  vector_eq_ofFn fun b => guard_guardRise s m b

theorem judgeTicket_eq (s : State) (k : Slot) (a : KeptAnswer) : s.judgeTicket k a = s.afterJudging k a := by
  unfold State.judgeTicket State.afterJudging
  rw [judgeSlot_eq]
  by_cases hr : s.firstFailing a = .noReason
  · simp only [hr, if_true, ne_eq, not_true_eq_false, if_false]
    have hguards := guardRise_guards
      (s.setTicket k { Ticket.reset with state := .queued, mirror := some (parseSlot a.data) }) (parseSlot a.data)
    have hframe : s.acceptTicket k (parseSlot a.data) =
        { s.modPort (parseSlot a.data).port fun x =>
            { x with queue := joinQueue k (parseSlot a.data).urgent x.queue } with
          tickets := tset s.tickets k { Ticket.reset with state := .queued, mirror := some (parseSlot a.data) }
          guards := ((s.setTicket k { Ticket.reset with state := .queued, mirror := some (parseSlot a.data) }).guardRise
            (parseSlot a.data)).guards } := rfl
    rw [hframe, hguards]
    rfl
  · simp only [hr, if_false, ne_eq, not_false_eq_true, if_true]
    rfl

/-- After an acceptance the ticket is QUEUED with its mirror, so that dispatch acts at its port; a rejection is no dispatch
event (R49, R50, R61, R65). -/
theorem dispatchAccepted_afterJudging (s : State) (k : Slot) (a : KeptAnswer) :
    (s.afterJudging k a).dispatchAccepted k =
      if s.firstFailing a = .noReason then (s.afterJudging k a).dispatch (parseSlot a.data).port
      else s.afterJudging k a := by
  by_cases hr : s.firstFailing a = .noReason
  · rw [if_pos hr]
    have hticket : (s.afterJudging k a).ticket k =
        { Ticket.reset with state := .queued, mirror := some (parseSlot a.data) } := by
      simp only [State.afterJudging, hr, ne_eq, not_true_eq_false, if_false]
      exact tget_tset_self _ _ _
    exact dispatchAccepted_queued (m := parseSlot a.data) (by rw [hticket]) (by rw [hticket])
  · rw [if_neg hr]
    refine dispatchAccepted_rejected ?_
    have hticket : (s.afterJudging k a).ticket k = { s.ticket k with state := .free, reason := s.firstFailing a } := by
      simp only [State.afterJudging, hr, ne_eq, not_false_eq_true, if_true]
      exact tget_tset_self _ _ _
    rw [hticket]
    exact nofun

theorem afterJudging_out (s : State) (k : Slot) (a : KeptAnswer) : (s.afterJudging k a).out = s.out := by
  unfold State.afterJudging
  simp only
  split <;> rfl

/-! ### The answered heads, one after another (R47) -/

/-- An in-flight entry whose answer has come. -/
def answeredEntry (x : Slot × KeptAnswer) : InFlight := ⟨x.1, some x.2⟩

/-- One more answered head: dispatch as ACTIVATION does it acts between the two judgements. -/
theorem afterRun_next {s : State} (hout : s.out = []) (k : Slot) (a : KeptAnswer) (next : Slot × KeptAnswer)
    (run : List (Slot × KeptAnswer)) :
    s.afterRun ((k, a) :: next :: run) = ((s.afterJudging k a).dispatchAccepted k).afterRun (next :: run) := by
  rw [State.afterRun, dispatchAccepted_afterJudging]
  by_cases hr : s.firstFailing a = .noReason
  · rw [if_pos hr, if_pos hr]
    have hclear : (s.afterJudging k a).clearOut = s.afterJudging k a := by
      have hv : (s.afterJudging k a).out = [] := (afterJudging_out s k a).trans hout
      rw [State.clearOut, ← hv]
    have hactivation : exec (.activation (parseSlot a.data).port) (s.afterJudging k a) =
        .next ((s.afterJudging k a).dispatch (parseSlot a.data).port) := by
      change Host.Outcome.next ((s.afterJudging k a).clearOut.dispatch _) = _
      rw [hclear]
    rw [hactivation]
  · rw [if_neg hr, if_neg hr]

theorem judgeHeads_run (xs : List InFlight) (hxs : ∀ x, xs.head? = some x → x.answer = none)
    (run : List (Slot × KeptAnswer)) (k : Slot) (a : KeptAnswer) (s : State) (hout : s.out = []) :
    s.judgeHeads (answeredEntry (k, a) :: (run.map answeredEntry ++ xs)) =
      (s.withFetcher { s.fetcher with inFlight := xs }).afterRun ((k, a) :: run) := by
  induction run generalizing k a s with
  | nil =>
    rw [List.map_nil, List.nil_append, answeredEntry, judgeHeads_last hxs, judgeHead_eq, ← judgeTicket_withFetcher,
      judgeTicket_eq]
    rfl
  | cons next run ih =>
    obtain ⟨u, b⟩ := next
    have hout' : ((s.judgeHead k a (answeredEntry (u, b) :: (run.map answeredEntry ++ xs))).dispatchAccepted k).out =
        [] := by
      rw [dispatchAccepted_out, judgeHead_eq, judgeTicket_eq]
      exact (afterJudging_out s k a).trans hout
    have hhead : s.judgeHeads (answeredEntry (k, a) :: ((List.map answeredEntry ((u, b) :: run)) ++ xs)) = _ :=
      judgeHeads_next
    rw [hhead, afterRun_next (s := s.withFetcher { s.fetcher with inFlight := xs }) hout]
    refine (ih u b _ hout').trans ?_
    rw [dispatchAccepted_fetcher, judgeHead_eq, dispatchAccepted_withFetcher, ← judgeTicket_eq,
      judgeTicket_withFetcher, dispatchAccepted_withFetcher]
    rfl

/-! ### The answer kept with its slot (R47) -/

theorem keepAnswer_append (k : Slot) (a : KeptAnswer) (xs ys : List InFlight) :
    keepAnswer k a (xs ++ ys) = keepAnswer k a xs ++ keepAnswer k a ys := List.map_append

theorem keepAnswer_others {k : Slot} {xs : List InFlight} (h : ∀ x ∈ xs, x.slot ≠ k) (a : KeptAnswer) :
    keepAnswer k a xs = xs := by
  rw [keepAnswer]
  exact (List.map_congr_left fun x hx => if_neg (h x hx)).trans (List.map_id' xs)

theorem keepAnswer_found {k : Slot} {ahead behind : List InFlight} (hahead : ∀ x ∈ ahead, x.slot ≠ k)
    (hbehind : ∀ x ∈ behind, x.slot ≠ k) (a : KeptAnswer) :
    keepAnswer k a (ahead ++ ⟨k, none⟩ :: behind) = ahead ++ ⟨k, some a⟩ :: behind := by
  have hhere : keepAnswer k a (⟨k, none⟩ :: behind) = ⟨k, some a⟩ :: keepAnswer k a behind := by
    rw [keepAnswer, List.map_cons, if_pos rfl]
    rfl
  rw [keepAnswer_append, hhere, keepAnswer_others hahead, keepAnswer_others hbehind]

/-- Settles O37: the fetcher's lists do not decide what is judged, so that judging the heads in turn is the statement's
run. -/
theorem postingFetchesAreJudgedInOrder : Obligations.PostingFetchesAreJudgedInOrder := by
  intro a g rest k run xs s hawaits hgrant howner hread hsize hxs hrun hhead here behind t
  have hbehind : ∀ x ∈ behind, x.slot ≠ k := by
    intro x hx
    obtain hx | hx := List.mem_append.1 hx
    · obtain ⟨y, hy, rfl⟩ := List.mem_map.1 hx
      exact hrun y hy
    · exact hxs x hx
  have hexec : exec (.ticketFetchAnswer a) s = .next (t.ticketFetchAnswered k here) := by
    have hanswers := memoryAnswers_awaits Owner.isTicketFetch a.ok a.data hawaits (by rw [howner]; rfl)
    change Host.Outcome.next (s.clearOut.memoryAnswers Owner.isTicketFetch a.grant a.ok a.data) = _
    rw [hgrant, hanswers, howner, MemRequest.answerData, hread, hsize]
    rfl
  refine ⟨fun y ahead hy hahead hlist => ?_, fun hlist => ?_⟩
  · have hkept : keepAnswer k here s.fetcher.inFlight = y :: (ahead ++ ⟨k, some here⟩ :: behind) := by
      rw [hlist]
      exact keepAnswer_found (ahead := y :: ahead) hahead hbehind here
    refine ⟨_, hexec, ?_⟩
    change settled _ (State.settle (State.judgeHeads _ (keepAnswer k here s.fetcher.inFlight)))
    rw [hkept, judgeHeads_unanswered hy]
    exact settled_settle _
  · have hkept : keepAnswer k here s.fetcher.inFlight = ⟨k, some here⟩ :: behind := by
      rw [hlist]
      exact keepAnswer_found (ahead := []) (by simp) hbehind here
    refine ⟨_, hexec, ?_⟩
    change settled _ (State.settle (State.judgeHeads _ (keepAnswer k here s.fetcher.inFlight)))
    rw [hkept]
    have hjudged := judgeHeads_run xs hhead run k here
      { t with fetcher := { s.fetcher with inFlight := ⟨k, some here⟩ :: behind } } rfl
    exact hjudged ▸ settled_settle _

end Sys2Proof.Machine

/-! ## Sheets delivered and stray sheets (R56, R57, R125, R145, R151 to R154, R157 to R159) -/

namespace Sys2Proof.Machine

/-! ### The ending of a ticket whose page is delivered (R56, R57, R153) -/

/-- The ending that a ticket reaches at a delivery, its counts already moved (R153). -/
def Ticket.deliveryEnding (k : Ticket) : Option (TicketState × Reason) :=
  match k.state with
  | .draining => if k.entryCount = 0 then some (.done, .complete) else none
  | .cancelling =>
    if k.entryCount = 0 ∧ k.fetchCount = 0 ∧ k.sending = false then some (.cancelled, .cancel) else none
  | .failing =>
    if k.entryCount = 0 ∧ k.fetchCount = 0 ∧ k.sending = false then some (.failed, .memoryEnd) else none
  | _ => none

/-- A ticket's ending, if it has one. -/
def State.endsAs (s : State) (t : Slot) (ending : Option (TicketState × Reason)) : State :=
  match ending with
  | some x => s.endTicket t x.1 x.2
  | none => s

theorem deliveryTest_eq (s : State) (t : Slot) : s.deliveryTest t = s.endsAs t (s.ticket t).deliveryEnding := by
  unfold State.deliveryTest Ticket.deliveryEnding State.drainTest
  cases hst : (s.ticket t).state <;> simp only [hst]
  case draining | cancelling | failing => split <;> rfl
  all_goals rfl

/-- The backlog after an ending: a JOB raise for FAILED and for `notify` (R57). -/
def State.backlogEnding (s : State) (t : Slot) (k : Ticket) (ending : Option (TicketState × Reason)) : List Latch :=
  match ending, k.mirror with
  | some x, some m =>
    if x.1 = .failed ∨ m.notify = true then
      addRaise ⟨.job, t.val, s.milliseconds, 1, .job t m.jobTag x.2 k.delivered k.spoiled⟩ s.relay.backlog
    else s.relay.backlog
  | _, _ => s.relay.backlog

theorem endsAs_eq (s : State) (t : Slot) (ending : Option (TicketState × Reason)) : s.endsAs t ending =
    { s with
      tickets := tset s.tickets t { s.ticket t with
        state := match ending with | some x => x.1 | none => (s.ticket t).state
        reason := match ending with | some x => x.2 | none => (s.ticket t).reason
        resume := if ending.isSome then none else (s.ticket t).resume }
      guards := .ofFn fun b =>
        if ending.isSome && (s.ticket t).mirror.any (fun m => s.covers m b) then s.guard b - 1 else s.guard b
      relay := { s.relay with backlog := s.backlogEnding t (s.ticket t) ending } } := by
  cases ending with
  | none =>
    have htickets : tset s.tickets t (s.ticket t) = s.tickets := tset_tget s.tickets t
    have hguards : Vector.ofFn (fun b => s.guard b) = s.guards := (vector_eq_ofFn fun _ => rfl).symm
    simp only [State.endsAs, State.backlogEnding, Option.isSome_none, Bool.false_and, Bool.false_eq_true, if_false,
      hguards]
    rw [htickets]
  | some x =>
    have hguards : (s.endTicket t x.1 x.2).guards = .ofFn fun b =>
        if (s.ticket t).mirror.any (fun m => s.covers m b) then s.guard b - 1 else s.guard b :=
      vector_eq_ofFn fun b => endTicket_guard s t x.1 x.2 b
    have hbacklog : (s.endTicket t x.1 x.2).relay.backlog = s.backlogEnding t (s.ticket t) (some x) := by
      unfold State.backlogEnding
      rw [endTicket_backlog]
      cases (s.ticket t).mirror with
      | none => rfl
      | some m => rfl
    change s.endTicket t x.1 x.2 = _
    rw [endTicket_frame, hguards, hbacklog, endTicket_tickets]
    rfl

/-! ### The charge of a delivery (R152, R156 to R159) -/

theorem claimDeliver_eq (s : State) (a : AccountId) : s.claimDeliver a =
    { s with
      accounts := tset s.accounts a { s.account a with
        reserved := (s.account a).reserved - 1
        delivered := (s.account a).delivered + 1
        remaining := chargedRemaining (s.policy a) (reloadConstant (s.accountWord a)) (s.account a).remaining }
      relay := { s.relay with
        backlog := if reachesZero (s.policy a) (s.account a).remaining then
            addRaise ⟨.quota, a.val, s.milliseconds, 1,
              .quota (chargedRemaining (s.policy a) (reloadConstant (s.accountWord a)) (s.account a).remaining)
                (s.policy a)⟩ s.relay.backlog
          else s.relay.backlog } } := by
  unfold State.claimDeliver
  dsimp only
  split <;> rfl

theorem reachesZero_eq (pol : Policy) (remaining : Nat) :
    reachesZero pol remaining = (pol != .none && remaining == 1) := by
  cases pol <;> rfl

/-- One sheet delivers the entry at the head (R152, R153). -/
theorem deliverEntry_eq (s : State) (p : PortId) (e : Entry) (rest : List Entry) :
    s.deliverEntry p e rest = s.afterDelivery p e rest := by
  rw [State.deliverEntry, deliveryTest_eq, endsAs_eq, State.ticket_modTicket_self, claimDeliver_eq, reachesZero_eq]
  simp only [State.modTicket, State.setTicket, tset_tset]
  rfl

/-! ### The sheets of one count (R151, R154) -/

theorem deliverSheets_closed {s : State} {p : PortId} {e : Entry} {rest : List Entry}
    (h : (s.port p).pages = e :: rest) (hclosed : e.state = .closed) (n : Nat) :
    s.deliverSheets p (n + 1) = (s.afterDelivery p e rest).deliverSheets p n := by
  rw [State.deliverSheets, h]
  simp only [if_pos hclosed, deliverEntry_eq]

theorem straySheets_zero (s : State) (p : PortId) : s.straySheets p 0 = s := by
  have hport : { s.port p with stray := (s.port p).stray + BitVec.ofNat 32 0 } = s.port p := by
    rw [BitVec.add_zero]
  change { s with ports := tset s.ports p { s.port p with stray := (s.port p).stray + BitVec.ofNat 32 0 } } = s
  rw [hport, State.port, tset_tget]

theorem deliverSheets_stray {s : State} {p : PortId}
    (h : (s.port p).pages = [] ∨ ∃ e rest, (s.port p).pages = e :: rest ∧ e.state = .opened) (n : Nat) :
    s.deliverSheets p n = s.straySheets p n := by
  cases n with
  | zero => exact (straySheets_zero s p).symm
  | succ n =>
    obtain h | ⟨e, rest, h, hopen⟩ := h
    · rw [State.deliverSheets, h]
    · rw [State.deliverSheets, h]
      exact if_neg (by rw [hopen]; decide)

/-! ### A STATUS with no edge (R134, R136) -/

/-- The watch's part of a STATUS with no edge: the bits and the truths (R134). -/
theorem watchStatus_noEdge {s : State} {p : PortId} {bits : BitVec 16} (h : ∀ c, ¬s.edge p bits c) {v : State}
    (hv : SheetsFrame (s.heard p) v p) : v.watchStatus p bits =
      { v.modWatch p fun _ => { bits := bits, conditions := s.truths p bits } with draws := v.draws + 1 } := by
  have hbefore : (v.port p).watch.conditions = (s.port p).watch.conditions := by rw [hv.watch, heard_port]
  have hafter : v.evaluated p bits = s.truths p bits := evaluated_eq hv.image p bits
  have hnone : edgesInOrder v.draws (s.port p).watch.conditions (s.truths p bits) = [] :=
    List.eq_nil_iff_forall_not_mem.2 fun c hc => h c (((edgeOrder_edgesInOrder s p bits v.draws).2 c).1 hc)
  rw [State.watchStatus]
  dsimp only
  rw [hbefore, hafter, hnone]
  rfl

/-- A STATUS with no edge in READY: the sheets, the watch, and the jam stop judged (R120, R136, R146). -/
theorem exec_status_noEdge {s : State} {p : PortId} {bits : BitVec 16} {n : Byte} {v w : State}
    (hlink : (s.port p).link.state = .ready) (hedge : ∀ c, ¬s.edge p bits c)
    (hv : (s.heard p).deliverSheets p (n.toNat % 16) = v)
    (hw : { v.modWatch p fun _ => { bits := bits, conditions := s.truths p bits } with draws := v.draws + 1 } = w) :
    ∃ u, exec (.status p bits n) s = .next u ∧ becameReady (fun _ => True) w u p := by
  have hframe : SheetsFrame (s.heard p) v p := hv ▸ sheetsFrame_deliverSheets (s.heard p) p (n.toNat % 16)
  have hheard : ((s.heard p).port p).link.state = .ready := by rw [heard_port]; exact hlink
  have hserved : (s.heard p).serveStatus p bits (n.toNat % 16) = w := by
    rw [State.serveStatus, hv, watchStatus_noEdge hedge hframe, hw]
  have htaken : (s.heard p).takeStatus p bits (n.toNat % 16) = (w.judgeJamStop p).settle := by
    simp only [State.takeStatus, hheard, hserved]
  have hready : (w.port p).link.state = .ready := by
    have hself : w.port p = (v.modWatch p fun _ => { bits := bits, conditions := s.truths p bits }).port p := by
      rw [← hw]
      rfl
    rw [hself, State.port_modWatch_self]
    exact (congrArg Link.state hframe.link).trans hheard
  refine ⟨_, (exec_status (by rw [hlink]; decide) bits n).trans (congrArg Host.Outcome.next htaken), ?_⟩
  exact becameReady_of_settles hready (settled_settle _)

theorem heard_pages (s : State) (p : PortId) : ((s.heard p).port p).pages = (s.port p).pages := by rw [heard_port]

/-- The watch is nothing of what a delivery reads or moves. -/
theorem afterDelivery_modWatch (v : State) (p : PortId) (e : Entry) (rest : List Entry) (w : Watch) (d : Nat) :
    { (v.afterDelivery p e rest).modWatch p fun _ => w with draws := d } =
      { v.modWatch p fun _ => w with draws := d }.afterDelivery p e rest := by
  simp only [State.afterDelivery, State.modWatch, State.setPages, State.modPort, State.setPort, State.port, tget_tset_self,
    tset_tset]
  rfl

/-- Settles O50. -/
theorem sheetsDeliverTheOldestPage : Obligations.SheetsDeliverTheOldestPage := by
  refine ⟨fun p s => ⟨rfl, fun e rest k h hclosed => deliverSheets_closed h hclosed k,
    fun h k => deliverSheets_stray h k⟩, fun p bits n s hlink hedge => ⟨fun e rest hn h hclosed => ?_, fun h => ?_⟩⟩
  · have hone : (s.heard p).deliverSheets p (n.toNat % 16) = (s.heard p).afterDelivery p e rest := by
      rw [hn, deliverSheets_closed (n := 0) ((heard_pages s p).trans h) hclosed]
      rfl
    exact exec_status_noEdge hlink hedge hone (afterDelivery_modWatch (s.heard p) p e rest _ _)
  · rw [← heard_pages s p] at h
    refine exec_status_noEdge hlink hedge (deliverSheets_stray h _) ?_
    simp only [State.watched, State.straySheets, State.modWatch, State.modPort, State.setPort, State.port, tget_tset_self,
      tset_tset]
    rfl

end Sys2Proof.Machine

/-! ## What the laws of the tickets, of the fetches and of the open pages look at (R41, R46, R59, R60, R80, R93, R102) -/

namespace Sys2Proof.Machine

/-! ### Sums over the tables -/

theorem sum_allPorts (f : PortId → Nat) : (allPorts.map f).sum = ∑ p, f p :=
  (Fin.sum_univ_def f).symm

theorem countP_eq_sum {α : Type} (f : α → Bool) (l : List α) : l.countP f = (l.map fun x => (f x).toNat).sum := by
  induction l with
  | nil => rfl
  | cons x l ih =>
    rw [List.countP_cons, List.map_cons, List.sum_cons, ih, Nat.add_comm]
    cases f x <;> rfl

theorem tickets_toList (s : State) : s.tickets.toList = (List.finRange 256).map s.ticket := by
  apply List.ext_getElem
  · simp
  · intro i h1 h2
    simp [State.ticket, tget]

theorem countP_tickets (s : State) (f : Ticket → Bool) :
    s.tickets.toList.countP f = ∑ k : Slot, (f (s.ticket k)).toNat := by
  rw [tickets_toList, List.countP_map, countP_eq_sum, Fin.sum_univ_def]
  rfl

/-- Two families that agree but at one place differ in their sums as they differ there. -/
theorem sum_differ_at {n : Nat} {f g : Fin n → Nat} (i : Fin n) (h : ∀ k, k ≠ i → f k = g k) :
    (∑ k, f k) + g i = (∑ k, g k) + f i := by
  have hf := Finset.add_sum_erase Finset.univ f (Finset.mem_univ i)
  have hg := Finset.add_sum_erase Finset.univ g (Finset.mem_univ i)
  have he : ∑ k ∈ Finset.univ.erase i, f k = ∑ k ∈ Finset.univ.erase i, g k :=
    Finset.sum_congr rfl fun k hk => h k (Finset.ne_of_mem_erase hk)
  omega

/-! ### Guard counts (R80) -/

/-- A ticket is in use and its extent touches a block (R77, R80). -/
def State.holdsBlock (s : State) (k : Slot) (b : Fin 4096) : Bool :=
  (s.ticket k).state.inUse && (s.ticket k).mirror.any fun m => s.touches m b

theorem guardLaw_iff (s : State) : s.guardLaw ↔ ∀ b, s.guard b = ∑ k : Slot, (s.holdsBlock k b).toNat := by
  unfold State.guardLaw
  simp only [countP_tickets]
  rfl

theorem guard_pos {s : State} (h : s.guardLaw) {k : Slot} {b : Fin 4096} (hk : s.holdsBlock k b = true) :
    1 ≤ s.guard b := by
  rw [(guardLaw_iff s).1 h b]
  refine le_trans ?_ (Finset.single_le_sum (fun u _ => Nat.zero_le (s.holdsBlock u b).toNat) (Finset.mem_univ k))
  simp [hk]

/-- One ticket comes to hold blocks or lets them go, with their guard counts. -/
theorem guardLaw_of_one {s t : State} (h : s.guardLaw) (k : Slot)
    (hk : ∀ u, u ≠ k → ∀ b, t.holdsBlock u b = s.holdsBlock u b)
    (hb : ∀ b, t.guard b + (s.holdsBlock k b).toNat = s.guard b + (t.holdsBlock k b).toNat) : t.guardLaw := by
  rw [guardLaw_iff] at h ⊢
  intro b
  have hsum : (∑ u : Slot, (t.holdsBlock u b).toNat) + (s.holdsBlock k b).toNat =
      (∑ u : Slot, (s.holdsBlock u b).toNat) + (t.holdsBlock k b).toNat :=
    sum_differ_at (f := fun u => (t.holdsBlock u b).toNat) (g := fun u => (s.holdsBlock u b).toNat) k
      fun u hu => by rw [hk u hu b]
  have hone := hb b
  rw [h b] at hone
  omega

/-! ### Entry counts (R41, R102) -/

/-- The page-list entries of a ticket at one port. -/
def State.entriesAt (s : State) (p : PortId) (k : Slot) : Nat := (s.port p).pages.countP fun e => e.slot == k

/-- The states of a ticket that may have entries in a page list (R102). -/
def TicketState.pastQueued : TicketState → Bool
  | .active | .draining | .cancelling | .failing => true
  | _ => false

theorem mem_pastQueued (x : TicketState) :
    x ∈ [TicketState.active, .draining, .cancelling, .failing] ↔ x.pastQueued = true := by
  cases x <;> decide

theorem inUse_of_pastQueued {x : TicketState} (h : x.pastQueued = true) : x.inUse = true := by
  cases x <;> simp_all [TicketState.pastQueued, TicketState.inUse]

/-- A ticket of a port (R66). -/
def Ticket.names (x : Ticket) (p : PortId) : Prop := ∃ m, x.mirror = some m ∧ m.port = p

theorem Ticket.names_unique {x : Ticket} {p q : PortId} (hp : x.names p) (hq : x.names q) : p = q := by
  obtain ⟨m, hm, rfl⟩ := hp
  obtain ⟨n, hn, rfl⟩ := hq
  cases hm.symm.trans hn
  rfl

theorem entryLaw_iff (s : State) : s.entryLaw ↔
    (∀ p, ∀ e ∈ (s.port p).pages, (s.ticket e.slot).state.pastQueued = true ∧ (s.ticket e.slot).names p) ∧
      ∀ k, (s.ticket k).state.inUse = true → (s.ticket k).entryCount = ∑ p, s.entriesAt p k := by
  unfold State.entryLaw
  simp only [mem_pastQueued, sum_allPorts]
  rfl

theorem entriesAt_eq_zero {s : State} {p : PortId} {k : Slot} :
    s.entriesAt p k = 0 ↔ ∀ e ∈ (s.port p).pages, e.slot ≠ k := by
  simp [State.entriesAt, List.countP_eq_zero]

/-- A ticket that is not past QUEUED, or names another port, has no entry at a port. -/
theorem entriesAt_zero {s : State} (h : s.entryLaw) {p : PortId} {k : Slot}
    (hk : (s.ticket k).state.pastQueued = false ∨ ¬(s.ticket k).names p) : s.entriesAt p k = 0 := by
  rw [entriesAt_eq_zero]
  rintro e he rfl
  obtain ⟨hp, hn⟩ := ((entryLaw_iff s).1 h).1 p e he
  rcases hk with hk | hk
  · rw [hp] at hk
    cases hk
  · exact hk hn

/-! ### Tickets in hand (R66, R89) -/

theorem inHand_eq_some {s : State} {p : PortId} {k : Slot} :
    s.inHand p = some k ↔ ∃ j, (s.port p).engine.job = some j ∧ j.slot = k := by
  simp [State.inHand]

theorem inHand_of_job {s : State} {p : PortId} {j : Job} (h : (s.port p).engine.job = some j) :
    s.inHand p = some j.slot := by
  simp [State.inHand, h]

theorem handLaw_iff (s : State) : s.handLaw ↔
    ∀ p k, s.inHand p = some k → (s.ticket k).state = .active ∧ (s.ticket k).names p := by
  constructor
  · intro h p k hk
    obtain ⟨j, hj, rfl⟩ := inHand_eq_some.1 hk
    exact h p j hj
  · intro h p j hj
    exact h p j.slot (inHand_of_job hj)

/-- A ticket is in hand at one port at most. -/
theorem inHand_unique {s : State} (h : s.handLaw) {p q : PortId} {k : Slot} (hp : s.inHand p = some k)
    (hq : s.inHand q = some k) : p = q :=
  Ticket.names_unique ((handLaw_iff s).1 h p k hp).2 ((handLaw_iff s).1 h q k hq).2

/-- Only an ACTIVE ticket is in hand. -/
theorem not_inHand {s : State} (h : s.handLaw) {k : Slot} (hk : (s.ticket k).state ≠ .active) (p : PortId) :
    s.inHand p ≠ some k :=
  fun hp => hk ((handLaw_iff s).1 h p k hp).1

/-! ### Queues (R59, R60) -/

def State.queueSlots (s : State) (p : PortId) : List Slot := (s.port p).queue.map QueueEntry.slot

theorem queueLaw_iff (s : State) : s.queueLaw ↔
    ∀ p, (s.queueSlots p).Nodup ∧
      ∀ k, k ∈ s.queueSlots p ↔ (s.ticket k).state = .queued ∧ (s.ticket k).names p :=
  Iff.rfl

/-! ### Extents (R48, R80) -/

/-- A mirror's extent is not empty and lies in the spool window's bounds (R48). -/
def State.inSpool (s : State) (m : Mirror) : Prop :=
  1 ≤ m.length ∧ baseOf s.image.spoolWindow ≤ m.dataBase ∧
    m.dataBase + m.length ≤ baseOf s.image.spoolWindow + spoolSize s.image.spoolWindow

theorem extentLaw_iff (s : State) : s.extentLaw ↔
    ∀ k, (s.ticket k).state.inUse = true → ∃ m, (s.ticket k).mirror = some m ∧ s.inSpool m :=
  Iff.rfl

/-! ### Fetches (R41, R93, R95) -/

/-- The stopped fetches of a ticket (R95). -/
def State.stoppedFetches (s : State) (k : Slot) : Nat := s.msp.outstanding.countP (·.isStoppedFetchOf k)

/-- CANCELLING or FAILING (R56). -/
def TicketState.isStopping : TicketState → Bool
  | .cancelling | .failing => true
  | _ => false

theorem isStopping_iff (x : TicketState) : x.isStopping = true ↔ x = .cancelling ∨ x = .failing := by
  cases x <;> simp [TicketState.isStopping]

theorem stoppedLaw_iff (s : State) : s.stoppedLaw ↔
    ∀ k, s.stoppedFetches k ≠ 0 → (s.ticket k).state.isStopping = true := by
  unfold State.stoppedLaw State.stoppedFetches
  simp only [isStopping_iff]
  refine forall_congr' fun k => ?_
  rw [ne_eq, List.countP_eq_zero]
  constructor
  · intro h hk
    simp only [not_forall] at hk
    obtain ⟨g, hg, hs⟩ := hk
    exact h g hg (by simpa using hs)
  · intro h g hg hs
    exact h fun hk => hk g hg hs

/-- Only a CANCELLING or FAILING ticket has stopped fetches. -/
theorem stoppedFetches_zero {s : State} (h : s.stoppedLaw) {k : Slot} (hk : (s.ticket k).state.isStopping = false) :
    s.stoppedFetches k = 0 := by
  by_contra hne
  rw [(stoppedLaw_iff s).1 h k hne] at hk
  cases hk

/-- A ticket's fetch count, where no ticket is in hand at two ports. -/
theorem countLaw_iff {s : State} (h : s.handLaw) : s.countLaw ↔
    (∀ p k, s.inHand p = some k → (s.ticket k).fetchCount = s.stoppedFetches k + (s.currentLines p).length) ∧
      ∀ k, (∀ p, s.inHand p ≠ some k) → (s.ticket k).fetchCount = s.stoppedFetches k := by
  have hone : ∀ p k, s.inHand p = some k →
      (∑ q, if s.inHand q = some k then (s.currentLines q).length else 0) = (s.currentLines p).length := by
    intro p k hp
    rw [Finset.sum_eq_single p]
    · simp [hp]
    · intro q _ hq
      exact if_neg fun hk => hq (inHand_unique h hk hp)
    · simp
  unfold State.countLaw
  simp only [sum_allPorts]
  constructor
  · intro hc
    refine ⟨fun p k hp => ?_, fun k hk => ?_⟩
    · rw [hc k, hone p k hp]
      rfl
    · rw [hc k, Finset.sum_eq_zero fun p _ => if_neg (hk p)]
      rfl
  · rintro ⟨h1, h2⟩ k
    by_cases hk : ∃ p, s.inHand p = some k
    · obtain ⟨p, hp⟩ := hk
      rw [h1 p k hp, hone p k hp]
      rfl
    · simp only [not_exists] at hk
      rw [h2 k hk, Finset.sum_eq_zero fun p _ => if_neg (hk p)]
      rfl

/-- ACTIVE, CANCELLING or FAILING: the states in which a ticket may have fetches (R41). -/
def TicketState.mayFetch : TicketState → Bool
  | .active | .cancelling | .failing => true
  | _ => false

theorem restLaw_iff (s : State) : s.restLaw ↔
    ∀ k, (s.ticket k).state.mayFetch = false → (s.ticket k).fetchCount = 0 ∧ (s.ticket k).sending = false := by
  refine forall_congr' fun k => ?_
  have : (s.ticket k).state ∉ [TicketState.active, .cancelling, .failing] ↔ (s.ticket k).state.mayFetch = false := by
    cases (s.ticket k).state <;> decide
  rw [this]

/-- What the law of the sequence asks of a job and of the lines fetched for it (R92 to R94). -/
def Job.inOrder (j : Job) (fetched : List Cursor) : Prop :=
  let lines := fetched ++ j.buffer.map fun l => ⟨l.copy, l.offset⟩
  lines.Pairwise j.linesApart ∧ (∀ x ∈ lines, j.unframed x ∧ j.inSequence x) ∧
    (∀ l ∈ j.buffer, l.offset + l.bytes.length ≤ j.lineEnd l.offset ∧
      (l.bytes = [] ∨ l.offset + l.bytes.length ≤ j.length)) ∧
    ∀ c, j.cursor = some c → j.inSequence c ∧ (j.copy < c.copy ∨ (c.copy = j.copy ∧ j.next ≤ c.offset)) ∧
      ∀ x ∈ lines, x.copy < c.copy ∨ (x.copy = c.copy ∧ j.lineEnd x.offset ≤ c.offset)

theorem sequenceLaw_iff (s : State) : s.sequenceLaw ↔
    ∀ p j, (s.port p).engine.job = some j → j.inOrder (s.currentLines p) :=
  Iff.rfl

theorem linesApart_symm (j : Job) {x y : Cursor} (h : j.linesApart x y) : j.linesApart y x := by
  rcases h with h | h | h
  · exact .inl (Ne.symm h)
  · exact .inr (.inr h)
  · exact .inr (.inl h)

theorem Job.inOrder_perm {j : Job} {xs ys : List Cursor} (h : j.inOrder xs) (hp : xs.Perm ys) : j.inOrder ys := by
  obtain ⟨hapart, hplace, hbuffer, hcursor⟩ := h
  have hl := hp.append_right (j.buffer.map fun l => (⟨l.copy, l.offset⟩ : Cursor))
  refine ⟨(hl.pairwise_iff fun h => linesApart_symm j h).1 hapart, fun x hx => hplace x (hl.mem_iff.2 hx), hbuffer,
    fun c hc => ?_⟩
  obtain ⟨h1, h2, h3⟩ := hcursor c hc
  exact ⟨h1, h2, fun x hx => h3 x (hl.mem_iff.2 hx)⟩

theorem Job.inOrder_sublist {j : Job} {xs ys : List Cursor} (h : j.inOrder xs) (hs : ys.Sublist xs) : j.inOrder ys := by
  obtain ⟨hapart, hplace, hbuffer, hcursor⟩ := h
  have hl := hs.append_right (j.buffer.map fun l => (⟨l.copy, l.offset⟩ : Cursor))
  refine ⟨hapart.sublist hl, fun x hx => hplace x (hl.subset hx), hbuffer, fun c hc => ?_⟩
  obtain ⟨h1, h2, h3⟩ := hcursor c hc
  exact ⟨h1, h2, fun x hx => h3 x (hl.subset hx)⟩

/-! ### Open pages (R97, R102) -/

/-- The laws of the open pages, as every step keeps them: only the newest entry of a page list may be OPEN, and it belongs to
the ticket in hand. -/
def State.pagesLaw (s : State) : Prop := (∀ p, (s.port p).opensNewestOnly) ∧ s.openLaw

/-- The laws of the fetches without the law of the IDLE engines, which settling mends. -/
def State.lineLaws (s : State) : Prop :=
  s.namesLaw ∧ s.marksLaw ∧ s.stoppedLaw ∧ s.countLaw ∧ s.sequenceLaw ∧ s.restLaw

theorem fetchLaws_iff (s : State) : s.fetchLaws ↔ s.lineLaws ∧ s.idleLaw := by
  unfold State.fetchLaws State.lineLaws
  tauto

end Sys2Proof.Machine

/-! ## States on which the laws agree, and what keeps the laws -/

namespace Sys2Proof.Machine

/-! ### One law at a time, where little of what it looks at moves -/

section OneLaw
variable {s t : State}

/-- The spool window's base and block size stand as they stood. -/
def sameSpool (s t : State) : Prop :=
  baseOf t.image.spoolWindow = baseOf s.image.spoolWindow ∧ sizeCode t.image.spoolWindow = sizeCode s.image.spoolWindow

theorem sameSpool_of_image (h : t.image = s.image) : sameSpool s t := by
  simp [sameSpool, h]

theorem touches_of_spool (h : sameSpool s t) (m : Mirror) (b : Fin 4096) : t.touches m b = s.touches m b := by
  obtain ⟨hbase, hsize⟩ := h
  have hblocks : touchedBlocks t.image.spoolWindow m.dataBase m.length =
      touchedBlocks s.image.spoolWindow m.dataBase m.length := by
    simp only [touchedBlocks, blockOf, blockSize, hbase, hsize]
  rw [State.touches, hblocks]
  rfl

theorem inSpool_of_spool (h : sameSpool s t) (m : Mirror) : t.inSpool m ↔ s.inSpool m := by
  obtain ⟨hbase, hsize⟩ := h
  simp only [State.inSpool, spoolSize, blockSize, hbase, hsize]

theorem holdsBlock_of {k : Slot} (h : sameSpool s t) (huse : (t.ticket k).state.inUse = (s.ticket k).state.inUse)
    (hmirror : (s.ticket k).state.inUse = true → (t.ticket k).mirror = (s.ticket k).mirror) (b : Fin 4096) :
    t.holdsBlock k b = s.holdsBlock k b := by
  unfold State.holdsBlock
  rw [huse]
  cases hu : (s.ticket k).state.inUse with
  | false => rfl
  | true =>
    rw [hmirror hu]
    simp only [touches_of_spool h]

theorem guardLaw_of (h : s.guardLaw) (hguard : ∀ b, t.guard b = s.guard b)
    (hk : ∀ k b, t.holdsBlock k b = s.holdsBlock k b) : t.guardLaw :=
  guardLaw_of_one h 0 (fun k _ b => hk k b) fun b => by rw [hguard b, hk 0 b]

theorem queueLaw_of (h : s.queueLaw) (hqueue : ∀ p, (t.port p).queue = (s.port p).queue)
    (hk : ∀ k, (t.ticket k).state = .queued ↔ (s.ticket k).state = .queued)
    (hmirror : ∀ k, (s.ticket k).state = .queued → (t.ticket k).mirror = (s.ticket k).mirror) : t.queueLaw := by
  intro p
  obtain ⟨hnodup, hmem⟩ := h p
  rw [hqueue p]
  refine ⟨hnodup, fun k => (hmem k).trans ?_⟩
  rw [hk k]
  exact and_congr_right fun hq => by rw [hmirror k hq]

theorem orderLaw_of (h : s.orderLaw) (hqueue : ∀ p, (t.port p).queue = (s.port p).queue) : t.orderLaw := by
  intro p
  rw [hqueue p]
  exact h p

theorem postingLaw_of (h : s.postingLaw) (hfetcher : t.fetcher = s.fetcher)
    (hk : ∀ k, (t.ticket k).state = .posting ↔ (s.ticket k).state = .posting) : t.postingLaw := by
  obtain ⟨hnodup, hmem, hhead⟩ := h
  unfold State.postingLaw
  rw [hfetcher]
  exact ⟨hnodup, fun k => (hmem k).trans (hk k).symm, hhead⟩

theorem extentLaw_of (h : s.extentLaw) (hspool : sameSpool s t)
    (hk : ∀ k, (t.ticket k).state.inUse = true →
      (s.ticket k).state.inUse = true ∧ (t.ticket k).mirror = (s.ticket k).mirror) : t.extentLaw := by
  rw [extentLaw_iff] at h ⊢
  intro k huse
  obtain ⟨hu, hm⟩ := hk k huse
  obtain ⟨m, hsome, hin⟩ := h k hu
  exact ⟨m, hm.trans hsome, (inSpool_of_spool hspool m).2 hin⟩

theorem handLaw_of (h : s.handLaw)
    (hk : ∀ p k, t.inHand p = some k → s.inHand p = some k ∧ (t.ticket k).state = (s.ticket k).state ∧
      (t.ticket k).mirror = (s.ticket k).mirror) : t.handLaw := by
  rw [handLaw_iff] at h ⊢
  intro p k hp
  obtain ⟨hs, hstate, hmirror⟩ := hk p k hp
  unfold Ticket.names
  rw [hstate, hmirror]
  exact h p k hs

theorem entryLaw_of (h : s.entryLaw) (hpages : ∀ p, (t.port p).pages = (s.port p).pages)
    (hpast : ∀ k, (s.ticket k).state.pastQueued = true →
      (t.ticket k).state.pastQueued = true ∧ (t.ticket k).mirror = (s.ticket k).mirror)
    (hcount : ∀ k, (t.ticket k).state.inUse = true →
      (s.ticket k).state.inUse = true ∧ (t.ticket k).entryCount = (s.ticket k).entryCount) : t.entryLaw := by
  rw [entryLaw_iff] at h ⊢
  obtain ⟨hplace, hsum⟩ := h
  refine ⟨fun p e he => ?_, fun k hu => ?_⟩
  · rw [hpages p] at he
    obtain ⟨hp, hn⟩ := hplace p e he
    obtain ⟨hp', hm⟩ := hpast e.slot hp
    unfold Ticket.names
    rw [hm]
    exact ⟨hp', hn⟩
  · obtain ⟨hu', hc⟩ := hcount k hu
    rw [hc, hsum k hu']
    exact Finset.sum_congr rfl fun p _ => by rw [State.entriesAt, State.entriesAt, hpages p]

end OneLaw

/-! ### States on which the laws of the tickets agree -/

/-- The laws of the tickets agree on two states, or ask less of the second, where fewer tickets are in hand. -/
structure SameTickets (s t : State) : Prop where
  spool : sameSpool s t
  guard : ∀ b, t.guard b = s.guard b
  fetcher : t.fetcher = s.fetcher
  state : ∀ k, (t.ticket k).state = (s.ticket k).state
  mirror : ∀ k, (t.ticket k).mirror = (s.ticket k).mirror
  entryCount : ∀ k, (t.ticket k).entryCount = (s.ticket k).entryCount
  queue : ∀ p, (t.port p).queue = (s.port p).queue
  pages : ∀ p, (t.port p).pages = (s.port p).pages
  hand : ∀ p k, t.inHand p = some k → s.inHand p = some k

theorem SameTickets.ticketLaws {s t : State} (h : SameTickets s t) (hs : s.ticketLaws) : t.ticketLaws := by
  obtain ⟨hguard, hqueue, horder, hposting, hextent, hhand, hentry⟩ := hs
  have hstate := h.state
  have hmirror := h.mirror
  exact ⟨guardLaw_of hguard h.guard fun k => holdsBlock_of h.spool (by rw [hstate]) fun _ => hmirror k,
    queueLaw_of hqueue h.queue (fun k => by rw [hstate]) fun k _ => hmirror k,
    orderLaw_of horder h.queue,
    postingLaw_of hposting h.fetcher fun k => by rw [hstate],
    extentLaw_of hextent h.spool fun k hu => ⟨by rwa [hstate] at hu, hmirror k⟩,
    handLaw_of hhand fun p k hp => ⟨h.hand p k hp, hstate k, hmirror k⟩,
    entryLaw_of hentry h.pages (fun k hk => ⟨by rwa [hstate], hmirror k⟩)
      fun k hu => ⟨by rwa [hstate] at hu, h.entryCount k⟩⟩

theorem openEntry_of_pages {x y : Port} (h : y.pages = x.pages) : y.openEntry = x.openEntry := by
  rw [Port.openEntry, h]
  rfl

/-- The page lists stand, and so do the tickets in hand where a page is open. -/
theorem pagesLaw_of {s t : State} (hs : s.pagesLaw) (hpages : ∀ p, (t.port p).pages = (s.port p).pages)
    (hhand : ∀ p k, (s.port p).hasOpenPage = true → s.inHand p = some k → t.inHand p = some k) : t.pagesLaw := by
  obtain ⟨hnewest, hopen⟩ := hs
  refine ⟨fun p => ?_, fun p e he => ?_⟩
  · unfold Port.opensNewestOnly
    rw [hpages p]
    exact hnewest p
  · rw [openEntry_of_pages (hpages p)] at he
    exact hhand p e.slot (by rw [Port.hasOpenPage, he]; rfl) (hopen p e he)

/-! ### States on which all laws agree -/

/-- What the laws look at in a ticket. -/
def Ticket.law (x : Ticket) : Ticket :=
  { Ticket.reset with
    state := x.state, mirror := x.mirror, entryCount := x.entryCount, fetchCount := x.fetchCount, sending := x.sending }

theorem Ticket.law_state {x y : Ticket} (h : y.law = x.law) : y.state = x.state := (congrArg Ticket.state h :)
theorem Ticket.law_mirror {x y : Ticket} (h : y.law = x.law) : y.mirror = x.mirror := (congrArg Ticket.mirror h :)
theorem Ticket.law_entryCount {x y : Ticket} (h : y.law = x.law) : y.entryCount = x.entryCount :=
  (congrArg Ticket.entryCount h :)
theorem Ticket.law_fetchCount {x y : Ticket} (h : y.law = x.law) : y.fetchCount = x.fetchCount :=
  (congrArg Ticket.fetchCount h :)
theorem Ticket.law_sending {x y : Ticket} (h : y.law = x.law) : y.sending = x.sending := (congrArg Ticket.sending h :)

/-- What the laws look at in a port, but for IDLE engines. -/
def Port.law (x : Port) : Port :=
  { Port.reset with queue := x.queue, pages := x.pages, engine := { Engine.reset with job := x.engine.job } }

theorem Port.law_queue {x y : Port} (h : y.law = x.law) : y.queue = x.queue := (congrArg Port.queue h :)
theorem Port.law_pages {x y : Port} (h : y.law = x.law) : y.pages = x.pages := (congrArg Port.pages h :)
theorem Port.law_job {x y : Port} (h : y.law = x.law) : y.engine.job = x.engine.job :=
  (congrArg (fun z : Port => z.engine.job) h :)

/-- The outstanding fetches of one state are those of the other: names, marks, stopped fetches, and the lines that are
fetched for each port. -/
structure SameFetches (s t : State) : Prop where
  names : s.namesLaw → t.namesLaw
  marks : ∀ r ∈ t.msp.waiting, r.owner.isLineFetch = true → r ∈ s.msp.waiting
  stopped : ∀ k, t.stoppedFetches k = s.stoppedFetches k
  lines : ∀ p, (t.currentLines p).Perm (s.currentLines p)

theorem SameFetches.of_msp {s t : State} (h : t.msp = s.msp) : SameFetches s t where
  names := by
    unfold State.namesLaw
    rw [h]
    exact id
  marks := by
    rw [h]
    exact fun _ hr _ => hr
  stopped k := by rw [State.stoppedFetches, h]; rfl
  lines p := by rw [State.currentLines, h]; exact List.Perm.refl _

theorem SameFetches.trans {s t u : State} (h : SameFetches s t) (k : SameFetches t u) : SameFetches s u where
  names hs := k.names (h.names hs)
  marks r hr hl := h.marks r (k.marks r hr hl) hl
  stopped x := (k.stopped x).trans (h.stopped x)
  lines p := (k.lines p).trans (h.lines p)

/-- The laws of the fetches agree on two states, but for the law of the IDLE engines. -/
structure SameLines (s t : State) : Prop where
  state : ∀ k, (t.ticket k).state = (s.ticket k).state
  fetchCount : ∀ k, (t.ticket k).fetchCount = (s.ticket k).fetchCount
  sending : ∀ k, (t.ticket k).sending = (s.ticket k).sending
  job : ∀ p, (t.port p).engine.job = (s.port p).engine.job
  fetches : SameFetches s t

theorem SameLines.inHand {s t : State} (h : SameLines s t) (p : PortId) : t.inHand p = s.inHand p := by
  rw [State.inHand, h.job p]
  rfl

theorem SameLines.lineLaws {s t : State} (h : SameLines s t) (hs : s.handLaw) (ht : t.handLaw) (hl : s.lineLaws) :
    t.lineLaws := by
  obtain ⟨hnames, ⟨hcurrent, hnone⟩, hstopped, hcount, hseq, hrest⟩ := hl
  rw [countLaw_iff hs] at hcount
  obtain ⟨hheld, hfree⟩ := hcount
  refine ⟨h.fetches.names hnames, ⟨fun r hr p mark c o ho => ?_, fun p hp => ?_⟩, ?_, ?_, ?_, ?_⟩
  · exact hcurrent r (h.fetches.marks r hr (by rw [ho]; rfl)) p mark c o ho
  · rw [h.job p] at hp
    have hlines := h.fetches.lines p
    rw [hnone p hp] at hlines
    exact hlines.eq_nil
  · rw [stoppedLaw_iff] at hstopped ⊢
    intro k hk
    rw [h.state]
    exact hstopped k (by rwa [h.fetches.stopped k] at hk)
  · rw [countLaw_iff ht]
    refine ⟨fun p k hp => ?_, fun k hk => ?_⟩
    · rw [h.inHand] at hp
      rw [h.fetchCount, h.fetches.stopped k, (h.fetches.lines p).length_eq]
      exact hheld p k hp
    · rw [h.fetchCount, h.fetches.stopped k]
      exact hfree k fun p => by rw [← h.inHand]; exact hk p
  · intro p j hj
    rw [h.job p] at hj
    exact Job.inOrder_perm (hseq p j hj) (h.fetches.lines p).symm
  · rw [restLaw_iff] at hrest ⊢
    intro k hk
    rw [h.state] at hk
    rw [h.fetchCount, h.sending]
    exact hrest k hk

/-- The laws agree on two states, but for the law of the IDLE engines. -/
structure SameCore (s t : State) : Prop where
  spool : sameSpool s t
  guard : ∀ b, t.guard b = s.guard b
  fetcher : t.fetcher = s.fetcher
  ticket : ∀ k, (t.ticket k).law = (s.ticket k).law
  port : ∀ p, (t.port p).law = (s.port p).law
  fetches : SameFetches s t

namespace SameCore
variable {s t u : State}

theorem refl (s : State) : SameCore s s :=
  ⟨⟨rfl, rfl⟩, fun _ => rfl, rfl, fun _ => rfl, fun _ => rfl, .of_msp rfl⟩

theorem trans (h : SameCore s t) (k : SameCore t u) : SameCore s u where
  spool := ⟨k.spool.1.trans h.spool.1, k.spool.2.trans h.spool.2⟩
  guard b := (k.guard b).trans (h.guard b)
  fetcher := k.fetcher.trans h.fetcher
  ticket x := (k.ticket x).trans (h.ticket x)
  port p := (k.port p).trans (h.port p)
  fetches := h.fetches.trans k.fetches

theorem inHand (h : SameCore s t) (p : PortId) : t.inHand p = s.inHand p := by
  rw [State.inHand, Port.law_job (h.port p)]
  rfl

theorem state (h : SameCore s t) (k : Slot) : (t.ticket k).state = (s.ticket k).state := Ticket.law_state (h.ticket k)

theorem mirror (h : SameCore s t) (k : Slot) : (t.ticket k).mirror = (s.ticket k).mirror := Ticket.law_mirror (h.ticket k)

theorem sameTickets (h : SameCore s t) : SameTickets s t where
  spool := h.spool
  guard := h.guard
  fetcher := h.fetcher
  state := h.state
  mirror := h.mirror
  entryCount k := Ticket.law_entryCount (h.ticket k)
  queue p := Port.law_queue (h.port p)
  pages p := Port.law_pages (h.port p)
  hand p k hp := by rwa [h.inHand] at hp

theorem ticketLaws (h : SameCore s t) (hs : s.ticketLaws) : t.ticketLaws := h.sameTickets.ticketLaws hs

theorem sameLines (h : SameCore s t) : SameLines s t where
  state := h.state
  fetchCount k := Ticket.law_fetchCount (h.ticket k)
  sending k := Ticket.law_sending (h.ticket k)
  job p := Port.law_job (h.port p)
  fetches := h.fetches

theorem lineLaws (h : SameCore s t) (hs : s.ticketLaws) (hl : s.lineLaws) : t.lineLaws :=
  h.sameLines.lineLaws hs.2.2.2.2.2.1 (h.ticketLaws hs).2.2.2.2.2.1 hl

theorem pagesLaw (h : SameCore s t) (hs : s.pagesLaw) : t.pagesLaw :=
  pagesLaw_of hs (fun p => Port.law_pages (h.port p)) fun p k _ hk => by rwa [h.inHand]

end SameCore

/-! ### Keeping the laws -/

/-- The laws, the law of the IDLE engines apart, hold of the second state where they hold of the first. -/
structure KeptCore (s t : State) : Prop where
  tickets : s.ticketLaws → t.ticketLaws
  lines : s.ticketLaws → s.lineLaws → t.lineLaws
  pages : s.ticketLaws → s.lineLaws → s.pagesLaw → t.pagesLaw

/-- The laws hold of the second state where they hold of the first. -/
structure Kept (s t : State) : Prop where
  tickets : s.ticketLaws → t.ticketLaws
  fetches : s.ticketLaws → s.fetchLaws → t.fetchLaws
  pages : s.ticketLaws → s.fetchLaws → s.pagesLaw → t.pagesLaw

section Keeping
variable {s t u : State}

theorem KeptCore.of_same (h : SameCore s t) : KeptCore s t := ⟨h.ticketLaws, h.lineLaws, fun _ _ => h.pagesLaw⟩

theorem KeptCore.refl (s : State) : KeptCore s s := .of_same (.refl s)

theorem KeptCore.trans (h : KeptCore s t) (k : KeptCore t u) : KeptCore s u where
  tickets hs := k.tickets (h.tickets hs)
  lines hs hl := k.lines (h.tickets hs) (h.lines hs hl)
  pages hs hl hp := k.pages (h.tickets hs) (h.lines hs hl) (h.pages hs hl hp)

theorem Kept.of_core (h : KeptCore s t) (hidle : s.idleLaw → t.idleLaw) : Kept s t where
  tickets := h.tickets
  fetches hs hf := by
    rw [fetchLaws_iff] at hf ⊢
    exact ⟨h.lines hs hf.1, hidle hf.2⟩
  pages hs hf := h.pages hs ((fetchLaws_iff s).1 hf).1

theorem Kept.trans (h : Kept s t) (k : Kept t u) : Kept s u where
  tickets hs := k.tickets (h.tickets hs)
  fetches hs hf := k.fetches (h.tickets hs) (h.fetches hs hf)
  pages hs hf hp := k.pages (h.tickets hs) (h.fetches hs hf) (h.pages hs hf hp)

theorem Kept.refl (s : State) : Kept s s := .of_core (.refl s) id

theorem Kept.foldl {α : Type} {f : State → α → State} (h : ∀ s x, Kept s (f s x)) (xs : List α) (s : State) :
    Kept s (xs.foldl f s) := by
  induction xs generalizing s with
  | nil => exact .refl s
  | cons x xs ih => exact (h s x).trans (ih _)

theorem Kept.ite {c : Prop} [Decidable c] (ht : c → Kept s t) (hu : ¬c → Kept s u) : Kept s (if c then t else u) := by
  split
  · exact ht ‹_›
  · exact hu ‹_›

/-- An engine is IDLE with a ticket in hand only where it was. -/
def idleKept (s t : State) : Prop :=
  ∀ p, (t.port p).engine.state = .idle →
    (t.port p).engine.job = none ∨
      ((s.port p).engine.state = .idle ∧ (t.port p).engine.job = (s.port p).engine.job)

theorem idleLaw_of (h : idleKept s t) (hs : s.idleLaw) : t.idleLaw := by
  intro p hp
  rcases h p hp with h | ⟨hidle, hjob⟩
  · exact h
  · rw [hjob]
    exact hs p hidle

theorem Kept.of_same (h : SameCore s t) (hidle : idleKept s t) : Kept s t :=
  .of_core (.of_same h) (idleLaw_of hidle)

/-- Nothing that the laws look at moves. -/
theorem Kept.of_eq (himage : t.image = s.image) (hguards : t.guards = s.guards) (hfetcher : t.fetcher = s.fetcher)
    (htickets : t.tickets = s.tickets) (hports : t.ports = s.ports) (hmsp : t.msp = s.msp) : Kept s t := by
  have hport : ∀ p, t.port p = s.port p := fun p => by rw [State.port, hports]; rfl
  refine .of_same ⟨sameSpool_of_image himage, fun b => ?_, hfetcher, fun k => ?_, fun p => by rw [hport p], .of_msp hmsp⟩
    fun p hp => .inr ⟨by rwa [hport p] at hp, by rw [hport p]⟩
  · rw [State.guard, hguards]
    rfl
  · rw [State.ticket, htickets]
    rfl

/-- One port moves in nothing that the laws look at. -/
theorem sameCore_modPort (s : State) (p : PortId) {f : Port → Port} (h : (f (s.port p)).law = (s.port p).law) :
    SameCore s (s.modPort p f) where
  spool := ⟨rfl, rfl⟩
  guard _ := rfl
  fetcher := rfl
  ticket _ := rfl
  port q := by
    rw [State.port_modPort]
    split
    · rename_i hq
      rw [hq, h]
    · rfl
  fetches := .of_msp rfl

theorem Kept.modPort (s : State) (p : PortId) {f : Port → Port} (h : (f (s.port p)).law = (s.port p).law)
    (hidle : (f (s.port p)).engine.state = .idle →
      (f (s.port p)).engine.job = none ∨ (s.port p).engine.state = .idle) : Kept s (s.modPort p f) := by
  refine .of_same (sameCore_modPort s p h) fun q hq => ?_
  rw [State.port_modPort] at hq ⊢
  split
  · rename_i hqp
    subst hqp
    rw [if_pos rfl] at hq
    exact (hidle hq).imp_right fun hi => ⟨hi, Port.law_job h⟩
  · rename_i hqp
    rw [if_neg hqp] at hq
    exact .inr ⟨hq, rfl⟩

theorem Kept.modLink (s : State) (p : PortId) (f : Link → Link) : Kept s (s.modLink p f) := .modPort s p rfl .inr

theorem Kept.modWatch (s : State) (p : PortId) (f : Watch → Watch) : Kept s (s.modWatch p f) := .modPort s p rfl .inr

/-- One ticket moves in nothing that the laws look at. -/
theorem sameCore_modTicket (s : State) (k : Slot) {f : Ticket → Ticket} (h : (f (s.ticket k)).law = (s.ticket k).law) :
    SameCore s (s.modTicket k f) := by
  refine ⟨⟨rfl, rfl⟩, fun _ => rfl, rfl, fun u => ?_, fun _ => rfl, .of_msp rfl⟩
  rw [State.ticket_modTicket]
  split
  · rename_i hu
    rw [hu, h]
  · rfl

theorem Kept.modTicket (s : State) (k : Slot) {f : Ticket → Ticket} (h : (f (s.ticket k)).law = (s.ticket k).law) :
    Kept s (s.modTicket k f) :=
  .of_same (sameCore_modTicket s k h) fun _ hp => .inr ⟨hp, rfl⟩

theorem Kept.modAccount (s : State) (a : AccountId) (f : Account → Account) : Kept s (s.modAccount a f) :=
  .of_eq rfl rfl rfl rfl rfl rfl

theorem Kept.modCtl (s : State) (f : Control → Control) : Kept s (s.modCtl f) := .of_eq rfl rfl rfl rfl rfl rfl

theorem Kept.modRelay (s : State) (f : Relay → Relay) : Kept s (s.modRelay f) := .of_eq rfl rfl rfl rfl rfl rfl

theorem Kept.emit (s : State) (o : Output) : Kept s (s.emit o) := .of_eq rfl rfl rfl rfl rfl rfl

theorem Kept.clearOut (s : State) : Kept s s.clearOut := .of_eq rfl rfl rfl rfl rfl rfl

theorem Kept.setRecord (s : State) (tag : Tag) (r : Option PspRecord) : Kept s (s.setRecord tag r) :=
  .of_eq rfl rfl rfl rfl rfl rfl

theorem Kept.raise (s : State) (c : AlertClass) (n : Nat) (d : Detail) : Kept s (s.raise c n d) :=
  .of_eq rfl rfl rfl rfl rfl rfl

theorem Kept.pageEnded (s : State) : Kept s s.pageEnded := by
  rw [pageEnded_frame]
  exact .of_eq rfl rfl rfl rfl rfl rfl

end Keeping

end Sys2Proof.Machine

/-! ## Settling keeps the laws (R71, R92, R93, R97, R123) -/

namespace Sys2Proof.Machine

/-! ### The lines of a port's current fetches -/

theorem currentLines_perm_of_waiting (s : State) (r : MemRequest) (p : PortId) :
    ((s.modMsp fun m => { m with waiting := m.waiting ++ [r] }).currentLines p).Perm
      ((r.currentLine p).toList ++ s.currentLines p) := by
  simp only [State.currentLines, State.modMsp, List.filterMap_append, List.append_assoc]
  have h1 : [r].filterMap (·.currentLine p) = (r.currentLine p).toList := by
    cases h : r.currentLine p <;> simp [h]
  rw [h1, ← List.append_assoc, ← List.append_assoc]
  exact List.perm_append_comm.append_right _

theorem currentLine_of_not_lineFetch {r : MemRequest} (h : r.owner.isLineFetch = false) (p : PortId) :
    r.currentLine p = none := by
  unfold MemRequest.currentLine
  split
  · rename_i ho
    rw [ho] at h
    cases h
  · rfl

theorem currentLine_lineRequest (p q : PortId) (j : Job) (c : Cursor) :
    (lineRequest p j c).currentLine q = if p = q then some c else none := rfl

/-! ### The next line is presented (R92, R93) -/

theorem lineEnd_gt (j : Job) (x : Nat) : x < j.lineEnd x := by
  unfold Job.lineEnd
  omega

/-- The cursor's line joins the fetched ones, and the cursor moves behind it. -/
theorem Job.inOrder_present {j : Job} {c : Cursor} {xs : List Cursor} (h : j.inOrder xs) (hc : j.cursor = some c) :
    ({ j with cursor := j.nextCursor c } : Job).inOrder (c :: xs) := by
  obtain ⟨hapart, hplace, hbuffer, hcursor⟩ := h
  obtain ⟨hin, hpos, hbehind⟩ := hcursor c hc
  have hend := lineEnd_gt j c.offset
  refine ⟨List.pairwise_cons.2 ⟨fun x hx => ?_, hapart⟩, ?_, hbuffer, fun d hd => ?_⟩
  · rcases hbehind x hx with hlt | ⟨_, hle⟩
    · exact .inl (Nat.ne_of_gt hlt)
    · exact .inr (.inr hle)
  · rintro x (_ | ⟨_, hx⟩)
    · exact ⟨hpos.imp_right fun ⟨h1, h2⟩ => ⟨h1, lt_of_le_of_lt h2 hend⟩, hin⟩
    · exact hplace x hx
  · have hnext : ((j.dataBase + c.offset) / 64 + 1) * 64 - j.dataBase = j.lineEnd c.offset := rfl
    simp only [Job.nextCursor, hnext] at hd
    have hbehind' : ∀ x ∈ c :: (xs ++ j.buffer.map fun l => (⟨l.copy, l.offset⟩ : Cursor)),
        x = c ∨ x.copy < c.copy ∨ (x.copy = c.copy ∧ j.lineEnd x.offset ≤ c.offset) := by
      rintro x (_ | ⟨_, hx⟩)
      · exact .inl rfl
      · exact .inr (hbehind x hx)
    split at hd
    · cases hd
      refine ⟨⟨hin.1, .inl ‹_›⟩, ?_, fun x hx => ?_⟩
      · exact hpos.imp_right fun ⟨h1, h2⟩ => ⟨h1, by dsimp only; omega⟩
      · rcases hbehind' x hx with rfl | hlt | ⟨heq, hle⟩
        · exact .inr ⟨rfl, le_rfl⟩
        · exact .inl hlt
        · exact .inr ⟨heq, le_trans hle hend.le⟩
    · split at hd
      · cases hd
        have hcopy : j.copy < c.copy + 1 := by omega
        refine ⟨⟨.inl (by dsimp only; omega), ?_⟩, .inl hcopy, fun x hx => .inl ?_⟩
        · dsimp only
          omega
        · rcases hbehind' x hx with rfl | hlt | ⟨heq, _⟩ <;> (dsimp only; omega)
      · cases hd

theorem fetchWanted_some {s : State} {p : PortId} {j : Job} {c : Cursor} (h : s.fetchWanted p = some (j, c)) :
    (s.port p).engine.job = some j ∧ j.cursor = some c := by
  unfold State.fetchWanted at h
  dsimp only at h
  split at h
  · cases h
  · rename_i hj
    split at h
    · cases h
    · rename_i hc
      split at h
      · cases h
        exact ⟨hj, hc⟩
      · cases h

/-- An engine's next line presented (R93). -/
def State.presenting (s : State) (p : PortId) (j : Job) (c : Cursor) : State :=
  ((s.setJob p (some { j with cursor := j.nextCursor c })).modTicket j.slot fun t =>
    { t with fetchCount := t.fetchCount + 1 }).modMsp fun m => { m with waiting := m.waiting ++ [lineRequest p j c] }

section Presenting
variable {s : State} {p : PortId} {j : Job} {c : Cursor}

theorem presentFetch_cases (s : State) (p : PortId) : s.presentFetch p = s ∨
    ∃ j c, (s.port p).engine.job = some j ∧ j.cursor = some c ∧ s.presentFetch p = s.presenting p j c := by
  unfold State.presentFetch
  cases h : s.fetchWanted p with
  | none => exact .inl rfl
  | some x =>
    obtain ⟨j, c⟩ := x
    obtain ⟨hj, hc⟩ := fetchWanted_some h
    exact .inr ⟨j, c, hj, hc, rfl⟩

theorem presenting_port (q : PortId) : (s.presenting p j c).port q =
    if q = p then { s.port p with engine := { (s.port p).engine with job := some { j with cursor := j.nextCursor c } } }
    else s.port q := by
  rw [State.presenting, State.port_modMsp, State.port_modTicket, State.port_setJob]

theorem presenting_ticket (k : Slot) : (s.presenting p j c).ticket k =
    if k = j.slot then { s.ticket j.slot with fetchCount := (s.ticket j.slot).fetchCount + 1 } else s.ticket k := by
  rw [State.presenting, State.ticket_modMsp, State.ticket_modTicket, State.ticket_setJob, State.ticket_setJob]

theorem presenting_inHand (hj : (s.port p).engine.job = some j) (q : PortId) :
    (s.presenting p j c).inHand q = s.inHand q := by
  rw [State.inHand, presenting_port, State.inHand]
  split
  · rename_i hq
    rw [hq, hj]
    rfl
  · rfl

theorem presenting_lines (q : PortId) : ((s.presenting p j c).currentLines q).Perm
    ((if p = q then [c] else []) ++ s.currentLines q) := by
  have h := currentLines_perm_of_waiting ((s.setJob p (some { j with cursor := j.nextCursor c })).modTicket j.slot fun t =>
    { t with fetchCount := t.fetchCount + 1 }) (lineRequest p j c) q
  rw [currentLine_lineRequest] at h
  refine h.trans (List.Perm.append_right _ ?_)
  split <;> exact List.Perm.refl _

theorem sameTickets_presenting (hj : (s.port p).engine.job = some j) : SameTickets s (s.presenting p j c) where
  spool := ⟨rfl, rfl⟩
  guard _ := rfl
  fetcher := rfl
  state k := by rw [presenting_ticket]; split <;> simp_all
  mirror k := by rw [presenting_ticket]; split <;> simp_all
  entryCount k := by rw [presenting_ticket]; split <;> simp_all
  queue q := by rw [presenting_port]; split <;> simp_all
  pages q := by rw [presenting_port]; split <;> simp_all
  hand q k hq := by rwa [presenting_inHand hj] at hq

theorem countLaw_presenting (hhand : s.handLaw) (hhand' : (s.presenting p j c).handLaw)
    (hj : (s.port p).engine.job = some j) (hs : s.countLaw) : (s.presenting p j c).countLaw := by
  have hp : s.inHand p = some j.slot := inHand_of_job hj
  rw [countLaw_iff hhand] at hs
  rw [countLaw_iff hhand']
  obtain ⟨hheld, hfree⟩ := hs
  refine ⟨fun q k hq => ?_, fun k hk => ?_⟩
  · rw [presenting_inHand hj] at hq
    have hlen := (presenting_lines (s := s) (p := p) (j := j) (c := c) q).length_eq
    have hheldq := hheld q k hq
    rw [presenting_ticket, hlen]
    by_cases hkj : k = j.slot
    · subst hkj
      cases inHand_unique hhand hq hp
      rw [if_pos rfl, if_pos rfl]
      simp only [List.length_append, List.length_singleton]
      change (s.ticket j.slot).fetchCount + 1 = s.stoppedFetches j.slot + _
      omega
    · have hqp : p ≠ q := fun h => hkj (Option.some.inj ((h ▸ hq).symm.trans hp))
      rw [if_neg hkj, if_neg hqp]
      exact hheldq
  · have hkj : k ≠ j.slot := fun h => hk p (by rw [presenting_inHand hj, hp, h])
    rw [presenting_ticket, if_neg hkj]
    exact hfree k fun q => by rw [← presenting_inHand (c := c) hj]; exact hk q

theorem sequenceLaw_presenting (hj : (s.port p).engine.job = some j) (hc : j.cursor = some c) (hs : s.sequenceLaw) :
    (s.presenting p j c).sequenceLaw := by
  intro q k hq
  have hlines := presenting_lines (s := s) (p := p) (j := j) (c := c) q
  rw [presenting_port] at hq
  split at hq
  case isTrue hqp =>
    subst hqp
    cases hq
    rw [if_pos rfl] at hlines
    exact Job.inOrder_perm (Job.inOrder_present (hs q j hj) hc) hlines.symm
  case isFalse hqp =>
    rw [if_neg (Ne.symm hqp)] at hlines
    exact Job.inOrder_perm (hs q k hq) hlines.symm

theorem marksLaw_presenting (hs : s.marksLaw) : (s.presenting p j c).marksLaw := by
  obtain ⟨hcurrent, hnone⟩ := hs
  refine ⟨fun r hr q mark o x ho => ?_, fun q hq => ?_⟩
  · rcases List.mem_append.1 hr with hr | hr
    · exact hcurrent r hr q mark o x ho
    · rw [List.mem_singleton.1 hr] at ho
      cases ho
      rfl
  · rw [presenting_port] at hq
    split at hq
    case isTrue => cases hq
    case isFalse hqp =>
      have h := presenting_lines (s := s) (p := p) (j := j) (c := c) q
      rw [if_neg (Ne.symm hqp), hnone q hq] at h
      exact h.eq_nil

theorem lineLaws_presenting (hs : s.ticketLaws) (hl : s.lineLaws) (hj : (s.port p).engine.job = some j)
    (hc : j.cursor = some c) : (s.presenting p j c).lineLaws := by
  have hhand : s.handLaw := hs.2.2.2.2.2.1
  have hhand' : (s.presenting p j c).handLaw := ((sameTickets_presenting hj).ticketLaws hs).2.2.2.2.2.1
  obtain ⟨hnames, hmarks, hstopped, hcount, hseq, hrest⟩ := hl
  refine ⟨hnames, marksLaw_presenting hmarks, ?_, countLaw_presenting hhand hhand' hj hcount,
    sequenceLaw_presenting hj hc hseq, ?_⟩
  · rw [stoppedLaw_iff] at hstopped ⊢
    intro k hk
    rw [(sameTickets_presenting hj).state]
    exact hstopped k hk
  · rw [restLaw_iff] at hrest ⊢
    intro k hk
    rw [(sameTickets_presenting hj).state] at hk
    have hkj : k ≠ j.slot := by
      rintro rfl
      rw [((handLaw_iff s).1 hhand p _ (inHand_of_job hj)).1] at hk
      cases hk
    rw [presenting_ticket, if_neg hkj]
    exact hrest k hk

theorem KeptCore.presenting (hj : (s.port p).engine.job = some j) (hc : j.cursor = some c) :
    KeptCore s (s.presenting p j c) where
  tickets := (sameTickets_presenting hj).ticketLaws
  lines hs hl := lineLaws_presenting hs hl hj hc
  pages _ _ hp := pagesLaw_of hp (sameTickets_presenting hj).pages fun q k _ hk => by rwa [presenting_inHand hj]

end Presenting

theorem KeptCore.presentFetch (s : State) (p : PortId) : KeptCore s (s.presentFetch p) := by
  rcases presentFetch_cases s p with h | ⟨j, c, hj, hc, h⟩ <;> rw [h]
  · exact .refl s
  · exact .presenting hj hc

/-! ### Settling -/

theorem KeptCore.modPort (s : State) (p : PortId) {f : Port → Port} (h : (f (s.port p)).law = (s.port p).law) :
    KeptCore s (s.modPort p f) := .of_same (sameCore_modPort s p h)

theorem KeptCore.modTicket (s : State) (k : Slot) {f : Ticket → Ticket} (h : (f (s.ticket k)).law = (s.ticket k).law) :
    KeptCore s (s.modTicket k f) :=
  .of_same (sameCore_modTicket s k h)

theorem KeptCore.modLink (s : State) (p : PortId) (f : Link → Link) : KeptCore s (s.modLink p f) :=
  .modPort s p (f := fun x => { x with link := f x.link }) rfl

theorem KeptCore.judgeEngine (s : State) (p : PortId) : KeptCore s (s.judgeEngine p) :=
  .modPort s p (f := fun x => { x with engine := { x.engine with state := s.judged p } }) rfl

theorem KeptCore.judgeIdle (s : State) (p : PortId) : KeptCore s (s.judgeIdle p) := by
  unfold State.judgeIdle
  exact .modLink s p _

theorem KeptCore.settlePort (s : State) (p : PortId) : KeptCore s (s.settlePort p) :=
  ((KeptCore.judgeEngine s p).trans (.presentFetch _ p)).trans (.judgeIdle _ p)

theorem KeptCore.foldl_settlePort (ps : List PortId) (s : State) : KeptCore s (ps.foldl State.settlePort s) := by
  induction ps generalizing s with
  | nil => exact .refl s
  | cons p ps ih => exact (KeptCore.settlePort s p).trans (ih _)

/-- An engine is judged IDLE only with no ticket in hand (R90). -/
theorem judged_eq_idle {s : State} {p : PortId} (h : s.judged p = .idle) : (s.port p).engine.job = none := by
  have hne : (s.port p).engine.state ≠ .jamStop := fun hj => by
    rw [(judged_jamStop s p).2 hj] at h
    cases h
  cases hj : (s.port p).engine.job with
  | none => rfl
  | some j =>
    rw [judged_busy hne hj] at h
    have : (s.gates p j).state ≠ .idle := by
      unfold State.gates
      dsimp only
      repeat' split
      all_goals simp [GateResult.state]
    exact absurd h this

theorem job_of_still {x y : Port} (h : y.still = x.still) (hx : x.engine.job = none) : y.engine.job = none := by
  have hj : y.engine.job.map (fun j => { j with cursor := none }) = x.engine.job.map fun j => { j with cursor := none } :=
    (congrArg (fun z : Port => z.engine.job) h :)
  rw [hx] at hj
  exact Option.map_eq_none_iff.1 hj

theorem idleLaw_settle (s : State) : s.settle.idleLaw := by
  intro p hp
  rw [settle_port_state] at hp
  exact job_of_still (State.port_still (still_settle s) p) (judged_eq_idle hp)

theorem idleLaw_settlePort {s : State} {p : PortId}
    (h : ∀ q, q ≠ p → (s.port q).engine.state = .idle → (s.port q).engine.job = none) : (s.settlePort p).idleLaw := by
  intro q hq
  have hstill := State.port_still (still_settlePort s p) q
  rw [settlePort_port_state] at hq
  split at hq
  · rename_i hqp
    subst hqp
    exact job_of_still hstill (judged_eq_idle hq)
  · exact job_of_still hstill (h q ‹_› hq)

theorem KeptCore.settle {s t : State} (h : KeptCore s t) : Kept s t.settle :=
  .of_core (h.trans (.foldl_settlePort _ t)) fun _ => idleLaw_settle t

theorem KeptCore.settlePort_kept {s t : State} {p : PortId} (h : KeptCore s t) (hport : ∀ q, q ≠ p → t.port q = s.port q) :
    Kept s (t.settlePort p) :=
  .of_core (h.trans (.settlePort t p)) fun hs => idleLaw_settlePort fun q hq => by rw [hport q hq]; exact hs q

theorem Kept.settle (s : State) : Kept s s.settle := (KeptCore.refl s).settle

theorem Kept.settlePort (s : State) (p : PortId) : Kept s (s.settlePort p) :=
  (KeptCore.refl s).settlePort_kept fun _ _ => rfl

end Sys2Proof.Machine

/-! ## The end of a ticket keeps the laws (R52, R56, R57, R63, R74, R79, R153) -/

namespace Sys2Proof.Machine

/-- From `s` to `t` a ticket ends: it is no longer in use, its guard counts fall, it leaves its queue, and nothing else that
the laws look at moves. -/
structure Ends (s t : State) (k : Slot) : Prop where
  image : t.image = s.image
  guard : ∀ b, t.guard b = if s.holdsBlock k b then s.guard b - 1 else s.guard b
  fetcher : t.fetcher = s.fetcher
  others : ∀ u, u ≠ k → t.ticket u = s.ticket u
  ended : (t.ticket k).state.inUse = false ∧ (t.ticket k).state ≠ .posting
  fetchCount : (t.ticket k).fetchCount = (s.ticket k).fetchCount
  sending : (t.ticket k).sending = (s.ticket k).sending
  queue : ∀ p, (t.port p).queue = leaveQueue k (s.port p).queue
  pages : ∀ p, (t.port p).pages = (s.port p).pages
  engine : ∀ p, (t.port p).engine = (s.port p).engine
  msp : t.msp = s.msp

/-- A ticket that can end: in use, sent no longer, and with no entry left. -/
structure CanEnd (x : Ticket) : Prop where
  inUse : x.state.inUse = true
  unsent : x.state ≠ .active
  entryCount : x.state.pastQueued = true → x.entryCount = 0

/-- A ticket for which nothing is fetched. -/
def Ticket.atRest (x : Ticket) : Prop := x.state.mayFetch = true → x.fetchCount = 0 ∧ x.sending = false

theorem not_posting_of_inUse {x : TicketState} (h : x.inUse = true) : x ≠ .posting := by
  rintro rfl
  cases h

theorem entriesAt_of_canEnd {s : State} (hs : s.entryLaw) {k : Slot} (h : CanEnd (s.ticket k)) (p : PortId) :
    s.entriesAt p k = 0 := by
  cases hp : (s.ticket k).state.pastQueued with
  | false => exact entriesAt_zero hs (.inl hp)
  | true =>
    have hsum := ((entryLaw_iff s).1 hs).2 k h.inUse
    rw [h.entryCount hp] at hsum
    exact Finset.sum_eq_zero_iff.1 hsum.symm p (Finset.mem_univ p)

namespace Ends
variable {s t : State} {k : Slot}

theorem state_ne (h : Ends s t k) (hk : CanEnd (s.ticket k)) {x : TicketState} (hx : x = .queued ∨ x = .posting) (u : Slot) :
    (t.ticket u).state = x ↔ (s.ticket u).state = x ∧ u ≠ k := by
  by_cases hu : u = k
  · subst hu
    refine ⟨fun hx' => ?_, fun hx' => absurd rfl hx'.2⟩
    obtain ⟨huse, hpost⟩ := h.ended
    rcases hx with rfl | rfl
    · rw [hx'] at huse
      cases huse
    · exact absurd hx' hpost
  · rw [h.others u hu]
    exact ⟨fun h => ⟨h, hu⟩, fun h => h.1⟩

theorem inHand (h : Ends s t k) (p : PortId) : t.inHand p = s.inHand p := by
  rw [State.inHand, h.engine p]
  rfl

theorem guardLaw (h : Ends s t k) (hs : s.guardLaw) : t.guardLaw := by
  have hend : ∀ b, t.holdsBlock k b = false := fun b => by rw [State.holdsBlock, h.ended.1]; rfl
  refine guardLaw_of_one hs k (fun u hu => ?_) fun b => ?_
  · exact holdsBlock_of (sameSpool_of_image h.image) (by rw [h.others u hu]) fun _ => by rw [h.others u hu]
  · rw [h.guard b, hend b]
    cases hb : s.holdsBlock k b with
    | false => rfl
    | true =>
      have := guard_pos hs hb
      rw [if_pos rfl]
      simp only [Bool.toNat_true, Bool.toNat_false]
      omega

theorem queueLaw (h : Ends s t k) (hk : CanEnd (s.ticket k)) (hs : s.queueLaw) : t.queueLaw := by
  intro p
  obtain ⟨hnodup, hmem⟩ := hs p
  rw [h.queue p]
  refine ⟨hnodup.sublist (List.filter_sublist.map _), fun u => ?_⟩
  rw [h.state_ne hk (.inl rfl)]
  have hin : u ∈ (leaveQueue k (s.port p).queue).map QueueEntry.slot ↔
      u ∈ (s.port p).queue.map QueueEntry.slot ∧ u ≠ k := by
    simp only [leaveQueue, List.mem_map, List.mem_filter, bne_iff_ne]
    constructor
    · rintro ⟨e, ⟨he, hne⟩, rfl⟩
      exact ⟨⟨e, he, rfl⟩, hne⟩
    · rintro ⟨⟨e, he, rfl⟩, hne⟩
      exact ⟨e, ⟨he, hne⟩, rfl⟩
  rw [hin, hmem u]
  constructor
  · rintro ⟨⟨hq, hm⟩, hu⟩
    exact ⟨⟨hq, hu⟩, by rwa [h.others u hu]⟩
  · rintro ⟨⟨hq, hu⟩, hm⟩
    exact ⟨⟨hq, by rwa [h.others u hu] at hm⟩, hu⟩

theorem ticketLaws (h : Ends s t k) (hk : CanEnd (s.ticket k)) (hs : s.ticketLaws) : t.ticketLaws := by
  obtain ⟨hguard, hqueue, horder, hposting, hextent, hhand, hentry⟩ := hs
  have hused : ∀ u, (t.ticket u).state.inUse = true → u ≠ k := by
    rintro u hu rfl
    rw [h.ended.1] at hu
    cases hu
  refine ⟨h.guardLaw hguard, h.queueLaw hk hqueue, fun p => ?_, ?_, ?_, ?_, ?_⟩
  · rw [h.queue p]
    exact (horder p).sublist List.filter_sublist
  · refine postingLaw_of hposting h.fetcher fun u => ?_
    rw [h.state_ne hk (.inr rfl)]
    exact and_iff_left_of_imp fun hu he => not_posting_of_inUse hk.inUse (he ▸ hu)
  · refine extentLaw_of hextent (sameSpool_of_image h.image) fun u hu => ?_
    have hne := hused u hu
    rw [h.others u hne] at hu ⊢
    exact ⟨hu, rfl⟩
  · refine handLaw_of hhand fun p u hu => ?_
    rw [h.inHand] at hu
    have hne : u ≠ k := fun he => not_inHand hhand hk.unsent p (he ▸ hu)
    rw [h.others u hne]
    exact ⟨hu, rfl, rfl⟩
  · rw [entryLaw_iff] at hentry ⊢
    obtain ⟨hplace, hsum⟩ := hentry
    refine ⟨fun p e he => ?_, fun u hu => ?_⟩
    · rw [h.pages p] at he
      have hne : e.slot ≠ k := entriesAt_eq_zero.1 (entriesAt_of_canEnd ((entryLaw_iff s).2 ⟨hplace, hsum⟩) hk p) e he
      rw [h.others _ hne]
      exact hplace p e he
    · have hne := hused u hu
      rw [h.others u hne] at hu ⊢
      rw [hsum u hu]
      exact Finset.sum_congr rfl fun p _ => by rw [State.entriesAt, State.entriesAt, h.pages p]

theorem lineLaws (h : Ends s t k) (hk : CanEnd (s.ticket k)) (hr : (s.ticket k).atRest) (hs : s.ticketLaws)
    (hl : s.lineLaws) : t.lineLaws := by
  have hhand : s.handLaw := hs.2.2.2.2.2.1
  have hhand' : t.handLaw := (h.ticketLaws hk hs).2.2.2.2.2.1
  have hlines : ∀ p, t.currentLines p = s.currentLines p := fun p => by rw [State.currentLines, h.msp]; rfl
  have hstops : ∀ u, t.stoppedFetches u = s.stoppedFetches u := fun u => by rw [State.stoppedFetches, h.msp]; rfl
  have hfetch : ∀ u, (t.ticket u).fetchCount = (s.ticket u).fetchCount := fun u => by
    by_cases hu : u = k
    · rw [hu, h.fetchCount]
    · rw [h.others u hu]
  obtain ⟨hnames, ⟨hcurrent, hnone⟩, hstopped, hcount, hseq, hrest⟩ := hl
  have hrested : (s.ticket k).fetchCount = 0 ∧ (s.ticket k).sending = false := by
    cases hm : (s.ticket k).state.mayFetch with
    | true => exact hr hm
    | false => exact (restLaw_iff s).1 hrest k hm
  rw [countLaw_iff hhand] at hcount
  obtain ⟨hheld, hfree⟩ := hcount
  refine ⟨(SameFetches.of_msp h.msp).names hnames, ⟨fun r hr => ?_, fun p hp => ?_⟩, ?_, ?_, fun p j hj => ?_, ?_⟩
  · rw [h.msp] at hr
    exact hcurrent r hr
  · rw [hlines]
    rw [h.engine p] at hp
    exact hnone p hp
  · rw [stoppedLaw_iff] at hstopped ⊢
    intro u hu
    rw [hstops] at hu
    have hne : u ≠ k := by
      rintro rfl
      exact hu ((hfree u (not_inHand hhand hk.unsent)).symm.trans hrested.1)
    rw [h.others u hne]
    exact hstopped u hu
  · rw [countLaw_iff hhand']
    refine ⟨fun p u hp => ?_, fun u hu => ?_⟩
    · rw [hfetch, hstops, hlines]
      exact hheld p u (by rwa [h.inHand] at hp)
    · rw [hfetch, hstops]
      exact hfree u fun p => by rw [← h.inHand]; exact hu p
  · rw [h.engine p] at hj
    rw [hlines]
    exact hseq p j hj
  · rw [restLaw_iff] at hrest ⊢
    intro u hu
    by_cases hne : u = k
    · rw [hne, h.fetchCount, h.sending]
      exact hrested
    · rw [h.others u hne] at hu ⊢
      exact hrest u hu

theorem kept (h : Ends s t k) (hk : CanEnd (s.ticket k)) (hr : (s.ticket k).atRest) : Kept s t :=
  .of_core
    { tickets := h.ticketLaws hk
      lines := h.lineLaws hk hr
      pages := fun _ _ hp => pagesLaw_of hp h.pages fun p u _ hu => by rwa [h.inHand] }
    (idleLaw_of fun p hp => .inr ⟨by rwa [h.engine p] at hp, by rw [h.engine p]⟩)

end Ends

/-! ### A ticket that stands in no queue -/

theorem leaveQueue_of_not_mem {k : Slot} {q : List QueueEntry} (h : k ∉ q.map QueueEntry.slot) : leaveQueue k q = q := by
  refine List.filter_eq_self.2 fun e he => bne_iff_ne.2 ?_
  rintro rfl
  exact h (List.mem_map_of_mem he)

theorem queue_of_not_queued {s : State} (hs : s.queueLaw) {k : Slot} {p : PortId}
    (h : (s.ticket k).state ≠ .queued ∨ ¬(s.ticket k).names p) : leaveQueue k (s.port p).queue = (s.port p).queue :=
  leaveQueue_of_not_mem fun hk => by
    obtain ⟨hq, hn⟩ := ((hs p).2 k).1 hk
    rcases h with h | h
    · exact h hq
    · exact h hn

/-- A ticket ends where it has been taken out of its queue before. -/
theorem ends_endTicket {s v : State} {k : Slot} {st : TicketState} (r : Reason) (himage : v.image = s.image)
    (hguards : v.guards = s.guards) (hfetcher : v.fetcher = s.fetcher) (htickets : v.tickets = s.tickets)
    (hmsp : v.msp = s.msp) (hqueue : ∀ p, (v.port p).queue = leaveQueue k (s.port p).queue)
    (hpages : ∀ p, (v.port p).pages = (s.port p).pages) (hengine : ∀ p, (v.port p).engine = (s.port p).engine)
    (huse : (s.ticket k).state.inUse = true) (hst : st.inUse = false) (hpost : st ≠ .posting) :
    Ends s (v.endTicket k st r) k := by
  have hv : ∀ u, v.ticket u = s.ticket u := fun u => by rw [State.ticket, htickets]; rfl
  have hport : ∀ p, (v.endTicket k st r).port p = v.port p := fun p => by rw [endTicket_frame]; rfl
  have hself : (v.endTicket k st r).ticket k = { s.ticket k with state := st, reason := r, resume := none } := by
    rw [endTicket_ticket, if_pos rfl, hv]
  refine ⟨?_, fun b => ?_, ?_, fun u hu => ?_, ?_, ?_, ?_, fun p => ?_, fun p => ?_, fun p => ?_, ?_⟩
  · rw [endTicket_frame]
    exact himage
  · have hg : v.guard b = s.guard b := by rw [State.guard, hguards]; rfl
    have hholds : s.holdsBlock k b = (s.ticket k).mirror.any fun m => isTouchedBlock s.image.spoolWindow m b := by
      rw [State.holdsBlock, huse]
      rfl
    rw [endTicket_guard, hv, himage, hg, hholds]
  · rw [endTicket_frame]
    exact hfetcher
  · rw [endTicket_ticket, if_neg hu, hv]
  · rw [hself]
    exact ⟨hst, hpost⟩
  · rw [hself]
  · rw [hself]
  · rw [hport, hqueue]
  · rw [hport, hpages]
  · rw [hport, hengine]
  · rw [endTicket_frame]
    exact hmsp

theorem Kept.endTicket_of_laws {s : State} {k : Slot} {st : TicketState} {r : Reason} (hk : CanEnd (s.ticket k))
    (hq : (s.ticket k).state ≠ .queued) (hr : (s.ticket k).atRest) (hst : st.inUse = false) (hpost : st ≠ .posting) :
    Kept s (s.endTicket k st r) := by
  have hends : s.ticketLaws → Ends s (s.endTicket k st r) k := fun hs =>
    ends_endTicket r rfl rfl rfl rfl rfl (fun p => (queue_of_not_queued hs.2.1 (.inl hq)).symm) (fun _ => rfl) (fun _ => rfl)
      hk.inUse hst hpost
  exact ⟨fun hs => ((hends hs).kept hk hr).tickets hs, fun hs => ((hends hs).kept hk hr).fetches hs,
    fun hs => ((hends hs).kept hk hr).pages hs⟩

/-! ### The tests for a ticket's end (R56, R153) -/

theorem Kept.drainTest (s : State) (k : Slot) : Kept s (s.drainTest k) := by
  rw [drainTest_eq]
  refine .ite (fun h => ?_) fun _ => .refl s
  have hstate := drains_state h
  simp only [Ticket.drains, Bool.and_eq_true, beq_iff_eq, Bool.not_eq_true'] at h
  obtain ⟨⟨⟨-, hentries⟩, hfetches⟩, hsending⟩ := h
  refine .endTicket_of_laws ⟨?_, ?_, fun _ => hentries⟩ ?_ (fun _ => ⟨hfetches, hsending⟩) ?_ ?_ <;>
    rcases hstate with hst | hst <;> simp [Ticket.ended, hst, TicketState.inUse]

theorem Kept.deliveryTest (s : State) (k : Slot) : Kept s (s.deliveryTest k) := by
  unfold State.deliveryTest
  split
  · rename_i hst
    refine .ite (fun h => ?_) fun _ => .refl s
    exact .endTicket_of_laws ⟨by rw [hst]; rfl, by rw [hst]; decide, fun _ => h⟩ (by rw [hst]; decide)
      (fun hm => by rw [hst] at hm; cases hm) rfl (by decide)
  · exact .drainTest s k
  · exact .drainTest s k
  · exact .refl s

/-! ### CANCEL of a QUEUED ticket, and PORT_FLUSH (R52, R74) -/

/-- A QUEUED ticket taken out of its queue ends. -/
theorem Kept.dequeued {s : State} {p : PortId} {k : Slot} {r : Reason} (hq : (s.ticket k).state = .queued)
    (hp : (s.ticket k).names p) : Kept s ((s.setQueue p (leaveQueue k (s.port p).queue)).endTicket k .cancelled r) := by
  have hk : CanEnd (s.ticket k) := ⟨by rw [hq]; rfl, by rw [hq]; decide, fun h => by rw [hq] at h; cases h⟩
  have hr : (s.ticket k).atRest := fun h => by rw [hq] at h; cases h
  have hends : s.ticketLaws →
      Ends s ((s.setQueue p (leaveQueue k (s.port p).queue)).endTicket k .cancelled r) k := fun hs => by
    refine ends_endTicket r rfl rfl rfl rfl rfl (fun q => ?_) (fun q => ?_) (fun q => ?_) hk.inUse rfl (by decide)
    · rw [State.port_setQueue]
      split
      · rename_i hqp
        rw [hqp]
      · rename_i hqp
        exact (queue_of_not_queued hs.2.1 (.inr fun h => hqp (Ticket.names_unique h hp))).symm
    · rw [State.port_setQueue]
      split <;> simp_all
    · rw [State.port_setQueue]
      split <;> simp_all
  exact ⟨fun hs => ((hends hs).kept hk hr).tickets hs, fun hs => ((hends hs).kept hk hr).fetches hs,
    fun hs => ((hends hs).kept hk hr).pages hs⟩

theorem Kept.of_laws {s t : State} (h : s.ticketLaws → Kept s t) : Kept s t :=
  ⟨fun hs => (h hs).tickets hs, fun hs => (h hs).fetches hs, fun hs => (h hs).pages hs⟩

theorem Kept.cancelQueued {s : State} {k : Slot} (hq : (s.ticket k).state = .queued) : Kept s (s.cancelQueued k) := by
  refine .of_laws fun hs => ?_
  obtain ⟨m, hm, -⟩ := (extentLaw_iff s).1 hs.2.2.2.2.1 k (by rw [hq]; rfl)
  have h : s.cancelQueued k =
      ((s.setQueue m.port (leaveQueue k (s.port m.port).queue)).endTicket k .cancelled .cancel).settlePort m.port := by
    unfold State.cancelQueued
    rw [hm]
    rfl
  rw [h]
  exact (Kept.dequeued hq ⟨m, hm, rfl⟩).trans (.settlePort _ _)

theorem endTicket_setQueue (s : State) (p : PortId) (q : List QueueEntry) (k : Slot) (st : TicketState) (r : Reason) :
    (s.setQueue p q).endTicket k st r = (s.endTicket k st r).setQueue p q := by
  unfold State.endTicket
  simp only [State.ticket_setQueue]
  cases (s.ticket k).mirror with
  | none => rfl
  | some m =>
    dsimp only
    split <;> rfl

/-- The tickets of a queue end in its order, and the queue is emptied. -/
theorem Kept.flushed (p : PortId) (q : List QueueEntry) : ∀ s : State, (s.port p).queue = q →
    Kept s (q.foldl (fun s e => s.endTicket e.slot .cancelled .flush) (s.setQueue p [])) := by
  induction q with
  | nil =>
    intro s hq
    refine .modPort s p (f := fun x => { x with queue := [] }) ?_ .inr
    simp only [Port.law, hq]
  | cons e q ih =>
    intro s hq
    refine .of_laws fun hs => ?_
    obtain ⟨hnodup, hmem⟩ := hs.2.1 p
    rw [hq] at hnodup hmem
    obtain ⟨hqueued, hnames⟩ := (hmem e.slot).1 (by simp)
    have hleave : leaveQueue e.slot (s.port p).queue = q := by
      rw [hq]
      have : leaveQueue e.slot (e :: q) = leaveQueue e.slot q := by simp [leaveQueue]
      rw [this]
      exact leaveQueue_of_not_mem (List.nodup_cons.1 hnodup).1
    have hfirst : Kept s ((s.setQueue p q).endTicket e.slot .cancelled .flush) := by
      have := Kept.dequeued (r := .flush) hqueued hnames
      rwa [hleave] at this
    have hqueue : (((s.setQueue p q).endTicket e.slot .cancelled .flush).port p).queue = q := by
      rw [endTicket_setQueue, State.port_setQueue_self]
    have hrest := hfirst.trans (ih _ hqueue)
    rw [List.foldl_cons, endTicket_setQueue]
    rw [endTicket_setQueue] at hrest
    convert hrest using 2
    simp only [State.setQueue, State.modPort, State.setPort, State.port, tset_tset, tget_tset_self]

theorem Kept.portFlush (s : State) (p : PortId) : Kept s (s.portFlush p).1 := by
  unfold State.portFlush
  split
  · exact .refl s
  · exact (Kept.flushed p _ s rfl).trans (.settlePort _ p)

end Sys2Proof.Machine

/-! ## What moves in a page list keeps the laws (R101 to R103, R106, R140, R152) -/

namespace Sys2Proof.Machine

theorem handLaw_of_laws {s : State} (hs : s.ticketLaws) : s.handLaw := hs.2.2.2.2.2.1

/-- From `s` to `t` entries of the tickets `gone` leave the page list of a port and entries of the tickets `come` enter it,
with these tickets' entry counts. -/
structure MovesEntries (s t : State) (p : PortId) (gone come : List Slot) : Prop where
  image : t.image = s.image
  guards : t.guards = s.guards
  fetcher : t.fetcher = s.fetcher
  ticket : ∀ u, (t.ticket u).law = { (s.ticket u).law with
    entryCount := (s.ticket u).entryCount + come.count u - gone.count u }
  slots : (gone ++ (t.port p).pages.map Entry.slot).Perm (come ++ (s.port p).pages.map Entry.slot)
  others : ∀ q, q ≠ p → (t.port q).pages = (s.port q).pages
  queue : ∀ q, (t.port q).queue = (s.port q).queue
  engine : ∀ q, (t.port q).engine.job = (s.port q).engine.job ∧ (t.port q).engine.state = (s.port q).engine.state
  msp : t.msp = s.msp

theorem entriesAt_eq_count (s : State) (p : PortId) (k : Slot) :
    s.entriesAt p k = ((s.port p).pages.map Entry.slot).count k := by
  rw [State.entriesAt, List.count, List.countP_map]
  rfl

namespace MovesEntries
variable {s t : State} {p : PortId} {gone come : List Slot}

theorem state (h : MovesEntries s t p gone come) (k : Slot) : (t.ticket k).state = (s.ticket k).state :=
  (congrArg Ticket.state (h.ticket k) :)

theorem mirror (h : MovesEntries s t p gone come) (k : Slot) : (t.ticket k).mirror = (s.ticket k).mirror :=
  (congrArg Ticket.mirror (h.ticket k) :)

theorem sameLines (h : MovesEntries s t p gone come) : SameLines s t where
  state := h.state
  fetchCount k := (congrArg Ticket.fetchCount (h.ticket k) :)
  sending k := (congrArg Ticket.sending (h.ticket k) :)
  job q := (h.engine q).1
  fetches := .of_msp h.msp

theorem entriesAt (h : MovesEntries s t p gone come) (k : Slot) :
    gone.count k + t.entriesAt p k = come.count k + s.entriesAt p k := by
  rw [entriesAt_eq_count, entriesAt_eq_count, ← List.count_append, ← List.count_append]
  exact h.slots.count_eq k

theorem entryLaw (h : MovesEntries s t p gone come)
    (hcome : ∀ k ∈ come, (s.ticket k).state.pastQueued = true ∧ (s.ticket k).names p) (hs : s.entryLaw) : t.entryLaw := by
  rw [entryLaw_iff] at hs ⊢
  obtain ⟨hplace, hsum⟩ := hs
  have hfits : ∀ q k, (s.ticket k).state.pastQueued = true ∧ (s.ticket k).names q →
      (t.ticket k).state.pastQueued = true ∧ (t.ticket k).names q := fun q k => by
    unfold Ticket.names
    rw [h.state, h.mirror]
    exact id
  refine ⟨fun q e he => hfits q e.slot ?_, fun k hk => ?_⟩
  · by_cases hq : q = p
    · subst hq
      have hmem : e.slot ∈ come ++ (s.port q).pages.map Entry.slot :=
        h.slots.subset (List.mem_append_right _ (List.mem_map_of_mem he))
      rcases List.mem_append.1 hmem with hc | hc
      · exact hcome _ hc
      · obtain ⟨e', he', heq⟩ := List.mem_map.1 hc
        rw [← heq]
        exact hplace q e' he'
    · rw [h.others q hq] at he
      exact hplace q e he
  · rw [h.state] at hk
    have hcount : (t.ticket k).entryCount = (s.ticket k).entryCount + come.count k - gone.count k :=
      (congrArg Ticket.entryCount (h.ticket k) :)
    have hdiff : (∑ q, t.entriesAt q k) + s.entriesAt p k = (∑ q, s.entriesAt q k) + t.entriesAt p k :=
      sum_differ_at (f := fun q => t.entriesAt q k) (g := fun q => s.entriesAt q k) p fun q hq => by
        rw [State.entriesAt, State.entriesAt, h.others q hq]
    have hat := h.entriesAt k
    have hold := hsum k hk
    omega

theorem ticketLaws (h : MovesEntries s t p gone come)
    (hcome : ∀ k ∈ come, (s.ticket k).state.pastQueued = true ∧ (s.ticket k).names p) (hs : s.ticketLaws) :
    t.ticketLaws := by
  obtain ⟨hguard, hqueue, horder, hposting, hextent, hhand, hentry⟩ := hs
  have hstate := h.state
  have hmirror := h.mirror
  have hspool := sameSpool_of_image h.image
  exact ⟨guardLaw_of hguard (fun b => by rw [State.guard, h.guards]; rfl)
      fun k => holdsBlock_of hspool (by rw [hstate]) fun _ => hmirror k,
    queueLaw_of hqueue h.queue (fun k => by rw [hstate]) fun k _ => hmirror k,
    orderLaw_of horder h.queue,
    postingLaw_of hposting h.fetcher fun k => by rw [hstate],
    extentLaw_of hextent hspool fun k hu => ⟨by rwa [hstate] at hu, hmirror k⟩,
    handLaw_of hhand fun p k hp => ⟨by rwa [h.sameLines.inHand] at hp, hstate k, hmirror k⟩,
    h.entryLaw hcome hentry⟩

theorem kept (h : MovesEntries s t p gone come)
    (hcome : s.ticketLaws → ∀ k ∈ come, (s.ticket k).state.pastQueued = true ∧ (s.ticket k).names p)
    (hnewest : (s.port p).opensNewestOnly → (t.port p).opensNewestOnly)
    (hopen : (s.port p).opensNewestOnly → ∀ e, (t.port p).openEntry = some e →
      (s.port p).openEntry = some e ∨ s.inHand p = some e.slot) : Kept s t := by
  have htickets : s.ticketLaws → t.ticketLaws := fun hs => h.ticketLaws (hcome hs) hs
  refine .of_core ⟨htickets, fun hs hl => h.sameLines.lineLaws (handLaw_of_laws hs) (handLaw_of_laws (htickets hs)) hl,
    fun _ _ hp => ?_⟩ (idleLaw_of fun q hq => .inr ⟨by rwa [(h.engine q).2] at hq, (h.engine q).1⟩)
  obtain ⟨hall, hlaw⟩ := hp
  refine ⟨fun q => ?_, fun q e he => ?_⟩
  · by_cases hq : q = p
    · rw [hq]
      exact hnewest (hall p)
    · unfold Port.opensNewestOnly
      rw [h.others q hq]
      exact hall q
  · rw [h.sameLines.inHand]
    by_cases hq : q = p
    · subst hq
      exact (hopen (hall q) e he).elim (hlaw q e) id
    · rw [openEntry_of_pages (h.others q hq)] at he
      exact hlaw q e he

end MovesEntries

/-! ### The oldest entry leaves: a delivery, or a spoiled entry -/

theorem openEntry_tail {x y : Port} {e : Entry} (hx : x.pages = e :: y.pages) {f : Entry} (h : y.openEntry = some f) :
    x.openEntry = some f := by
  unfold Port.openEntry at h ⊢
  rw [hx]
  cases hy : y.pages with
  | nil => rw [hy] at h; cases h
  | cons d ds =>
    rw [hy] at h
    rwa [List.getLast?_cons_cons]

theorem opensNewestOnly_tail {x y : Port} {e : Entry} (hx : x.pages = e :: y.pages) (h : x.opensNewestOnly) :
    y.opensNewestOnly := by
  intro f hf
  refine h f ?_
  rw [hx]
  cases hy : y.pages with
  | nil => rw [hy] at hf; cases hf
  | cons d ds =>
    rw [hy] at hf
    exact List.mem_cons_of_mem _ hf

/-- The oldest entry leaves a page list and its ticket's entry count. -/
theorem Kept.oldest_gone {s t : State} {p : PortId} {e : Entry} {rest : List Entry}
    (hpages : (s.port p).pages = e :: rest) (himage : t.image = s.image) (hguards : t.guards = s.guards)
    (hfetcher : t.fetcher = s.fetcher) (hmsp : t.msp = s.msp) (hports : t.ports = (s.setPages p rest).ports)
    (hself : (t.ticket e.slot).law = { (s.ticket e.slot).law with entryCount := (s.ticket e.slot).entryCount - 1 })
    (hothers : ∀ u, u ≠ e.slot → (t.ticket u).law = (s.ticket u).law) : Kept s t := by
  have hport : ∀ q, t.port q = if q = p then { s.port p with pages := rest } else s.port q := fun q => by
    rw [← State.port_setPages, State.port, hports]
    rfl
  have htail : (s.port p).pages = e :: (t.port p).pages := by rw [hport, if_pos rfl, hpages]
  have hmoves : MovesEntries s t p [e.slot] [] := by
    refine ⟨himage, hguards, hfetcher, fun u => ?_, ?_, fun q hq => ?_, fun q => ?_, fun q => ?_, hmsp⟩
    · by_cases hu : u = e.slot
      · rw [hu, hself]
        simp
      · rw [hothers u hu, List.count_singleton, if_neg (by simpa using Ne.symm hu)]
        rfl
    · rw [htail]
      exact List.Perm.refl _
    · rw [hport, if_neg hq]
    · rw [hport]
      split <;> simp_all
    · rw [hport]
      split <;> simp_all
  exact hmoves.kept (fun _ _ hk => by cases hk) (opensNewestOnly_tail htail) fun _ _ hf => .inl (openEntry_tail htail hf)

theorem Kept.deliverEntry {s : State} {p : PortId} {e : Entry} {rest : List Entry} (h : (s.port p).pages = e :: rest) :
    Kept s (s.deliverEntry p e rest) := by
  unfold State.deliverEntry
  refine Kept.trans ?_ (Kept.deliveryTest _ _)
  rw [claimDeliver_frame]
  refine Kept.oldest_gone h rfl rfl rfl rfl rfl ?_ fun u hu => ?_
  · rw [State.ticket_modTicket_self]
    rfl
  · rw [State.ticket_modTicket_ne _ _ _ hu]
    rfl

theorem Kept.straySheets (s : State) (p : PortId) (n : Nat) : Kept s (s.straySheets p n) := .modPort s p rfl .inr

theorem Kept.deliverSheets (s : State) (p : PortId) (n : Nat) : Kept s (s.deliverSheets p n) := by
  induction n generalizing s with
  | zero => exact .refl s
  | succ n ih =>
    unfold State.deliverSheets
    split
    · exact .straySheets s p _
    · rename_i hp
      exact .ite (fun _ => (Kept.deliverEntry hp).trans (ih _)) fun _ => .straySheets s p _

theorem spoilEntry_setPages (s : State) (p : PortId) (es : List Entry) (e : Entry) :
    (s.setPages p es).spoilEntry e = (s.spoilEntry e).setPages p es := rfl

/-- The entries of a page list are spoiled from the oldest on, and the list is emptied. -/
theorem Kept.spoiled (p : PortId) (es : List Entry) : ∀ s : State, (s.port p).pages = es →
    Kept s ((es.foldl State.spoilEntry s).setPages p []) := by
  induction es with
  | nil =>
    intro s h
    refine .modPort s p (f := fun x => { x with pages := [] }) ?_ .inr
    simp only [Port.law, h]
  | cons e es ih =>
    intro s h
    have hfirst : Kept s ((s.spoilEntry e).setPages p es) := by
      refine Kept.oldest_gone h rfl rfl rfl rfl rfl ?_ fun u hu => ?_
      · rw [State.ticket_setPages, State.spoilEntry, State.ticket_modTicket_self]
        rfl
      · rw [State.ticket_setPages, State.spoilEntry, State.ticket_modTicket_ne _ _ _ hu]
        rfl
    have hrest := hfirst.trans (ih ((s.spoilEntry e).setPages p es) (by rw [State.port_setPages_self]))
    have hcomm : ∀ (es fs : List Entry) (v : State),
        (es.foldl State.spoilEntry (v.setPages p fs)).setPages p [] = (es.foldl State.spoilEntry v).setPages p [] := by
      intro es
      induction es with
      | nil =>
        intro fs v
        simp only [List.foldl_nil, State.setPages, State.modPort, State.setPort, State.port, tset_tset, tget_tset_self]
      | cons d ds ihd =>
        intro fs v
        rw [List.foldl_cons, List.foldl_cons, spoilEntry_setPages]
        exact ihd fs _
    rw [hcomm] at hrest
    exact hrest

theorem Kept.spoilAll (s : State) (p : PortId) : Kept s (s.spoilAll p) := .spoiled p _ s rfl

/-! ### The open page is withdrawn (R106) -/

theorem openEntry_closedPages {x : Port} (h : x.opensNewestOnly) : ({ x with pages := x.closedPages } : Port).openEntry = none := by
  cases hx : x.openEntry with
  | none =>
    have hpages := pages_eq x
    rw [hx, Option.toList_none, List.append_nil] at hpages
    rw [← hx]
    exact openEntry_of_pages hpages.symm
  | some e =>
    have hclosed : x.closedPages = x.pages.dropLast := by
      have hpages := pages_eq x
      rw [hx, Option.toList_some] at hpages
      rw [hpages, List.dropLast_concat]
    have hno := hasOpenPage_dropLast h
    rw [← hclosed] at hno
    simpa [Port.hasOpenPage] using hno

theorem opensNewestOnly_closedPages {x : Port} (h : x.opensNewestOnly) :
    ({ x with pages := x.closedPages } : Port).opensNewestOnly := by
  intro f hf
  refine h f ?_
  have hpages := pages_eq x
  cases hx : x.openEntry with
  | none =>
    rw [hx, Option.toList_none, List.append_nil] at hpages
    rwa [hpages]
  | some e =>
    rw [hx, Option.toList_some] at hpages
    rw [hpages, List.dropLast_concat]
    exact List.dropLast_subset _ hf

theorem movesEntries_withdrawOpen (s : State) (p : PortId) :
    MovesEntries s (s.withdrawOpen p) p ((s.port p).openEntry.toList.map Entry.slot) [] := by
  refine ⟨?_, ?_, ?_, fun u => ?_, ?_, fun q hq => ?_, fun q => ?_, fun q => ?_, ?_⟩
  · rw [withdrawOpen_frame]
  · rw [withdrawOpen_frame]
  · rw [withdrawOpen_frame]
  · rw [withdrawOpen_ticket, List.count, List.countP_map]
    rfl
  · rw [withdrawOpen_port, if_pos rfl, List.nil_append, ← List.map_append]
    conv_rhs => rw [pages_eq (s.port p)]
    exact List.perm_append_comm.map _
  · rw [withdrawOpen_port, if_neg hq]
  · rw [withdrawOpen_port]
    split <;> simp_all
  · rw [withdrawOpen_port]
    split <;> simp_all
  · rw [withdrawOpen_frame]

theorem Kept.withdrawOpen (s : State) (p : PortId) : Kept s (s.withdrawOpen p) := by
  have hport : (s.withdrawOpen p).port p = { s.port p with pages := (s.port p).closedPages } := by
    rw [withdrawOpen_port, if_pos rfl]
  refine (movesEntries_withdrawOpen s p).kept (fun _ _ hk => by cases hk) (fun h => ?_) fun h e he => ?_
  · rw [hport]
    exact opensNewestOnly_closedPages h
  · rw [hport, openEntry_closedPages h] at he
    cases he

end Sys2Proof.Machine

/-! ## An engine that gives up its ticket keeps the laws (R53, R105, R107 to R109, R139) -/

namespace Sys2Proof.Machine

/-- From `s` to `t` the engine of a port gives up its ticket in hand, which stays past QUEUED with its entries. -/
structure LeavesHand (s t : State) (p : PortId) (k : Slot) : Prop where
  inHand : s.inHand p = some k
  image : t.image = s.image
  guards : t.guards = s.guards
  fetcher : t.fetcher = s.fetcher
  others : ∀ u, u ≠ k → (t.ticket u).law = (s.ticket u).law
  past : (t.ticket k).state.pastQueued = true
  mirror : (t.ticket k).mirror = (s.ticket k).mirror
  entryCount : (t.ticket k).entryCount = (s.ticket k).entryCount
  queue : ∀ q, (t.port q).queue = (s.port q).queue
  pages : ∀ q, (t.port q).pages = (s.port q).pages
  free : (t.port p).engine.job = none
  elsewhere : ∀ q, q ≠ p → (t.port q).engine = (s.port q).engine

/-- What becomes of the fetches when the engine of a port gives up its ticket: none is current any more, and the ticket's
fetch count is the number of its stopped ones. -/
structure LeavesLines (s t : State) (p : PortId) (k : Slot) : Prop where
  names : s.namesLaw → t.namesLaw
  marks : ∀ r ∈ t.msp.waiting, r.owner.isLineFetch = true → r ∈ s.msp.waiting
  none : t.currentLines p = []
  lines : ∀ q, q ≠ p → (t.currentLines q).Perm (s.currentLines q)
  stopped : ∀ u, u ≠ k → t.stoppedFetches u = s.stoppedFetches u
  counted : (t.ticket k).fetchCount = t.stoppedFetches k
  stopping : t.stoppedFetches k ≠ 0 → (t.ticket k).state.isStopping = true
  rest : (t.ticket k).state.mayFetch = false → (t.ticket k).fetchCount = 0 ∧ (t.ticket k).sending = false

namespace LeavesHand
variable {s t : State} {p : PortId} {k : Slot}

theorem inHand_none (h : LeavesHand s t p k) : t.inHand p = none := by
  rw [State.inHand, h.free]
  rfl

theorem inHand_elsewhere (h : LeavesHand s t p k) {q : PortId} (hq : q ≠ p) : t.inHand q = s.inHand q := by
  rw [State.inHand, h.elsewhere q hq]
  rfl

theorem hand (h : LeavesHand s t p k) (hs : s.handLaw) {q : PortId} {u : Slot} (hu : t.inHand q = some u) :
    q ≠ p ∧ u ≠ k ∧ s.inHand q = some u := by
  have hq : q ≠ p := by
    rintro rfl
    rw [h.inHand_none] at hu
    cases hu
  rw [h.inHand_elsewhere hq] at hu
  exact ⟨hq, fun he => hq (inHand_unique hs (he ▸ hu) h.inHand), hu⟩

theorem ticketLaws (h : LeavesHand s t p k) (hs : s.ticketLaws) : t.ticketLaws := by
  obtain ⟨hguard, hqueue, horder, hposting, hextent, hhand, hentry⟩ := hs
  have hactive : (s.ticket k).state = .active := ((handLaw_iff s).1 hhand p k h.inHand).1
  have hspool := sameSpool_of_image h.image
  have huse : ∀ u, (t.ticket u).state.inUse = (s.ticket u).state.inUse := fun u => by
    by_cases hu : u = k
    · rw [hu, hactive, inUse_of_pastQueued h.past]
      rfl
    · rw [Ticket.law_state (h.others u hu)]
  have hmirror : ∀ u, (t.ticket u).mirror = (s.ticket u).mirror := fun u => by
    by_cases hu : u = k
    · rw [hu, h.mirror]
    · rw [Ticket.law_mirror (h.others u hu)]
  have hcount : ∀ u, (t.ticket u).entryCount = (s.ticket u).entryCount := fun u => by
    by_cases hu : u = k
    · rw [hu, h.entryCount]
    · rw [Ticket.law_entryCount (h.others u hu)]
  have hsame : ∀ x : TicketState, x.pastQueued = false → ∀ u, (t.ticket u).state = x ↔ (s.ticket u).state = x := by
    intro x hx u
    by_cases hu : u = k
    · rw [hu]
      have hpast := h.past
      constructor <;> rintro rfl
      · rw [hx] at hpast
        cases hpast
      · rw [hactive] at hx
        cases hx
    · rw [Ticket.law_state (h.others u hu)]
  exact ⟨guardLaw_of hguard (fun b => by rw [State.guard, h.guards]; rfl)
      fun u => holdsBlock_of hspool (huse u) fun _ => hmirror u,
    queueLaw_of hqueue h.queue (hsame _ rfl) fun u _ => hmirror u,
    orderLaw_of horder h.queue,
    postingLaw_of hposting h.fetcher (hsame _ rfl),
    extentLaw_of hextent hspool fun u hu => ⟨by rwa [huse] at hu, hmirror u⟩,
    handLaw_of hhand fun q u hu => by
      obtain ⟨-, hne, hold⟩ := h.hand hhand hu
      exact ⟨hold, Ticket.law_state (h.others u hne), hmirror u⟩,
    entryLaw_of hentry h.pages (fun u hu => by
      refine ⟨?_, hmirror u⟩
      by_cases hk : u = k
      · rw [hk]
        exact h.past
      · rwa [Ticket.law_state (h.others u hk)]) fun u hu => ⟨by rwa [huse] at hu, hcount u⟩⟩

theorem lineLaws (h : LeavesHand s t p k) (hlines : LeavesLines s t p k) (hs : s.ticketLaws) (hl : s.lineLaws) :
    t.lineLaws := by
  have hhand : s.handLaw := handLaw_of_laws hs
  have hhand' : t.handLaw := handLaw_of_laws (h.ticketLaws hs)
  obtain ⟨hnames, ⟨hcurrent, hnone⟩, hstopped, hcount, hseq, hrest⟩ := hl
  rw [countLaw_iff hhand] at hcount
  obtain ⟨hheld, hfree⟩ := hcount
  refine ⟨hlines.names hnames, ⟨fun r hr q mark c o ho => ?_, fun q hq => ?_⟩, ?_, ?_, fun q j hj => ?_, ?_⟩
  · exact hcurrent r (hlines.marks r hr (by rw [ho]; rfl)) q mark c o ho
  · by_cases hqp : q = p
    · rw [hqp]
      exact hlines.none
    · rw [h.elsewhere q hqp] at hq
      have hperm := hlines.lines q hqp
      rw [hnone q hq] at hperm
      exact hperm.eq_nil
  · rw [stoppedLaw_iff] at hstopped ⊢
    intro u hu
    by_cases huk : u = k
    · rw [huk] at hu ⊢
      exact hlines.stopping hu
    · rw [hlines.stopped u huk] at hu
      rw [Ticket.law_state (h.others u huk)]
      exact hstopped u hu
  · rw [countLaw_iff hhand']
    refine ⟨fun q u hu => ?_, fun u hu => ?_⟩
    · obtain ⟨hq, huk, hold⟩ := h.hand hhand hu
      rw [Ticket.law_fetchCount (h.others u huk), hlines.stopped u huk, (hlines.lines q hq).length_eq]
      exact hheld q u hold
    · by_cases huk : u = k
      · rw [huk]
        exact hlines.counted
      · rw [Ticket.law_fetchCount (h.others u huk), hlines.stopped u huk]
        refine hfree u fun q hq => ?_
        by_cases hqp : q = p
        · rw [hqp, h.inHand] at hq
          exact huk (Option.some.inj hq).symm
        · exact hu q (by rw [h.inHand_elsewhere hqp, hq])
  · by_cases hqp : q = p
    · rw [hqp, h.free] at hj
      cases hj
    · rw [h.elsewhere q hqp] at hj
      exact Job.inOrder_perm (hseq q j hj) (hlines.lines q hqp).symm
  · rw [restLaw_iff] at hrest ⊢
    intro u hu
    by_cases huk : u = k
    · rw [huk] at hu ⊢
      exact hlines.rest hu
    · rw [Ticket.law_state (h.others u huk)] at hu
      rw [Ticket.law_fetchCount (h.others u huk), Ticket.law_sending (h.others u huk)]
      exact hrest u hu

theorem idleLaw (h : LeavesHand s t p k) (hs : s.idleLaw) : t.idleLaw := by
  intro q hq
  by_cases hqp : q = p
  · rw [hqp]
    exact h.free
  · rw [h.elsewhere q hqp] at hq ⊢
    exact hs q hq

end LeavesHand

/-! ### Marked fetches (R95) -/

theorem remark_id (p : PortId) (mark : FetchMark) (g : Granted) : (g.remark p mark).id = g.id := by
  unfold Granted.remark
  split
  · split <;> rfl
  · rfl

/-- The line a granted request fetches for the ticket in hand, before and after the current fetches of a port are marked. -/
theorem remark_currentLine {p : PortId} {mark : FetchMark} (hmark : mark ≠ .current) (q : PortId) (g : Granted) :
    (g.remark p mark).request.currentLine q = if q = p then none else g.request.currentLine q := by
  unfold Granted.remark
  split
  · rename_i r copy offset ho
    split
    · rename_i hr
      subst hr
      have hold : g.request.currentLine q = if r = q then some ⟨copy, offset⟩ else none := by
        rw [MemRequest.currentLine, ho]
      have hnew : ({ g.request with owner := .lineFetch r mark copy offset } : MemRequest).currentLine q = none := by
        unfold MemRequest.currentLine
        split
        · rename_i h
          cases h
          exact absurd rfl hmark
        · rfl
      rw [hnew, hold]
      split
      · rfl
      · rename_i hq
        rw [if_neg (Ne.symm hq)]
    · rename_i hr
      split
      · rename_i hq
        rw [MemRequest.currentLine, ho, hq]
        exact if_neg hr
      · rfl
  · rename_i hno
    split
    · unfold MemRequest.currentLine
      split
      · rename_i h
        exact absurd h (hno _ _ _)
      · rfl
    · rfl

theorem remark_stale_isStopped (p : PortId) (k : Slot) (g : Granted) :
    (g.remark p .stale).isStoppedFetchOf k = g.isStoppedFetchOf k := by
  unfold Granted.remark
  split
  · rename_i ho
    split
    · simp only [Granted.isStoppedFetchOf, ho]
    · rfl
  · rfl

theorem remark_stopped_isStopped (p : PortId) (k u : Slot) (g : Granted) :
    (g.remark p (.stopped k)).isStoppedFetchOf u =
      (g.isStoppedFetchOf u || (u == k && (g.request.currentLine p).isSome)) := by
  unfold Granted.remark
  split
  · rename_i q copy offset ho
    split
    · rename_i hq
      simp only [Granted.isStoppedFetchOf, MemRequest.currentLine, ho, hq, if_pos, Option.isSome_some, Bool.and_true,
        Bool.false_or]
      exact Bool.beq_comm
    · rename_i hq
      simp [Granted.isStoppedFetchOf, MemRequest.currentLine, ho, hq]
  · rename_i hno
    have : g.request.currentLine p = none := by
      unfold MemRequest.currentLine
      split
      · rename_i h
        exact absurd h (hno _ _ _)
      · rfl
    rw [this]
    simp

theorem currentLine_isSome_not_stopped {p : PortId} {k : Slot} {g : Granted} (h : (g.request.currentLine p).isSome = true) :
    g.isStoppedFetchOf k = false := by
  unfold MemRequest.currentLine at h
  unfold Granted.isStoppedFetchOf
  split at h
  · rename_i ho
    rw [ho]
  · cases h

theorem filterMap_length {α β : Type} (f : α → Option β) (l : List α) :
    (l.filterMap f).length = l.countP fun x => (f x).isSome := by
  induction l with
  | nil => rfl
  | cons x l ih =>
    cases h : f x with
    | none => rw [List.filterMap_cons_none h, ih, List.countP_cons_of_neg (by simp [h])]
    | some y => rw [List.filterMap_cons_some h, List.length_cons, ih, List.countP_cons_of_pos (by simp [h])]

theorem currentLines_length (s : State) (p : PortId) : (s.currentLines p).length =
    (s.msp.waiting.countP fun r => (r.currentLine p).isSome) +
      s.msp.outstanding.countP fun g => (g.request.currentLine p).isSome := by
  rw [State.currentLines, filterMap_length, List.countP_append, List.countP_map]
  rfl

/-- Every waiting line fetch is current, so the waiting fetches of a port are its current ones (R95). -/
theorem waiting_currentLine {s : State} (h : s.marksLaw) {r : MemRequest} (hr : r ∈ s.msp.waiting) (p : PortId) :
    (r.currentLine p).isSome = r.isFetchOf p := by
  unfold MemRequest.isFetchOf
  split
  · rename_i q mark copy offset ho
    have hm := h.1 r hr q mark copy offset ho
    rw [MemRequest.currentLine, ho, hm]
    dsimp only
    split
    · rename_i hq
      rw [hq]
      simp
    · rename_i hq
      simpa using hq
  · rename_i hno
    unfold MemRequest.currentLine
    split
    · rename_i h
      exact absurd h (hno _ _ _ _)
    · rfl

theorem waiting_currentCount {s : State} (h : s.marksLaw) (p : PortId) :
    (s.msp.waiting.countP fun r => (r.currentLine p).isSome) = s.msp.waiting.countP (·.isFetchOf p) :=
  List.countP_congr fun r hr => by rw [waiting_currentLine h hr]

/-- The lines of the ports once a port's waiting fetches are taken back and its granted ones marked. -/
theorem currentLines_remarked {s t : State} {p : PortId} {mark : FetchMark} (hmarks : s.marksLaw) (hmark : mark ≠ .current)
    (hwaiting : t.msp.waiting = s.msp.waiting.filter fun r => !r.isFetchOf p)
    (hout : t.msp.outstanding = s.msp.outstanding.map (Granted.remark p mark)) (q : PortId) :
    t.currentLines q = if q = p then [] else s.currentLines q := by
  have hold : t.currentLines q = (s.msp.waiting.filter fun r => !r.isFetchOf p).filterMap (·.currentLine q) ++
      s.msp.outstanding.filterMap fun g => (g.remark p mark).request.currentLine q := by
    rw [State.currentLines, hwaiting, hout, List.filterMap_append, List.map_map, List.filterMap_map]
    rfl
  rw [hold]
  simp only [remark_currentLine hmark]
  split
  · rename_i hq
    subst hq
    rw [List.append_eq_nil_iff]
    refine ⟨List.filterMap_eq_nil_iff.2 fun r hr => ?_, List.filterMap_eq_nil_iff.2 fun _ _ => rfl⟩
    obtain ⟨hr, hnot⟩ := List.mem_filter.1 hr
    have := waiting_currentLine hmarks hr q
    rw [Bool.not_eq_true'] at hnot
    rw [hnot] at this
    exact Option.not_isSome_iff_eq_none.1 (by rw [this]; exact Bool.false_ne_true)
  · rename_i hq
    rw [State.currentLines, List.filterMap_append, List.filterMap_map]
    congr 1
    rw [List.filterMap_filter]
    refine List.filterMap_congr fun r _ => ?_
    unfold MemRequest.isFetchOf MemRequest.currentLine
    split
    · rename_i q' mark' copy offset ho
      rw [ho]
      cases mark' <;> dsimp only
      · by_cases hqp : q' = p
        · subst hqp
          simp [Ne.symm hq]
        · simp [hqp]
      · split <;> rfl
      · split <;> rfl
    · rfl

theorem names_remarked {s t : State} {p : PortId} {mark : FetchMark}
    (hout : t.msp.outstanding = s.msp.outstanding.map (Granted.remark p mark)) (hnext : t.msp.nextGrant = s.msp.nextGrant)
    (h : s.namesLaw) : t.namesLaw := by
  obtain ⟨hnodup, hlt⟩ := h
  have hids : t.msp.outstanding.map Granted.id = s.msp.outstanding.map Granted.id := by
    rw [hout, List.map_map]
    exact List.map_congr_left fun g _ => remark_id p mark g
  refine ⟨by rwa [hids], fun g hg => ?_⟩
  rw [hout] at hg
  obtain ⟨g', hg', rfl⟩ := List.mem_map.1 hg
  rw [hnext, remark_id]
  exact hlt g' hg'

end Sys2Proof.Machine

/-! ## Stopped engines and rewinds keep the laws (R53, R107 to R109, R138 to R143) -/

namespace Sys2Proof.Machine

/-! ### The engine stops after CANCEL or a memory error (R53, R107, R109) -/

theorem countP_or_disjoint {α : Type} (f g : α → Bool) (h : ∀ x, g x = true → f x = false) (l : List α) :
    l.countP (fun x => f x || g x) = l.countP f + l.countP g := by
  induction l with
  | nil => rfl
  | cons x l ih =>
    simp only [List.countP_cons, ih]
    cases hg : g x with
    | false => simp only [Bool.or_false, Bool.false_eq_true, if_false]; omega
    | true => simp only [h x hg, Bool.or_true, Bool.false_eq_true, if_false, if_true]; omega

theorem stoppedFetches_remarked {s t : State} {p : PortId} {k : Slot}
    (hout : t.msp.outstanding = s.msp.outstanding.map (Granted.remark p (.stopped k))) (u : Slot) :
    t.stoppedFetches u = s.stoppedFetches u +
      if u = k then s.msp.outstanding.countP (fun g => (g.request.currentLine p).isSome) else 0 := by
  have hold : t.stoppedFetches u = s.msp.outstanding.countP fun g =>
      g.isStoppedFetchOf u || (u == k && (g.request.currentLine p).isSome) := by
    rw [State.stoppedFetches, hout, List.countP_map]
    exact List.countP_congr fun g _ => by rw [Function.comp_apply, remark_stopped_isStopped]
  rw [hold]
  split
  · rename_i hu
    subst hu
    simp only [beq_self_eq_true, Bool.true_and]
    exact countP_or_disjoint _ _ (fun _ => currentLine_isSome_not_stopped) _
  · rename_i hu
    rw [beq_false_of_ne hu]
    simp only [Bool.false_and, Bool.or_false, Nat.add_zero]
    rfl

theorem stoppedFetches_stale {s t : State} {p : PortId}
    (hout : t.msp.outstanding = s.msp.outstanding.map (Granted.remark p .stale)) (u : Slot) :
    t.stoppedFetches u = s.stoppedFetches u := by
  rw [State.stoppedFetches, hout, List.countP_map]
  exact List.countP_congr fun g _ => by rw [Function.comp_apply, remark_stale_isStopped]

/-- A ticket in hand has no stopped fetch. -/
theorem stoppedFetches_inHand {s : State} (hs : s.handLaw) (hl : s.stoppedLaw) {p : PortId} {k : Slot}
    (hp : s.inHand p = some k) : s.stoppedFetches k = 0 :=
  stoppedFetches_zero hl (by rw [((handLaw_iff s).1 hs p k hp).1]; rfl)

section Stopping
variable {s : State} {p : PortId} {k : Slot} {st : TicketState} {r : Reason}

theorem pastQueued_of_stopping {x : TicketState} (h : x.isStopping = true) : x.pastQueued = true := by
  cases x <;> simp_all [TicketState.isStopping, TicketState.pastQueued]

theorem mayFetch_of_stopping {x : TicketState} (h : x.isStopping = true) : x.mayFetch = true := by
  cases x <;> simp_all [TicketState.isStopping, TicketState.mayFetch]

theorem withdrawOpen_engine (s : State) (p q : PortId) : ((s.withdrawOpen p).port q).engine = (s.port q).engine := by
  rw [withdrawOpen_port]
  split
  · rename_i hq
    rw [hq]
  · rfl

theorem withdrawOpen_inHand (s : State) (p q : PortId) : (s.withdrawOpen p).inHand q = s.inHand q := by
  rw [State.inHand, withdrawOpen_engine]
  rfl

theorem leavesHand_halted (hp : s.inHand p = some k) (hst : st.isStopping = true) :
    LeavesHand (s.withdrawOpen p) (s.halted p k st r) p k where
  inHand := by rwa [withdrawOpen_inHand]
  image := by rw [halted_image, withdrawOpen_image]
  guards := by rw [halted_guards, withdrawOpen_guards]
  fetcher := by rw [halted_fetcher, withdrawOpen_fetcher]
  others u hu := by rw [halted_ticket, if_neg hu]
  past := by
    rw [halted_ticket, if_pos rfl]
    exact pastQueued_of_stopping hst
  mirror := by rw [halted_ticket, if_pos rfl]
  entryCount := by rw [halted_ticket, if_pos rfl]
  queue q := by
    rw [halted_port, withdrawOpen_port]
    split <;> rfl
  pages q := by
    rw [halted_port, withdrawOpen_port]
    split <;> rfl
  free := by rw [halted_port, if_pos rfl]
  elsewhere q hq := by rw [halted_port, if_neg hq, withdrawOpen_engine]

theorem leavesLines_halted (hp : s.inHand p = some k) (hst : st.isStopping = true) (hs : s.ticketLaws)
    (hl : s.lineLaws) : LeavesLines (s.withdrawOpen p) (s.halted p k st r) p k := by
  have hhand := handLaw_of_laws hs
  obtain ⟨-, hmarks, hstopped, hcount, -, -⟩ := hl
  have hmsp := halted_msp s p k st r
  have hwaiting : (s.halted p k st r).msp.waiting = (s.withdrawOpen p).msp.waiting.filter fun x => !x.isFetchOf p := by
    rw [hmsp, withdrawOpen_msp]
  have hout : (s.halted p k st r).msp.outstanding =
      (s.withdrawOpen p).msp.outstanding.map (Granted.remark p (.stopped k)) := by
    rw [hmsp, withdrawOpen_msp]
  have hmarks' : (s.withdrawOpen p).marksLaw := by
    unfold State.marksLaw State.currentLines
    rw [withdrawOpen_msp]
    simp only [withdrawOpen_engine]
    exact hmarks
  have hlines := currentLines_remarked hmarks' (by simp) hwaiting hout
  have hstops := stoppedFetches_remarked hout
  have hself : (s.halted p k st r).ticket k = { (s.withdrawOpen p).ticket k with
      state := st, reason := r
      fetchCount := (s.ticket k).fetchCount - s.msp.waiting.countP (·.isFetchOf p)
      sending := false } := by rw [halted_ticket, if_pos rfl]
  refine ⟨names_remarked hout (by rw [hmsp, withdrawOpen_msp]), fun x hx _ => ?_, by rw [hlines, if_pos rfl],
    fun q hq => by rw [hlines, if_neg hq], fun u hu => by rw [hstops, if_neg hu, Nat.add_zero], ?_, fun _ => ?_, fun hm => ?_⟩
  · rw [hwaiting] at hx
    exact (List.mem_filter.1 hx).1
  · rw [hself, hstops, if_pos rfl, withdrawOpen_msp]
    have hc := ((countLaw_iff hhand).1 hcount).1 p k hp
    rw [currentLines_length, waiting_currentCount hmarks] at hc
    have hzero : (s.withdrawOpen p).stoppedFetches k = 0 := by
      rw [State.stoppedFetches, withdrawOpen_msp]
      exact stoppedFetches_inHand hhand hstopped hp
    have hzero' := stoppedFetches_inHand hhand hstopped hp
    dsimp only
    omega
  · rw [hself]
    exact hst
  · rw [hself, mayFetch_of_stopping hst] at hm
    cases hm

theorem pagesLaw_of_emptied {s t : State} {p : PortId} (hs : s.pagesLaw)
    (hpages : (s.port p).opensNewestOnly → (t.port p).opensNewestOnly ∧ (t.port p).openEntry = none)
    (hothers : ∀ q, q ≠ p → (t.port q).pages = (s.port q).pages ∧ t.inHand q = s.inHand q) : t.pagesLaw := by
  obtain ⟨hnewest, hopen⟩ := hs
  obtain ⟨hp, hnone⟩ := hpages (hnewest p)
  refine ⟨fun q => ?_, fun q e he => ?_⟩
  · by_cases hq : q = p
    · rwa [hq]
    · unfold Port.opensNewestOnly
      rw [(hothers q hq).1]
      exact hnewest q
  · by_cases hq : q = p
    · rw [hq, hnone] at he
      cases he
    · rw [openEntry_of_pages (hothers q hq).1] at he
      rw [(hothers q hq).2]
      exact hopen q e he

theorem Kept.halted (hp : s.inHand p = some k) (hst : st.isStopping = true) : Kept s (s.halted p k st r) := by
  have hleaves := leavesHand_halted (r := r) hp hst
  refine ⟨fun hs => hleaves.ticketLaws ((Kept.withdrawOpen s p).tickets hs), fun hs hf => ?_, fun hs _ hpages => ?_⟩
  · have hs' := (Kept.withdrawOpen s p).tickets hs
    have hf' := (fetchLaws_iff _).1 ((Kept.withdrawOpen s p).fetches hs hf)
    rw [fetchLaws_iff] at hf ⊢
    exact ⟨hleaves.lineLaws (leavesLines_halted hp hst hs hf.1) hs' hf'.1, hleaves.idleLaw hf'.2⟩
  · refine pagesLaw_of_emptied (p := p) hpages (fun h => ?_) fun q hq => ?_
    · rw [halted_port, if_pos rfl]
      exact ⟨opensNewestOnly_closedPages h, openEntry_closedPages h⟩
    · rw [hleaves.inHand_elsewhere hq, withdrawOpen_inHand, halted_port, if_neg hq]
      exact ⟨rfl, rfl⟩

theorem Kept.stopEngine (hp : s.inHand p = some k) (hst : st.isStopping = true) :
    Kept s ((s.modTicket k fun x => { x with state := st, reason := r }).stopEngine p k) :=
  (Kept.halted (r := r) hp hst).trans (.drainTest _ k)

theorem Kept.memoryFailure (hp : s.inHand p = some k) : Kept s (s.memoryFailure p k) :=
  (Kept.stopEngine hp rfl).trans (.settle _)

end Stopping

/-! ### CANCEL of a ticket that no engine sends (R53, R108) -/

/-- A ticket made CANCELLING by CANCEL (R53). -/
def State.cancelling (s : State) (k : Slot) : State :=
  s.modTicket k fun x => { x with state := .cancelling, reason := .cancel }

section Cancelling
variable {s : State} {k : Slot}

theorem cancelling_ticket (u : Slot) : (s.cancelling k).ticket u =
    { s.ticket u with
      state := if u = k then .cancelling else (s.ticket u).state
      reason := if u = k then .cancel else (s.ticket u).reason } := by
  rw [State.cancelling, State.ticket_modTicket]
  by_cases hu : u = k
  · rw [hu]
    simp
  · simp [hu]

theorem cancelling_state_of_ne {u : Slot} (hu : u ≠ k) : ((s.cancelling k).ticket u).state = (s.ticket u).state := by
  rw [cancelling_ticket]
  exact if_neg hu

theorem cancelling_state_self : ((s.cancelling k).ticket k).state = .cancelling := by
  rw [cancelling_ticket]
  exact if_pos rfl

theorem cancelling_mirror (u : Slot) : ((s.cancelling k).ticket u).mirror = (s.ticket u).mirror := by
  rw [cancelling_ticket]

variable (hstate : (s.ticket k).state = .active ∨ (s.ticket k).state = .draining)
include hstate

theorem cancelling_inUse (u : Slot) : ((s.cancelling k).ticket u).state.inUse = (s.ticket u).state.inUse := by
  by_cases hu : u = k
  · rw [hu, cancelling_state_self]
    rcases hstate with h | h <;> rw [h] <;> rfl
  · rw [cancelling_state_of_ne hu]

theorem cancelling_same {x : TicketState} (hx : x.pastQueued = false) (u : Slot) :
    ((s.cancelling k).ticket u).state = x ↔ (s.ticket u).state = x := by
  by_cases hu : u = k
  · rw [hu, cancelling_state_self]
    rcases hstate with h | h <;> rw [h] <;> constructor <;> rintro rfl <;> cases hx
  · rw [cancelling_state_of_ne hu]

theorem ticketLaws_cancelling (hfree : ∀ p, s.inHand p ≠ some k) (hs : s.ticketLaws) : (s.cancelling k).ticketLaws := by
  obtain ⟨hguard, hqueue, horder, hposting, hextent, hhand, hentry⟩ := hs
  have huse := cancelling_inUse hstate
  exact ⟨guardLaw_of hguard (fun _ => rfl) fun u => holdsBlock_of ⟨rfl, rfl⟩ (huse u) fun _ => cancelling_mirror u,
    queueLaw_of hqueue (fun _ => rfl) (cancelling_same hstate rfl) fun u _ => cancelling_mirror u,
    orderLaw_of horder fun _ => rfl,
    postingLaw_of hposting rfl (cancelling_same hstate rfl),
    extentLaw_of hextent ⟨rfl, rfl⟩ fun u hu => ⟨by rwa [huse] at hu, cancelling_mirror u⟩,
    handLaw_of hhand fun p u hu => ⟨hu, cancelling_state_of_ne fun he => hfree p (by rw [← he]; exact hu), cancelling_mirror u⟩,
    entryLaw_of hentry (fun _ => rfl) (fun u hu => by
      refine ⟨?_, cancelling_mirror u⟩
      by_cases hk : u = k
      · rw [hk, cancelling_state_self]
        rfl
      · rwa [cancelling_state_of_ne hk]) fun u hu => ⟨by rwa [huse] at hu, by rw [cancelling_ticket]⟩⟩

theorem lineLaws_cancelling (hfree : ∀ p, s.inHand p ≠ some k) (hs : s.ticketLaws) (hl : s.lineLaws) :
    (s.cancelling k).lineLaws := by
  obtain ⟨hnames, hmarks, hstopped, hcounts, hseq, hrest⟩ := hl
  rw [countLaw_iff (handLaw_of_laws hs)] at hcounts
  have hfetch : ∀ u, ((s.cancelling k).ticket u).fetchCount = (s.ticket u).fetchCount := fun u => by
    rw [cancelling_ticket]
  refine ⟨hnames, hmarks, ?_, ?_, hseq, ?_⟩
  · rw [stoppedLaw_iff] at hstopped ⊢
    intro u hu
    by_cases hk : u = k
    · rw [hk, cancelling_state_self]
      rfl
    · rw [cancelling_state_of_ne hk]
      exact hstopped u hu
  · rw [countLaw_iff (handLaw_of_laws (ticketLaws_cancelling hstate hfree hs))]
    exact ⟨fun p u hu => (hfetch u).trans (hcounts.1 p u hu), fun u hu => (hfetch u).trans (hcounts.2 u hu)⟩
  · rw [restLaw_iff] at hrest ⊢
    intro u hu
    have hk : u ≠ k := by
      rintro rfl
      rw [cancelling_state_self] at hu
      cases hu
    rw [cancelling_state_of_ne hk] at hu
    rw [cancelling_ticket]
    exact hrest u hu

/-- An ACTIVE or DRAINING ticket that is not in hand becomes CANCELLING. -/
theorem Kept.cancelling (hfree : ∀ p, s.inHand p ≠ some k) : Kept s (s.cancelling k) :=
  .of_core ⟨ticketLaws_cancelling hstate hfree, lineLaws_cancelling hstate hfree,
    fun _ _ hp => pagesLaw_of hp (fun _ => rfl) fun _ _ _ h => h⟩ (idleLaw_of fun _ hp => .inr ⟨hp, rfl⟩)

end Cancelling

theorem Kept.cancelSent {s : State} {k : Slot}
    (hstate : (s.ticket k).state = .active ∨ (s.ticket k).state = .draining) : Kept s (s.cancelSent k) := by
  refine .of_laws fun hs => ?_
  have hhand := handLaw_of_laws hs
  have hmirror : ((s.modTicket k fun x => { x with state := .cancelling, reason := .cancel }).ticket k).mirror =
      (s.ticket k).mirror := by rw [State.ticket_modTicket_self]
  obtain ⟨m, hm, -⟩ := (extentLaw_iff s).1 hs.2.2.2.2.1 k (by rcases hstate with h | h <;> rw [h] <;> rfl)
  have hcancel : s.cancelSent k =
      (if s.inHand m.port = some k then
        (s.modTicket k fun x => { x with state := .cancelling, reason := .cancel }).stopEngine m.port k
      else (s.modTicket k fun x => { x with state := .cancelling, reason := .cancel }).drainTest k).settle := by
    unfold State.cancelSent
    dsimp only
    rw [hmirror, hm]
    rfl
  rw [hcancel]
  refine Kept.trans (.ite (fun hp => ?_) fun hp => ?_) (.settle _)
  · exact .stopEngine hp rfl
  · refine (Kept.cancelling hstate fun q hq => hp ?_).trans (.drainTest _ k)
    have hq' := ((handLaw_iff s).1 hhand q k hq).2
    rwa [← Ticket.names_unique hq' ⟨m, hm, rfl⟩]

end Sys2Proof.Machine

/-! ## A rewind keeps the laws (R62, R138 to R143) -/

namespace Sys2Proof.Machine

/-! ### The engine stops (R107, R139) -/

section RewindStop
variable {s : State} {p : PortId} {j : Job}

theorem rewindStop_ticket_of_job (hj : (s.port p).engine.job = some j) (u : Slot) : (s.rewindStop p).ticket u =
    if u = j.slot then { (s.withdrawOpen p).ticket j.slot with fetchCount := 0, sending := false }
    else (s.withdrawOpen p).ticket u := by
  rw [rewindStop_some hj]
  exact tget_tset _ j.slot u _

theorem rewindStop_image (s : State) (p : PortId) : (s.rewindStop p).image = s.image := by rw [rewindStop_frame]

theorem rewindStop_guards (s : State) (p : PortId) : (s.rewindStop p).guards = s.guards := by rw [rewindStop_frame]

theorem rewindStop_fetcher (s : State) (p : PortId) : (s.rewindStop p).fetcher = s.fetcher := by rw [rewindStop_frame]

theorem stopped_job (x : Port) : x.stopped.engine.job = none := by
  unfold Port.stopped
  split
  · assumption
  · rfl

theorem leavesHand_rewindStop (hs : s.handLaw) (hj : (s.port p).engine.job = some j) :
    LeavesHand (s.withdrawOpen p) (s.rewindStop p) p j.slot where
  inHand := by rw [withdrawOpen_inHand, inHand_of_job hj]
  image := by rw [rewindStop_image, withdrawOpen_image]
  guards := by rw [rewindStop_guards, withdrawOpen_guards]
  fetcher := by rw [rewindStop_fetcher, withdrawOpen_fetcher]
  others u hu := by rw [rewindStop_ticket_of_job hj, if_neg hu]
  past := by
    rw [rewindStop_ticket_of_job hj, if_pos rfl]
    have : ((s.withdrawOpen p).ticket j.slot).state = .active := by
      rw [withdrawOpen_ticket]
      exact ((handLaw_iff s).1 hs p _ (inHand_of_job hj)).1
    rw [this]
    rfl
  mirror := by rw [rewindStop_ticket_of_job hj, if_pos rfl]
  entryCount := by rw [rewindStop_ticket_of_job hj, if_pos rfl]
  queue q := by
    rw [rewindStop_port, withdrawOpen_port]
    split
    · rw [Port.stopped, hj]
    · rfl
  pages q := by
    rw [rewindStop_port, withdrawOpen_port]
    split
    · rw [Port.stopped, hj]
    · rfl
  free := by
    rw [rewindStop_port, if_pos rfl]
    exact stopped_job _
  elsewhere q hq := by rw [rewindStop_port, if_neg hq, withdrawOpen_engine]

theorem leavesLines_rewindStop (hj : (s.port p).engine.job = some j) (hs : s.ticketLaws) (hl : s.lineLaws) :
    LeavesLines (s.withdrawOpen p) (s.rewindStop p) p j.slot := by
  have hhand := handLaw_of_laws hs
  have hp := inHand_of_job hj
  obtain ⟨-, hmarks, hstopped, -, -, -⟩ := hl
  have hne : (s.port p).engine.job ≠ none := by rw [hj]; exact Option.some_ne_none j
  have hmsp := rewindStop_msp s p
  rw [if_neg hne, if_neg hne] at hmsp
  have hwaiting : (s.rewindStop p).msp.waiting = (s.withdrawOpen p).msp.waiting.filter fun x => !x.isFetchOf p := by
    rw [hmsp, withdrawOpen_msp]
  have hout : (s.rewindStop p).msp.outstanding = (s.withdrawOpen p).msp.outstanding.map (Granted.remark p .stale) := by
    rw [hmsp, withdrawOpen_msp]
  have hmarks' : (s.withdrawOpen p).marksLaw := by
    unfold State.marksLaw State.currentLines
    rw [withdrawOpen_msp]
    simp only [withdrawOpen_engine]
    exact hmarks
  have hlines := currentLines_remarked hmarks' (by simp) hwaiting hout
  have hstops := stoppedFetches_stale hout
  have hzero : (s.rewindStop p).stoppedFetches j.slot = 0 := by
    rw [hstops, State.stoppedFetches, withdrawOpen_msp]
    exact stoppedFetches_inHand hhand hstopped hp
  have hself : (s.rewindStop p).ticket j.slot =
      { (s.withdrawOpen p).ticket j.slot with fetchCount := 0, sending := false } := by
    rw [rewindStop_ticket_of_job hj, if_pos rfl]
  refine ⟨names_remarked hout (by rw [hmsp, withdrawOpen_msp]), fun x hx _ => ?_, by rw [hlines, if_pos rfl],
    fun q hq => by rw [hlines, if_neg hq], fun u _ => hstops u, ?_, fun hstop => absurd hzero hstop, fun _ => ?_⟩
  · rw [hwaiting] at hx
    exact (List.mem_filter.1 hx).1
  · rw [hself, hzero]
  · rw [hself]
    exact ⟨rfl, rfl⟩

end RewindStop

theorem Kept.rewindStop (s : State) (p : PortId) : Kept s (s.rewindStop p) := by
  cases hj : (s.port p).engine.job with
  | none =>
    rw [rewindStop_none hj]
    exact .refl s
  | some j =>
    refine .of_laws fun hs₀ => ?_
    have hleaves := leavesHand_rewindStop (handLaw_of_laws hs₀) hj
    refine ⟨fun hs => hleaves.ticketLaws ((Kept.withdrawOpen s p).tickets hs), fun hs hf => ?_, fun hs _ hpages => ?_⟩
    · have hs' := (Kept.withdrawOpen s p).tickets hs
      have hf' := (fetchLaws_iff _).1 ((Kept.withdrawOpen s p).fetches hs hf)
      rw [fetchLaws_iff] at hf ⊢
      exact ⟨hleaves.lineLaws (leavesLines_rewindStop hj hs hf.1) hs' hf'.1, hleaves.idleLaw hf'.2⟩
    · refine pagesLaw_of_emptied (p := p) hpages (fun h => ?_) fun q hq => ?_
      · rw [rewindStop_port, if_pos rfl, Port.stopped, hj]
        exact ⟨opensNewestOnly_closedPages h, openEntry_closedPages h⟩
      · rw [hleaves.inHand_elsewhere hq, withdrawOpen_inHand, rewindStop_port, if_neg hq]
        exact ⟨rfl, rfl⟩

theorem Kept.spoiledAt (s : State) (p : PortId) : Kept s (s.spoiledAt p) := (Kept.rewindStop s p).trans (.spoilAll _ p)

theorem spoiledAt_mirror (s : State) (p : PortId) (t : Slot) :
    ((s.spoiledAt p).ticket t).mirror = (s.ticket t).mirror := by
  have hspoil : ((s.spoiledAt p).ticket t).mirror = ((s.rewindStop p).ticket t).mirror := by
    rw [State.spoiledAt]
    exact (congrArg Ticket.mirror (spoilEntries_ticket ((s.rewindStop p).port p).pages (s.rewindStop p) t) :)
  rw [hspoil]
  cases h : (s.port p).engine.job with
  | none => rw [rewindStop_none h]
  | some j =>
    have hw : ((s.withdrawOpen p).ticket t).mirror = (s.ticket t).mirror := by rw [withdrawOpen_ticket]
    rw [rewindStop_ticket_of_job h, ← hw]
    split
    · rename_i ht
      rw [ht]
    · rfl

/-! ### A ticket enters a queue (R61, R62) -/

/-- From `s` to `t` a ticket becomes QUEUED at a port, with no fetch and no entry, and takes a place in its queue. -/
structure Enqueued (s t : State) (p : PortId) (k : Slot) : Prop where
  image : t.image = s.image
  others : ∀ u, u ≠ k → t.ticket u = s.ticket u
  state : (t.ticket k).state = .queued
  names : (t.ticket k).names p
  rest : (t.ticket k).fetchCount = 0 ∧ (t.ticket k).sending = false
  queue : ∀ q, q ≠ p → (t.port q).queue = (s.port q).queue
  joined : ((t.port p).queue.map QueueEntry.slot).Perm (k :: (s.port p).queue.map QueueEntry.slot)
  order : s.orderLaw → (t.port p).queue.Pairwise fun a b => a.mark.group ≤ b.mark.group
  pages : ∀ q, (t.port q).pages = (s.port q).pages
  engine : ∀ q, (t.port q).engine = (s.port q).engine
  msp : t.msp = s.msp

namespace Enqueued
variable {s t : State} {p : PortId} {k : Slot}

theorem inHand (h : Enqueued s t p k) (q : PortId) : t.inHand q = s.inHand q := by
  rw [State.inHand, h.engine q]
  rfl

theorem queueLaw (h : Enqueued s t p k) (hk : (s.ticket k).state ≠ .queued) (hs : s.queueLaw) : t.queueLaw := by
  have hout : ∀ q, k ∉ (s.port q).queue.map QueueEntry.slot := fun q hq => hk (((hs q).2 k).1 hq).1
  have hother : ∀ q u, u ≠ k → (((t.ticket u).state = .queued ∧ ∃ m, (t.ticket u).mirror = some m ∧ m.port = q) ↔
      u ∈ (s.port q).queue.map QueueEntry.slot) := fun q u hu => by
    rw [h.others u hu]
    exact ((hs q).2 u).symm
  intro q
  by_cases hq : q = p
  · subst hq
    refine ⟨h.joined.nodup_iff.2 (List.nodup_cons.2 ⟨hout q, (hs q).1⟩), fun u => ?_⟩
    rw [h.joined.mem_iff, List.mem_cons]
    by_cases hu : u = k
    · rw [hu]
      exact ⟨fun _ => ⟨h.state, h.names⟩, fun _ => .inl rfl⟩
    · rw [hother q u hu]
      exact or_iff_right hu
  · rw [h.queue q hq]
    refine ⟨(hs q).1, fun u => ?_⟩
    by_cases hu : u = k
    · rw [hu]
      exact ⟨fun hm => absurd hm (hout q), fun hm => absurd (Ticket.names_unique hm.2 h.names) hq⟩
    · rw [hother q u hu]

theorem orderLaw (h : Enqueued s t p k) (hs : s.orderLaw) : t.orderLaw := by
  intro q
  by_cases hq : q = p
  · rw [hq]
    exact h.order hs
  · rw [h.queue q hq]
    exact hs q

theorem handLaw (h : Enqueued s t p k) (hk : ∀ q, s.inHand q ≠ some k) (hs : s.handLaw) : t.handLaw :=
  handLaw_of hs fun q u hu => by
    rw [h.inHand] at hu
    have hne : u ≠ k := by
      rintro rfl
      exact hk q hu
    rw [h.others u hne]
    exact ⟨hu, rfl, rfl⟩

theorem entryLaw (h : Enqueued s t p k) (hk : ∀ q, s.entriesAt q k = 0) (hcount : (t.ticket k).entryCount = 0)
    (hs : s.entryLaw) : t.entryLaw := by
  rw [entryLaw_iff] at hs ⊢
  obtain ⟨hplace, hsum⟩ := hs
  have hat : ∀ q u, t.entriesAt q u = s.entriesAt q u := fun q u => by rw [State.entriesAt, State.entriesAt, h.pages q]
  refine ⟨fun q e he => ?_, fun u hu => ?_⟩
  · rw [h.pages q] at he
    rw [h.others _ (entriesAt_eq_zero.1 (hk q) e he)]
    exact hplace q e he
  · simp only [hat]
    by_cases huk : u = k
    · rw [huk, hcount, Finset.sum_eq_zero fun q _ => hk q]
    · rw [h.others u huk] at hu ⊢
      exact hsum u hu

theorem lineLaws (h : Enqueued s t p k) (hk : ∀ q, s.inHand q ≠ some k) (hstop : (s.ticket k).state.isStopping = false)
    (hs : s.handLaw) (hl : s.lineLaws) : t.lineLaws := by
  have hhand' := h.handLaw hk hs
  have hlines : ∀ q, t.currentLines q = s.currentLines q := fun q => by rw [State.currentLines, h.msp]; rfl
  have hstops : ∀ u, t.stoppedFetches u = s.stoppedFetches u := fun u => by rw [State.stoppedFetches, h.msp]; rfl
  obtain ⟨hnames, hmarks, hstopped, hcount, hseq, hrest⟩ := hl
  rw [countLaw_iff hs] at hcount
  obtain ⟨hheld, hfree⟩ := hcount
  have hzero := stoppedFetches_zero hstopped hstop
  rw [stoppedLaw_iff] at hstopped
  refine ⟨(SameFetches.of_msp h.msp).names hnames, ⟨fun r hr => ?_, fun q hq => ?_⟩, ?_, ?_, fun q j hj => ?_, ?_⟩
  · rw [h.msp] at hr
    exact hmarks.1 r hr
  · rw [h.engine q] at hq
    rw [hlines]
    exact hmarks.2 q hq
  · rw [stoppedLaw_iff]
    intro u hu
    rw [hstops] at hu
    have hne : u ≠ k := by
      rintro rfl
      exact hu hzero
    rw [h.others u hne]
    exact hstopped u hu
  · rw [countLaw_iff hhand']
    refine ⟨fun q u hu => ?_, fun u hu => ?_⟩
    · rw [h.inHand] at hu
      have hne : u ≠ k := by
        rintro rfl
        exact hk q hu
      rw [h.others u hne, hstops, hlines]
      exact hheld q u hu
    · by_cases hne : u = k
      · rw [hne, h.rest.1, hstops, hzero]
      · rw [h.others u hne, hstops]
        exact hfree u fun q => by rw [← h.inHand]; exact hu q
  · rw [h.engine q] at hj
    rw [hlines]
    exact hseq q j hj
  · rw [restLaw_iff] at hrest ⊢
    intro u hu
    by_cases hne : u = k
    · rw [hne]
      exact h.rest
    · rw [h.others u hne] at hu ⊢
      exact hrest u hu

theorem pagesLaw (h : Enqueued s t p k) (hs : s.pagesLaw) : t.pagesLaw :=
  pagesLaw_of hs h.pages fun q u _ hu => by rwa [h.inHand]

theorem idleLaw (h : Enqueued s t p k) (hs : s.idleLaw) : t.idleLaw :=
  idleLaw_of (fun q hq => .inr ⟨by rwa [h.engine q] at hq, by rw [h.engine q]⟩) hs

end Enqueued

/-! ### The tickets go back to their queue (R62, R141) -/

/-- The tickets that a rewind has put back stand at the head of the queue, marked RESUME. -/
def State.withRejoined (s : State) (p : PortId) (ts : List Slot) (q : List QueueEntry) : State :=
  s.setQueue p (rejoinQueue ts q)

theorem withRejoined_port (s : State) (p r : PortId) (ts : List Slot) (q : List QueueEntry) :
    (s.withRejoined p ts q).port r = if r = p then { s.port p with queue := rejoinQueue ts q } else s.port r :=
  State.port_setQueue s p _ r

theorem resume_group_le {ts : List Slot} {a : QueueEntry}
    (ha : a ∈ ts.map fun t => QueueEntry.mk t .resume) (b : QueueEntry) : a.mark.group ≤ b.mark.group := by
  obtain ⟨t, -, rfl⟩ := List.mem_map.1 ha
  exact Nat.zero_le _

theorem rejoinQueue_order {ts : List Slot} {q : List QueueEntry}
    (h : q.Pairwise fun a b => a.mark.group ≤ b.mark.group) :
    (rejoinQueue ts q).Pairwise fun a b => a.mark.group ≤ b.mark.group := by
  refine List.pairwise_append.2 ⟨?_, h, fun a ha b _ => resume_group_le ha b⟩
  exact List.pairwise_map.2 (List.pairwise_of_forall fun _ _ => Nat.le_refl _)

theorem rejoinQueue_order_tail {ts : List Slot} {q : List QueueEntry}
    (h : (rejoinQueue ts q).Pairwise fun a b => a.mark.group ≤ b.mark.group) :
    q.Pairwise fun a b => a.mark.group ≤ b.mark.group :=
  (List.pairwise_append.1 h).2.1

/-- A ticket made QUEUED again by a rewind, to resume at a point (R141, R143). -/
def State.requeued (s : State) (k : Slot) (r : ResumePoint) : State :=
  s.modTicket k fun x => { x with state := .queued, resume := some r, fetchCount := 0, sending := false }

section Rejoined
variable {s : State} {p : PortId} {k : Slot} {done : List Slot} {q : List QueueEntry} {r : ResumePoint}

theorem rejoined_ticket (u : Slot) : ((s.requeued k r).withRejoined p (done ++ [k]) q).ticket u =
    if u = k then { s.ticket k with state := .queued, resume := some r, fetchCount := 0, sending := false }
    else s.ticket u := by
  rw [State.withRejoined, State.ticket_setQueue, State.requeued, State.ticket_modTicket]

theorem enqueued_rejoined (hnames : (s.ticket k).names p) :
    Enqueued (s.withRejoined p done q) ((s.requeued k r).withRejoined p (done ++ [k]) q) p k where
  image := rfl
  others u hu := by rw [rejoined_ticket, if_neg hu]; rfl
  state := by rw [rejoined_ticket, if_pos rfl]
  names := by rw [rejoined_ticket, if_pos rfl]; exact hnames
  rest := by rw [rejoined_ticket, if_pos rfl]; exact ⟨rfl, rfl⟩
  queue b hb := by
    rw [withRejoined_port, if_neg hb, withRejoined_port, if_neg hb]
    rfl
  joined := by
    rw [withRejoined_port, if_pos rfl, withRejoined_port, if_pos rfl]
    simp only [rejoinQueue, List.map_append, List.map_map, List.map_cons, List.map_nil, List.append_assoc]
    exact List.perm_middle
  order ho := by
    have hq := ho p
    rw [withRejoined_port, if_pos rfl] at hq ⊢
    exact rejoinQueue_order (rejoinQueue_order_tail hq)
  pages b := by rw [withRejoined_port, withRejoined_port]; split <;> rfl
  engine b := by rw [withRejoined_port, withRejoined_port]; split <;> rfl
  msp := rfl

theorem rejoined_mirror (u : Slot) :
    (((s.requeued k r).withRejoined p (done ++ [k]) q).ticket u).mirror = (s.ticket u).mirror := by
  rw [rejoined_ticket]
  split
  case isTrue hu => rw [hu]
  case isFalse => rfl

/-- A port whose engine is free and whose page list is empty holds nothing of a ticket of its own. -/
theorem free_of_names (hnames : (s.ticket k).names p) (hfree : (s.port p).engine.job = none)
    (hpages : (s.port p).pages = []) :
    (s.handLaw → ∀ b, s.inHand b ≠ some k) ∧ (s.entryLaw → ∀ b, s.entriesAt b k = 0) := by
  refine ⟨fun hs b hb => ?_, fun hs b => ?_⟩
  · have hbp := Ticket.names_unique ((handLaw_iff s).1 hs b k hb).2 hnames
    rw [hbp, State.inHand, hfree] at hb
    cases hb
  · by_cases hb : b = p
    · rw [hb, State.entriesAt, hpages]
      rfl
    · exact entriesAt_zero hs (.inr fun hn => hb (Ticket.names_unique hn hnames))

theorem rewinds_cases {x : TicketState} (h : x.rewinds = true) : x = .active ∨ x = .draining := by
  cases x <;> simp_all [TicketState.rewinds]

/-- One more ticket goes back to the queue of its port, behind those that went back before it. -/
theorem Kept.rejoined (hstate : (s.ticket k).state.rewinds = true) (hnames : (s.ticket k).names p)
    (hfree : (s.port p).engine.job = none) (hpages : (s.port p).pages = []) :
    Kept (s.withRejoined p done q) ((s.requeued k r).withRejoined p (done ++ [k]) q) := by
  have h := enqueued_rejoined (done := done) (q := q) (r := r) hnames
  have hport : (s.withRejoined p done q).port p = { s.port p with queue := rejoinQueue done q } := by
    rw [withRejoined_port, if_pos rfl]
  obtain ⟨hhand, hentries⟩ := free_of_names (s := s.withRejoined p done q) (k := k) hnames (by rw [hport]; exact hfree)
    (by rw [hport]; exact hpages)
  have huse : (s.ticket k).state.inUse = true := by rcases rewinds_cases hstate with he | he <;> rw [he] <;> rfl
  have hne : ∀ x : TicketState, x.rewinds = false → (s.ticket k).state ≠ x := by
    rintro x hx rfl
    rw [hstate] at hx
    cases hx
  have hstop : (s.ticket k).state.isStopping = false := by
    rcases rewinds_cases hstate with he | he <;> rw [he] <;> rfl
  have huses (u : Slot) : (((s.requeued k r).withRejoined p (done ++ [k]) q).ticket u).state.inUse =
      (s.ticket u).state.inUse := by
    rw [rejoined_ticket]
    split
    case isTrue hu => rw [hu, huse]; rfl
    case isFalse => rfl
  refine .of_core ⟨fun hs => ?_, fun hs hl => h.lineLaws (hhand (handLaw_of_laws hs)) hstop (handLaw_of_laws hs) hl,
    fun _ _ hp => h.pagesLaw hp⟩ h.idleLaw
  obtain ⟨hguard, hqueue, horder, hposting, hextent, hhandLaw, hentry⟩ := hs
  refine ⟨guardLaw_of hguard (fun _ => rfl) fun u => holdsBlock_of ⟨rfl, rfl⟩ (huses u) fun _ => rejoined_mirror u,
    h.queueLaw (hne _ rfl) hqueue, h.orderLaw horder, postingLaw_of hposting rfl fun u => ?_,
    extentLaw_of hextent ⟨rfl, rfl⟩ fun u hu => ⟨by rwa [huses] at hu, rejoined_mirror u⟩,
    h.handLaw (hhand hhandLaw) hhandLaw, h.entryLaw (hentries hentry) ?_ hentry⟩
  · by_cases hu : u = k
    · rw [hu, h.state]
      exact ⟨nofun, fun he => absurd he (hne _ rfl)⟩
    · rw [h.others u hu]
  · have hsum := ((entryLaw_iff _).1 hentry).2 k huse
    rw [Finset.sum_eq_zero fun b _ => hentries hentry b] at hsum
    rw [rejoined_ticket, if_pos rfl]
    exact hsum

end Rejoined

end Sys2Proof.Machine

/-! ## A rewind and a link loss keep the laws (R62, R122, R138 to R143) -/

namespace Sys2Proof.Machine

theorem drainTest_setQueue (s : State) (p : PortId) (q : List QueueEntry) (k : Slot) :
    (s.setQueue p q).drainTest k = (s.drainTest k).setQueue p q := by
  rw [drainTest_eq, drainTest_eq, State.ticket_setQueue, endTicket_setQueue]
  split <;> rfl

theorem withRejoined_nil (s : State) (p : PortId) : s.withRejoined p [] (s.port p).queue = s :=
  congrArg (fun v => { s with ports := v }) (tset_tget s.ports p)

/-- The tickets of a rewind are dealt with in turn, and those that return go back to the queue in this order. -/
theorem Kept.rewindTickets (p : PortId) (pages : List Entry) (job : Option Job) (q : List QueueEntry) (ts : List Slot) :
    ∀ (s : State) (done : List Slot), ts.Nodup →
      (∀ t ∈ ts, (s.ticket t).names p) → (s.port p).engine.job = none → (s.port p).pages = [] →
      Kept (s.withRejoined p done q) ((ts.foldl (State.rewindTicket pages job) s).withRejoined p
        (done ++ ts.filter fun t => (s.ticket t).state.rewinds) q) := by
  induction ts with
  | nil =>
    intro s done _ _ _ _
    rw [List.filter_nil, List.append_nil]
    exact .refl _
  | cons t ts ih =>
    intro s done hnodup hnames hfree hpages
    obtain ⟨ht, hnodup⟩ := List.nodup_cons.1 hnodup
    have hport : (State.rewindTicket pages job s t).port p = s.port p := by
      rw [rewindTicket_frame]
      rfl
    have hothers : ∀ u ∈ ts, (State.rewindTicket pages job s t).ticket u = s.ticket u := fun u hu =>
      rewindTicket_ticket_ne pages job s fun he => ht (he ▸ hu)
    have hfilter : (ts.filter fun u => ((State.rewindTicket pages job s t).ticket u).state.rewinds) =
        ts.filter fun u => (s.ticket u).state.rewinds :=
      List.filter_congr fun u hu => by rw [hothers u hu]
    have hrest := fun done => ih (State.rewindTicket pages job s t) done hnodup
      (fun u hu => by rw [hothers u hu]; exact hnames u (List.mem_cons_of_mem _ hu)) (by rw [hport]; exact hfree)
      (by rw [hport]; exact hpages)
    rw [hfilter] at hrest
    rw [List.foldl_cons]
    cases hst : (s.ticket t).state.rewinds with
    | true =>
      rw [List.filter_cons_of_pos (p := fun u => (s.ticket u).state.rewinds) hst, ← List.singleton_append, ← List.append_assoc]
      refine Kept.trans ?_ (hrest (done ++ [t]))
      rw [State.rewindTicket, if_pos hst]
      exact .rejoined hst (hnames t List.mem_cons_self) hfree hpages
    | false =>
      rw [List.filter_cons_of_neg (p := fun u => (s.ticket u).state.rewinds) (by rw [hst]; exact Bool.false_ne_true)]
      refine Kept.trans ?_ (hrest done)
      rw [State.rewindTicket, hst, if_neg Bool.false_ne_true, State.withRejoined, State.withRejoined, ← drainTest_setQueue]
      exact .drainTest _ t

/-- The tickets that a rewind deals with are tickets of its port. -/
theorem names_of_concerned {s : State} (hs : s.ticketLaws) {p : PortId} {t : Slot} (ht : t ∈ (s.port p).concerned) :
    (s.ticket t).names p := by
  rcases (mem_concerned_iff _ _).1 ht with ⟨e, he, rfl⟩ | hj
  · exact (((entryLaw_iff s).1 hs.2.2.2.2.2.2).1 p e he).2
  · exact ((handLaw_iff s).1 (handLaw_of_laws hs) p t hj).2

theorem spoiledAt_queue (s : State) (p : PortId) : ((s.spoiledAt p).port p).queue = (s.port p).queue := by
  rw [spoiledAt_port, if_pos rfl, Port.stopped]
  split <;> rfl

theorem Kept.rewind (s : State) (p : PortId) : Kept s (s.rewind p) := by
  refine .of_laws fun hs => ?_
  have hfree : ((s.spoiledAt p).port p).engine.job = none := by
    rw [spoiledAt_port, if_pos rfl]
    exact stopped_job _
  have hempty : ((s.spoiledAt p).port p).pages = [] := by rw [spoiledAt_port, if_pos rfl]
  have hturn := Kept.rewindTickets p (s.port p).pages (s.port p).engine.job (s.port p).queue (s.port p).concerned
    (s.spoiledAt p) [] (concerned_nodup _)
    (fun t ht => by
      unfold Ticket.names
      rw [spoiledAt_mirror]
      exact names_of_concerned hs ht) hfree hempty
  have hstart : (s.spoiledAt p).withRejoined p [] (s.port p).queue = s.spoiledAt p := by
    rw [← spoiledAt_queue s p]
    exact withRejoined_nil _ p
  rw [hstart, List.nil_append] at hturn
  have hsame : s.rewind p = (((s.port p).concerned.foldl (State.rewindTicket (s.port p).pages (s.port p).engine.job)
      (s.spoiledAt p)).withRejoined p ((s.port p).concerned.filter fun t => ((s.spoiledAt p).ticket t).state.rewinds)
        (s.port p).queue).enterJamStop p := by
    have hqueue : ((s.dealtAt p).port p).queue = (s.port p).queue := by
      rw [dealtAt_frame]
      exact spoiledAt_queue s p
    rw [State.withRejoined, ← hqueue]
    rfl
  have hjob : ((((s.port p).concerned.foldl (State.rewindTicket (s.port p).pages (s.port p).engine.job)
      (s.spoiledAt p)).withRejoined p ((s.port p).concerned.filter fun t => ((s.spoiledAt p).ticket t).state.rewinds)
        (s.port p).queue).port p).engine.job = none := by
    rw [withRejoined_port, if_pos rfl]
    change ((s.dealtAt p).port p).engine.job = none
    rw [dealtAt_frame]
    exact hfree
  rw [hsame]
  refine ((Kept.spoiledAt s p).trans hturn).trans ?_
  unfold State.enterJamStop State.modEngine
  refine .modPort _ p ?_ fun h => by cases h
  simp only [Port.law, hjob]

theorem Kept.linkLoss (s : State) (p : PortId) : Kept s (s.linkLoss p) := by
  rw [linkLoss_eq]
  refine Kept.trans ?_ (.settle _)
  refine Kept.trans ?_ (.rewind _ p)
  exact (Kept.modPort s p (f := fun x => { x with link := (s.port p).link.lost s.milliseconds s.microseconds }) rfl .inr).trans
    (.of_eq rfl rfl rfl rfl rfl rfl)

end Sys2Proof.Machine

/-! ## Framed bytes and the lines of an engine (R92, R94, R96, R103 to R105) -/

namespace Sys2Proof.Machine

/-! ### What a frame takes from the buffer (R94, R96) -/

/-- A frame takes a beginning of the bytes at hand, and one that ends its copy reaches the copy's last byte. -/
theorem formFrame_reach {rule : Option MarkRule} {room left : Nat} {lead : Bool} {bytes : List Byte} {f : FramePlan}
    (h : formFrame rule room left lead bytes = some f) :
    f.payload.length ≤ bytes.length ∧ (f.copyEnd = true → left ≤ f.payload.length) := by
  induction bytes generalizing room left lead f with
  | nil => simp [formFrame] at h
  | cons b bs ih =>
    simp only [formFrame] at h
    split at h
    · cases h
      exact ⟨Nat.succ_le_succ (Nat.zero_le _), of_decide_eq_true⟩
    · split at h
      · cases h
        exact ⟨Nat.succ_le_succ (Nat.zero_le _), nofun⟩
      · obtain ⟨g, hg, rfl⟩ := Option.map_eq_some_iff.1 h
        obtain ⟨hlen, hend⟩ := ih hg
        refine ⟨Nat.succ_le_succ hlen, fun he => ?_⟩
        have := hend he
        simp only [List.length_cons]
        omega

/-- The bytes at hand end before a place `e` that no line of the copy reaches over: each ends by `b`, or begins at `e` or
behind it. -/
theorem availableBytes_reach {copy b e : Nat} (hbe : b < e) {ls : List BufferLine}
    (h : ∀ l ∈ ls, l.copy = copy → l.offset + l.bytes.length ≤ b ∨ e ≤ l.offset) {next : Nat} (hnext : next < e)
    (hsome : availableBytes copy next ls ≠ []) : next + (availableBytes copy next ls).length ≤ b := by
  induction ls generalizing next with
  | nil => exact absurd rfl hsome
  | cons l ls ih =>
    unfold availableBytes at hsome ⊢
    split at hsome
    case isFalse => exact absurd rfl hsome
    case isTrue hl =>
      rw [if_pos hl]
      obtain ⟨hcopy, hfrom, hto⟩ := hl
      have hend : l.offset + l.bytes.length ≤ b := by
        have := h l List.mem_cons_self hcopy
        omega
      rw [List.length_append, List.length_drop]
      by_cases hrest : availableBytes copy (l.offset + l.bytes.length) ls = []
      · rw [hrest, List.length_nil]
        omega
      · have := ih (fun x hx => h x (List.mem_cons_of_mem _ hx)) (next := l.offset + l.bytes.length) (by omega) hrest
        omega

/-- Bytes at hand lie in a buffered line. -/
theorem line_of_available {copy next : Nat} {ls : List BufferLine} (h : availableBytes copy next ls ≠ []) :
    ∃ l ∈ ls, l.bytes ≠ [] ∧ next < l.offset + l.bytes.length := by
  cases ls with
  | nil => exact absurd rfl h
  | cons l ls =>
    unfold availableBytes at h
    split at h
    case isTrue hl =>
      obtain ⟨-, hfrom, hto⟩ := hl
      refine ⟨l, List.mem_cons_self, fun hempty => ?_, hto⟩
      rw [hempty, List.length_nil] at hto
      omega
    case isFalse => exact absurd rfl h

/-! ### The job after a frame (R94, R99, R103 to R105) -/

/-- The job at the beginning of its next copy (R104). -/
def Job.nextCopy (j : Job) (f : FramePlan) : Job :=
  { j.afterFrame f with
    copy := j.copy + 1, page := 1, offset := 0, next := 0, lead := false
    buffer := dropFramed (j.copy + 1) 0 (j.afterFrame f).buffer }

theorem afterPage_eq (j : Job) (f : FramePlan) : j.afterPage f =
    if !f.copyEnd then
      some { j.afterFrame f with page := (j.afterFrame f).page + 1, offset := (j.afterFrame f).next }
    else if j.copy < j.copies then some (j.nextCopy f)
    else none := rfl

theorem afterPage_slot {j k : Job} {f : FramePlan} (h : j.afterPage f = some k) : k.slot = j.slot := by
  rw [afterPage_eq] at h
  split at h
  case isTrue =>
    cases h
    rfl
  case isFalse =>
    split at h
    case isTrue =>
      cases h
      rfl
    case isFalse => nomatch h

/-- The frame `f` is formed from the bytes that an engine has at hand. -/
structure Frames (j : Job) (f : FramePlan) : Prop where
  nonempty : 1 ≤ f.payload.length
  fits : f.payload.length ≤ (availableBytes j.copy j.next j.buffer).length
  ends : f.copyEnd = true → j.length ≤ j.next + f.payload.length

theorem frames_of_nextFrame {s : State} {p : PortId} {j : Job} {f : FramePlan} (h : s.nextFrame p j = some f) :
    Frames j f := by
  obtain ⟨hfits, hends⟩ := formFrame_reach h
  exact ⟨(nextFrame_payload h).1, hfits, fun he => by have := hends he; omega⟩

namespace Frames
variable {j : Job} {f : FramePlan} {xs : List Cursor}

theorem available (h : Frames j f) : availableBytes j.copy j.next j.buffer ≠ [] := by
  intro hnil
  have := h.nonempty
  have := h.fits
  rw [hnil, List.length_nil] at this
  omega

/-- Something is framed only before the extent's end. -/
theorem next_lt (h : Frames j f) (hj : j.inOrder xs) : j.next < j.length := by
  obtain ⟨l, hl, hbytes, hto⟩ := line_of_available h.available
  obtain ⟨-, -, hbounds, -⟩ := hj
  obtain ⟨-, hempty | hend⟩ := hbounds l hl
  · exact absurd hempty hbytes
  · omega

/-- A line being fetched lies behind all that is framed. -/
theorem fetched_behind (h : Frames j f) (hj : j.inOrder xs) {x : Cursor} (hx : x ∈ xs) (hcopy : x.copy = j.copy) :
    j.next + f.payload.length ≤ x.offset := by
  obtain ⟨hapart, hplace, hbounds, -⟩ := hj
  have hnext : j.next < j.lineEnd x.offset := by
    obtain ⟨hun, -⟩ := hplace x (List.mem_append_left _ hx)
    obtain hlt | ⟨-, hlt⟩ := hun
    · omega
    · exact hlt
  have hreach := availableBytes_reach (copy := j.copy) (lineEnd_gt j x.offset) (ls := j.buffer) (fun l hl hlc => by
    have hxl := (List.pairwise_append.1 hapart).2.2 x hx _ (List.mem_map_of_mem hl)
    have hlen := (hbounds l hl).1
    obtain hne | hend | hend := hxl
    · exact absurd (hcopy.trans hlc.symm) hne
    · exact .inr hend
    · exact .inl (Nat.le_trans hlen hend)) hnext h.available
  have := h.fits
  omega

/-- The cursor stands behind all that is framed. -/
theorem cursor_behind (h : Frames j f) (hj : j.inOrder xs) {c : Cursor} (hc : j.cursor = some c)
    (hcopy : c.copy = j.copy) : j.next + f.payload.length ≤ c.offset := by
  obtain ⟨-, -, hbounds, hcursor⟩ := hj
  obtain ⟨-, hnext, hlines⟩ := hcursor c hc
  have hreach := availableBytes_reach (copy := j.copy) (b := c.offset) (e := c.offset + 1) (Nat.lt_succ_self _)
    (ls := j.buffer) (fun l hl hlc => by
      have hlen := (hbounds l hl).1
      obtain hlt | ⟨-, hend⟩ := hlines _ (List.mem_append_right _ (List.mem_map_of_mem hl))
      · simp only at hlt
        omega
      · exact .inl (Nat.le_trans hlen hend)) (next := j.next) (by omega) h.available
  have := h.fits
  omega

/-- The lines of the sequence that are left of a job's once those framed have left the buffer. -/
theorem lines_sublist (j : Job) (xs : List Cursor) (copy next : Nat) :
    (xs ++ (dropFramed copy next j.buffer).map fun l => (⟨l.copy, l.offset⟩ : Cursor)).Sublist
      (xs ++ j.buffer.map fun l => ⟨l.copy, l.offset⟩) :=
  (List.Sublist.map _ List.filter_sublist).append_left xs

theorem mem_dropFramed {copy next : Nat} {ls : List BufferLine} {l : BufferLine} (h : l ∈ dropFramed copy next ls) :
    l ∈ ls ∧ (copy < l.copy ∨ (l.copy = copy ∧ next < l.offset + l.bytes.length)) := by
  obtain ⟨hl, hkeep⟩ := List.mem_filter.1 h
  refine ⟨hl, ?_⟩
  simp only [Bool.not_eq_true', Bool.or_eq_false_iff, Bool.and_eq_false_iff, decide_eq_false_iff_not, beq_eq_false_iff_ne]
    at hkeep
  omega

/-- After a frame within a page (R94, R99). -/
theorem inOrder_afterFrame (h : Frames j f) (hj : j.inOrder xs) : (j.afterFrame f).inOrder xs := by
  have hfetched := fun x hx => h.fetched_behind hj (x := x) hx
  have hbehind := fun c hc => h.cursor_behind hj (c := c) hc
  obtain ⟨hapart, hplace, hbounds, hcursor⟩ := hj
  have hsub := lines_sublist j xs j.copy (j.next + f.payload.length)
  refine ⟨hapart.sublist hsub, fun x hx => ?_, fun l hl => hbounds l (mem_dropFramed hl).1, fun c hc => ?_⟩
  · obtain ⟨hun, hcopy, hoffset⟩ := hplace x (hsub.subset hx)
    refine ⟨?_, hcopy, hoffset.imp_right fun hend => Nat.le_trans hend (Nat.le_add_right _ _)⟩
    obtain hx | hx := List.mem_append.1 hx
    · refine hun.imp_right fun ⟨hxc, _⟩ => ⟨hxc, ?_⟩
      exact Nat.lt_of_le_of_lt (hfetched x hx hxc) (lineEnd_gt j x.offset)
    · obtain ⟨l, hl, rfl⟩ := List.mem_map.1 hx
      obtain ⟨hl, hkeep⟩ := mem_dropFramed hl
      exact hkeep.imp_right fun ⟨hlc, hlt⟩ => ⟨hlc, Nat.lt_of_lt_of_le hlt (hbounds l hl).1⟩
  · obtain ⟨⟨hcopy, hoffset⟩, hnext, hlines⟩ := hcursor c hc
    refine ⟨⟨hcopy, hoffset.imp_right fun hend => Nat.le_trans hend (Nat.le_add_right _ _)⟩, ?_,
      fun x hx => hlines x (hsub.subset hx)⟩
    exact hnext.imp_right fun ⟨hcc, _⟩ => ⟨hcc, hbehind c hc hcc⟩

/-- When a copy has been framed to its end, every line being fetched is of a later copy. -/
theorem fetched_later (h : Frames j f) (hj : j.inOrder xs) (hend : f.copyEnd = true) {x : Cursor} (hx : x ∈ xs) :
    j.copy < x.copy ∧ x.copy ≤ j.copies ∧ x.offset < j.length := by
  have hnext := h.next_lt hj
  have hreach := h.ends hend
  have hbehind := h.fetched_behind hj hx
  obtain ⟨hun, hcopy, hoffset⟩ := hj.2.1 x (List.mem_append_left _ hx)
  simp only [Job.unframed] at hun
  omega

/-- The cursor is then in a later copy. -/
theorem cursor_later (h : Frames j f) (hj : j.inOrder xs) (hend : f.copyEnd = true) {c : Cursor}
    (hc : j.cursor = some c) : j.copy < c.copy ∧ c.copy ≤ j.copies ∧ c.offset < j.length := by
  have hnext := h.next_lt hj
  have hreach := h.ends hend
  have hbehind := h.cursor_behind hj hc
  obtain ⟨⟨hcopy, hoffset⟩, hplace, -⟩ := hj.2.2.2 c hc
  omega

/-- After the frame that ends a copy which is not the last (R104). -/
theorem inOrder_nextCopy (h : Frames j f) (hj : j.inOrder xs) (hend : f.copyEnd = true) : (j.nextCopy f).inOrder xs := by
  have hnext := h.next_lt hj
  have hfetched := fun x hx => h.fetched_later hj hend (x := x) hx
  have hcursor' := fun c hc => h.cursor_later hj hend (c := c) hc
  obtain ⟨hapart, hplace, hbounds, hcursor⟩ := hj
  have hsub : (xs ++ (j.nextCopy f).buffer.map fun l => (⟨l.copy, l.offset⟩ : Cursor)).Sublist
      (xs ++ j.buffer.map fun l => ⟨l.copy, l.offset⟩) :=
    (lines_sublist (j.afterFrame f) xs (j.copy + 1) 0).trans (lines_sublist j xs j.copy (j.next + f.payload.length))
  have hkept : ∀ l ∈ (j.nextCopy f).buffer, l ∈ j.buffer ∧ j.copy < l.copy := fun l hl => by
    obtain ⟨hl, hkeep⟩ := mem_dropFramed hl
    exact ⟨(mem_dropFramed hl).1, by omega⟩
  have hlater : ∀ x ∈ xs ++ (j.nextCopy f).buffer.map (fun l => (⟨l.copy, l.offset⟩ : Cursor)), j.copy < x.copy := by
    intro x hx
    obtain hx | hx := List.mem_append.1 hx
    · exact (hfetched x hx).1
    · obtain ⟨l, hl, rfl⟩ := List.mem_map.1 hx
      exact (hkept l hl).2
  refine ⟨hapart.sublist hsub, fun x hx => ?_, fun l hl => hbounds l (hkept l hl).1, fun c hc => ?_⟩
  · obtain ⟨-, hcopy, hoffset⟩ := hplace x (hsub.subset hx)
    have hx' := hlater x hx
    have hpos : 0 < j.lineEnd x.offset := Nat.lt_of_le_of_lt (Nat.zero_le _) (lineEnd_gt j x.offset)
    have hoff : x.offset < j.length := by omega
    refine ⟨?_, ?_, .inl hoff⟩
    · show j.copy + 1 < x.copy ∨ x.copy = j.copy + 1 ∧ 0 < j.lineEnd x.offset
      omega
    · show x.copy ≤ j.copies ∨ x.copy = j.copy + 1
      omega
  · obtain ⟨hc1, hc2, hc3⟩ := hcursor' c hc
    refine ⟨⟨.inl hc2, .inl hc3⟩, ?_, fun x hx => (hcursor c hc).2.2 x (hsub.subset hx)⟩
    change j.copy + 1 < c.copy ∨ c.copy = j.copy + 1 ∧ 0 ≤ c.offset
    omega

/-- After any frame that ends a page but not the last copy (R103, R104). -/
theorem inOrder_afterPage (h : Frames j f) (hj : j.inOrder xs) {k : Job} (hk : j.afterPage f = some k) :
    k.inOrder xs := by
  rw [afterPage_eq] at hk
  split at hk
  case isTrue =>
    cases hk
    exact h.inOrder_afterFrame hj
  case isFalse hend =>
    split at hk
    case isTrue =>
      cases hk
      exact h.inOrder_nextCopy hj (by simpa using hend)
    case isFalse => nomatch hk

/-- Nothing is being fetched for a job whose last copy has been framed to its end (R105). -/
theorem nothing_fetched (h : Frames j f) (hj : j.inOrder xs) (hk : j.afterPage f = none) : xs = [] := by
  rw [afterPage_eq] at hk
  split at hk
  case isTrue => nomatch hk
  case isFalse hend =>
    split at hk
    case isTrue => nomatch hk
    case isFalse hlast =>
      refine List.eq_nil_iff_forall_not_mem.2 fun x hx => ?_
      obtain ⟨hlater, hcopies, -⟩ := h.fetched_later hj (by simpa using hend) hx
      omega

end Frames

end Sys2Proof.Machine

/-! ## The sending of a frame keeps the laws (R97, R101 to R105, R112, R113) -/

namespace Sys2Proof.Machine

/-! ### The engine's job replaced -/

section SetJob
variable {s : State} {p : PortId} {j k : Job}

theorem inHand_setJob (hj : (s.port p).engine.job = some j) (hslot : k.slot = j.slot) (q : PortId) :
    (s.setJob p (some k)).inHand q = s.inHand q := by
  rw [State.inHand, State.port_setJob]
  split
  case isTrue hq => rw [hq, inHand_of_job hj, Option.map_some, hslot]
  case isFalse => rfl

theorem sameTickets_setJob (hj : (s.port p).engine.job = some j) (hslot : k.slot = j.slot) :
    SameTickets s (s.setJob p (some k)) where
  spool := ⟨rfl, rfl⟩
  guard _ := rfl
  fetcher := rfl
  state _ := rfl
  mirror _ := rfl
  entryCount _ := rfl
  queue q := by rw [State.port_setJob]; split <;> simp_all
  pages q := by rw [State.port_setJob]; split <;> simp_all
  hand q u hu := by rwa [inHand_setJob hj hslot] at hu

/-- An engine's job may be replaced by one of the same ticket that its fetches are in order for. -/
theorem KeptCore.setJob (hj : (s.port p).engine.job = some j) (hslot : k.slot = j.slot)
    (horder : j.inOrder (s.currentLines p) → k.inOrder (s.currentLines p)) : KeptCore s (s.setJob p (some k)) where
  tickets := (sameTickets_setJob hj hslot).ticketLaws
  lines hs hl := by
    obtain ⟨hnames, ⟨hcurrent, hnone⟩, hstopped, hcount, hseq, hrest⟩ := hl
    refine ⟨hnames, ⟨hcurrent, fun q hq => ?_⟩, hstopped, ?_, fun q i hi => ?_, hrest⟩
    · rw [State.port_setJob] at hq
      split at hq
      · cases hq
      · exact hnone q hq
    · intro u
      simp only [inHand_setJob hj hslot]
      exact hcount u
    · rw [State.port_setJob] at hi
      split at hi
      case isTrue hq =>
        cases hi
        subst hq
        exact horder ((sequenceLaw_iff s).1 hseq q j hj)
      case isFalse => exact hseq q i hi
  pages _ _ hpages := pagesLaw_of hpages (sameTickets_setJob hj hslot).pages fun q u _ hu => by
    rwa [inHand_setJob hj hslot]

end SetJob

/-! ### The page opens, and closes (R101 to R103) -/

theorem closed_of_no_open {x : Port} (h : x.opensNewestOnly) (hno : x.hasOpenPage = false) :
    ∀ e ∈ x.pages, e.state = .closed := by
  intro e he
  obtain hnil | ⟨before, last, hlast⟩ := List.eq_nil_or_concat x.pages
  · rw [hnil] at he
    cases he
  · rw [List.concat_eq_append] at hlast
    rw [hlast] at he
    obtain he | he := List.mem_append.1 he
    · refine h e ?_
      rwa [hlast, List.dropLast_concat]
    · rw [List.mem_singleton.1 he]
      cases hstate : last.state with
      | closed => rfl
      | opened => simp [Port.hasOpenPage, Port.openEntry, hlast, hstate] at hno

/-- The entry of a page that begins. -/
def Job.entry (j : Job) : Entry := ⟨j.slot, j.account, j.copy, j.page, j.offset, .opened⟩

theorem openEntry_begun (x : Port) (j : Job) :
    ({ x with pages := x.pages ++ [j.entry] } : Port).openEntry = some j.entry := by
  simp [Port.openEntry, Job.entry]

theorem movesEntries_openPage (s : State) (p : PortId) (j : Job) : MovesEntries s (s.openPage p j) p [] [j.slot] where
  image := rfl
  guards := rfl
  fetcher := rfl
  ticket u := by
    simp only [State.openPage, State.ticket_modTicket, State.ticket_modPort, State.claimReserve, State.ticket_modAccount,
      List.count_nil, Nat.sub_zero, List.count_singleton]
    by_cases hu : u = j.slot
    · subst hu
      simp [Ticket.law]
    · simp [hu, Ne.symm hu, Ticket.law]
  slots := by
    simp only [State.openPage, State.port_modTicket, State.port_modPort_self, State.claimReserve, State.port_modAccount,
      List.nil_append, List.map_append, List.map_cons, List.map_nil]
    exact List.perm_append_comm
  others q hq := by
    simp only [State.openPage, State.port_modTicket, State.port_modPort_ne _ _ _ hq, State.claimReserve,
      State.port_modAccount]
  queue q := by
    simp only [State.openPage, State.port_modTicket, State.port_modPort, State.claimReserve, State.port_modAccount]
    split <;> simp_all
  engine q := by
    simp only [State.openPage, State.port_modTicket, State.port_modPort, State.claimReserve, State.port_modAccount]
    split <;> simp_all
  msp := rfl

/-- The page that begins belongs to the ticket in hand (R101, R102). -/
theorem Kept.openPage {s : State} {p : PortId} {j : Job} (hj : (s.port p).engine.job = some j)
    (hno : (s.port p).hasOpenPage = false) : Kept s (s.openPage p j) := by
  have hport : (s.openPage p j).port p = { s.port p with pages := (s.port p).pages ++ [j.entry] } := by
    simp only [State.openPage, State.port_modTicket, State.port_modPort_self, State.claimReserve, State.port_modAccount,
      Job.entry]
  refine (movesEntries_openPage s p j).kept (fun hs k hk => ?_) (fun h e he => ?_) fun _ e he => ?_
  · rw [List.mem_singleton.1 hk]
    obtain ⟨hactive, hnames⟩ := (handLaw_iff s).1 (handLaw_of_laws hs) p j.slot (inHand_of_job hj)
    exact ⟨by rw [hactive]; rfl, hnames⟩
  · rw [hport] at he
    simp only [List.dropLast_concat] at he
    exact closed_of_no_open h hno e he
  · rw [hport, openEntry_begun] at he
    cases he
    exact .inr (inHand_of_job hj)

theorem Kept.handData (s : State) (p : PortId) (payload : List Byte) : Kept s (s.handData p payload) := by
  have hlink : Kept s (s.modLink p fun l => { l with credits := l.credits - 1, framesSent := l.framesSent + 1 }) :=
    .modLink s p _
  have hpacer : Kept (s.modLink p fun l => { l with credits := l.credits - 1, framesSent := l.framesSent + 1 })
      ((s.modLink p fun l => { l with credits := l.credits - 1, framesSent := l.framesSent + 1 }).modEngine p fun e =>
        { e with pacer := s.pacerAfterFrame p }) :=
    .modPort _ p rfl .inr
  exact (hlink.trans hpacer).trans (.emit _ _)

theorem closeLast_slots (es : List Entry) : (closeLast es).map Entry.slot = es.map Entry.slot := by
  unfold closeLast
  cases h : es.getLast? with
  | none => rw [List.getLast?_eq_none_iff.1 h]
  | some e =>
    obtain ⟨before, rfl⟩ := List.getLast?_eq_some_iff.1 h
    simp

theorem opensNewestOnly_closeLast {x : Port} (h : x.opensNewestOnly) :
    ({ x with pages := closeLast x.pages } : Port).opensNewestOnly := by
  intro f hf
  refine h f ?_
  simp only [closeLast] at hf
  cases hx : x.pages.getLast? with
  | none =>
    rw [hx] at hf
    cases hf
  | some e =>
    rw [hx] at hf
    simpa using hf

theorem Kept.closeNewest (s : State) (p : PortId) :
    Kept s (s.modPort p fun x => { x with pages := closeLast x.pages }) := by
  have hmoves : MovesEntries s (s.modPort p fun x => { x with pages := closeLast x.pages }) p [] [] := by
    refine ⟨rfl, rfl, rfl, fun u => rfl, ?_, fun q hq => ?_, fun q => ?_, fun q => ?_, rfl⟩
    · rw [State.port_modPort_self, List.nil_append, List.nil_append, closeLast_slots]
    · rw [State.port_modPort_ne _ _ _ hq]
    · rw [State.port_modPort]
      split <;> simp_all
    · rw [State.port_modPort]
      split <;> simp_all
  refine hmoves.kept (fun _ k hk => by cases hk) (fun h => ?_) fun _ e he => ?_
  · rw [State.port_modPort_self]
    exact opensNewestOnly_closeLast h
  · have hno := closeLast_closed (s.port p) (s.port p).pages
    rw [State.port_modPort_self] at he
    rw [Port.hasOpenPage, he] at hno
    cases hno

/-! ### The last page of a ticket closed (R105) -/

/-- The ticket in hand sent to its end: it drains, and the engine has no ticket (R105). -/
def State.sentOut (s : State) (p : PortId) (k : Slot) : State :=
  (s.modEngine p fun e => { e with job := none, state := .idle }).modTicket k fun t =>
    { t with state := .draining, sending := false }

section SentOut
variable {s : State} {p : PortId} {k : Slot}

theorem sentOut_port (q : PortId) : (s.sentOut p k).port q =
    if q = p then { s.port p with engine := { (s.port p).engine with job := none, state := .idle } } else s.port q := by
  rw [State.sentOut, State.port_modTicket, State.port_modEngine]

theorem sentOut_ticket (u : Slot) : (s.sentOut p k).ticket u =
    if u = k then { s.ticket k with state := .draining, sending := false } else s.ticket u :=
  State.ticket_modTicket _ k _ u

theorem leavesHand_sentOut (hp : s.inHand p = some k) : LeavesHand s (s.sentOut p k) p k where
  inHand := hp
  image := rfl
  guards := rfl
  fetcher := rfl
  others u hu := by rw [sentOut_ticket, if_neg hu]
  past := by rw [sentOut_ticket, if_pos rfl]; rfl
  mirror := by rw [sentOut_ticket, if_pos rfl]
  entryCount := by rw [sentOut_ticket, if_pos rfl]
  queue q := by rw [sentOut_port]; split <;> simp_all
  pages q := by rw [sentOut_port]; split <;> simp_all
  free := by rw [sentOut_port, if_pos rfl]
  elsewhere q hq := by rw [sentOut_port, if_neg hq]

/-- Nothing is being fetched for the ticket, and so its fetch count is 0 (R105). -/
theorem leavesLines_sentOut (hp : s.inHand p = some k) (hs : s.ticketLaws) (hl : s.lineLaws)
    (hnone : s.currentLines p = []) : LeavesLines s (s.sentOut p k) p k := by
  obtain ⟨-, -, hstopped, hcount, -, -⟩ := hl
  have hhand := handLaw_of_laws hs
  have hzero := stoppedFetches_inHand hhand hstopped hp
  have hfetch : (s.ticket k).fetchCount = 0 := by
    rw [((countLaw_iff hhand).1 hcount).1 p k hp, hzero, hnone]
    rfl
  refine ⟨id, fun r hr _ => hr, hnone, fun _ _ => .refl _, fun _ _ => rfl, ?_, fun hne => absurd hzero hne, fun _ => ?_⟩
  · rw [sentOut_ticket, if_pos rfl]
    exact hfetch.trans hzero.symm
  · rw [sentOut_ticket, if_pos rfl]
    exact ⟨hfetch, rfl⟩

theorem KeptCore.sentOut (hp : s.inHand p = some k) (hclosed : (s.port p).hasOpenPage = false)
    (hnone : s.lineLaws → s.currentLines p = []) : KeptCore s (s.sentOut p k) where
  tickets := (leavesHand_sentOut hp).ticketLaws
  lines hs hl := (leavesHand_sentOut hp).lineLaws (leavesLines_sentOut hp hs hl (hnone hl)) hs hl
  pages _ _ hpages := by
    refine pagesLaw_of hpages (leavesHand_sentOut hp).pages fun q u hopen hu => ?_
    have hq : q ≠ p := fun hq => by rw [hq, hclosed] at hopen; cases hopen
    rwa [(leavesHand_sentOut hp).inHand_elsewhere hq]

end SentOut

/-! ### The frame (R97, R101 to R105) -/

section SendFrame
variable {s : State} {p : PortId} {j : Job} {f : FramePlan}

theorem closePage_eq (s : State) (p : PortId) (j : Job) (f : FramePlan) : s.closePage p j f =
    let v := ((s.modPort p fun x => { x with pages := closeLast x.pages }).claimClose j.account).pageEnded
    match j.afterPage f with
    | some k => (v.setJob p (some k)).modTicket j.slot fun t => { t with copy := k.copy, page := k.page }
    | none => v.sentOut p j.slot := rfl

theorem Kept.closePage (hj : (s.port p).engine.job = some j) (hf : Frames j f) : Kept s (s.closePage p j f).settle := by
  have hclosed : Kept s ((s.modPort p fun x => { x with pages := closeLast x.pages }).claimClose j.account).pageEnded :=
    ((Kept.closeNewest s p).trans (.modAccount _ _ _)).trans (.pageEnded _)
  have hport : (((s.modPort p fun x => { x with pages := closeLast x.pages }).claimClose j.account).pageEnded).port p =
      { s.port p with pages := closeLast (s.port p).pages } := by
    rw [pageEnded_port, State.claimClose, State.port_modAccount, State.port_modPort_self]
  rw [closePage_eq]
  dsimp only
  generalize ((s.modPort p fun x => { x with pages := closeLast x.pages }).claimClose j.account).pageEnded = v
    at hclosed hport ⊢
  have hv : (v.port p).engine.job = some j := by rw [hport]; exact hj
  refine hclosed.trans ?_
  cases hk : j.afterPage f with
  | some k =>
    have hjob : KeptCore v (v.setJob p (some k)) :=
      .setJob hv (afterPage_slot hk) fun horder => hf.inOrder_afterPage horder hk
    exact (hjob.trans (.modTicket _ _ rfl)).settle
  | none =>
    refine (KeptCore.sentOut (inHand_of_job hv) ?_ fun hl => ?_).settle
    · rw [hport]
      exact closeLast_closed _ _
    · obtain ⟨-, -, -, -, hseq, -⟩ := hl
      exact hf.nothing_fetched (hseq p j hv) hk

theorem gates_ne_idle (s : State) (p : PortId) (j : Job) : s.gates p j ≠ .blocked .idle := by
  unfold State.gates
  simp only
  repeat' split
  all_goals simp

theorem gates_nextFrame (h : s.gates p j = .passes f) : s.nextFrame p j = some f := by
  unfold State.gates at h
  simp only at h
  repeat' split at h
  all_goals simp_all

/-- The frame in its page, begun when none is open, and handed (R97, R101, R102, R112). -/
def State.pageGoesOn (s : State) (p : PortId) (j : Job) (payload : List Byte) : State :=
  (if (s.port p).hasOpenPage then s else s.openPage p j).handData p payload

theorem pageGoesOn_job (s : State) (p : PortId) (j : Job) (payload : List Byte) :
    ((s.pageGoesOn p j payload).port p).engine.job = (s.port p).engine.job := by
  have hhand (v : State) : ((v.handData p payload).port p).engine.job = (v.port p).engine.job := by
    simp only [State.handData, State.hand, State.port_emit, State.port_modEngine_self, State.port_modLink_self]
  rw [State.pageGoesOn, hhand]
  split
  case isTrue => rfl
  case isFalse =>
    simp only [State.openPage, State.port_modTicket, State.port_modPort_self, State.claimReserve, State.port_modAccount]

theorem Kept.pageGoesOn (hj : (s.port p).engine.job = some j) (payload : List Byte) :
    Kept s (s.pageGoesOn p j payload) := by
  refine Kept.trans ?_ (.handData _ p payload)
  exact .ite (fun _ => .refl s) fun hno => .openPage hj (by simpa using hno)

theorem sendFrame_blocked (hj : (s.port p).engine.job = some j) {st : EngineState} (hg : s.gates p j = .blocked st) :
    s.sendFrame p = s.modEngine p fun e => { e with state := st } := by
  simp only [State.sendFrame, hj, hg]

theorem sendFrame_goesOn (hj : (s.port p).engine.job = some j) (hg : s.gates p j = .passes f) :
    s.sendFrame p = (if f.pageEnd then (s.pageGoesOn p j f.payload).closePage p j f
      else (s.pageGoesOn p j f.payload).setJob p (some (j.afterFrame f))).settle := by
  simp only [State.sendFrame, hj, hg]
  rfl

theorem Kept.engineState (s : State) (p : PortId) {st : EngineState} (hst : st ≠ .idle) :
    Kept s (s.modEngine p fun e => { e with state := st }) :=
  .modPort s p (f := fun x => { x with engine := { x.engine with state := st } }) rfl fun hidle => absurd hidle hst

theorem Kept.sendFrame (s : State) (p : PortId) : Kept s (s.sendFrame p) := by
  cases hj : (s.port p).engine.job with
  | none =>
    have hnone : s.sendFrame p = s := by simp only [State.sendFrame, hj]
    rw [hnone]
    exact .refl s
  | some j =>
    cases hg : s.gates p j with
    | blocked st =>
      rw [sendFrame_blocked hj hg]
      refine .engineState s p ?_
      rintro rfl
      exact gates_ne_idle s p j hg
    | passes f =>
      have hf := frames_of_nextFrame (gates_nextFrame hg)
      have hv : ((s.pageGoesOn p j f.payload).port p).engine.job = some j := (pageGoesOn_job s p j _).trans hj
      rw [sendFrame_goesOn hj hg]
      refine (Kept.pageGoesOn hj f.payload).trans ?_
      split
      case isTrue => exact .closePage hv hf
      case isFalse => exact (KeptCore.setJob (k := j.afterFrame f) hv rfl hf.inOrder_afterFrame).settle

end SendFrame

end Sys2Proof.Machine

/-! ## Activation and dispatch keep the laws (R64 to R66, R91) -/

namespace Sys2Proof.Machine

section Activated
variable {s : State} {p : PortId} {k : Slot} {m : Mirror}

theorem activated_port (q : PortId) : (s.activated p k m).port q = if q = p then
    { s.port p with
      queue := leaveQueue k (s.port p).queue
      engine := { (s.port p).engine with state := .sending, job := some (s.jobFor k m (s.ticket k).resume) } }
    else s.port q :=
  State.port_modPort _ p _ q

theorem activated_ticket (u : Slot) : (s.activated p k m).ticket u = if u = k then
    { s.ticket k with
      state := .active, resume := none, sending := true, fetchCount := 0
      copy := (s.jobFor k m (s.ticket k).resume).copy, page := (s.jobFor k m (s.ticket k).resume).page }
    else s.ticket u :=
  State.ticket_setTicket s k _ u

theorem activated_inHand (q : PortId) : (s.activated p k m).inHand q = if q = p then some k else s.inHand q := by
  rw [State.inHand, activated_port]
  split
  · rfl
  · rfl

theorem activated_pages (q : PortId) : ((s.activated p k m).port q).pages = (s.port q).pages := by
  rw [activated_port]
  split
  case isTrue hq => rw [hq]
  case isFalse => rfl

theorem activated_mirror (u : Slot) : ((s.activated p k m).ticket u).mirror = (s.ticket u).mirror := by
  rw [activated_ticket]
  split
  case isTrue hu => rw [hu]
  case isFalse => rfl

theorem activated_entryCount (u : Slot) : ((s.activated p k m).ticket u).entryCount = (s.ticket u).entryCount := by
  rw [activated_ticket]
  split
  case isTrue hu => rw [hu]
  case isFalse => rfl

theorem activated_queueSlots (q : PortId) : (s.activated p k m).queueSlots q =
    if q = p then (s.queueSlots p).filter (· != k) else s.queueSlots q := by
  rw [State.queueSlots, activated_port]
  split
  case isTrue =>
    rw [State.queueSlots, List.filter_map]
    rfl
  case isFalse => rfl

variable (hq : (s.ticket k).state = .queued)
include hq

theorem activated_inUse (u : Slot) : ((s.activated p k m).ticket u).state.inUse = (s.ticket u).state.inUse := by
  rw [activated_ticket]
  split
  case isTrue hu => rw [hu, hq]; rfl
  case isFalse => rfl

/-- The activated ticket is the only one whose state moves. -/
theorem activated_state (u : Slot) (x : TicketState) (hx : x ≠ .queued) (hx' : x ≠ .active) :
    ((s.activated p k m).ticket u).state = x ↔ (s.ticket u).state = x := by
  rw [activated_ticket]
  split
  case isTrue hu =>
    rw [hu, hq]
    exact ⟨fun h => absurd h.symm hx', fun h => absurd h.symm hx⟩
  case isFalse => rfl

variable (hp : (s.ticket k).names p)
include hp

theorem queueLaw_activated (hs : s.queueLaw) : (s.activated p k m).queueLaw := by
  rw [queueLaw_iff] at hs ⊢
  have hstate (u : Slot) : ((s.activated p k m).ticket u).state = .queued ↔ (s.ticket u).state = .queued ∧ u ≠ k := by
    rw [activated_ticket]
    split
    case isTrue hu => exact ⟨nofun, fun h => absurd hu h.2⟩
    case isFalse hu => exact (and_iff_left hu).symm
  intro q
  obtain ⟨hnodup, hmem⟩ := hs q
  have hnames (u : Slot) : ((s.activated p k m).ticket u).names q ↔ (s.ticket u).names q := by
    unfold Ticket.names
    rw [activated_mirror]
  rw [activated_queueSlots]
  split
  case isTrue hqp =>
    subst hqp
    refine ⟨hnodup.filter _, fun u => ?_⟩
    rw [List.mem_filter, hmem, hstate, hnames, bne_iff_ne]
    tauto
  case isFalse hqp =>
    refine ⟨hnodup, fun u => ?_⟩
    rw [hmem, hstate, hnames]
    refine ⟨fun h => ⟨⟨h.1, fun hu => ?_⟩, h.2⟩, fun h => ⟨h.1.1, h.2⟩⟩
    subst hu
    exact hqp (Ticket.names_unique h.2 hp)

theorem handLaw_activated (hs : s.handLaw) : (s.activated p k m).handLaw := by
  rw [handLaw_iff] at hs ⊢
  intro q u hu
  rw [activated_inHand] at hu
  have hnames (r : PortId) : ((s.activated p k m).ticket u).names r ↔ (s.ticket u).names r := by
    unfold Ticket.names
    rw [activated_mirror]
  rw [hnames]
  split at hu
  case isTrue hqp =>
    cases hu
    rw [activated_ticket, if_pos rfl, hqp]
    exact ⟨rfl, hp⟩
  case isFalse =>
    obtain ⟨hactive, hn⟩ := hs q u hu
    have hne : u ≠ k := by
      rintro rfl
      rw [hq] at hactive
      cases hactive
    rw [activated_ticket, if_neg hne]
    exact ⟨hactive, hn⟩

theorem ticketLaws_activated (hs : s.ticketLaws) : (s.activated p k m).ticketLaws := by
  obtain ⟨hguard, hqueue, horder, hposting, hextent, hhand, hentry⟩ := hs
  refine ⟨guardLaw_of hguard (fun _ => rfl) fun u b =>
      holdsBlock_of (s := s) (t := s.activated p k m) ⟨rfl, rfl⟩ (activated_inUse hq u) (fun _ => activated_mirror u) b,
    queueLaw_activated hq hp hqueue, fun q => ?_,
    postingLaw_of hposting rfl fun u => activated_state hq u _ (by decide) (by decide),
    extentLaw_of hextent ⟨rfl, rfl⟩ fun u hu => ⟨by rwa [activated_inUse hq] at hu, activated_mirror u⟩,
    handLaw_activated hq hp hhand,
    entryLaw_of hentry activated_pages (fun u hu => ⟨?_, activated_mirror u⟩) fun u hu =>
      ⟨by rwa [activated_inUse hq] at hu, activated_entryCount u⟩⟩
  · rw [activated_port]
    split
    case isTrue => exact (horder p).sublist List.filter_sublist
    case isFalse => exact horder q
  · rw [activated_ticket]
    split
    case isTrue => rfl
    case isFalse => exact hu

omit hp hq in
/-- A job just taken has fetched nothing, and its cursor stands at its position (R91). -/
theorem jobFor_inOrder (s : State) (k : Slot) (m : Mirror) (r : Option ResumePoint) : (s.jobFor k m r).inOrder [] := by
  refine ⟨.nil, fun x hx => (List.not_mem_nil hx).elim, fun l hl => (List.not_mem_nil hl).elim, fun c hc => ?_⟩
  cases hc
  exact ⟨⟨.inr rfl, Nat.lt_or_ge _ _⟩, .inr ⟨rfl, Nat.le_refl _⟩, fun x hx => (List.not_mem_nil hx).elim⟩

omit hp in
/-- The fetches of a ticket just taken: none yet, stopped or current (R91). -/
theorem countLaw_activated (hfree : (s.port p).engine.job = none) (hnone : s.currentLines p = [])
    (hzero : s.stoppedFetches k = 0) (hhand : s.handLaw) (hhand' : (s.activated p k m).handLaw) (hs : s.countLaw) :
    (s.activated p k m).countLaw := by
  rw [countLaw_iff hhand] at hs
  rw [countLaw_iff hhand']
  obtain ⟨hheld, hunheld⟩ := hs
  refine ⟨fun q u hu => ?_, fun u hu => ?_⟩
  · rw [activated_inHand] at hu
    split at hu
    case isTrue hqp =>
      cases hu
      rw [activated_ticket, if_pos rfl, hqp]
      change 0 = s.stoppedFetches k + (s.currentLines p).length
      rw [hzero, hnone]
      rfl
    case isFalse =>
      have hne : u ≠ k := by
        rintro rfl
        exact not_inHand hhand (by rw [hq]; decide) q hu
      rw [activated_ticket, if_neg hne]
      exact hheld q u hu
  · have hne : u ≠ k := by
      rintro rfl
      exact hu p (by rw [activated_inHand, if_pos rfl])
    rw [activated_ticket, if_neg hne]
    refine hunheld u fun q hq' => ?_
    have hqp : q ≠ p := by
      rintro rfl
      rw [State.inHand, hfree] at hq'
      cases hq'
    exact hu q (by rwa [activated_inHand, if_neg hqp])

omit hq hp in
theorem sequenceLaw_activated (hnone : s.currentLines p = []) (hs : s.sequenceLaw) :
    (s.activated p k m).sequenceLaw := by
  intro q j hj
  rw [activated_port] at hj
  split at hj
  case isTrue hqp =>
    cases hj
    change (s.jobFor k m (s.ticket k).resume).inOrder (s.currentLines q)
    rw [hqp, hnone]
    exact jobFor_inOrder s k m _
  case isFalse => exact hs q j hj

omit hq hp in
theorem restLaw_activated (hs : s.restLaw) : (s.activated p k m).restLaw := by
  rw [restLaw_iff] at hs ⊢
  intro u hu
  rw [activated_ticket] at hu ⊢
  split
  case isTrue huk =>
    rw [if_pos huk] at hu
    cases hu
  case isFalse huk =>
    rw [if_neg huk] at hu
    exact hs u hu

theorem lineLaws_activated (hfree : (s.port p).engine.job = none) (hs : s.ticketLaws) (hl : s.lineLaws) :
    (s.activated p k m).lineLaws := by
  have hhand := handLaw_of_laws hs
  obtain ⟨hnames, ⟨hcurrent, hnone⟩, hstopped, hcount, hseq, hrest⟩ := hl
  have hzero : s.stoppedFetches k = 0 := stoppedFetches_zero hstopped (by rw [hq]; rfl)
  refine ⟨hnames, ⟨hcurrent, fun q hj => ?_⟩, ?_,
    countLaw_activated hq hfree (hnone p hfree) hzero hhand (handLaw_activated hq hp hhand) hcount,
    sequenceLaw_activated (hnone p hfree) hseq, restLaw_activated hrest⟩
  · rw [activated_port] at hj
    split at hj
    · cases hj
    · exact hnone q hj
  · rw [stoppedLaw_iff] at hstopped ⊢
    intro u hu
    have hne : u ≠ k := by
      rintro rfl
      exact hu hzero
    rw [activated_ticket, if_neg hne]
    exact hstopped u hu

/-- A queued ticket taken by an IDLE engine of its port (R65, R66). -/
theorem Kept.activated (hidle : (s.port p).engine.state = .idle) : Kept s (s.activated p k m) where
  tickets := ticketLaws_activated hq hp
  fetches hs hf := by
    rw [fetchLaws_iff] at hf ⊢
    obtain ⟨hl, hi⟩ := hf
    refine ⟨lineLaws_activated hq hp (hi p hidle) hs hl, fun q hst => ?_⟩
    rw [activated_port] at hst ⊢
    split
    case isTrue hqp =>
      rw [if_pos hqp] at hst
      cases hst
    case isFalse hqp =>
      rw [if_neg hqp] at hst
      exact hi q hst
  pages _ hf hpages := by
    have hfree := ((fetchLaws_iff s).1 hf).2 p hidle
    refine pagesLaw_of hpages activated_pages fun q u _ hu => ?_
    have hqp : q ≠ p := by
      rintro rfl
      rw [State.inHand, hfree] at hu
      cases hu
    rwa [activated_inHand, if_neg hqp]

end Activated

theorem firstStartable_mem {s : State} {p : PortId} {k : Slot} (h : s.firstStartable p = some k) :
    k ∈ s.queueSlots p := by
  obtain ⟨e, he, rfl⟩ := Option.map_eq_some_iff.1 h
  exact List.mem_map_of_mem (List.mem_of_find?_eq_some he)

theorem toActivate_some {s : State} {p : PortId} {k : Slot} (h : s.toActivate p = some k) :
    k ∈ s.queueSlots p ∧ (s.port p).engine.state = .idle := by
  unfold State.toActivate at h
  split at h
  case isTrue hopen =>
    refine ⟨firstStartable_mem h, ?_⟩
    simp only [State.dispatchOpen, Bool.and_eq_true, beq_iff_eq] at hopen
    exact hopen.1.2
  case isFalse => nomatch h

theorem Kept.dispatch (s : State) (p : PortId) : Kept s (s.dispatch p) := by
  refine .of_laws fun hs => ?_
  unfold State.dispatch
  cases h : s.toActivate p with
  | none => exact .refl s
  | some k =>
    obtain ⟨hmem, hidle⟩ := toActivate_some h
    obtain ⟨hq, hp⟩ := (((queueLaw_iff s).1 hs.2.1 p).2 k).1 hmem
    obtain ⟨m, hm, -⟩ := id hp
    change Kept s (s.activate p k)
    rw [activate_some p hm]
    exact (Kept.activated hq hp hidle).trans (.settlePort _ p)

theorem Kept.dispatchAccepted (s : State) (k : Slot) : Kept s (s.dispatchAccepted k) := by
  unfold State.dispatchAccepted
  split
  · exact .dispatch s _
  · exact .refl s

end Sys2Proof.Machine

/-! ## Answers of memory keep the laws (R18, R93 to R95, R109) -/

namespace Sys2Proof.Machine

/-! ### A granted request leaves the arbiter -/

/-- A granted request's tag freed (R17). -/
def State.freed (s : State) (n : Nat) : State :=
  s.modMsp fun m => { m with outstanding := m.outstanding.filter fun g => g.id != n }

theorem perm_cons_filter_id {gs : List Granted} (h : (gs.map Granted.id).Nodup) {g : Granted} (hg : g ∈ gs) :
    gs.Perm (g :: gs.filter fun x => x.id != g.id) := by
  have hfilter : gs.erase g = gs.filter fun x => x.id != g.id := by
    rw [(List.Nodup.of_map _ h).erase_eq_filter]
    refine List.filter_congr fun x hx => ?_
    have hid : x.id = g.id ↔ x = g := ⟨fun he => List.inj_on_of_nodup_map h hx hg he, fun he => by rw [he]⟩
    rw [Bool.eq_iff_iff, bne_iff_ne, bne_iff_ne, ne_eq, ne_eq, hid]
  rw [← hfilter]
  exact List.perm_cons_erase hg

/-- From `s` to `t` a granted request is answered, and leaves the fetch count of the ticket it counts for (R93, R95). -/
structure FetchAnswered (s t : State) (g : Granted) : Prop where
  found : g ∈ s.msp.outstanding
  tickets : SameTickets s t
  sending : ∀ k, (t.ticket k).sending = (s.ticket k).sending
  job : ∀ p, (t.port p).engine.job = (s.port p).engine.job
  waiting : t.msp.waiting = s.msp.waiting
  nextGrant : t.msp.nextGrant = s.msp.nextGrant
  left : t.msp.outstanding = s.msp.outstanding.filter fun x => x.id != g.id
  held : ∀ p k, s.inHand p = some k → (t.ticket k).fetchCount =
    (s.ticket k).fetchCount - ((g.isStoppedFetchOf k).toNat + (g.request.currentLine p).toList.length)
  free : ∀ k, (∀ p, s.inHand p ≠ some k) →
    (t.ticket k).fetchCount = (s.ticket k).fetchCount - (g.isStoppedFetchOf k).toNat

namespace FetchAnswered
variable {s t : State} {g : Granted}

theorem inHand (h : FetchAnswered s t g) (p : PortId) : t.inHand p = s.inHand p := by
  rw [State.inHand, h.job]
  rfl

theorem outstanding (h : FetchAnswered s t g) (hnames : s.namesLaw) :
    s.msp.outstanding.Perm (g :: t.msp.outstanding) := by
  rw [h.left]
  exact perm_cons_filter_id hnames.1 h.found

theorem currentLines (h : FetchAnswered s t g) (hnames : s.namesLaw) (p : PortId) :
    (s.currentLines p).Perm ((g.request.currentLine p).toList ++ t.currentLines p) := by
  have hall : (s.msp.waiting ++ s.msp.outstanding.map Granted.request).Perm
      (g.request :: (t.msp.waiting ++ t.msp.outstanding.map Granted.request)) := by
    rw [h.waiting]
    exact (((h.outstanding hnames).map Granted.request).append_left _).trans List.perm_middle
  refine (hall.filterMap _).trans ?_
  rw [List.filterMap_cons]
  cases g.request.currentLine p <;> exact List.Perm.refl _

theorem stoppedFetches (h : FetchAnswered s t g) (hnames : s.namesLaw) (k : Slot) :
    s.stoppedFetches k = (g.isStoppedFetchOf k).toNat + t.stoppedFetches k := by
  rw [State.stoppedFetches, (h.outstanding hnames).countP_eq, List.countP_cons, Nat.add_comm, State.stoppedFetches]
  cases g.isStoppedFetchOf k <;> rfl

theorem lineLaws (h : FetchAnswered s t g) (hs : s.ticketLaws) (hl : s.lineLaws) : t.lineLaws := by
  obtain ⟨hnames, ⟨hcurrent, hnone⟩, hstopped, hcount, hseq, hrest⟩ := hl
  have hstate := h.tickets.state
  rw [countLaw_iff (handLaw_of_laws hs)] at hcount
  obtain ⟨hheld, hfree⟩ := hcount
  have hlines := h.currentLines hnames
  have hstop := h.stoppedFetches hnames
  refine ⟨⟨?_, ?_⟩, ⟨?_, fun p hp => ?_⟩, ?_, ?_, fun p j hj => ?_, ?_⟩
  · rw [h.left]
    exact hnames.1.sublist (List.filter_sublist.map _)
  · rw [h.left, h.nextGrant]
    exact fun x hx => hnames.2 x (List.mem_of_mem_filter hx)
  · rw [h.waiting]
    exact hcurrent
  · rw [h.job] at hp
    have hempty := hlines p
    rw [hnone p hp] at hempty
    exact (List.append_eq_nil_iff.1 hempty.nil_eq.symm).2
  · rw [stoppedLaw_iff] at hstopped ⊢
    intro k hk
    rw [hstate]
    have hk' := hstop k
    exact hstopped k (by omega)
  · rw [countLaw_iff (handLaw_of_laws (h.tickets.ticketLaws hs))]
    refine ⟨fun p k hp => ?_, fun k hk => ?_⟩
    · rw [h.inHand] at hp
      have hlen := (hlines p).length_eq
      rw [List.length_append] at hlen
      rw [h.held p k hp, hheld p k hp, hstop k, hlen]
      omega
    · simp only [h.inHand] at hk
      rw [h.free k hk, hfree k hk, hstop k, Nat.add_sub_cancel_left]
  · rw [h.job] at hj
    exact Job.inOrder_sublist (Job.inOrder_perm (hseq p j hj) (hlines p)) (List.sublist_append_right _ _)
  · rw [restLaw_iff] at hrest ⊢
    intro k hk
    rw [hstate] at hk
    obtain ⟨hcount, hsending⟩ := hrest k hk
    have hnot : ∀ p, s.inHand p ≠ some k := not_inHand (handLaw_of_laws hs) fun hactive => by
      rw [hactive] at hk
      cases hk
    exact ⟨by rw [h.free k hnot, hcount, Nat.zero_sub], (h.sending k).trans hsending⟩

theorem core (h : FetchAnswered s t g) : KeptCore s t where
  tickets := h.tickets.ticketLaws
  lines := h.lineLaws
  pages _ _ hpages := pagesLaw_of hpages h.tickets.pages fun p k _ hk => by rwa [h.inHand]

end FetchAnswered

/-! ### The fetch counts after an answer -/

section Counted
variable {s : State} {g : Granted}

/-- An answer that counts for no ticket. -/
theorem fetchAnswered_freed (hg : g ∈ s.msp.outstanding) (hstop : ∀ k, g.isStoppedFetchOf k = false)
    (hline : ∀ p k, s.inHand p = some k → g.request.currentLine p = none) : FetchAnswered s (s.freed g.id) g where
  found := hg
  tickets := ⟨⟨rfl, rfl⟩, fun _ => rfl, rfl, fun _ => rfl, fun _ => rfl, fun _ => rfl, fun _ => rfl, fun _ => rfl,
    fun _ _ h => h⟩
  sending _ := rfl
  job _ := rfl
  waiting := rfl
  nextGrant := rfl
  left := rfl
  held p k hp := by
    rw [hstop, hline p k hp]
    rfl
  free k _ := by
    rw [hstop]
    rfl

theorem fetchDone_ticket (s : State) (k u : Slot) : (s.fetchDone k).ticket u =
    { s.ticket u with fetchCount := (s.ticket u).fetchCount - if u = k then 1 else 0 } := by
  rw [State.fetchDone, State.ticket_modTicket]
  split
  case isTrue hu => rw [hu]
  case isFalse => rfl

theorem sameTickets_fetchDone (s : State) (n : Nat) (k : Slot) : SameTickets s ((s.freed n).fetchDone k) where
  spool := ⟨rfl, rfl⟩
  guard _ := rfl
  fetcher := rfl
  state u := by rw [fetchDone_ticket]; rfl
  mirror u := by rw [fetchDone_ticket]; rfl
  entryCount u := by rw [fetchDone_ticket]; rfl
  queue _ := rfl
  pages _ := rfl
  hand _ _ h := h

/-- An answer that counts for one ticket. -/
theorem fetchAnswered_fetchDone (hg : g ∈ s.msp.outstanding) {k : Slot}
    (hheld : ∀ p u, s.inHand p = some u →
      (g.isStoppedFetchOf u).toNat + (g.request.currentLine p).toList.length = if u = k then 1 else 0)
    (hfree : ∀ u, (∀ p, s.inHand p ≠ some u) → (g.isStoppedFetchOf u).toNat = if u = k then 1 else 0) :
    FetchAnswered s ((s.freed g.id).fetchDone k) g where
  found := hg
  tickets := sameTickets_fetchDone s g.id k
  sending u := by rw [fetchDone_ticket]; rfl
  job _ := rfl
  waiting := rfl
  nextGrant := rfl
  left := rfl
  held p u hp := by
    rw [fetchDone_ticket, hheld p u hp]
    rfl
  free u hu := by
    rw [fetchDone_ticket, hfree u hu]
    rfl

end Counted

/-! ### Answers that are no line fetch's -/

theorem not_stopped_of_other {g : Granted} (h : g.request.owner.isLineFetch = false) (k : Slot) :
    g.isStoppedFetchOf k = false := by
  unfold Granted.isStoppedFetchOf
  split
  case h_1 ho =>
    rw [ho] at h
    cases h
  case h_2 => rfl

/-- The answer of a request that is no line fetch leaves the laws as they are. -/
theorem Kept.freed {s : State} {g : Granted} (hg : g ∈ s.msp.outstanding) (hother : g.request.owner.isLineFetch = false) :
    Kept s (s.freed g.id) :=
  .of_core (fetchAnswered_freed hg (not_stopped_of_other hother) fun p _ _ => currentLine_of_not_lineFetch hother p).core id

/-! ### A line arrives (R94) -/

theorem insertLine_perm (x : BufferLine) (ls : List BufferLine) : (insertLine x ls).Perm (x :: ls) := by
  induction ls with
  | nil => exact List.Perm.refl _
  | cons l ls ih =>
    unfold insertLine
    split
    · exact List.Perm.refl _
    · exact (ih.cons l).trans (List.Perm.swap x l ls)

theorem lineBytes_length_le (j : Job) (offset : Nat) (data : List Byte) :
    offset + (j.lineBytes offset data).length ≤ j.lineEnd offset ∧
      (j.lineBytes offset data = [] ∨ offset + (j.lineBytes offset data).length ≤ j.length) := by
  have hlen : (j.lineBytes offset data).length ≤ 64 - (j.dataBase + offset) % 64 ∧
      (j.lineBytes offset data).length ≤ j.length - offset := by
    unfold Job.lineBytes
    simp only [padTo, List.length_take, List.length_drop]
    omega
  have hend : j.lineEnd offset = offset + (64 - (j.dataBase + offset) % 64) := by
    unfold Job.lineEnd
    omega
  refine ⟨by omega, ?_⟩
  rw [← List.length_eq_zero_iff]
  omega

/-- A fetched line moves into the buffer. -/
theorem Job.inOrder_arrive {j : Job} {copy offset : Nat} {xs : List Cursor} (h : j.inOrder (⟨copy, offset⟩ :: xs))
    (data : List Byte) :
    ({ j with buffer := insertLine ⟨copy, offset, j.lineBytes offset data⟩ j.buffer } : Job).inOrder xs := by
  obtain ⟨hapart, hplace, hbuffer, hcursor⟩ := h
  have hins := insertLine_perm ⟨copy, offset, j.lineBytes offset data⟩ j.buffer
  have hlines : (xs ++ (insertLine ⟨copy, offset, j.lineBytes offset data⟩ j.buffer).map fun l =>
      (⟨l.copy, l.offset⟩ : Cursor)).Perm ((⟨copy, offset⟩ :: xs) ++ j.buffer.map fun l => ⟨l.copy, l.offset⟩) :=
    ((hins.map _).append_left xs).trans List.perm_middle
  refine ⟨(hlines.pairwise_iff fun h => linesApart_symm j h).2 hapart, fun x hx => hplace x (hlines.mem_iff.1 hx),
    fun l hl => ?_, fun c hc => ?_⟩
  · rcases List.mem_cons.1 (hins.mem_iff.1 hl) with rfl | hl
    · exact lineBytes_length_le j offset data
    · exact hbuffer l hl
  · obtain ⟨h1, h2, h3⟩ := hcursor c hc
    exact ⟨h1, h2, fun x hx => h3 x (hlines.mem_iff.1 hx)⟩

/-! ### The answer of a line fetch (R95) -/

/-- What keeps the laws of the tickets keeps all laws if it does so where the laws of the fetches hold. -/
theorem Kept.of_fetchLaws {s t : State} (ht : s.ticketLaws → t.ticketLaws)
    (h : s.ticketLaws → s.fetchLaws → Kept s t) : Kept s t where
  tickets := ht
  fetches hs hf := (h hs hf).fetches hs hf
  pages hs hf hp := (h hs hf).pages hs hf hp

section LineAnswered
variable {s : State} {g : Granted} {p : PortId} {copy offset : Nat}

theorem Kept.staleAnswered (hg : g ∈ s.msp.outstanding) (ho : g.request.owner = .lineFetch p .stale copy offset) :
    Kept s ((s.freed g.id).settlePort p) := by
  have hanswered : FetchAnswered s (s.freed g.id) g := fetchAnswered_freed hg
    (fun k => by rw [Granted.isStoppedFetchOf, ho]) fun q _ _ => by rw [MemRequest.currentLine, ho]
  exact hanswered.core.settlePort_kept fun _ _ => rfl

theorem Kept.stoppedAnswered {k : Slot} (hg : g ∈ s.msp.outstanding)
    (ho : g.request.owner = .lineFetch p (.stopped k) copy offset) :
    Kept s ((((s.freed g.id).fetchDone k).drainTest k).settlePort p) := by
  have hstop : ∀ u, (g.isStoppedFetchOf u).toNat = if u = k then 1 else 0 := fun u => by
    rw [Granted.isStoppedFetchOf, ho]
    by_cases hu : u = k
    · simp [hu]
    · simp [hu, Ne.symm hu]
  have hline : ∀ q, g.request.currentLine q = none := fun q => by rw [MemRequest.currentLine, ho]
  have hanswered : FetchAnswered s ((s.freed g.id).fetchDone k) g :=
    fetchAnswered_fetchDone hg (fun q u _ => by rw [hstop, hline]; rfl) fun u _ => hstop u
  exact ((Kept.of_core hanswered.core id).trans (.drainTest _ k)).trans (.settlePort _ p)

theorem fetchAnswered_current {j : Job} (hhand : s.handLaw) (hg : g ∈ s.msp.outstanding)
    (ho : g.request.owner = .lineFetch p .current copy offset) (hj : (s.port p).engine.job = some j) :
    FetchAnswered s ((s.freed g.id).fetchDone j.slot) g := by
  have hstop : ∀ u, g.isStoppedFetchOf u = false := fun u => by rw [Granted.isStoppedFetchOf, ho]
  have hp := inHand_of_job hj
  refine fetchAnswered_fetchDone hg (fun q u hu => ?_) fun u hu => ?_
  · rw [hstop, MemRequest.currentLine, ho]
    by_cases hq : p = q
    · subst hq
      cases hu.symm.trans hp
      simp
    · have hne : u ≠ j.slot := fun he => hq (inHand_unique hhand hp (he ▸ hu))
      simp [hq, hne]
  · rw [hstop, if_neg fun he : u = j.slot => hu p (he ▸ hp)]
    rfl

theorem lineAnswered_current {j : Job} (hj : (s.port p).engine.job = some j) (ok : Bool) (data : List Byte) :
    s.lineAnswered p .current copy offset ok data =
      if ok then ((s.fetchDone j.slot).lineArrives p j copy offset data).settlePort p
      else (s.fetchDone j.slot).memoryFailure p j.slot := by
  unfold State.lineAnswered
  simp only [hj]

/-- A current fetch of a port with no ticket in hand is against the law of the marks. -/
theorem Kept.idleAnswered (hg : g ∈ s.msp.outstanding) (ho : g.request.owner = .lineFetch p .current copy offset)
    (hj : (s.port p).engine.job = none) : Kept s ((s.freed g.id).settlePort p) := by
  refine .of_fetchLaws (fun hs => (KeptCore.settlePort _ p).tickets hs) fun _ hf => ?_
  have hmem : (⟨copy, offset⟩ : Cursor) ∈ s.currentLines p := by
    refine List.mem_filterMap.2 ⟨g.request, List.mem_append_right _ (List.mem_map_of_mem hg), ?_⟩
    rw [MemRequest.currentLine, ho]
    exact if_pos rfl
  rw [hf.2.1.2 p hj] at hmem
  cases hmem

/-- A line answered OK leaves the current fetches for the buffer. -/
theorem KeptCore.lineArrives {j : Job} (hg : g ∈ s.msp.outstanding)
    (ho : g.request.owner = .lineFetch p .current copy offset) (hj : (s.port p).engine.job = some j) (data : List Byte) :
    KeptCore s (((s.freed g.id).fetchDone j.slot).lineArrives p j copy offset data) := by
  have hj' : (((s.freed g.id).fetchDone j.slot).port p).engine.job = some j := hj
  have hset (hs : s.ticketLaws) (hl : s.lineLaws) := KeptCore.setJob
    (k := { j with buffer := insertLine ⟨copy, offset, j.lineBytes offset data⟩ j.buffer }) hj' rfl fun _ => by
      have hlines := (fetchAnswered_current (handLaw_of_laws hs) hg ho hj).currentLines hl.1 p
      rw [MemRequest.currentLine, ho] at hlines
      simp only [if_true, Option.toList_some] at hlines
      exact Job.inOrder_arrive (Job.inOrder_perm (hl.2.2.2.2.1 p j hj) hlines) data
  have hanswered (hs : s.ticketLaws) := (fetchAnswered_current (handLaw_of_laws hs) hg ho hj).core
  refine ⟨fun hs => (sameTickets_setJob
      (k := { j with buffer := insertLine ⟨copy, offset, j.lineBytes offset data⟩ j.buffer }) hj' rfl).ticketLaws ((hanswered hs).tickets hs),
    fun hs hl => ((hanswered hs).trans (hset hs hl)).lines hs hl,
    fun hs hl hp => ((hanswered hs).trans (hset hs hl)).pages hs hl hp⟩

theorem Kept.currentAnswered (hg : g ∈ s.msp.outstanding) (ho : g.request.owner = .lineFetch p .current copy offset)
    (ok : Bool) (data : List Byte) : Kept s ((s.freed g.id).lineAnswered p .current copy offset ok data) := by
  cases hj : (s.port p).engine.job with
  | none =>
    have hstays : (s.freed g.id).lineAnswered p .current copy offset ok data = (s.freed g.id).settlePort p := by
      unfold State.lineAnswered
      simp only [State.freed, State.port_modMsp, hj]
    rw [hstays]
    exact .idleAnswered hg ho hj
  | some j =>
    have hj' : ((s.freed g.id).port p).engine.job = some j := hj
    rw [lineAnswered_current hj']
    refine .ite (fun _ => (KeptCore.lineArrives hg ho hj data).settlePort_kept fun q hq => ?_) fun _ => ?_
    · rw [State.lineArrives, State.port_setJob, if_neg hq]
      rfl
    · refine .of_laws fun hs => ?_
      exact (Kept.of_core (fetchAnswered_current (handLaw_of_laws hs) hg ho hj).core id).trans
        (.memoryFailure (inHand_of_job hj'))

theorem Kept.lineAnswered {mark : FetchMark} (hg : g ∈ s.msp.outstanding)
    (ho : g.request.owner = .lineFetch p mark copy offset) (ok : Bool) (data : List Byte) :
    Kept s ((s.freed g.id).lineAnswered p mark copy offset ok data) := by
  cases mark with
  | current => exact .currentAnswered hg ho ok data
  | stale => exact .staleAnswered hg ho
  | stopped k => exact .stoppedAnswered hg ho

end LineAnswered

end Sys2Proof.Machine

/-! ## Requests that fetch no line, and grants, keep the laws (R15 to R18, R22, R46, R93, R174 to R176) -/

namespace Sys2Proof.Machine

/-! ### Requests that fetch no line -/

theorem Kept.modMsp (s : State) {f : Msp → Msp} (h : SameFetches s (s.modMsp f)) : Kept s (s.modMsp f) :=
  .of_same ⟨⟨rfl, rfl⟩, fun _ => rfl, rfl, fun _ => rfl, fun _ => rfl, h⟩ fun _ hp => .inr ⟨hp, rfl⟩

theorem Kept.enqueue (s : State) {r : MemRequest} (hr : r.owner.isLineFetch = false) : Kept s (s.enqueue r) := by
  refine .modMsp s ⟨id, fun q hq hline => ?_, fun _ => rfl, fun p => ?_⟩
  · rcases List.mem_append.1 hq with hq | hq
    · exact hq
    · rw [List.mem_singleton.1 hq, hr] at hline
      cases hline
  · have h := currentLines_perm_of_waiting s r p
    rwa [currentLine_of_not_lineFetch hr] at h

theorem Kept.pass (s : State) (tag : Tag) (w : Bool) (addr size : Nat) (enables : List Bool) (data : List Byte) :
    Kept s (s.pass tag w addr size enables data) :=
  .ite (fun _ => (Kept.enqueue s rfl).trans (.enqueue _ rfl)) fun _ => .enqueue s rfl

theorem Kept.presentTicketFetch (s : State) : Kept s s.presentTicketFetch := by
  unfold State.presentTicketFetch
  split
  · exact .refl s
  · exact .ite (fun _ => .refl s) fun _ => .enqueue s rfl

theorem Kept.presentSweep (s : State) : Kept s s.presentSweep := by
  unfold State.presentSweep
  split
  case h_1 => exact .refl s
  case h_2 off _ =>
    exact (Kept.of_eq (s := s) (t := { s with sweep := { s.sweep with presented := s.sweep.presented + 1 } })
      rfl rfl rfl rfl rfl rfl).trans (.enqueue _ (r := s.sweepRequest off) rfl)

theorem Kept.pickRecord (s : State) : Kept s s.pickRecord := by
  unfold State.pickRecord
  split
  · exact .refl s
  · exact .ite (fun _ => (Kept.enqueue s rfl).trans (.modRelay _ _)) fun _ => .refl s

/-! ### The record write that a restart drops (R176) -/

theorem not_lineFetch_of_liveRecord {o : Owner} (h : o.isLiveRecord = true) : o.isLineFetch = false := by
  cases o <;> simp_all [Owner.isLiveRecord, Owner.isLineFetch]

theorem dropRecord_of_line {g : Granted} (h : g.request.owner.isLineFetch = true) : g.dropRecord = g := by
  unfold Granted.dropRecord
  cases hlive : g.request.owner.isLiveRecord with
  | false => rfl
  | true =>
    rw [not_lineFetch_of_liveRecord hlive] at h
    cases h

theorem dropRecord_isLineFetch (g : Granted) : g.dropRecord.request.owner.isLineFetch = g.request.owner.isLineFetch := by
  unfold Granted.dropRecord
  split
  case isTrue h => exact (not_lineFetch_of_liveRecord h).symm
  case isFalse => rfl

theorem dropRecord_id (g : Granted) : g.dropRecord.id = g.id := by
  unfold Granted.dropRecord
  split <;> rfl

/-- What is read off a request's line fetch alone is not changed by a dropped record. -/
theorem dropRecord_same {α : Type} {f : Granted → α} {x : α} (hf : ∀ g, g.request.owner.isLineFetch = false → f g = x)
    (g : Granted) : f g.dropRecord = f g := by
  cases h : g.request.owner.isLineFetch with
  | true => rw [dropRecord_of_line h]
  | false => rw [hf g h, hf _ ((dropRecord_isLineFetch g).trans h)]

theorem Kept.recordTakenBack (s : State) :
    Kept s (s.modMsp fun m => { m with waiting := m.waiting.filter fun r => !r.owner.isLiveRecord }) := by
  refine .modMsp s ⟨id, fun r hr _ => List.mem_of_mem_filter hr, fun _ => rfl, fun p => ?_⟩
  have hwaiting : (s.msp.waiting.filter fun r => !r.owner.isLiveRecord).filterMap (·.currentLine p) =
      s.msp.waiting.filterMap (·.currentLine p) := by
    rw [List.filterMap_filter]
    refine List.filterMap_congr fun r _ => ?_
    cases h : r.owner.isLiveRecord with
    | false => rfl
    | true => exact (currentLine_of_not_lineFetch (not_lineFetch_of_liveRecord h) p).symm
  simp only [State.currentLines, State.modMsp, List.filterMap_append, hwaiting]
  exact List.Perm.refl _

theorem Kept.recordDropped (s : State) :
    Kept s (s.modMsp fun m => { m with outstanding := m.outstanding.map Granted.dropRecord }) := by
  refine .modMsp s ⟨fun h => ?_, fun _ hr _ => hr, fun k => ?_, fun p => ?_⟩
  · have hids : (s.msp.outstanding.map Granted.dropRecord).map Granted.id = s.msp.outstanding.map Granted.id := by
      rw [List.map_map]
      exact List.map_congr_left fun g _ => dropRecord_id g
    refine ⟨hids ▸ h.1, fun g hg => ?_⟩
    obtain ⟨x, hx, rfl⟩ := List.mem_map.1 hg
    rw [dropRecord_id]
    exact h.2 x hx
  · have hcount : (s.msp.outstanding.map Granted.dropRecord).countP (·.isStoppedFetchOf k) =
        s.msp.outstanding.countP (·.isStoppedFetchOf k) := by
      rw [List.countP_map]
      exact List.countP_congr fun g _ => by
        rw [Function.comp, dropRecord_same fun g h => not_stopped_of_other h k]
    exact hcount
  · have houtstanding : ((s.msp.outstanding.map Granted.dropRecord).map Granted.request).filterMap (·.currentLine p) =
        (s.msp.outstanding.map Granted.request).filterMap (·.currentLine p) := by
      rw [List.map_map, List.filterMap_map, List.filterMap_map]
      exact List.filterMap_congr fun g _ =>
        dropRecord_same (f := fun g => g.request.currentLine p) (fun g h => currentLine_of_not_lineFetch h p) g
    simp only [State.currentLines, State.modMsp, List.filterMap_append, houtstanding]
    exact List.Perm.refl _

theorem Kept.dropRecordWrite (s : State) : Kept s s.dropRecordWrite := by
  unfold State.dropRecordWrite
  split
  · exact .refl s
  · exact .ite (fun _ => (Kept.recordTakenBack s).trans (.modRelay _ _)) fun _ =>
      (Kept.recordDropped s).trans (.modRelay _ _)

/-! ### Grants (R17) -/

theorem forHead_mem {m : Msp} {r : MemRequest} (hr : r ∈ m.waiting) : m.forHead r ∈ m.waiting := by
  unfold Msp.forHead
  cases h : m.waiting.find? fun q => q.line == r.line with
  | none => exact hr
  | some q => exact List.mem_of_find?_eq_some h

theorem ownWaiting_waits {m : Msp} {r : MemRequest} (h : r ∈ m.ownWaiting) : r ∈ m.waiting := by
  obtain ⟨-, i, hi, -⟩ := (mem_unblocked_iff [] m.waiting r).1 (List.mem_of_mem_filter h)
  exact List.mem_of_getElem? hi

theorem ownChoice_mem {last : PortId} {own : List MemRequest} {r : MemRequest} (h : ownChoice last own = some r) :
    r ∈ own := by
  simp only [ownChoice, Option.or_eq_some_iff] at h
  rcases h with h | ⟨-, h | ⟨-, h | ⟨-, h⟩⟩⟩
  · exact List.mem_of_find?_eq_some h
  · exact List.mem_of_find?_eq_some h
  · exact List.mem_of_find?_eq_some h
  · exact (fetchChoice_least h).1

/-- The arbiter grants a request that waits (R17). -/
theorem choice_waits {m : Msp} {r : MemRequest} (h : m.choice = some r) : r ∈ m.waiting := by
  unfold Msp.choice at h
  split at h
  · cases h
  · cases hhead : m.passingHead with
    | none =>
      rw [hhead] at h
      exact ownWaiting_waits (ownChoice_mem h)
    | some head =>
      rw [hhead] at h
      dsimp only at h
      split at h
      · cases h
        exact forHead_mem (List.mem_of_find?_eq_some hhead)
      · exact ownWaiting_waits (ownChoice_mem h)

theorem not_stopped_of_waiting {s : State} (hs : s.marksLaw) {r : MemRequest} (hr : r ∈ s.msp.waiting) (n : Nat)
    (k : Slot) : Granted.isStoppedFetchOf k ⟨n, r⟩ = false := by
  unfold Granted.isStoppedFetchOf
  split
  case h_1 ho => cases hs.1 r hr _ _ _ _ ho
  case h_2 => rfl

theorem sameFetches_granted {s : State} (hs : s.marksLaw) {r : MemRequest} (hr : r ∈ s.msp.waiting) :
    SameFetches s (s.modMsp fun m => m.granted r) := by
  refine ⟨fun h => ⟨?_, fun g hg => ?_⟩, fun q hq _ => List.mem_of_mem_erase hq, fun k => ?_, fun p => ?_⟩
  · have hnew : ∀ i ∈ s.msp.outstanding.map Granted.id, i ≠ s.msp.nextGrant := fun i hi => by
      obtain ⟨g, hg, rfl⟩ := List.mem_map.1 hi
      exact (h.2 g hg).ne
    change ((s.msp.outstanding ++ [Granted.mk s.msp.nextGrant r]).map Granted.id).Nodup
    rw [List.map_append, List.nodup_append]
    exact ⟨h.1, List.nodup_singleton _, fun i hi j hj => by rw [List.mem_singleton.1 hj]; exact hnew i hi⟩
  · change g ∈ s.msp.outstanding ++ [Granted.mk s.msp.nextGrant r] at hg
    change g.id < s.msp.nextGrant + 1
    rcases List.mem_append.1 hg with hg | hg
    · exact Nat.lt_succ_of_lt (h.2 g hg)
    · rw [List.mem_singleton.1 hg]
      exact Nat.lt_succ_self _
  · change (s.msp.outstanding ++ [Granted.mk s.msp.nextGrant r]).countP (·.isStoppedFetchOf k) = s.stoppedFetches k
    rw [List.countP_append, List.countP_singleton, not_stopped_of_waiting hs hr]
    rfl
  · refine List.Perm.filterMap _ ?_
    change (s.msp.waiting.erase r ++ (s.msp.outstanding ++ [Granted.mk s.msp.nextGrant r]).map Granted.request).Perm _
    rw [List.map_append, ← List.append_assoc]
    refine (List.perm_append_comm (l₂ := [r])).trans ?_
    rw [← List.append_assoc]
    exact ((List.perm_cons_erase hr).symm).append_right _

theorem Kept.granted {s : State} {r : MemRequest} (hr : r ∈ s.msp.waiting) : Kept s (s.modMsp fun m => m.granted r) :=
  .of_fetchLaws id fun _ hf => .modMsp s (sameFetches_granted hf.2.1 hr)

end Sys2Proof.Machine

/-! ## Posting, judgement and release keep the laws (R45 to R50, R55, R61, R78) -/

namespace Sys2Proof.Machine

/-! ### A ticket that is not in use before or after -/

/-- From `s` to `t` one ticket moves between states out of use. -/
structure StaysUnused (s t : State) (k : Slot) : Prop where
  image : t.image = s.image
  guards : t.guards = s.guards
  ports : t.ports = s.ports
  msp : t.msp = s.msp
  others : ∀ u, u ≠ k → t.ticket u = s.ticket u
  before : (s.ticket k).state.inUse = false
  after : (t.ticket k).state.inUse = false
  fetchCount : (t.ticket k).fetchCount = (s.ticket k).fetchCount
  sending : (t.ticket k).sending = (s.ticket k).sending

theorem not_mayFetch_of_unused {x : TicketState} (h : x.inUse = false) : x.mayFetch = false := by
  cases x <;> simp_all [TicketState.inUse, TicketState.mayFetch]

theorem ne_of_unused {x y : TicketState} (h : x.inUse = false) (hy : y.inUse = true) : x ≠ y := by
  rintro rfl
  rw [h] at hy
  cases hy

namespace StaysUnused
variable {s t : State} {k : Slot}

theorem port (h : StaysUnused s t k) (p : PortId) : t.port p = s.port p := by
  rw [State.port, h.ports]
  rfl

theorem inHand (h : StaysUnused s t k) (p : PortId) : t.inHand p = s.inHand p := by
  rw [State.inHand, h.port]
  rfl

theorem eq_of_used (h : StaysUnused s t k) {u : Slot}
    (hu : (t.ticket u).state.inUse = true ∨ (s.ticket u).state.inUse = true) : t.ticket u = s.ticket u := by
  refine h.others u ?_
  rintro rfl
  rcases hu with hu | hu
  · exact absurd (h.after.symm.trans hu) Bool.false_ne_true
  · exact absurd (h.before.symm.trans hu) Bool.false_ne_true

theorem inUse (h : StaysUnused s t k) (u : Slot) : (t.ticket u).state.inUse = (s.ticket u).state.inUse := by
  by_cases hu : u = k
  · rw [hu, h.before, h.after]
  · rw [h.others u hu]

theorem state_iff (h : StaysUnused s t k) {x : TicketState} (hx : x.inUse = true) (u : Slot) :
    (t.ticket u).state = x ↔ (s.ticket u).state = x := by
  constructor
  · intro hu
    rw [← h.eq_of_used (.inl (hu ▸ hx)), hu]
  · intro hu
    rw [h.eq_of_used (.inr (hu ▸ hx)), hu]

theorem ticketLaws (h : StaysUnused s t k) (hs : s.ticketLaws) (hposting : t.postingLaw) : t.ticketLaws := by
  obtain ⟨hguard, hqueue, horder, -, hextent, hhand, hentry⟩ := hs
  have hspool := sameSpool_of_image h.image
  refine ⟨guardLaw_of hguard (fun b => by rw [State.guard, h.guards]; rfl) fun u b =>
      holdsBlock_of hspool (h.inUse u) (fun hu => by rw [h.eq_of_used (.inr hu)]) b,
    queueLaw_of hqueue (fun p => by rw [h.port]) (h.state_iff rfl) fun u hu => by rw [h.eq_of_used (.inr (hu ▸ rfl))],
    orderLaw_of horder fun p => by rw [h.port], hposting,
    extentLaw_of hextent hspool fun u hu => ⟨by rwa [h.inUse] at hu, by rw [h.eq_of_used (.inl hu)]⟩,
    handLaw_of hhand fun p u hu => ?_,
    entryLaw_of hentry (fun p => by rw [h.port]) (fun u hu => ?_) fun u hu => ?_⟩
  · rw [h.inHand] at hu
    have hactive := ((handLaw_iff s).1 hhand p u hu).1
    rw [h.eq_of_used (.inr (hactive ▸ rfl))]
    exact ⟨hu, rfl, rfl⟩
  · rw [h.eq_of_used (.inr (inUse_of_pastQueued hu))]
    exact ⟨hu, rfl⟩
  · have heq := h.eq_of_used (.inl hu)
    rw [heq] at hu ⊢
    exact ⟨hu, rfl⟩

theorem lineLaws (h : StaysUnused s t k) (hs : s.ticketLaws) (ht : t.ticketLaws) (hl : s.lineLaws) : t.lineLaws := by
  have hlines : ∀ p, t.currentLines p = s.currentLines p := fun p => by rw [State.currentLines, h.msp]; rfl
  have hstops : ∀ u, t.stoppedFetches u = s.stoppedFetches u := fun u => by rw [State.stoppedFetches, h.msp]; rfl
  have hfetch : ∀ u, (t.ticket u).fetchCount = (s.ticket u).fetchCount := fun u => by
    by_cases hu : u = k
    · rw [hu, h.fetchCount]
    · rw [h.others u hu]
  obtain ⟨hnames, ⟨hcurrent, hnone⟩, hstopped, hcount, hseq, hrest⟩ := hl
  rw [countLaw_iff (handLaw_of_laws hs)] at hcount
  refine ⟨(SameFetches.of_msp h.msp).names hnames, ⟨by rw [h.msp]; exact hcurrent, fun p hp => ?_⟩, ?_, ?_,
    fun p j hj => ?_, ?_⟩
  · rw [h.port] at hp
    rw [hlines]
    exact hnone p hp
  · rw [stoppedLaw_iff] at hstopped ⊢
    intro u hu
    rw [hstops] at hu
    rcases (isStopping_iff _).1 (hstopped u hu) with hst | hst <;> rw [(h.state_iff rfl u).2 hst] <;> rfl
  · rw [countLaw_iff (handLaw_of_laws ht)]
    simp only [hfetch, hstops, hlines, h.inHand]
    exact hcount
  · rw [h.port] at hj
    rw [hlines]
    exact hseq p j hj
  · rw [restLaw_iff] at hrest ⊢
    intro u hu
    by_cases huk : u = k
    · rw [huk, h.fetchCount, h.sending]
      exact hrest k (not_mayFetch_of_unused h.before)
    · rw [h.others u huk] at hu ⊢
      exact hrest u hu

theorem kept (h : StaysUnused s t k) (hposting : s.ticketLaws → t.postingLaw) : Kept s t :=
  .of_core
    ⟨fun hs => h.ticketLaws hs (hposting hs), fun hs hl => h.lineLaws hs (h.ticketLaws hs (hposting hs)) hl,
      fun _ _ hp => pagesLaw_of hp (fun p => by rw [h.port]) fun p u _ hu => by rwa [h.inHand]⟩
    (idleLaw_of fun p hp => .inr ⟨by rwa [h.port] at hp, by rw [h.port]⟩)

end StaysUnused

/-! ### POST and RELEASE (R45, R55) -/

/-- The fetcher's lists may move as their law allows. -/
theorem Kept.withFetcher (s : State) {f : Fetcher} (h : s.ticketLaws → (s.withFetcher f).postingLaw) :
    Kept s (s.withFetcher f) where
  tickets hs := by
    have hposting := h hs
    obtain ⟨hguard, hqueue, horder, -, hextent, hhand, hentry⟩ := hs
    exact ⟨hguard, hqueue, horder, hposting, hextent, hhand, hentry⟩
  fetches _ := id
  pages _ _ := id

/-- The slots of the fetcher's two lists (R46). -/
def Fetcher.slots (f : Fetcher) : List Slot := f.queue ++ f.inFlight.map InFlight.slot

theorem postingLaw_iff (s : State) : s.postingLaw ↔ s.fetcher.slots.Nodup ∧
    (∀ t, t ∈ s.fetcher.slots ↔ (s.ticket t).state = .posting) ∧
      ∀ x, s.fetcher.inFlight.head? = some x → x.answer = none :=
  Iff.rfl

/-- A FREE ticket becomes POSTING, at the tail of the fetch queue (R45). -/
def State.posted (s : State) (k : Slot) : State :=
  (s.modTicket k fun x => { x with state := .posting, reason := .noReason }).withFetcher
    { s.fetcher with queue := s.fetcher.queue ++ [k] }

theorem posted_ticket (s : State) (k u : Slot) : (s.posted k).ticket u =
    if u = k then { s.ticket k with state := .posting, reason := .noReason } else s.ticket u :=
  State.ticket_modTicket s k (fun x => { x with state := .posting, reason := .noReason }) u

theorem Kept.posted {s : State} {k : Slot} (hfree : (s.ticket k).state = .free) : Kept s (s.posted k) := by
  have hself : (s.posted k).ticket k = { s.ticket k with state := .posting, reason := .noReason } := by
    rw [posted_ticket, if_pos rfl]
  refine StaysUnused.kept (k := k) ⟨rfl, rfl, rfl, rfl, fun u hu => ?_, ?_, ?_, ?_, ?_⟩ fun hs => ?_
  · rw [posted_ticket, if_neg hu]
  · rw [hfree]
    rfl
  · rw [hself]
    rfl
  · rw [hself]
  · rw [hself]
  · obtain ⟨hnodup, hmem, hhead⟩ := (postingLaw_iff s).1 hs.2.2.2.1
    have hperm : (s.posted k).fetcher.slots.Perm (k :: s.fetcher.slots) := by
      change (s.fetcher.queue ++ [k] ++ s.fetcher.inFlight.map InFlight.slot).Perm _
      rw [List.append_assoc]
      exact List.perm_middle
    have hnew : k ∉ s.fetcher.slots := by
      rw [hmem, hfree]
      exact nofun
    refine (postingLaw_iff _).2 ⟨hperm.nodup_iff.2 (List.nodup_cons.2 ⟨hnew, hnodup⟩), fun u => ?_, hhead⟩
    rw [hperm.mem_iff, List.mem_cons, posted_ticket]
    by_cases hu : u = k
    · simp [hu]
    · rw [if_neg hu, hmem]
      exact or_iff_right hu

theorem Kept.postTicket {s : State} {k : Slot} (hfree : (s.ticket k).state = .free) : Kept s (s.postTicket k) :=
  (Kept.posted hfree).trans (.presentTicketFetch _)

theorem Kept.releaseTicket {s : State} {k : Slot} (hk : (s.ticket k).state.inUse = false)
    (hpost : (s.ticket k).state ≠ .posting) : Kept s (s.releaseTicket k) := by
  have hticket := State.ticket_modTicket s k fun x =>
    { x with state := .free, reason := .noReason, mirror := none, copy := 0, page := 0, delivered := 0, spoiled := 0 }
  change ∀ u, (s.releaseTicket k).ticket u = _ at hticket
  have hself := (hticket k).trans (if_pos rfl)
  refine StaysUnused.kept (k := k) ⟨rfl, rfl, rfl, rfl, fun u hu => ?_, hk, ?_, ?_, ?_⟩ fun hs => ?_
  · rw [hticket, if_neg hu]
  · rw [hself]
    rfl
  · rw [hself]
  · rw [hself]
  · refine postingLaw_of hs.2.2.2.1 rfl fun u => ?_
    rw [hticket]
    split
    case isTrue hu => rw [hu]; simp [hpost]
    case isFalse => exact Iff.rfl

/-! ### The grant of a posting fetch (R46) -/

theorem Kept.ticketFetchGranted (s : State) : Kept s s.ticketFetchGranted := by
  unfold State.ticketFetchGranted
  split
  case h_1 => exact .refl s
  case h_2 k rest hq =>
    refine Kept.trans (t := s.withFetcher { queue := rest, inFlight := s.fetcher.inFlight ++ [InFlight.mk k none] })
      (.withFetcher s fun hs => ?_) (.presentTicketFetch _)
    obtain ⟨hnodup, hmem, hhead⟩ := (postingLaw_iff s).1 hs.2.2.2.1
    have hperm : (Fetcher.mk rest (s.fetcher.inFlight ++ [InFlight.mk k none])).slots.Perm s.fetcher.slots := by
      change (rest ++ (s.fetcher.inFlight ++ [InFlight.mk k none]).map InFlight.slot).Perm
        (s.fetcher.queue ++ s.fetcher.inFlight.map InFlight.slot)
      rw [hq, List.map_append, ← List.append_assoc]
      exact List.perm_append_comm (l₂ := [k])
    refine (postingLaw_iff _).2 ⟨hperm.nodup_iff.2 hnodup, fun u => hperm.mem_iff.trans (hmem u), fun x hx => ?_⟩
    change (s.fetcher.inFlight ++ [InFlight.mk k none]).head? = some x at hx
    rw [List.head?_append, Option.or_eq_some_iff] at hx
    rcases hx with hx | ⟨-, hx⟩
    · exact hhead x hx
    · cases hx
      rfl

theorem Kept.afterGrant (s : State) (o : Owner) : Kept s (s.afterGrant o) := by
  cases o with
  | ticketFetch => exact .ticketFetchGranted s
  | lineFetch p => exact .settlePort s p
  | sweep => exact .presentSweep s
  | passing => exact .refl s
  | record => exact .refl s

theorem Kept.grantNext (s : State) : Kept s s.grantNext := by
  unfold State.grantNext
  cases h : s.msp.choice with
  | none => exact .refl s
  | some r => exact ((Kept.granted (choice_waits h)).trans (.emit _ _)).trans (.afterGrant _ _)

end Sys2Proof.Machine

/-! ## The judgement of posting fetches keeps the laws (R47 to R50, R61, R65, R78) -/

namespace Sys2Proof.Machine

/-! ### The place an accepted ticket takes (R61) -/

theorem joinQueue_urgent_cons (k : Slot) (e : QueueEntry) (q : List QueueEntry) : joinQueue k true (e :: q) =
    if e.mark = .normal then ⟨k, .urgent⟩ :: e :: q else e :: joinQueue k true q := by
  unfold joinQueue
  by_cases h : e.mark = .normal <;> simp [h]

theorem joinQueue_perm (k : Slot) (urgent : Bool) (q : List QueueEntry) :
    ((joinQueue k urgent q).map QueueEntry.slot).Perm (k :: q.map QueueEntry.slot) := by
  unfold joinQueue
  cases urgent with
  | false =>
    rw [if_neg Bool.false_ne_true, List.map_append]
    exact List.perm_append_comm
  | true =>
    rw [if_pos rfl, List.map_append, List.map_cons]
    refine List.perm_middle.trans (List.Perm.cons k ?_)
    rw [← List.map_append, List.takeWhile_append_dropWhile]

theorem group_of_not_normal {x : QueueMark} (h : x ≠ .normal) : x.group ≤ 1 := by
  cases x <;> simp_all [QueueMark.group]

theorem group_le_two (x : QueueMark) : x.group ≤ 2 := by
  cases x <;> decide

theorem joinQueue_order (k : Slot) (urgent : Bool) {q : List QueueEntry}
    (h : q.Pairwise fun a b => a.mark.group ≤ b.mark.group) :
    (joinQueue k urgent q).Pairwise fun a b => a.mark.group ≤ b.mark.group := by
  cases urgent with
  | false =>
    refine List.pairwise_append.2 ⟨h, List.pairwise_singleton _ _, fun a _ b hb => ?_⟩
    rw [List.mem_singleton.1 hb]
    exact group_le_two a.mark
  | true =>
    induction q with
    | nil => exact List.pairwise_singleton _ _
    | cons e q ih =>
      obtain ⟨hfirst, htail⟩ := List.pairwise_cons.1 h
      rw [joinQueue_urgent_cons]
      split
      case isTrue he =>
        refine List.pairwise_cons.2 ⟨fun b hb => ?_, h⟩
        have hnormal : e.mark.group = 2 := by rw [he]; rfl
        have hurgent : QueueMark.urgent.group = 1 := rfl
        rcases List.mem_cons.1 hb with rfl | hb
        · dsimp only
          omega
        · have := hfirst b hb
          dsimp only
          omega
      case isFalse he =>
        refine List.pairwise_cons.2 ⟨fun b hb => ?_, ih htail⟩
        have hb' : b ∈ ⟨k, .urgent⟩ :: q := by
          have hmem : b ∈ q.takeWhile (fun e => e.mark != .normal) ++ ⟨k, .urgent⟩ ::
            q.dropWhile (fun e => e.mark != .normal) := hb
          rw [List.perm_middle.mem_iff, List.takeWhile_append_dropWhile] at hmem
          exact hmem
        rcases List.mem_cons.1 hb' with rfl | hb'
        · exact group_of_not_normal he
        · exact hfirst b hb'

/-! ### One judgement -/

theorem inSpool_of_judged {s : State} {a : KeptAnswer} (h : s.judgeSlot a = none) : s.inSpool (parseSlot a.data) := by
  unfold State.judgeSlot at h
  dsimp only at h
  split at h
  case isTrue => cases h
  split at h
  case isTrue => cases h
  rename_i hextent
  rw [Bool.not_eq_true', Bool.not_eq_false] at hextent
  simp only [extentAccepted, Bool.and_eq_true, decide_eq_true_eq] at hextent
  obtain ⟨⟨⟨⟨-, hlength⟩, -⟩, hbase⟩, hend⟩ := hextent
  exact ⟨hlength, hbase, hend⟩

section Judged
variable {s : State} {k : Slot} {xs : List InFlight}

/-- The head of the in-flight list leaves POSTING and the list. -/
theorem postingLaw_judged {u : State} (hin : s.fetcher.inFlight = ⟨k, none⟩ :: xs) (hnone : ∀ x ∈ xs, x.answer = none)
    (hfetcher : u.fetcher = { s.fetcher with inFlight := xs }) (hothers : ∀ v, v ≠ k → u.ticket v = s.ticket v)
    (hself : (u.ticket k).state ≠ .posting) (hs : s.postingLaw) : u.postingLaw := by
  obtain ⟨hnodup, hmem, -⟩ := (postingLaw_iff s).1 hs
  have hslots : s.fetcher.slots.Perm (k :: u.fetcher.slots) := by
    rw [hfetcher, Fetcher.slots, hin, List.map_cons]
    exact List.perm_middle
  have hcons := List.nodup_cons.1 (hslots.nodup_iff.1 hnodup)
  refine (postingLaw_iff u).2 ⟨hcons.2, fun v => ?_, fun x hx => ?_⟩
  · by_cases hv : v = k
    · rw [hv]
      exact ⟨fun h => absurd h hcons.1, fun h => absurd h hself⟩
    · rw [hothers v hv, ← hmem, hslots.mem_iff, List.mem_cons]
      exact (or_iff_right hv).symm
  · rw [hfetcher] at hx
    exact hnone x (List.mem_of_head? hx)

theorem posting_of_inFlight (hin : s.fetcher.inFlight = ⟨k, none⟩ :: xs) (hs : s.postingLaw) :
    (s.ticket k).state = .posting := by
  refine (hs.2.1 k).1 (List.mem_append_right _ ?_)
  rw [hin]
  exact List.mem_cons_self

theorem Kept.rejected (hin : s.fetcher.inFlight = ⟨k, none⟩ :: xs) (hnone : ∀ x ∈ xs, x.answer = none) (a : KeptAnswer)
    (r : Reason) : Kept s ((s.rejectTicket k a r).withFetcher { s.fetcher with inFlight := xs }) := by
  have hticket := State.ticket_modTicket s k fun x => { x with state := .free, reason := r }
  change ∀ u, ((s.rejectTicket k a r).withFetcher { s.fetcher with inFlight := xs }).ticket u = _ at hticket
  have hself := (hticket k).trans (if_pos rfl)
  have hothers := fun u (hu : u ≠ k) => (hticket u).trans (if_neg hu)
  refine .of_laws fun hs => StaysUnused.kept (k := k) ⟨rfl, rfl, rfl, rfl, hothers, ?_, ?_, ?_, ?_⟩ fun hs =>
    postingLaw_judged hin hnone rfl hothers ?_ hs.2.2.2.1
  · rw [posting_of_inFlight hin hs.2.2.2.1]
    rfl
  · rw [hself]
    rfl
  · rw [hself]
  · rw [hself]
  · rw [hself]
    exact nofun

/-- An accepted ticket, out of the in-flight list. -/
def State.accepted (s : State) (k : Slot) (m : Mirror) (xs : List InFlight) : State :=
  (s.acceptTicket k m).withFetcher { s.fetcher with inFlight := xs }

section Accepted
variable {m : Mirror}

theorem accepted_ticket (u : Slot) : (s.accepted k m xs).ticket u =
    if u = k then { Ticket.reset with state := .queued, mirror := some m } else s.ticket u :=
  State.ticket_setTicket s k _ u

theorem accepted_port (q : PortId) : (s.accepted k m xs).port q =
    if q = m.port then { s.port m.port with queue := joinQueue k m.urgent (s.port m.port).queue } else s.port q :=
  State.port_modPort _ m.port (fun x => { x with queue := joinQueue k m.urgent x.queue }) q

theorem accepted_guard (b : Fin 4096) : (s.accepted k m xs).guard b =
    if isTouchedBlock s.image.spoolWindow m b then s.guard b + 1 else s.guard b :=
  guard_guardRise _ m b

theorem enqueued_accepted : Enqueued s (s.accepted k m xs) m.port k where
  image := rfl
  others u hu := by rw [accepted_ticket, if_neg hu]
  state := by rw [accepted_ticket, if_pos rfl]
  names := ⟨m, by rw [accepted_ticket, if_pos rfl], rfl⟩
  rest := by rw [accepted_ticket, if_pos rfl]; exact ⟨rfl, rfl⟩
  queue q hq := by rw [accepted_port, if_neg hq]
  joined := by
    rw [accepted_port, if_pos rfl]
    exact joinQueue_perm k m.urgent _
  order h := by
    rw [accepted_port, if_pos rfl]
    exact joinQueue_order k m.urgent (h m.port)
  pages q := by rw [accepted_port]; split <;> simp_all
  engine q := by rw [accepted_port]; split <;> simp_all
  msp := rfl

theorem guardLaw_accepted (hunused : (s.ticket k).state.inUse = false) (hs : s.guardLaw) :
    (s.accepted k m xs).guardLaw := by
  refine guardLaw_of_one hs k (fun u hu => holdsBlock_of ⟨rfl, rfl⟩ ?_ fun _ => ?_) fun b => ?_
  · rw [accepted_ticket, if_neg hu]
  · rw [accepted_ticket, if_neg hu]
  · have hbefore : s.holdsBlock k b = false := by rw [State.holdsBlock, hunused]; rfl
    have hafter : (s.accepted k m xs).holdsBlock k b = isTouchedBlock s.image.spoolWindow m b := by
      rw [State.holdsBlock, accepted_ticket, if_pos rfl]
      rfl
    rw [hbefore, hafter, accepted_guard]
    cases isTouchedBlock s.image.spoolWindow m b <;> rfl

theorem Kept.accepted (hin : s.fetcher.inFlight = ⟨k, none⟩ :: xs) (hnone : ∀ x ∈ xs, x.answer = none)
    (hm : s.inSpool m) : Kept s (s.accepted k m xs) := by
  refine .of_laws fun hs => ?_
  obtain ⟨hguard, hqueue, horder, hposting, hextent, hhand, hentry⟩ := hs
  have hstate := posting_of_inFlight hin hposting
  have henq := enqueued_accepted (s := s) (k := k) (m := m) (xs := xs)
  have hfree : ∀ q, s.inHand q ≠ some k := not_inHand hhand (by rw [hstate]; exact nofun)
  have hself : (s.accepted k m xs).ticket k = { Ticket.reset with state := .queued, mirror := some m } := by
    rw [accepted_ticket, if_pos rfl]
  have htickets : (s.accepted k m xs).ticketLaws := by
    refine ⟨guardLaw_accepted (by rw [hstate]; rfl) hguard, henq.queueLaw (by rw [hstate]; exact nofun) hqueue,
      henq.orderLaw horder, postingLaw_judged hin hnone rfl henq.others ?_ hposting, (extentLaw_iff _).2 fun u hu => ?_,
      henq.handLaw hfree hhand, henq.entryLaw (fun q => entriesAt_zero hentry (.inl ?_)) ?_ hentry⟩
    · rw [hself]
      exact nofun
    · by_cases huk : u = k
      · rw [huk, hself]
        exact ⟨m, rfl, hm⟩
      · rw [henq.others u huk] at hu ⊢
        exact (extentLaw_iff s).1 hextent u hu
    · rw [hstate]
      rfl
    · rw [hself]
      rfl
  exact .of_core ⟨fun _ => htickets, fun _ hl => henq.lineLaws hfree (by rw [hstate]; rfl) hhand hl,
    fun _ _ hp => henq.pagesLaw hp⟩ henq.idleLaw

end Accepted

/-- The unanswered head of the in-flight list is judged and leaves it (R47). -/
theorem Kept.judged (hin : s.fetcher.inFlight = ⟨k, none⟩ :: xs) (hnone : ∀ x ∈ xs, x.answer = none) (a : KeptAnswer) :
    Kept s ((s.judgeTicket k a).withFetcher { s.fetcher with inFlight := xs }) := by
  unfold State.judgeTicket
  cases h : s.judgeSlot a with
  | some r => exact .rejected hin hnone a r
  | none => exact .accepted hin hnone (inSpool_of_judged h)

end Judged

/-! ### The heads whose answers have come (R47) -/

/-- The in-flight list with no answer kept. -/
def blanks (xs : List InFlight) : List InFlight := xs.map fun x => ⟨x.slot, none⟩

theorem blanks_unanswered (xs : List InFlight) : ∀ x ∈ blanks xs, x.answer = none := by
  intro x hx
  obtain ⟨y, -, rfl⟩ := List.mem_map.1 hx
  rfl

theorem blanks_slots (xs : List InFlight) : (blanks xs).map InFlight.slot = xs.map InFlight.slot := by
  rw [blanks, List.map_map]
  rfl

/-- A state whose in-flight list keeps no answer: the laws see the answers only at the list's head. -/
def State.unanswered (s : State) : State := s.withFetcher { s.fetcher with inFlight := blanks s.fetcher.inFlight }

theorem ticketLaws_unanswered {s : State} (hs : s.ticketLaws) : s.unanswered.ticketLaws := by
  refine (Kept.withFetcher s fun hs => ?_).tickets hs
  obtain ⟨hnodup, hmem, -⟩ := (postingLaw_iff s).1 hs.2.2.2.1
  have hslots : s.unanswered.fetcher.slots = s.fetcher.slots := congrArg (s.fetcher.queue ++ ·) (blanks_slots _)
  refine (postingLaw_iff s.unanswered).2 ⟨hslots ▸ hnodup, fun t => hslots ▸ hmem t, fun x hx => ?_⟩
  exact blanks_unanswered _ x (List.mem_of_head? hx)

theorem ticketLaws_of_unanswered {s : State} (hhead : ∀ x, s.fetcher.inFlight.head? = some x → x.answer = none)
    (hs : s.unanswered.ticketLaws) : s.ticketLaws := by
  refine (Kept.withFetcher s.unanswered (f := s.fetcher) fun hs => ?_).tickets hs
  obtain ⟨hnodup, hmem, -⟩ := (postingLaw_iff _).1 hs.2.2.2.1
  have hslots : s.unanswered.fetcher.slots = s.fetcher.slots := congrArg (s.fetcher.queue ++ ·) (blanks_slots _)
  exact (postingLaw_iff s).2 ⟨hslots ▸ hnodup, fun t => hslots ▸ hmem t, hhead⟩

theorem judgeHead_unanswered (s : State) (k : Slot) (a : KeptAnswer) (xs : List InFlight) :
    (s.judgeHead k a xs).unanswered =
      (s.unanswered.judgeTicket k a).withFetcher { s.unanswered.fetcher with inFlight := blanks xs } := by
  rw [State.unanswered, State.unanswered, judgeHead_eq, judgeTicket_withFetcher]
  rfl

theorem dispatchAccepted_unanswered (s : State) (k : Slot) :
    (s.dispatchAccepted k).unanswered = s.unanswered.dispatchAccepted k := by
  rw [State.unanswered, State.unanswered, dispatchAccepted_fetcher, dispatchAccepted_withFetcher]

theorem Kept.judgeHeads (xs : List InFlight) : ∀ s : State, s.fetcher.inFlight = xs →
    Kept s.unanswered (s.judgeHeads xs).unanswered ∧
      ∀ x, (s.judgeHeads xs).fetcher.inFlight.head? = some x → x.answer = none := by
  induction xs with
  | nil =>
    intro s hin
    refine ⟨.refl _, fun x hx => ?_⟩
    rw [State.judgeHeads, hin] at hx
    cases hx
  | cons y xs ih =>
    intro s hin
    unfold State.judgeHeads
    cases ha : y.answer with
    | none =>
      refine ⟨.refl _, fun x hx => ?_⟩
      dsimp only at hx
      rw [hin] at hx
      cases hx
      exact ha
    | some a =>
      dsimp only
      have hblank : s.unanswered.fetcher.inFlight = ⟨y.slot, none⟩ :: blanks xs := by
        change blanks s.fetcher.inFlight = _
        rw [hin]
        rfl
      have hjudged : Kept s.unanswered (s.judgeHead y.slot a xs).unanswered := by
        rw [judgeHead_unanswered]
        exact .judged hblank (blanks_unanswered xs) a
      split
      case isTrue =>
        obtain ⟨hkept, hhead⟩ := ih ((s.judgeHead y.slot a xs).dispatchAccepted y.slot)
          (by rw [dispatchAccepted_fetcher]; rfl)
        rw [dispatchAccepted_unanswered] at hkept
        exact ⟨(hjudged.trans (.dispatchAccepted _ _)).trans hkept, hhead⟩
      case isFalse =>
        obtain ⟨hkept, hhead⟩ := ih (s.judgeHead y.slot a xs) rfl
        exact ⟨hjudged.trans hkept, hhead⟩

/-- The laws of the fetches and of the open pages do not look at the fetcher's lists. -/
theorem Kept.of_unanswered {s t : State} (h : Kept s.unanswered t.unanswered)
    (hhead : ∀ x, t.fetcher.inFlight.head? = some x → x.answer = none) : Kept s t where
  tickets hs := ticketLaws_of_unanswered hhead (h.tickets (ticketLaws_unanswered hs))
  fetches hs hf := h.fetches (ticketLaws_unanswered hs) hf
  pages hs hf hp := h.pages (ticketLaws_unanswered hs) hf hp

theorem keepAnswer_blanks (k : Slot) (a : KeptAnswer) (xs : List InFlight) : blanks (keepAnswer k a xs) = blanks xs := by
  unfold blanks keepAnswer
  rw [List.map_map]
  refine List.map_congr_left fun x _ => ?_
  rw [Function.comp]
  split <;> rfl

theorem Kept.ticketFetchAnswered (s : State) (k : Slot) (a : KeptAnswer) : Kept s (s.ticketFetchAnswered k a) := by
  obtain ⟨hkept, hhead⟩ := Kept.judgeHeads (keepAnswer k a s.fetcher.inFlight)
    (s.withFetcher { s.fetcher with inFlight := keepAnswer k a s.fetcher.inFlight }) rfl
  have hsame : (s.withFetcher { s.fetcher with inFlight := keepAnswer k a s.fetcher.inFlight }).unanswered =
      s.unanswered := by
    change s.withFetcher { s.fetcher with inFlight := blanks (keepAnswer k a s.fetcher.inFlight) } = _
    rw [keepAnswer_blanks]
    rfl
  rw [hsame] at hkept
  exact (Kept.of_unanswered hkept hhead).trans (.settle _)

end Sys2Proof.Machine

/-! ## Answers of memory to every requester (R18) -/

namespace Sys2Proof.Machine

theorem Kept.judgeAttn (s : State) : Kept s s.judgeAttn := .modRelay s _

theorem Kept.passingAnswered (s : State) (tag : Tag) (half : Half) (a : KeptAnswer) :
    Kept s (s.passingAnswered tag half a) := by
  unfold State.passingAnswered
  split
  · exact .refl s
  · dsimp only
    split
    · exact (Kept.setRecord s tag none).trans (.emit _ _)
    · exact .setRecord s tag _

theorem Kept.recordAnswered (s : State) (ok : Bool) : Kept s (s.recordAnswered ok) := by
  unfold State.recordAnswered
  split
  · exact .refl s
  · exact (Kept.modRelay s _).trans (.judgeAttn _)

theorem Kept.sweepAnswered (s : State) (ok : Bool) : Kept s (s.sweepAnswered ok) :=
  .ite (fun _ => .of_eq rfl rfl rfl rfl rfl rfl) fun _ => .of_eq rfl rfl rfl rfl rfl rfl

theorem Kept.otherAnswered (s : State) {o : Owner} (h : o.isLineFetch = false) (a : KeptAnswer) :
    Kept s (s.answered o a) := by
  cases o with
  | passing tag half => exact .passingAnswered s tag half a
  | record dropped => exact .ite (fun _ => .refl s) fun _ => .recordAnswered s a.ok
  | ticketFetch k => exact .ticketFetchAnswered s k a
  | lineFetch => cases h
  | sweep => exact .sweepAnswered s a.ok

theorem Kept.memoryAnswers (s : State) (kind : Owner → Bool) (grant : Nat) (ok : Bool) (data : List Byte) :
    Kept s (s.memoryAnswers kind grant ok data) := by
  unfold State.memoryAnswers
  cases hfind : s.msp.outstanding.find? fun g => g.id == grant && kind g.request.owner with
  | none => exact .refl s
  | some g =>
    have hg : g ∈ s.msp.outstanding := List.mem_of_find?_eq_some hfind
    have hid : g.id = grant := by
      have := List.find?_some hfind
      simp only [Bool.and_eq_true, beq_iff_eq] at this
      exact this.1
    subst hid
    change Kept s ((s.freed g.id).answered g.request.owner ⟨ok, g.request.answerData data⟩)
    cases hline : g.request.owner.isLineFetch with
    | false => exact (Kept.freed hg hline).trans (.otherAnswered _ hline _)
    | true =>
      cases ho : g.request.owner with
      | lineFetch p mark copy offset => exact .lineAnswered hg ho ok _
      | passing | record | ticketFetch | sweep => rw [ho] at hline; cases hline

end Sys2Proof.Machine

/-! ## The links, the timers and inbound frames keep the laws (R114 to R129, R134 to R136, R146 to R149) -/

namespace Sys2Proof.Machine

/-! ### The jam stop ends (R146, R148, R149) -/

theorem KeptCore.judgeJamStop (s : State) (p : PortId) : KeptCore s (s.judgeJamStop p) := by
  unfold State.judgeJamStop
  split
  · exact .modPort s p (f := fun x => { x with engine := { x.engine with state := .idle, consent := false } }) rfl
  · exact .refl s

theorem judgeJamStop_port_ne (s : State) {p q : PortId} (hq : q ≠ p) : (s.judgeJamStop p).port q = s.port q := by
  unfold State.judgeJamStop
  split
  · exact State.port_modPort_ne s p _ hq
  · rfl

theorem Kept.judgeJamStop_settlePort (s : State) (p : PortId) : Kept s ((s.judgeJamStop p).settlePort p) :=
  (KeptCore.judgeJamStop s p).settlePort_kept fun _ => judgeJamStop_port_ne s

theorem Kept.judgeJamStop_settle (s : State) (p : PortId) : Kept s (s.judgeJamStop p).settle :=
  (KeptCore.judgeJamStop s p).settle

theorem Kept.portResume (s : State) (p : PortId) : Kept s (s.portResume p).1 := by
  unfold State.portResume
  split
  · exact (Kept.modPort s p (f := fun x => { x with engine := { x.engine with consent := true } }) rfl .inr).trans
      (.judgeJamStop_settlePort _ p)
  · exact .refl s

/-! ### Training, loss and wake (R116 to R118, R121, R122, R126) -/

theorem Kept.hand (s : State) (p : PortId) (f : Frame) : Kept s (s.hand p f) := .emit s _

theorem Kept.handTrain (s : State) (p : PortId) : Kept s (s.handTrain p) := (Kept.modLink s p _).trans (.hand _ p _)

theorem Kept.raiseLinkDown (s : State) (p : PortId) : Kept s (s.raiseLinkDown p) := .raise s _ _ _

theorem Kept.enablePort (s : State) (p : PortId) : Kept s (s.enablePort p) :=
  (Kept.modLink s p _).trans (.handTrain _ p)

theorem Kept.trainingFailure (s : State) (p : PortId) : Kept s (s.trainingFailure p) :=
  ((Kept.modLink s p _).trans (.handTrain _ p)).trans (.raiseLinkDown _ p)

theorem Kept.wake (s : State) (p : PortId) : Kept s (s.wake p) :=
  ((Kept.modLink s p _).trans (.hand _ p _)).trans (.settlePort _ p)

theorem Kept.wakeCause (s : State) (p : PortId) : Kept s (s.wakeCause p) := .ite (fun _ => .wake s p) fun _ => .refl s

theorem Kept.startSilence (s : State) (p : PortId) : Kept s (s.startSilence p) :=
  .modLink s p fun l => { l with silence := s.startTimer (portSilenceMs (s.portWord p)) }

theorem Kept.becomeReady (s : State) (p : PortId) : Kept s (s.becomeReady p) :=
  (Kept.modLink s p _).trans (.judgeJamStop_settlePort _ p)

theorem Kept.portWake (s : State) (p : PortId) : Kept s (s.portWake p).1 := by
  unfold State.portWake
  split
  case h_1 => exact .wake s p
  case h_2 => exact (Kept.modLink s p _).trans (.settlePort _ p)
  all_goals exact .refl s

theorem Kept.resetLink (s : State) (p : PortId) : Kept s (s.resetLink p) := by
  refine Kept.trans ?_ (.handTrain _ p)
  exact .modPort s p (f := fun x =>
    { x with
      link := { x.link with state := .training, credits := 0, badRun := 0, silence := .stopped, idle := .stopped,
                            warm := .stopped, onlineSeen := false, framesSent := 0, badFrames := 0, overflows := 0 }
      engine := { x.engine with pacer := none }
      watch := { x.watch with conditions := x.watch.conditions.map fun c => { c with truth := false } }
      stray := 0 }) rfl .inr

theorem Kept.portReset (s : State) (p : PortId) : Kept s (s.portReset p).1 := by
  unfold State.portReset
  split
  · exact .refl s
  · exact ((Kept.rewind s p).trans (.resetLink _ p)).trans (.settle _)

/-! ### Timers (R112, R117, R118, R121, R124, R127) -/

theorem Kept.trainingExpires (s : State) (p : PortId) : Kept s (s.trainingExpires p) := by
  unfold State.trainingExpires
  split
  · exact (Kept.trainingFailure s p).trans (.settlePort _ p)
  · exact .handTrain s p
  · exact .refl s

theorem Kept.trainingTimer (s : State) (p : PortId) : Kept s (s.trainingTimer p) :=
  .ite (fun _ => .trainingExpires s p) fun _ => .refl s

theorem Kept.silenceTimer (s : State) (p : PortId) : Kept s (s.silenceTimer p) :=
  .ite (fun _ => .linkLoss s p) fun _ => .refl s

theorem Kept.idleExpires (s : State) (p : PortId) : Kept s (s.idleExpires p) :=
  .ite (fun _ => (Kept.modLink s p _).trans (.settlePort _ p)) fun _ =>
    ((Kept.modLink s p _).trans (.hand _ p _)).trans (.settlePort _ p)

theorem Kept.idleTimer (s : State) (p : PortId) : Kept s (s.idleTimer p) :=
  .ite (fun _ => .idleExpires s p) fun _ => .refl s

theorem Kept.warmExpires (s : State) (p : PortId) : Kept s (s.warmExpires p) := by
  have hstart := (Kept.modLink s p fun l => { l with warm := .expired }).trans (.startSilence _ p)
  exact .ite (fun _ => hstart.trans (.becomeReady _ p)) fun _ => hstart

theorem Kept.warmTimer (s : State) (p : PortId) : Kept s (s.warmTimer p) :=
  .ite (fun _ => .warmExpires s p) fun _ => .refl s

theorem Kept.endWindow (s : State) (p : PortId) : Kept s (s.endWindow p) :=
  .ite (fun _ => (Kept.modPort s p (f := fun x => { x with engine := { x.engine with pacer := none } }) rfl .inr).trans
    (.settlePort _ p)) fun _ => .refl s

/-! ### Inbound frames (R114, R117 to R120, R134 to R136) -/

theorem Kept.goodFrame (s : State) (p : PortId) : Kept s (s.goodFrame p) := by
  unfold State.goodFrame
  exact .modLink s p _

theorem Kept.takeTrainAck (s : State) (p : PortId) (credits : Nat) : Kept s (s.takeTrainAck p credits) := by
  unfold State.takeTrainAck
  split
  case h_3 => exact .refl s
  all_goals exact ((Kept.modLink s p _).trans (.startSilence _ p)).trans (.becomeReady _ p)

theorem Kept.takeCredit (s : State) (p : PortId) (n : Nat) : Kept s (s.takeCredit p n) := by
  unfold State.takeCredit
  split
  case h_4 => exact .refl s
  all_goals exact (Kept.modLink s p _).trans (.settlePort _ p)

theorem Kept.raiseEdges (p : PortId) (after : Vector HeldCondition 4) (bits : BitVec 16) (hand : Option Slot)
    (edges : List CondId) (s : State) : Kept s (edges.foldl (State.raiseEdge p after bits hand) s) :=
  .foldl (fun s _ => .raise s _ _ _) edges s

theorem Kept.watchStatus (s : State) (p : PortId) (bits : BitVec 16) : Kept s (s.watchStatus p bits) := by
  have hraised := ((Kept.of_eq (s := s) (t := { s with draws := s.draws + 1 }) rfl rfl rfl rfl rfl rfl).trans
    (.modWatch _ p fun _ => { bits := bits, conditions := s.evaluated p bits })).trans
      (.raiseEdges p (s.evaluated p bits) bits (s.inHand p)
        (edgesInOrder s.draws (s.port p).watch.conditions (s.evaluated p bits)) _)
  exact .ite (fun _ => hraised.trans (.rewind _ p)) fun _ => hraised

theorem Kept.serveStatus (s : State) (p : PortId) (bits : BitVec 16) (count : Nat) :
    Kept s (s.serveStatus p bits count) :=
  (Kept.deliverSheets s p count).trans (.watchStatus _ p bits)

theorem Kept.statusInWaking (s : State) (p : PortId) (bits : BitVec 16) : Kept s (s.statusInWaking p bits) := by
  have hseen := Kept.modLink s p fun l => { l with onlineSeen := true }
  exact .ite (fun _ => .ite (fun _ => hseen.trans (.becomeReady _ p)) fun _ => hseen) fun _ => .refl s

theorem Kept.takeStatus (s : State) (p : PortId) (bits : BitVec 16) (count : Nat) :
    Kept s (s.takeStatus p bits count) := by
  have hserved := Kept.serveStatus s p bits count
  unfold State.takeStatus
  split
  · exact hserved.trans (.judgeJamStop_settle _ p)
  · exact (hserved.trans (.statusInWaking _ p bits)).trans (.judgeJamStop_settle _ p)
  · exact (hserved.trans (.ite (fun _ => .wake _ p) fun _ => .refl _)).trans (.settle _)
  · exact .refl s

theorem Kept.takeBadFrame (s : State) (p : PortId) : Kept s (s.takeBadFrame p) := by
  have hcounted := Kept.modLink s p fun l =>
    { l with badFrames := l.badFrames + 1, badRun := if (s.port p).link.badRun + 1 = 8 then 0 else (s.port p).link.badRun + 1 }
  refine .ite (fun _ => hcounted.trans ?_) fun _ => hcounted
  generalize s.modLink p _ = u
  split
  case h_4 => exact (Kept.trainingFailure _ p).trans (.settlePort _ p)
  case h_5 => exact .refl _
  all_goals exact .linkLoss _ p

theorem Kept.receive (s : State) (p : PortId) (bytes : List Byte) : Kept s (s.receive p bytes) := by
  refine .ite (fun _ => .refl s) fun _ => ?_
  split
  · exact (Kept.goodFrame s p).trans (.takeTrainAck _ p _)
  · exact (Kept.goodFrame s p).trans (.takeCredit _ p _)
  · exact (Kept.goodFrame s p).trans (.takeStatus _ p _ _)
  · exact .takeBadFrame s p

end Sys2Proof.Machine

/-! ## The capture of settings keeps the laws (R24, R25, R85, R116, R130, R174, R178) -/

namespace Sys2Proof.Machine

/-! ### The spool window's lock keeps the tickets' extents in place (R85) -/

theorem blockSize_pos (w : Word) : 0 < blockSize w := Nat.mul_pos (by decide) (Nat.two_pow_pos _)

theorem firstBlock_lt {s : State} {m : Mirror} (hm : s.inSpool m) : blockOf s.image.spoolWindow m.dataBase < 4096 := by
  obtain ⟨hlength, hbase, hend⟩ := hm
  rw [blockOf, Nat.div_lt_iff_lt_mul (blockSize_pos _)]
  have hsize : spoolSize s.image.spoolWindow = 4096 * blockSize s.image.spoolWindow := rfl
  omega

/-- An extent inside the spool window touches its first block. -/
theorem touches_firstBlock {s : State} {m : Mirror} (hm : s.inSpool m) : s.touches m ⟨_, firstBlock_lt hm⟩ = true := by
  refine decide_eq_true ⟨Nat.le_refl _, Nat.div_le_div_right ?_⟩
  have hlength := hm.1
  omega

/-- With every guard count 0 no ticket is in use. -/
theorem unused_of_unguarded {s : State} (hguard : s.guardLaw) (hextent : s.extentLaw) (h : ∀ b, s.guard b = 0) (k : Slot) :
    (s.ticket k).state.inUse = false := by
  cases huse : (s.ticket k).state.inUse with
  | false => rfl
  | true =>
    obtain ⟨m, hm, hspool⟩ := (extentLaw_iff s).1 hextent k huse
    have hholds : s.holdsBlock k ⟨_, firstBlock_lt hspool⟩ = true := by
      rw [State.holdsBlock, huse, hm]
      exact touches_firstBlock hspool
    have hpos := guard_pos hguard hholds
    rw [h] at hpos
    cases hpos

/-- The image may change where it leaves the spool window, or where no block is guarded. -/
theorem Kept.newImage (s : State) {im : Image} (h : sameSpool s { s with image := im } ∨ ∀ b, s.guard b = 0) :
    Kept s { s with image := im } := by
  rcases h with hspool | hfree
  · exact .of_same ⟨hspool, fun _ => rfl, rfl, fun _ => rfl, fun _ => rfl, .of_msp rfl⟩ fun _ hp => .inr ⟨hp, rfl⟩
  · refine .of_core ⟨fun hs => ?_, fun _ => id, fun _ _ => id⟩ id
    obtain ⟨hguard, hqueue, horder, hposting, hextent, hhand, hentry⟩ := hs
    have hunused := unused_of_unguarded hguard hextent hfree
    refine ⟨(guardLaw_iff _).2 fun b => ?_, hqueue, horder, hposting, fun k hk => ?_, hhand, hentry⟩
    · have hzero : ∀ k, State.holdsBlock { s with image := im } k b = false := fun k => by
        rw [State.holdsBlock]
        change ((s.ticket k).state.inUse && _) = false
        rw [hunused k]
        rfl
      simp only [hzero]
      exact (hfree b).trans (Finset.sum_eq_zero fun _ _ => rfl).symm
    · exact absurd ((hunused k).symm.trans hk) Bool.false_ne_true

theorem put_spoolWindow {im : Image} {loc : SettingLoc} (h : loc ≠ .spoolWindow) (w : Word) :
    (im.put loc w).spoolWindow = im.spoolWindow := by
  cases loc with
  | spoolWindow => exact absurd rfl h
  | _ => rfl

theorem resultingImage_spoolWindow {parts : List SettingPart} (h : ∀ x ∈ parts, x.loc ≠ .spoolWindow) (im : Image) :
    (resultingImage im parts).spoolWindow = im.spoolWindow := by
  unfold resultingImage
  induction parts generalizing im with
  | nil => rfl
  | cons x xs ih =>
    rw [List.foldl_cons, ih (fun y hy => h y (List.mem_cons_of_mem _ hy)), put_spoolWindow (h x List.mem_cons_self)]

theorem unlocked_of_judged {s : State} {parts : List SettingPart} (h : s.judgeSettings parts = none) :
    ∀ x ∈ parts, s.isLocked (resultingImage s.image parts) x.loc = false := by
  unfold State.judgeSettings at h
  dsimp only at h
  split at h
  case isTrue => cases h
  case isFalse hlock =>
    rw [Bool.not_eq_true, List.any_eq_false] at hlock
    exact fun x hx => Bool.not_eq_true _ ▸ hlock x hx

/-- A write of settings that is not refused moves the spool window only where no block is guarded (R85). -/
theorem spool_of_judged {s : State} {parts : List SettingPart} (h : s.judgeSettings parts = none) :
    sameSpool s { s with image := resultingImage s.image parts } ∨ ∀ b, s.guard b = 0 := by
  by_cases hpart : ∃ x ∈ parts, x.loc = .spoolWindow
  · obtain ⟨x, hx, hloc⟩ := hpart
    have hlock := unlocked_of_judged h x hx
    rw [hloc] at hlock
    change (isChanged _ _ .spoolWindow && s.spoolLocked) = false at hlock
    rcases Bool.and_eq_false_iff.1 hlock with hsame | hfree
    · rw [isChanged, bne_eq_false_iff_eq] at hsame
      exact .inl ⟨(bits_eq_of_unchanged hsame (by decide)).symm, (bits_eq_of_unchanged hsame (by decide)).symm⟩
    · rw [← Bool.not_eq_true, spoolLocked_iff, not_or, not_exists] at hfree
      exact .inr fun b => not_not.1 (hfree.2 b)
  · simp only [not_exists, not_and] at hpart
    have hsame := resultingImage_spoolWindow hpart s.image
    exact .inl ⟨congrArg baseOf hsame, congrArg sizeCode hsame⟩

/-! ### A port's settings (R116, R123, R130) -/

theorem portInUse_of_tickets {s t : State} (h : t.tickets = s.tickets) (p : PortId) : t.portInUse p = s.portInUse p := by
  rw [State.portInUse, State.anyTicket, h]
  rfl

/-- No ticket in use names the port, so none is in hand there. -/
theorem job_of_unused {s : State} (hs : s.handLaw) {p : PortId} (h : s.portInUse p = false) :
    (s.port p).engine.job = none := by
  cases hj : (s.port p).engine.job with
  | none => rfl
  | some j =>
    obtain ⟨hactive, m, hm, hport⟩ := hs p j hj
    have huse : s.portInUse p = true :=
      (portInUse_iff s p).2 ⟨j.slot, (TicketState.inUse_iff _).1 (by rw [hactive]; rfl), m, hm, hport⟩
    rw [h] at huse
    cases huse

theorem Kept.disablePort {s : State} {p : PortId} (h : s.portInUse p = false) : Kept s (s.disablePort p) := by
  refine .of_laws fun hs => .modPort s p ?_ fun _ => .inl rfl
  have hjob := job_of_unused (handLaw_of_laws hs) h
  unfold Port.law
  dsimp only
  rw [hjob]

theorem Kept.portCaptured {s : State} {p : PortId} {before after : Word}
    (h : portOn before = true → portOn after = false → s.portInUse p = false) :
    Kept s (s.portCaptured p before after) := by
  refine .ite (fun _ => .enablePort s p) fun _ => .ite (fun hoff => .disablePort ?_) fun _ =>
    .ite (fun _ => .modLink s p _) fun _ => .refl s
  rw [Bool.and_eq_true, Bool.not_eq_true'] at hoff
  exact h hoff.1 hoff.2

theorem partCaptured_frame (old : Image) (s : State) (x : SettingPart) :
    (s.partCaptured old x).tickets = s.tickets ∧ (s.partCaptured old x).image = s.image := by
  unfold State.partCaptured
  split
  case h_1 p _ =>
    unfold State.portCaptured
    split
    · exact ⟨rfl, rfl⟩
    · split
      · exact ⟨rfl, rfl⟩
      · split <;> exact ⟨rfl, rfl⟩
  case h_2 => exact ⟨rfl, rfl⟩

/-- What a write switches off is not in use. -/
def State.mayCapture (s : State) (old : Image) (parts : List SettingPart) : Prop :=
  ∀ x ∈ parts, ∀ p, x.loc = .port p → portOn (old.get (.port p)) = true → portOn (s.image.get (.port p)) = false →
    s.portInUse p = false

theorem mayCapture_of_frame {s t : State} {old : Image} {parts : List SettingPart} (h : s.mayCapture old parts)
    (htickets : t.tickets = s.tickets) (himage : t.image = s.image) : t.mayCapture old parts := by
  intro x hx p hloc hon hoff
  rw [himage] at hoff
  rw [portInUse_of_tickets htickets]
  exact h x hx p hloc hon hoff

theorem Kept.partCaptured {old : Image} {s : State} {x : SettingPart} (h : s.mayCapture old [x]) :
    Kept s (s.partCaptured old x) := by
  unfold State.partCaptured
  split
  case h_1 p hloc =>
    rw [hloc]
    exact .portCaptured (h x List.mem_cons_self p hloc)
  case h_2 => exact .refl s

theorem Kept.partsCaptured {old : Image} {parts : List SettingPart} {s : State} (h : s.mayCapture old parts) :
    Kept s (parts.foldl (State.partCaptured old) s) := by
  induction parts generalizing s with
  | nil => exact .refl s
  | cons x xs ih =>
    obtain ⟨htickets, himage⟩ := partCaptured_frame old s x
    refine Kept.trans (.partCaptured fun y hy => h y ?_)
      (ih (mayCapture_of_frame (fun y hy => h y (List.mem_cons_of_mem _ hy)) htickets himage))
    rw [List.mem_singleton.1 hy]
    exact List.mem_cons_self

/-! ### The capture (R25) -/

theorem Kept.restartRing (s : State) : Kept s s.restartRing :=
  ((Kept.dropRecordWrite s).trans (.modRelay _ _)).trans (.judgeAttn _)

theorem Kept.consumeTo (s : State) (v : BitVec 16) : Kept s (s.consumeTo v) := (Kept.modRelay s _).trans (.judgeAttn _)

theorem restartRing_frame (s : State) : s.restartRing.tickets = s.tickets ∧ s.restartRing.image = s.image := by
  have hdrop : s.dropRecordWrite.tickets = s.tickets ∧ s.dropRecordWrite.image = s.image := by
    unfold State.dropRecordWrite
    split
    · exact ⟨rfl, rfl⟩
    · split <;> exact ⟨rfl, rfl⟩
  exact hdrop

/-- The image as it is after a write, with the ring restarted and the index consumed as the write asks (R24, R174, R178). -/
def State.imaged (s : State) (parts : List SettingPart) : State :=
  let t := { s with image := resultingImage s.image parts }
  let t := if touchesRing parts then t.restartRing else t
  if writesConsume parts then t.consumeTo (consumeOf t.image.consume) else t

theorem capture_eq (s : State) (parts : List SettingPart) :
    s.capture parts = (parts.foldl (State.partCaptured s.image) (s.imaged parts)).settle := rfl

theorem imaged_frame (s : State) (parts : List SettingPart) :
    (s.imaged parts).tickets = s.tickets ∧ (s.imaged parts).image = resultingImage s.image parts := by
  have hring : ∀ t : State, (if touchesRing parts then t.restartRing else t).tickets = t.tickets ∧
      (if touchesRing parts then t.restartRing else t).image = t.image := fun t => by
    split
    · exact restartRing_frame t
    · exact ⟨rfl, rfl⟩
  have hconsume : ∀ t : State, (if writesConsume parts then t.consumeTo (consumeOf t.image.consume) else t).tickets =
      t.tickets ∧ (if writesConsume parts then t.consumeTo (consumeOf t.image.consume) else t).image = t.image := fun t => by
    split <;> exact ⟨rfl, rfl⟩
  exact ⟨(hconsume _).1.trans (hring _).1, (hconsume _).2.trans (hring _).2⟩

theorem Kept.imaged {s : State} {parts : List SettingPart} (h : s.judgeSettings parts = none) :
    Kept s (s.imaged parts) := by
  have hring : Kept s (if touchesRing parts then State.restartRing { s with image := resultingImage s.image parts }
      else { s with image := resultingImage s.image parts }) :=
    (Kept.newImage s (spool_of_judged h)).trans (.ite (fun _ => .restartRing _) fun _ => .refl _)
  exact .ite (fun _ => hring.trans (.consumeTo _ _)) fun _ => hring

theorem mayCapture_imaged {s : State} {parts : List SettingPart} (h : s.judgeSettings parts = none) :
    (s.imaged parts).mayCapture s.image parts := by
  obtain ⟨htickets, himage⟩ := imaged_frame s parts
  intro x hx p hloc hon hoff
  have hlock := unlocked_of_judged h x hx
  rw [hloc] at hlock
  change (portOn _ && !portOn _ && s.portInUse p) = false at hlock
  rw [himage] at hoff
  rw [hon, hoff] at hlock
  rw [portInUse_of_tickets htickets]
  exact hlock

theorem Kept.capture {s : State} {parts : List SettingPart} (h : s.judgeSettings parts = none) :
    Kept s (s.capture parts) := by
  rw [capture_eq]
  exact ((Kept.imaged h).trans (.partsCaptured (mayCapture_imaged h))).trans (.settle _)

end Sys2Proof.Machine

/-! ## Commands and the host's requests keep the laws (R1 to R15, R32 to R37, R44, R70 to R75, R157 to R163) -/

namespace Sys2Proof.Machine

/-! ### Control commands (R33, R186) -/

theorem setQuiesceHolds_port (s : State) (b : Bool) (p : PortId) :
    (s.setQuiesceHolds b).port p = { s.port p with quiesceHold := b } := by
  simp [State.setQuiesceHolds, State.port, tget]

theorem Kept.setQuiesceHolds (s : State) (b : Bool) : Kept s (s.setQuiesceHolds b) :=
  .of_same ⟨⟨rfl, rfl⟩, fun _ => rfl, rfl, fun _ => rfl, fun p => by rw [setQuiesceHolds_port]; rfl, .of_msp rfl⟩
    fun p hp => by
      rw [setQuiesceHolds_port] at hp ⊢
      exact .inr ⟨hp, rfl⟩

theorem Kept.commandStart (s : State) : Kept s s.commandStart.1 :=
  ((Kept.modCtl s _).trans (.setQuiesceHolds _ _)).trans (.settle _)

theorem Kept.commandStop (s : State) : Kept s s.commandStop.1 := by
  unfold State.commandStop
  split
  · exact ((Kept.modCtl s _).trans (.setQuiesceHolds _ _)).trans (.settle _)
  all_goals exact .refl s

theorem Kept.setHold (s : State) (p : PortId) (b : Bool) : Kept s (s.setHold p b) :=
  .modPort s p (f := fun x => { x with holdFlag := b }) rfl .inr

theorem Kept.portHold (s : State) (p : PortId) : Kept s (s.portHold p).1 := (Kept.setHold s p true).trans (.settlePort _ p)

theorem Kept.portRelease (s : State) (p : PortId) : Kept s (s.portRelease p).1 :=
  (Kept.setHold s p false).trans (.settlePort _ p)

theorem Kept.quotaSet (s : State) (a : AccountId) (v : Nat) : Kept s (s.quotaSet a v).1 := by
  unfold State.quotaSet
  split
  · exact .modAccount s a fun x => { x with remaining := v }
  · exact .refl s

theorem Kept.quotaAdd (s : State) (a : AccountId) (v : Nat) : Kept s (s.quotaAdd a v).1 :=
  .modAccount s a fun x => { x with remaining := min (x.remaining + v) Config.maxPages }

theorem Kept.meterClearAll (s : State) : Kept s s.meterClearAll.1 := .of_eq rfl rfl rfl rfl rfl rfl

theorem Kept.alertTake (s : State) : Kept s s.alertTake.1 := by
  unfold State.alertTake
  split
  · exact .refl s
  · split
    · exact (Kept.modRelay s _).trans (.judgeAttn _)
    · split
      · exact (Kept.modRelay s _).trans (.judgeAttn _)
      · exact .refl s

theorem Kept.alertDone (s : State) : Kept s s.alertDone.1 := by
  unfold State.alertDone
  split
  · exact .refl s
  · exact (Kept.modRelay s _).trans (.judgeAttn _)

section Results
variable {s : State} {arg : Byte}

theorem Kept.fst_ite {c : Prop} [Decidable c] {a b : State × CommandResult} (ha : Kept s a.1) (hb : Kept s b.1) :
    Kept s (if c then a else b).1 := by
  split
  · exact ha
  · exact hb

theorem Kept.onPort {f : PortId → State × CommandResult} (h : ∀ p, Kept s (f p).1) : Kept s (s.onPort arg f).1 := by
  unfold State.onPort
  split
  · exact h _
  · exact .refl s

theorem Kept.onAccount {f : AccountId → State × CommandResult} (h : ∀ a, Kept s (f a).1) :
    Kept s (s.onAccount arg f).1 := by
  unfold State.onAccount
  split
  · exact h _
  · exact .refl s

theorem Kept.onQuota {value : Nat} {f : AccountId → State × CommandResult} (h : ∀ a, Kept s (f a).1) :
    Kept s (s.onQuota arg value f).1 :=
  .onAccount fun a => .fst_ite (.refl s) ((h a).trans (.settle _))

end Results

theorem Kept.commandMeterClear (s : State) (arg : Byte) : Kept s (s.commandMeterClear arg).1 :=
  .fst_ite (.meterClearAll s) (.onAccount fun a => .modAccount s a _)

theorem Kept.perform (s : State) (code arg : Byte) (value : Nat) : Kept s (s.perform code arg value).1 := by
  refine .fst_ite (.commandStart s) ?_
  refine .fst_ite (.commandStop s) ?_
  refine .fst_ite (.onPort (.portHold s)) ?_
  refine .fst_ite (.onPort (.portRelease s)) ?_
  refine .fst_ite (.onPort (.portFlush s)) ?_
  refine .fst_ite (.onPort (.portWake s)) ?_
  refine .fst_ite (.onPort (.portReset s)) ?_
  refine .fst_ite (.onPort (.portResume s)) ?_
  refine .fst_ite (.onQuota fun a => .quotaSet s a value) ?_
  refine .fst_ite (.onQuota fun a => .quotaAdd s a value) ?_
  refine .fst_ite (.commandMeterClear s arg) ?_
  exact .fst_ite (.alertTake s) (.fst_ite (.alertDone s) (.refl s))

theorem Kept.takeCommand (s : State) (code arg : Byte) (value : Nat) : Kept s (s.takeCommand code arg value) :=
  (Kept.perform s code arg value).trans (.modCtl _ fun c =>
    { c with lastCode := code, lastResult := (s.perform code arg value).2, taken := c.taken + 1 })

/-! ### Job commands (R44) -/

theorem Kept.postFault (s : State) (addr : Addr) (reason : RefusalReason) : Kept s (s.postFault addr reason) :=
  .raise s _ _ _

theorem Kept.takeJob (s : State) (k : Slot) (addr : Addr) (code : Byte) : Kept s (s.takeJob k addr code) := by
  have hrelease : ∀ x : TicketState, (s.ticket k).state = x → x.inUse = false → x ≠ .posting →
      Kept s (s.releaseTicket k) := by
    rintro x rfl
    exact .releaseTicket
  refine .ite (fun _ => ?_) fun _ => .ite (fun _ => ?_) fun _ => .ite (fun _ => ?_) fun _ => .postFault s addr _
  · split
    case h_1 hst => exact .postTicket hst
    case h_2 => exact .postFault s addr _
  · split
    case h_1 hst => exact .cancelQueued hst
    case h_2 hst => exact .cancelSent (.inl hst)
    case h_3 hst => exact .cancelSent (.inr hst)
    case h_4 => exact .postFault s addr _
  · split
    case h_1 hst => exact hrelease _ hst rfl nofun
    case h_2 hst => exact hrelease _ hst rfl nofun
    case h_3 hst => exact hrelease _ hst rfl nofun
    case h_4 => exact .postFault s addr _

/-! ### The host's requests (R1 to R15) -/

theorem Kept.ack (s : State) (tag : Tag) (status : AckStatus) : Kept s (s.ack tag status) := .emit s _

theorem Kept.dataError (s : State) (tag : Tag) (size : Nat) : Kept s (s.dataError tag size) := .emit s _

theorem Kept.refuse (s : State) (w : WriteRequest) (reason : RefusalReason) : Kept s (s.refuse w reason) :=
  ((Kept.modCtl s _).trans (.raise _ _ _ _)).trans (.ack _ _ _)

theorem Kept.absorbCommand (s : State) (w : WriteRequest) : Kept s (s.absorbCommand w) :=
  .ite (fun _ => (Kept.takeCommand s _ _ _).trans (.ack _ _ _)) fun _ => (Kept.modCtl s _).trans (.refuse _ _ _)

theorem Kept.absorbPost (s : State) (k : Slot) (w : WriteRequest) : Kept s (s.absorbPost k w) :=
  .ite (fun _ => (Kept.takeJob s k _ _).trans (.ack _ _ _)) fun _ => .refuse s w _

theorem Kept.forwardWrite (s : State) (w : WriteRequest) : Kept s (s.forwardWrite w) :=
  (Kept.setRecord s _ _).trans (.pass _ _ _ _ _ _ _)

/-- The settings of a write that is not refused are accepted (R10, R24). -/
theorem judgeSettings_of_judgeWrite {s : State} {w : WriteRequest} (h : s.judgeWrite w = none)
    (hparts : s.settingParts w ≠ []) : s.judgeSettings (s.settingParts w) = none := by
  unfold State.judgeWrite at h
  dsimp only at h
  split at h
  · cases h
  split at h
  · cases h
  split at h
  · cases h
  split at h
  · cases h
  split at h
  case h_1 hnil => exact absurd hnil hparts
  case h_2 => exact h

theorem Kept.proceed {s : State} {w : WriteRequest} (h : s.judgeWrite w = none) : Kept s (s.proceed w) := by
  unfold State.proceed
  split
  case h_1 => exact .absorbCommand s w
  case h_2 => exact .absorbPost s _ w
  case h_3 =>
    split
    case h_1 => exact .forwardWrite s w
    case h_2 hparts => exact (Kept.capture (judgeSettings_of_judgeWrite h hparts)).trans (.forwardWrite _ w)

theorem Kept.classifyWrite (s : State) (w : WriteRequest) : Kept s (s.classifyWrite w) := by
  unfold State.classifyWrite
  split
  case h_1 => exact .refuse s w _
  case h_2 h => exact .proceed h

theorem Kept.takeWrite (s : State) (w : WriteRequest) : Kept s (s.takeWrite w) := by
  refine .ite (fun _ => .ack s _ _) fun _ => .ite (fun _ => .ite (fun _ => .ack s _ _) fun _ => ?_) fun _ => ?_
  · exact .ite (fun _ => .forwardWrite s w) fun _ => .ack s _ _
  · exact .ite (fun _ => .classifyWrite s w) fun _ => .ack s _ _

theorem Kept.classifyRead (s : State) (r : ReadRequest) : Kept s (s.classifyRead r) :=
  .ite (fun _ => .emit s _) fun _ => (Kept.setRecord s _ _).trans (.pass _ _ _ _ _ _ _)

theorem Kept.takeRead (s : State) (r : ReadRequest) : Kept s (s.takeRead r) :=
  .ite (fun _ => .dataError s _ _) fun _ => .ite (fun _ => .dataError s _ _) fun _ => .classifyRead s r

theorem Kept.takeRequest (s : State) (r : HostRequest) : Kept s (s.takeRequest r) := by
  cases r with
  | read r => exact .takeRead s r
  | write w => exact .takeWrite s w

theorem Kept.setHeld (s : State) (rs : List HostRequest) : Kept s (s.setHeld rs) := .of_eq rfl rfl rfl rfl rfl rfl

theorem Kept.hostRequest (s : State) (r : HostRequest) : Kept s (s.hostRequest r) :=
  .ite (fun _ => .takeRequest s r) fun _ => .setHeld s _

theorem Kept.takeHeld (s : State) (r : HostRequest) : Kept s (s.takeHeld r) :=
  ((Kept.setHeld s _).trans (.takeRequest _ r)).trans (.setHeld _ _)

end Sys2Proof.Machine

/-! ## Every step keeps the laws of the tickets (R41, R46, R59, R60, R80, R93, R102) -/

namespace Sys2Proof.Machine

/-! ### Reset and time (R3, R19, R20, R31) -/

theorem assertReset_pagesLaw (s : State) : s.assertReset.pagesLaw := by
  have hport : ∀ p, s.assertReset.port p = Port.reset := reset_port
  refine ⟨fun p => ?_, fun p e h => ?_⟩
  · rw [hport]
    exact nofun
  · rw [hport, reset_openEntry] at h
    cases h

theorem Kept.assertReset (s : State) : Kept s s.assertReset where
  tickets _ := reset_ticketLaws
  fetches _ _ := by
    obtain ⟨-, hrest⟩ := reset_fetchLaws
    exact ⟨⟨List.nodup_nil, nofun⟩, hrest⟩
  pages _ _ _ := assertReset_pagesLaw s

theorem Kept.releaseReset (s : State) (anchor : BitVec 8) : Kept s (s.releaseReset anchor) :=
  .ite (fun _ => (Kept.of_eq (s := s) (t := { s with resetAsserted := false, anchor := anchor })
    rfl rfl rfl rfl rfl rfl).trans (.presentSweep _)) fun _ => .refl s

theorem Kept.tick (s : State) : Kept s s.tick := .ite (fun _ => .refl s) fun _ => .of_eq rfl rfl rfl rfl rfl rfl

theorem Kept.idle (s : State) : Kept s s.idle := .ite (fun _ => .refl s) fun _ => .of_eq rfl rfl rfl rfl rfl rfl

theorem Kept.unprompted (s : State) : Kept s s.unprompted := by
  unfold State.unprompted
  split
  · exact .takeHeld s _
  · exact .idle s

/-! ### A step -/

theorem Kept.of_outcome {s t u : State} (h : Kept s.clearOut u) (hu : (.next u : Host.Outcome State Fault Refusal) = .next t) :
    Kept s t := by
  cases hu
  exact (Kept.clearOut s).trans h

theorem Kept.exec {i : Instr} {s t : State} (h : exec i s = .next t) : Kept s t := by
  cases i with
  | resetNAssertion => exact .of_outcome (.assertReset _) h
  | resetNRelease anchor => exact .of_outcome (.releaseReset _ anchor) h
  | millisecondCountTick => exact .of_outcome (.tick _) h
  | read r => exact .of_outcome (.hostRequest _ (.read r)) h
  | write w => exact .of_outcome (.hostRequest _ (.write w)) h
  | windowSettingWrite | ringRestart | consumeIndexWrite | portEnable | portDisable | portSettingWrite
  | accountSettingWrite => exact .of_outcome (.hostRequest _ _) h
  | start | stop | portHold | portRelease | portFlush | portWake | portReset | portResume | quotaSet | quotaAdd
  | meterClear | alertTake | alertDone => exact .of_outcome (.hostRequest _ _) h
  | post | cancel | release => exact .of_outcome (.hostRequest _ _) h
  | memoryGrant => exact .of_outcome (.grantNext _) h
  | recordWritePick => exact .of_outcome (.pickRecord _) h
  | sweepWriteAnswer | passingResponse | ticketFetchAnswer | lineFetchAnswer | alertWriteAnswer =>
    exact .of_outcome (.memoryAnswers _ _ _ _ _) h
  | activation p => exact .of_outcome (.dispatch _ p) h
  | wakeCause p => exact .of_outcome (.wakeCause _ p) h
  | dataFrame p => exact .of_outcome (.sendFrame _ p) h
  | pacingWindowEnd p => exact .of_outcome (.endWindow _ p) h
  | trainAck p | credit p | status p | badFrame p => exact .of_outcome (.receive _ p _) h
  | trainingTimerExpiry p => exact .of_outcome (.trainingTimer _ p) h
  | silenceTimerExpiry p => exact .of_outcome (.silenceTimer _ p) h
  | idleTimerExpiry p => exact .of_outcome (.idleTimer _ p) h
  | warmTimerExpiry p => exact .of_outcome (.warmTimer _ p) h

theorem Kept.step {s t : State} (h : step s = .next t) : Kept s t := by
  unfold Machine.step at h
  split at h
  case h_1 => exact .of_outcome (.unprompted _) h
  case h_2 rest _ =>
    exact (Kept.of_eq (s := s) (t := s.withPending rest) rfl rfl rfl rfl rfl rfl).trans (.exec h)

/-- An open page's ticket is in hand, so the port has a job. -/
theorem pageInHand_of_openLaw {s : State} (h : s.openLaw) (p : PortId) : (s.port p).pageInHand := by
  intro hopen hjob
  obtain ⟨e, he⟩ := Option.isSome_iff_exists.1 hopen
  have hhand := h p e he
  rw [State.inHand, hjob] at hhand
  cases hhand

/-- Settles O58, by what each event keeps of the laws of the tickets, of the fetches and of the open pages. -/
theorem stepsKeepTheTicketLaws : Obligations.StepsKeepTheTicketLaws := by
  intro s t hs hstep
  have hkept := Kept.step hstep
  refine ⟨hkept.tickets hs, fun hf => ⟨hkept.fetches hs hf, fun hsound hopen => ?_⟩⟩
  obtain ⟨-, hopen'⟩ := hkept.pages hs hf ⟨fun p => (hsound p).2, hopen⟩
  exact ⟨hopen', pageInHand_of_openLaw hopen'⟩

end Sys2Proof.Machine

/-! ## The gates, and the state an engine is judged to have (R71, R90, R97, R145) -/

namespace Sys2Proof.Machine

/-! ### The gates in order (R97) -/

/-- The first gate: no hold stands in the way of the next page (R97). -/
def Port.holdGate (x : Port) : Prop := x.hasOpenPage = true ∨ (x.holdFlag = false ∧ x.quiesceHold = false)

/-- The second gate: the link is READY and no DOWN condition is true (R97). -/
def Port.printerGate (x : Port) : Prop := x.link.state = .ready ∧ x.watch.holds .down = false

theorem onHold_iff (x : Port) : x.onHold = true ↔ x.holdFlag = true ∨ x.quiesceHold = true := Bool.or_eq_true_iff

theorem not_holdGate_iff (x : Port) : ¬x.holdGate ↔ (!x.hasOpenPage && x.onHold) = true := by
  simp only [Port.holdGate, onHold_iff, Bool.and_eq_true, Bool.not_eq_true', not_or, not_and_or, Bool.not_eq_true,
    Bool.not_eq_false]

theorem Port.holdGate.passed {x : Port} (h : x.holdGate) : ¬(!x.hasOpenPage && x.onHold) = true := fun hfails =>
  (not_holdGate_iff x).2 hfails h

theorem not_printerGate_iff (x : Port) :
    ¬x.printerGate ↔ (x.link.state != .ready || x.watch.holds .down) = true := by
  simp only [Port.printerGate, Bool.or_eq_true, bne_iff_ne, not_and_or, Bool.not_eq_false, ne_eq]

theorem Port.printerGate.passed {x : Port} (h : x.printerGate) :
    ¬(x.link.state != .ready || x.watch.holds .down) = true := fun hfails => (not_printerGate_iff x).2 hfails h

theorem gates_of_not_hold {s : State} {p : PortId} {j : Job} (h : ¬(s.port p).holdGate) :
    s.gates p j = .blocked .held :=
  if_pos ((not_holdGate_iff _).1 h)

section Gates
variable {s : State} {p : PortId} {j : Job} (hhold : (s.port p).holdGate)
include hhold

theorem gates_of_not_printer (h : ¬(s.port p).printerGate) : s.gates p j = .blocked .paused :=
  (if_neg hhold.passed).trans (if_pos ((not_printerGate_iff _).1 h))

variable (hprinter : (s.port p).printerGate)
include hprinter

theorem gates_of_no_credit (h : (s.port p).link.credits = 0) : s.gates p j = .blocked .waitCredit :=
  (if_neg hhold.passed).trans ((if_neg hprinter.passed).trans (if_pos h))

variable (hcredit : (s.port p).link.credits ≠ 0)
include hcredit

theorem gates_of_pace_spent (h : (s.port p).engine.paceOpen = false) :
    s.gates p j = .blocked (if (s.port p).hasOpenPage then .sending else .waitPace) := by
  unfold State.gates
  dsimp only
  rw [if_neg hhold.passed, if_neg hprinter.passed, if_neg hcredit, h]
  rfl

variable (hpace : (s.port p).engine.paceOpen = true)
include hpace

theorem gates_of_no_frame (h : s.nextFrame p j = none) : s.gates p j = .blocked .sending := by
  unfold State.gates
  dsimp only
  rw [if_neg hhold.passed, if_neg hprinter.passed, if_neg hcredit, hpace, h]
  rfl

/-- Past the first five gates the last two stand before a frame that begins a page. -/
theorem gates_of_frame {f : FramePlan} (hf : s.nextFrame p j = some f) : s.gates p j =
    if (s.port p).hasOpenPage then .passes f
    else if Config.pageEntries ≤ (s.port p).pages.length then .blocked .waitPage
    else if !s.grants j.account then .blocked .waitQuota
    else .passes f := by
  unfold State.gates
  dsimp only
  rw [if_neg hhold.passed, if_neg hprinter.passed, if_neg hcredit, hpace, hf]
  rfl

end Gates

/-- An engine with a ticket is HELD by no other gate than the first (R71, R97). -/
theorem gates_held_iff {s : State} {p : PortId} {j : Job} : (s.gates p j).state = .held ↔ ¬(s.port p).holdGate := by
  refine ⟨fun h hhold => ?_, fun h => by rw [gates_of_not_hold h]; rfl⟩
  unfold State.gates at h
  dsimp only at h
  rw [if_neg hhold.passed] at h
  repeat' split at h
  all_goals nomatch h

/-! ### What is judged and what a blocked engine does (R97) -/

/-- An engine not in JAM_STOP whose gates answer in a state is judged to have it. -/
theorem judged_of_gates {s : State} {p : PortId} {j : Job} {r : GateResult} (hj : (s.port p).engine.job = some j)
    (hg : s.gates p j = r) (hjam : (s.port p).engine.state ≠ .jamStop) : s.judged p = r.state := by
  rw [judged_busy hjam hj, hg]

theorem exec_dataFrame_blocked {s : State} {p : PortId} {j : Job} {st : EngineState}
    (hj : (s.port p).engine.job = some j) (hg : s.gates p j = .blocked st) :
    exec (.dataFrame p) s = .next { s.modEngine p fun e => { e with state := st } with out := [] } :=
  congrArg Host.Outcome.next (sendFrame_blocked (s := s.clearOut) hj hg)

/-- Settles O43, gate by gate. -/
theorem theFirstFailingGateBlocks : Obligations.TheFirstFailingGateBlocks := by
  refine ⟨fun p s => ⟨judged_jamStop s p, fun hjam hj => ?_⟩, ?_⟩
  · rw [judged_idle hjam hj]
    exact if_congr (Bool.and_eq_true_iff.trans (and_congr_right' (onHold_iff _))) rfl rfl
  · intro p j s hj x isOpen judged blocks hold printer credit pace data room quota
    have hblocks {st : EngineState} (hg : s.gates p j = .blocked st) : blocks st :=
      ⟨judged_of_gates hj hg, exec_dataFrame_blocked hj hg⟩
    have hpaced : pace ↔ x.engine.paceOpen = true := (paceOpen_iff _).symm
    refine ⟨fun h => ?_, fun hh h => ?_, fun hh hp h => ?_, fun hh hp hc h => ?_, fun hh hp hc hw h => ?_,
      fun hh hp hc hw hd h => ?_, fun hh hp hc hw hd hr h => ?_, fun hh hp hc hw hd hr hq => ?_⟩
    · exact hblocks (gates_of_not_hold h)
    · exact hblocks (gates_of_not_printer hh h)
    · exact hblocks (gates_of_no_credit hh hp (Nat.eq_zero_of_not_pos h))
    all_goals have hcredit : x.link.credits ≠ 0 := Nat.one_le_iff_ne_zero.1 hc
    · exact hblocks (gates_of_pace_spent hh hp hcredit (Bool.eq_false_iff.2 fun hopen => h (hpaced.2 hopen)))
    all_goals have hpace := hpaced.1 hw
    · exact hblocks (gates_of_no_frame hh hp hcredit hpace (not_not.1 h))
    all_goals
      obtain ⟨f, hf⟩ := Option.ne_none_iff_exists'.1 hd
      have hg := gates_of_frame hh hp hcredit hpace hf
    · obtain ⟨hclosed, hfull⟩ := not_or.1 h
      exact hblocks (hg.trans ((if_neg hclosed).trans (if_pos (Nat.not_lt.1 hfull))))
    · obtain ⟨hclosed, hquota⟩ := not_or.1 h
      have hfull : ¬Config.pageEntries ≤ x.pages.length := Nat.not_le.2 (hr.resolve_left hclosed)
      have hdenied : (!s.grants j.account) = true := by
        rw [Bool.not_eq_true', ← Bool.not_eq_true, grants_iff]
        exact hquota
      exact hblocks (hg.trans ((if_neg hclosed).trans ((if_neg hfull).trans (if_pos hdenied))))
    · exact judged_of_gates hj (gates_pass hf (hh.imp_right Bool.or_eq_false_iff.2) hp.1 hp.2 hcredit hpace hr
        (hq.imp_right (grants_iff _ _).2))

end Sys2Proof.Machine

/-! ## PORT_HOLD and PORT_RELEASE (R70, R71, R73, R145) -/

namespace Sys2Proof.Machine

section Hold
variable {s : State} {p : PortId}

theorem withHold_port (s : State) (p : PortId) (b : Bool) : (s.withHold p b).port p = { s.port p with holdFlag := b } :=
  tget_tset_self s.ports p _

theorem withHold_engine (s : State) (p : PortId) (b : Bool) : ((s.withHold p b).port p).engine = (s.port p).engine := by
  rw [withHold_port]

/-- With the flag set at an enabled port, an engine with no open page is judged HELD, with or without a ticket (R71). -/
theorem judged_hold (hjam : (s.port p).engine.state ≠ .jamStop) (hclosed : (s.port p).hasOpenPage = false)
    (hon : portOn (s.portWord p) = true) : (s.withHold p true).judged p = .held := by
  rw [← withHold_engine s p true] at hjam
  have hhold : ((s.withHold p true).port p).onHold = true := by rw [withHold_port]; rfl
  cases hj : ((s.withHold p true).port p).engine.job with
  | none =>
    have hon' : portOn ((s.withHold p true).portWord p) = true := hon
    rw [judged_idle hjam hj, hon', hhold]
    rfl
  | some j =>
    have hclosed' : ((s.withHold p true).port p).hasOpenPage = false := by rw [withHold_port]; exact hclosed
    have hgate : ¬((s.withHold p true).port p).holdGate := by
      rw [not_holdGate_iff, hclosed', hhold]
      rfl
    exact judged_of_gates hj (gates_of_not_hold hgate) hjam

/-- With the flag clear and no quiesce hold, an engine with no ticket is judged IDLE (R71, R73). -/
theorem judged_release (hjam : (s.port p).engine.state ≠ .jamStop) (hj : (s.port p).engine.job = none)
    (hquiesce : (s.port p).quiesceHold = false) : (s.withHold p false).judged p = .idle := by
  rw [← withHold_engine s p false] at hjam hj
  have hhold : ((s.withHold p false).port p).onHold = false := by rw [withHold_port]; exact hquiesce
  rw [judged_idle hjam hj, hhold, Bool.and_false]
  rfl

/-- A taken command that moves the hold flag of the port it names, which then settles (R70, R73). -/
theorem exec_setHold {i : Instr} {c : CommandWrite} {code : Byte} {b : Bool}
    (hi : exec i s = .next (s.clearOut.commandWrite code c)) (ht : s.takes code c) (hp : c.argument.toNat = p.val)
    (hperform : s.clearOut.perform code c.argument c.value.toNat =
      s.clearOut.onPort c.argument fun q => ((s.clearOut.setHold q b).settlePort q, .done)) :
    ∃ t, exec i s = .next t ∧ settledAt p ((s.commanded code .done c.tag).withHold p b) t := by
  obtain ⟨⟨⟨hopen, hheld⟩, hfree⟩, hcomp⟩ := ht
  rw [State.onPort, portArg_eq hp] at hperform
  exact ⟨_, hi.trans (congrArg Host.Outcome.next (commandWrite_taken (s := s.clearOut) hopen hheld hfree hcomp)),
    takeCommand_settledPort p c.tag hperform⟩

end Hold

/-- Settles O20: the engine takes the state it is judged to have with the flag moved. -/
theorem holdAndReleaseMoveTheFlag : Obligations.HoldAndReleaseMoveTheFlag := by
  refine fun c p s hp => ⟨fun ht => ?_, fun ht => ?_⟩
  · obtain ⟨t, hexec, hsettled⟩ := exec_setHold (i := .portHold c) (b := true) rfl ht hp rfl
    have hjudged := ((hsettled.2.2 p).1 rfl).1
    refine ⟨t, hexec, hsettled, fun hjam => ?_, fun hjam hclosed hon => hjudged.trans (judged_hold hjam hclosed hon)⟩
    rw [hjudged, judged_jamStop, withHold_engine]
    exact hjam
  · obtain ⟨t, hexec, hsettled⟩ := exec_setHold (i := .portRelease c) (b := false) rfl ht hp rfl
    have hjudged := ((hsettled.2.2 p).1 rfl).1
    refine ⟨t, hexec, hsettled, fun hheld hnone hquiesce =>
      hjudged.trans (judged_release (fun hjam => ?_) hnone hquiesce)⟩
    exact EngineState.noConfusion (hheld.symm.trans hjam)

end Sys2Proof.Machine

/-! ## Dispatch (R64 to R66, R69, R91 to R93, R126) -/

namespace Sys2Proof.Machine

/-! ### The choice (R64 to R66, R69) -/

/-- The first startable ticket of a queue (R64, R66). -/
theorem firstStartable_eq {s : State} {p : PortId} {ahead behind : List QueueEntry} {t : Slot} {mark : QueueMark}
    (hq : (s.port p).queue = ahead ++ ⟨t, mark⟩ :: behind) (hahead : ∀ e ∈ ahead, ¬s.canStart e.slot)
    (ht : s.canStart t) : s.firstStartable p = some t := by
  have hfind : ((s.port p).queue.find? fun e => s.startable e.slot) = some ⟨t, mark⟩ := by
    refine List.find?_eq_some_iff_append.2 ⟨(startable_iff s t).2 ht, ahead, behind, hq, fun e he => ?_⟩
    rw [Bool.not_eq_true', ← Bool.not_eq_true, startable_iff]
    exact hahead e he
  rw [State.firstStartable, hfind]
  rfl

/-- Dispatch's conditions on a port and its link, as the model asks them (R65). -/
theorem dispatchReady_iff (s : State) (p : PortId) :
    (s.dispatchOpen p && (s.port p).link.state == .ready) = true ↔ s.dispatches p ∧ (s.port p).link.state = .ready := by
  rw [Bool.and_eq_true, dispatchOpen_iff, beq_iff_eq]

/-- Dispatch chooses none unless its conditions hold and a startable ticket is queued (R64 to R66). -/
theorem toActivate_none {s : State} {p : PortId}
    (h : ¬(s.dispatches p ∧ (s.port p).link.state = .ready ∧ ∃ e ∈ (s.port p).queue, s.canStart e.slot)) :
    s.toActivate p = none := by
  unfold State.toActivate
  split
  case isTrue hopen =>
    obtain ⟨hdispatch, hready⟩ := (dispatchReady_iff s p).1 hopen
    rw [State.firstStartable, Option.map_eq_none_iff, List.find?_eq_none]
    exact fun e he hstart => h ⟨hdispatch, hready, e, he, (startable_iff s e.slot).1 hstart⟩
  case isFalse => rfl

/-! ### What an activation leaves before its port settles (R66, R91) -/

/-- Settling a port does not read the state its engine had, past JAM_STOP (R71, R97, R145). -/
theorem settles_of_engineState {acts : PortId → Prop} {v u : State} {p : PortId} {st : EngineState}
    (h : settles acts (v.modEngine p fun e => { e with state := st }) u) (hp : acts p) (hst : st ≠ .jamStop)
    (hv : (v.port p).engine.state ≠ .jamStop) : settles acts v u := by
  obtain ⟨hstill, ⟨hfetches, hports⟩, hsettled⟩ := h
  have hsame : (v.modEngine p fun e => { e with state := st }).still = v.still :=
    still_modPort v p _ (by simp only [Port.still, if_neg hst, if_neg hv])
  have hport (q : PortId) : ((v.modEngine p fun e => { e with state := st }).port q).engine.job =
      (v.port q).engine.job ∧ ((v.modEngine p fun e => { e with state := st }).port q).link = (v.port q).link := by
    rw [State.port_modEngine]
    split
    case isTrue e => rw [e]; exact ⟨rfl, rfl⟩
    case isFalse => exact ⟨rfl, rfl⟩
  have hhand (q : PortId) : (v.modEngine p fun e => { e with state := st }).inHand q = v.inHand q := by
    rw [State.inHand, (hport q).1, State.inHand]
  simp only [hhand, (hport _).1] at hfetches hports
  refine ⟨hstill.trans hsame, ⟨hfetches, hports⟩, fun q => ⟨fun hq => ⟨?_, ?_⟩, fun hq => ?_⟩⟩
  · rw [← judged_of_all_still hsame]
    exact ((hsettled q).1 hq).1
  · rw [idleFollows, ← (hport q).2]
    exact ((hsettled q).1 hq).2
  · have hne : q ≠ p := fun e => hq (e ▸ hp)
    rw [← State.port_modEngine_ne v p (fun e => { e with state := st }) hne]
    exact (hsettled q).2 hq

section Activation
variable {s : State} {p : PortId} {t : Slot} {m : Mirror}

/-- A queued ticket taken by an engine whose state is not yet judged (R66, R91). -/
def State.started (s : State) (p : PortId) (t : Slot) (m : Mirror) : State :=
  let j := s.takenJob t m
  { s.modPort p fun x =>
      { x with queue := x.queue.filter fun e => e.slot != t, engine := { x.engine with
        job := some { j with cursor := some ⟨j.copy, j.next⟩ } } } with
    tickets := tset s.tickets t { s.ticket t with
      state := .active, resume := none, fetchCount := 0, sending := true, copy := j.copy, page := j.page }
    out := [] }

/-- The model's job at activation is the one the engine takes, its cursor at the position (R91). -/
theorem jobFor_eq (s : State) (t : Slot) (m : Mirror) : s.jobFor t m (s.ticket t).resume =
    { s.takenJob t m with cursor := some ⟨(s.takenJob t m).copy, (s.takenJob t m).next⟩ } := by
  unfold State.jobFor State.takenJob
  cases (s.ticket t).resume <;> rfl

theorem activated_eq (s : State) (p : PortId) (t : Slot) (m : Mirror) : s.clearOut.activated p t m =
    (s.started p t m).modEngine p fun e => { e with state := .sending } := by
  have hjob : s.clearOut.jobFor t m (s.clearOut.ticket t).resume = _ := jobFor_eq s t m
  simp only [State.activated, hjob, State.started, State.modEngine, State.modPort, State.setPort, State.port,
    tget_tset_self, tset_tset]
  rfl

theorem settledAt_started (hidle : (s.port p).engine.state = .idle) :
    settledAt p (s.started p t m) ((s.clearOut.activated p t m).settlePort p) := by
  have hsettled := settledAt_settlePort (s.clearOut.activated p t m) p
  have hstate : ((s.started p t m).port p).engine.state = .idle :=
    (congrArg (fun x : Port => x.engine.state) (tget_tset_self s.ports p _)).trans hidle
  rw [activated_eq] at hsettled ⊢
  exact settles_of_engineState hsettled rfl nofun (by rw [hstate]; nofun)

/-! ### The first line fetch (R91 to R93) -/

/-- The engine that takes a ticket is judged HELD by the quiesce hold before a page opens (R71, R97). -/
theorem judged_activated (hflag : (s.port p).holdFlag = false) : (s.clearOut.activated p t m).judged p = .held ↔
    (s.port p).quiesceHold = true ∧ (s.port p).hasOpenPage = false := by
  have hport := activated_port (s := s.clearOut) (p := p) (k := t) (m := m) p
  rw [if_pos rfl] at hport
  have hopen : ((s.clearOut.activated p t m).port p).hasOpenPage = (s.port p).hasOpenPage := by rw [hport]; rfl
  have hhold : ((s.clearOut.activated p t m).port p).onHold = (s.port p).quiesceHold := by
    rw [hport]
    exact (congrArg (· || (s.port p).quiesceHold) hflag).trans (Bool.false_or _)
  rw [judged_busy (by rw [hport]; nofun) (by rw [hport]), gates_held_iff, not_holdGate_iff, hopen, hhold,
    Bool.and_eq_true, Bool.not_eq_true', and_comm]

/-- The engine that takes a ticket presents its first line unless it is HELD, a fetch of the port still waits, or eight are
outstanding (R93). -/
theorem mayPresent_activated (hflag : (s.port p).holdFlag = false) :
    mayPresent (s.clearOut.activated p t m) ((s.clearOut.activated p t m).judgeEngine p) p
        (s.clearOut.jobFor t m (s.clearOut.ticket t).resume) ↔
      ¬((s.port p).quiesceHold = true ∧ (s.port p).hasOpenPage = false) ∧
        (∀ q ∈ s.msp.waiting, q.isFetchOf p = false) ∧
        (s.msp.outstanding.countP fun g => g.request.isFetchOf p) < 8 := by
  have hstate : (((s.clearOut.activated p t m).judgeEngine p).port p).engine.state =
      (s.clearOut.activated p t m).judged p := by rw [State.judgeEngine, State.port_modEngine_self]
  have hwaiting : (s.clearOut.activated p t m).waitingFetches p = [] ↔ ∀ q ∈ s.msp.waiting, q.isFetchOf p = false := by
    rw [waitingFetches_eq_nil, List.any_eq_false]
    simp only [Bool.not_eq_true]
    rfl
  have hcurrent : (s.msp.outstanding.countP fun g => g.request.isCurrentFetchOf p) ≤
      s.msp.outstanding.countP fun g => g.request.isFetchOf p :=
    List.countP_mono_left fun g _ => isFetchOf_of_current
  rw [mayPresent, hstate, hwaiting, ne_eq, judged_activated hflag]
  refine and_congr_right' (and_congr_right' (and_iff_right_of_imp fun hfew => ?_))
  exact (Nat.zero_add _).trans_lt (hcurrent.trans_lt (hfew.trans (by decide)))

theorem activated_judged_job (s : State) (p : PortId) (t : Slot) (m : Mirror) :
    (((s.activated p t m).judgeEngine p).port p).engine.job = some (s.jobFor t m (s.ticket t).resume) := by
  rw [State.judgeEngine, State.port_modEngine_self, activated_port, if_pos rfl]

/-- The first line presented at once (R92, R93). -/
theorem activation_presents
    (hmay : mayPresent (s.clearOut.activated p t m) ((s.clearOut.activated p t m).judgeEngine p) p
      (s.clearOut.jobFor t m (s.clearOut.ticket t).resume)) :
    let u := (s.clearOut.activated p t m).settlePort p
    let j := s.jobFor t m (s.ticket t).resume
    let c : Cursor := ⟨j.copy, j.next⟩
    u.msp.waiting = s.msp.waiting ++ [lineRequest p j c] ∧ (u.ticket t).fetchCount = 1 ∧
      (u.port p).engine.job = some { j with cursor := j.nextCursor c } := by
  obtain ⟨hmsp, hticket, hport⟩ := settlePort_of_some
    ((fetchWanted_eq (activated_judged_job s.clearOut p t m) rfl).1 _ rfl hmay)
  refine ⟨congrArg Msp.waiting hmsp, ?_, (hport p).trans (if_pos rfl)⟩
  rw [hticket, activated_ticket, if_pos rfl]
  exact congrArg Ticket.fetchCount (if_pos rfl)

/-- No line presented: the fetch waits for the port's next settling (R93). -/
theorem activation_presents_none
    (hmay : ¬mayPresent (s.clearOut.activated p t m) ((s.clearOut.activated p t m).judgeEngine p) p
      (s.clearOut.jobFor t m (s.clearOut.ticket t).resume)) :
    let u := (s.clearOut.activated p t m).settlePort p
    u.msp.waiting = s.msp.waiting ∧ (u.ticket t).fetchCount = 0 ∧
      (u.port p).engine.job = some (s.jobFor t m (s.ticket t).resume) := by
  obtain ⟨hmsp, htickets, hport⟩ := settlePort_of_none
    ((fetchWanted_eq (activated_judged_job s.clearOut p t m) rfl).2 (.inr hmay))
  refine ⟨congrArg Msp.waiting hmsp, ?_, ?_⟩
  · rw [State.ticket, htickets]
    exact congrArg Ticket.fetchCount ((activated_ticket t).trans (if_pos rfl))
  · rw [hport, activated_port, if_pos rfl]
    rfl

/-! ### The rows (R65, R66, R69, R126) -/

theorem exec_activation_first (h : s.toActivate p = some t) (hm : (s.ticket t).mirror = some m) :
    exec (.activation p) s = .next ((s.clearOut.activated p t m).settlePort p) := by
  have hdispatch : s.clearOut.dispatch p = s.clearOut.activate p t := by
    have hchosen : s.clearOut.toActivate p = some t := h
    rw [State.dispatch, hchosen]
  exact congrArg Host.Outcome.next (hdispatch.trans (activate_some (s := s.clearOut) p hm))

theorem exec_activation_none (h : s.toActivate p = none) : exec (.activation p) s = .next { s with out := [] } := by
  have hdispatch : s.clearOut.dispatch p = s.clearOut := by
    have hchosen : s.clearOut.toActivate p = none := h
    rw [State.dispatch, hchosen]
  exact congrArg Host.Outcome.next hdispatch

end Activation

theorem wakeCause_iff (s : State) (p : PortId) : ((s.port p).link.state = .drowsy ∧ s.wakeWanted p = true) ↔
    s.dispatches p ∧ (s.port p).link.state = .drowsy ∧ ∃ e ∈ (s.port p).queue, s.canStart e.slot := by
  rw [wakeWanted_iff, and_left_comm]

/-- Settles O42: the activated port's settling gives the first fetch, and a wake cause is a settling too. -/
theorem dispatchStartsTheFirstStartable : Obligations.DispatchStartsTheFirstStartable := by
  refine fun p s => ⟨fun ahead t mark behind m hdispatch hready hqueue hahead hstart hm => ?_, fun hno => ?_,
    fun hdispatch hdrowsy hstart => ?_, fun hno => ?_⟩
  · obtain ⟨-, -, hflag, hidle⟩ := id hdispatch
    have hchosen : s.toActivate p = some t :=
      (if_pos ((dispatchReady_iff s p).2 ⟨hdispatch, hready⟩)).trans (firstStartable_eq hqueue hahead hstart)
    have hjob := jobFor_eq s t m
    refine ⟨_, exec_activation_first hchosen hm, settledAt_started hidle, fun hhold hwaiting hfew => ?_, fun hlate => ?_⟩
    · have hpresents := activation_presents ((mayPresent_activated (t := t) (m := m) hflag).2 ⟨hhold, hwaiting, hfew⟩)
      rw [hjob] at hpresents
      exact hpresents
    · rw [← hjob]
      refine activation_presents_none fun hmay => ?_
      obtain ⟨hhold, hwaiting, hfew⟩ := (mayPresent_activated hflag).1 hmay
      rcases hlate with hheld | ⟨q, hq, hfetch⟩ | hmany
      · exact hhold hheld
      · exact Bool.eq_false_iff.1 (hwaiting q hq) hfetch
      · omega
  · exact exec_activation_none (toActivate_none hno)
  · exact ⟨_, congrArg Host.Outcome.next (if_pos ((wakeCause_iff s.clearOut p).2 ⟨hdispatch, hdrowsy, hstart⟩)),
      settledAt_settlePort _ p⟩
  · exact congrArg Host.Outcome.next (if_neg fun h => hno ((wakeCause_iff s.clearOut p).1 h))

end Sys2Proof.Machine

/-! ## The line an engine presents at a grant (R17, R92, R93) -/

namespace Sys2Proof.Machine

section LineGranted
variable {s : State} {r : MemRequest} {p : PortId} {mark : FetchMark} {copy off : Nat} {j : Job}

/-- The grant of a line fetch settles its engine's port (R17, R93). -/
theorem exec_memoryGrant_lineFetch (h : s.msp.choice = some r) (ho : r.owner = .lineFetch p mark copy off) :
    exec .memoryGrant s = .next ((s.handed r).settlePort p) := by
  have hgrant : (s.handed r).afterGrant r.owner = (s.handed r).settlePort p := by rw [ho]; rfl
  rw [exec_memoryGrant_some h, hgrant]

theorem isCurrentFetchOf_iff_mark (ho : r.owner = .lineFetch p mark copy off) :
    r.isCurrentFetchOf p = true ↔ mark = .current := by
  rw [MemRequest.isCurrentFetchOf, ho]
  cases mark with
  | current => simp
  | stopped | stale => simp

/-- The port's current fetches granted, once one more request has been (R93, R95). -/
theorem handed_current (ho : r.owner = .lineFetch p mark copy off) :
    ((s.handed r).msp.outstanding.countP fun g => g.request.isCurrentFetchOf p) =
      s.msp.outstanding.countP (fun g => g.request.isCurrentFetchOf p) + if mark = .current then 1 else 0 := by
  have hone : ([⟨s.msp.nextGrant, r⟩].countP fun g : Granted => g.request.isCurrentFetchOf p) =
      if mark = .current then 1 else 0 :=
    (List.countP_singleton ..).trans (if_congr (isCurrentFetchOf_iff_mark ho) rfl rfl)
  rw [← hone]
  exact List.countP_append

theorem handed_fetches (ho : r.owner = .lineFetch p mark copy off) :
    ((s.handed r).msp.outstanding.countP fun g => g.request.isFetchOf p) =
      s.msp.outstanding.countP (fun g => g.request.isFetchOf p) + 1 := by
  have hone : ([⟨s.msp.nextGrant, r⟩].countP fun g : Granted => g.request.isFetchOf p) = 1 :=
    (List.countP_singleton ..).trans (if_pos ((isFetchOf_iff p r).2 ⟨mark, copy, off, ho⟩))
  rw [← hone]
  exact List.countP_append

/-- With its fetch granted and no other waiting, an engine may present its next line by the limits of R93 alone. -/
theorem mayPresent_handed (ho : r.owner = .lineFetch p mark copy off)
    (hwaiting : ∀ q ∈ s.msp.waiting.erase r, q.isFetchOf p = false) :
    mayPresent (s.handed r) ((s.handed r).judgeEngine p) p j ↔
      s.judged p ≠ .held ∧
        j.buffer.length + (s.msp.outstanding.countP (fun g => g.request.isCurrentFetchOf p) +
          if mark = .current then 1 else 0) < 32 ∧
        s.msp.outstanding.countP (fun g => g.request.isFetchOf p) + 1 < 8 := by
  have hstate : (((s.handed r).judgeEngine p).port p).engine.state = s.judged p := by
    rw [State.judgeEngine, State.port_modEngine_self]
    exact judged_of_still rfl rfl rfl
  have hnone : (s.handed r).waitingFetches p = [] :=
    List.filter_eq_nil_iff.2 fun q hq => Bool.not_eq_true _ ▸ hwaiting q hq
  rw [mayPresent, hstate, handed_current ho, handed_fetches ho, and_iff_right hnone]

end LineGranted

/-- Settles O35: the granted engine's port settles, which presents a line or none. -/
theorem enginesPresentTheNextLine : Obligations.EnginesPresentTheNextLine := by
  intro r p mark copy off j c s hchoice howner hjob hcursor hwaiting current all line next
  have hjudged : (((s.handed r).judgeEngine p).port p).engine.job = some j := by
    rw [State.judgeEngine, State.port_modEngine_self]
    exact hjob
  have hmay := mayPresent_handed (j := j) howner hwaiting
  have hwanted := fetchWanted_eq (v := s.handed r) hjudged rfl
  refine ⟨_, exec_memoryGrant_lineFetch hchoice howner, fun hheld hroom hfew => ?_, fun hlimit => ?_⟩
  · obtain ⟨hmsp, hticket, hport⟩ := settlePort_of_some (hwanted.1 c hcursor (hmay.2 ⟨hheld, hroom, hfew⟩))
    refine ⟨congrArg Msp.waiting hmsp, ?_, (hport p).trans (if_pos rfl)⟩
    rw [hticket, if_pos rfl]
    rfl
  · have hno : ¬mayPresent (s.handed r) ((s.handed r).judgeEngine p) p j := fun hm => by
      obtain ⟨hheld, hroom, hfew⟩ := hmay.1 hm
      rcases hlimit with h | h | h
      · exact hheld h
      · exact absurd hroom (Nat.not_lt.2 h)
      · exact absurd hfew (Nat.not_lt.2 h)
    obtain ⟨hmsp, htickets, hport⟩ := settlePort_of_none (hwanted.2 (.inr hno))
    exact ⟨congrArg Msp.waiting hmsp, htickets, (hport p).trans hjob⟩

end Sys2Proof.Machine

/-! ## Answers to line fetches (R56, R57, R93 to R95, R107, R109, R110) -/

namespace Sys2Proof.Machine

/-- A list cut or filled to a length stays as it is when cut or filled to it again. -/
theorem padTo_padTo (k : Nat) (bs : List Byte) : padTo k (padTo k bs) = padTo k bs := by
  have hlen : (padTo k bs).length = k := by
    rw [padTo, List.length_take, List.length_append, List.length_replicate]
    omega
  exact List.take_left' hlen

/-- The line that arrives is the same before and after an answer's bytes are filled to 64 (R92). -/
theorem lineArrives_padTo (s : State) (p : PortId) (j : Job) (copy offset : Nat) (data : List Byte) :
    s.lineArrives p j copy offset (padTo 64 data) = s.lineArrives p j copy offset data := by
  simp only [State.lineArrives, Job.lineBytes, padTo_padTo]

theorem exec_lineFetchAnswer {s : State} {f : MemoryAnswer} {g : Granted} {rest : List Granted} {p : PortId}
    {mark : FetchMark} {copy off : Nat} (hawaits : s.awaits g rest) (hgrant : f.grant = g.id)
    (ho : g.request.owner = .lineFetch p mark copy off) (hread : g.request.isWrite = false) (hsize : g.request.size = 64) :
    exec (.lineFetchAnswer f) s =
      .next (({ s with msp := { s.msp with outstanding := rest }, out := [] } : State).lineAnswered p mark copy off f.ok
        (padTo 64 f.data)) := by
  have hanswers := memoryAnswers_awaits Owner.isLineFetch f.ok f.data hawaits (by rw [ho]; rfl)
  change Host.Outcome.next (s.clearOut.memoryAnswers Owner.isLineFetch f.grant f.ok f.data) = _
  rw [hgrant, hanswers, ho, MemRequest.answerData, hread, hsize]
  rfl

/-! ### The drain test of a ticket with a mirror (R56, R57) -/

/-- What the drain test leaves, whether or not it ends the ticket (R56, R57, R79). -/
theorem drainTest_of_mirror {v : State} {k : Slot} {m : Mirror} (hm : (v.ticket k).mirror = some m) {d : Bool}
    (hd : (v.ticket k).drains = d) : v.drainTest k =
    { v with
      tickets := tset v.tickets k (if d then (v.ticket k).ended else v.ticket k)
      guards := .ofFn fun b => if d && v.covers m b then v.guard b - 1 else v.guard b
      relay := { v.relay with
        backlog := v.withJobAlert k m (v.ticket k).endReason
          (d && (decide ((v.ticket k).ended.state = .failed) || m.notify)) } } := by
  rw [drainTest_eq, hd]
  cases d with
  | true =>
    rw [if_pos rfl, endTicket_eq hm]
    rfl
  | false =>
    have hguards : Vector.ofFn (fun b => v.guard b) = v.guards := (vector_eq_ofFn fun _ => rfl).symm
    have htickets : tset v.tickets k (v.ticket k) = v.tickets := tset_tget v.tickets k
    simp only [Bool.false_and, Bool.false_eq_true, if_false, State.withJobAlert, hguards, htickets]

/-! ### A stopped line's answer (R95, R110) -/

theorem drains_iff (x : Ticket) : x.drains = true ↔
    (x.state = .cancelling ∨ x.state = .failing) ∧ x.entryCount = 0 ∧ x.fetchCount = 0 ∧ x.sending = false := by
  simp only [Ticket.drains, Bool.and_eq_true, Bool.or_eq_true, beq_iff_eq, Bool.not_eq_true', and_assoc]

theorem fetchDone_eq (s : State) (k : Slot) : s.fetchDone k =
    { s with tickets := tset s.tickets k { s.ticket k with fetchCount := (s.ticket k).fetchCount - 1 } } := rfl

theorem fetchDone_ticket_self (s : State) (k : Slot) :
    (s.fetchDone k).ticket k = { s.ticket k with fetchCount := (s.ticket k).fetchCount - 1 } :=
  tget_tset_self s.tickets k _

/-- A ticket drains at the answer of its last fetch (R56, R110). -/
theorem fetchDone_drains_iff (s : State) (k : Slot) : ((s.fetchDone k).ticket k).drains = true ↔
    ((s.ticket k).state = .cancelling ∨ (s.ticket k).state = .failing) ∧
      (s.ticket k).entryCount = 0 ∧ (s.ticket k).fetchCount ≤ 1 ∧ (s.ticket k).sending = false := by
  rw [drains_iff, fetchDone_ticket_self]
  simp only [Nat.sub_eq_zero_iff_le]

theorem fetchDone_tickets (s : State) (k : Slot) : (s.fetchDone k).tickets =
    tset s.tickets k { s.ticket k with fetchCount := (s.ticket k).fetchCount - 1 } := rfl

theorem fetchDone_covers (s : State) (k : Slot) (m : Mirror) (b : Fin 4096) :
    (s.fetchDone k).covers m b = s.covers m b := rfl

theorem fetchDone_guard (s : State) (k : Slot) (b : Fin 4096) : (s.fetchDone k).guard b = s.guard b := rfl

theorem fetchDone_withJobAlert (s : State) (k : Slot) (m : Mirror) (r : Reason) (raised : Bool) :
    (s.fetchDone k).withJobAlert k m r raised = s.withJobAlert k m r raised := by
  simp only [State.withJobAlert, fetchDone_ticket_self]
  rfl

/-- The end of a ticket at the answer of its last fetch (R56, R57, R110). -/
theorem drainTest_fetchDone {s : State} {k : Slot} {m : Mirror} (hm : (s.ticket k).mirror = some m)
    (hd : ((s.fetchDone k).ticket k).drains = true) :
    let failed := (s.ticket k).state == .failing
    let reason : Reason := if failed then .memoryEnd else .cancel
    (s.fetchDone k).drainTest k = { s with
      tickets := tset s.tickets k { s.ticket k with
        fetchCount := (s.ticket k).fetchCount - 1
        state := if failed then .failed else .cancelled, reason := reason, resume := none }
      guards := .ofFn fun b => if s.covers m b then s.guard b - 1 else s.guard b
      relay := { s.relay with backlog := s.withJobAlert k m reason (failed || m.notify) } } := by
  have hstate := drains_state hd
  have hmirror : ((s.fetchDone k).ticket k).mirror = some m := by rw [fetchDone_ticket_self]; exact hm
  rw [drainTest_of_mirror hmirror hd]
  simp only [fetchDone_covers, fetchDone_guard, fetchDone_withJobAlert, fetchDone_ticket_self, Ticket.ended,
    Ticket.endReason] at hstate ⊢
  simp only [fetchDone_eq, tset_tset]
  rcases hstate with hst | hst
  · have hother : (TicketState.cancelling == TicketState.failing) = false := rfl
    simp [hst, hother]
  · simp [hst]

/-! ### The engine of a FAILING ticket stops (R107, R109) -/

section HaltedAlerts
variable {s : State} {p : PortId} {k : Slot} {st : TicketState} {r : Reason} {m : Mirror}

theorem halted_covers (b : Fin 4096) : (s.halted p k st r).covers m b = s.covers m b := by
  rw [State.covers, halted_image, State.covers]

theorem halted_guard (b : Fin 4096) : (s.halted p k st r).guard b = s.guard b := by
  rw [State.guard, halted_guards, State.guard]

theorem halted_withJobAlert (hown : ∀ e, (s.port p).openEntry = some e → e.slot = k) (reason : Reason) (raised : Bool) :
    (s.halted p k st r).withJobAlert k m reason raised = s.withJobAlert k m reason raised := by
  rw [halted_eq hown, withdrawOpen_frame]
  simp only [State.withJobAlert, State.ticket, tget_tset_self]

end HaltedAlerts

/-- The engine of a FAILING ticket stopped, and the drain test made (R56, R57, R107, R109). -/
theorem drainTest_halted_failing {s : State} {p : PortId} {k : Slot} {m : Mirror} (hm : (s.ticket k).mirror = some m)
    (hown : ∀ e, (s.port p).openEntry = some e → e.slot = k) {d : Bool} {entries fetches : Nat}
    (he : entries = (s.ticket k).entryCount - if (s.port p).openEntry.isSome then 1 else 0)
    (hf : fetches = (s.ticket k).fetchCount - s.msp.waiting.countP (·.isFetchOf p))
    (hd : d = decide (entries = 0 ∧ fetches = 0)) : (s.halted p k .failing .memoryEnd).drainTest k =
    { s.withdrawOpen p with
      ports := tset s.ports p { s.port p with
        pages := if (s.port p).openEntry.isSome then (s.port p).pages.dropLast else (s.port p).pages
        engine := { (s.port p).engine with state := .idle, job := none } }
      tickets := tset s.tickets k { s.ticket k with
        state := if d then .failed else .failing
        reason := .memoryEnd
        entryCount := entries
        fetchCount := fetches
        sending := false
        resume := if d then none else (s.ticket k).resume }
      guards := .ofFn fun b => if d && s.covers m b then s.guard b - 1 else s.guard b
      msp := { s.msp with
        waiting := s.msp.waiting.filter fun x => !x.isFetchOf p
        outstanding := s.msp.outstanding.map (Granted.remark p (.stopped k)) }
      relay := { s.relay with backlog := s.withJobAlert k m .memoryEnd d } } := by
  have hhalted := halted_eq hown .failing .memoryEnd
  rw [← he, ← hf] at hhalted
  have hticket : (s.halted p k .failing .memoryEnd).ticket k = { s.ticket k with
      state := .failing, reason := .memoryEnd, entryCount := entries, fetchCount := fetches, sending := false } := by
    rw [hhalted]
    exact tget_tset_self _ _ _
  have hdrains : ((s.halted p k .failing .memoryEnd).ticket k).drains = d := by
    rw [hd, Bool.eq_iff_iff, drains_iff, hticket, decide_eq_true_iff]
    simp only [or_true, true_and, and_true]
  have hrelay : (s.halted p k .failing .memoryEnd).relay = s.relay := by rw [hhalted, withdrawOpen_frame]
  rw [drainTest_of_mirror (m := m) (by rw [hticket]; exact hm) hdrains, hrelay]
  simp only [halted_covers, halted_guard, halted_withJobAlert hown, hticket, Ticket.ended, Ticket.endReason, if_true,
    decide_true, Bool.true_or, Bool.and_true]
  rw [hhalted]
  cases d <;> simp only [tset_tset, if_true, Bool.false_eq_true, if_false]

/-- The memory failure of the ticket in hand (R109). -/
theorem memoryFailure_eq (s : State) (p : PortId) (k : Slot) :
    s.memoryFailure p k = ((s.halted p k .failing .memoryEnd).drainTest k).settle := rfl

/-- Settles O39: by the fetch's mark, and a current fetch's answer by its status. -/
theorem lineAnswersActByTheirMark : Obligations.LineAnswersActByTheirMark := by
  intro f g rest p mark copy off s hawaits hgrant howner hread hsize t
  have hexec := exec_lineFetchAnswer hawaits hgrant howner hread hsize
  refine ⟨?stale, ?stopped, ?arrived, ?failed⟩
  case stale =>
    rintro rfl
    exact ⟨_, hexec, settledAt_settlePort t p⟩
  case stopped =>
    rintro k rfl counted draining drained
    change exec (.lineFetchAnswer f) s = .next (((t.fetchDone k).drainTest k).settlePort p) at hexec
    have hdrains := fetchDone_drains_iff t k
    refine ⟨fun hno => ?_, fun m hdraining hdrained hm => ?_⟩
    · have hstays : ((t.fetchDone k).ticket k).drains ≠ true := fun h => by
        obtain ⟨hdraining, hdrained⟩ := hdrains.1 h
        exact hno.elim (fun hn => hn hdraining) fun hn => hn hdrained
      rw [drainTest_eq, if_neg hstays] at hexec
      exact ⟨_, hexec, settledAt_settlePort _ p⟩
    · rw [drainTest_fetchDone (s := t) hm (hdrains.2 ⟨hdraining, hdrained⟩)] at hexec
      exact ⟨_, hexec, settledAt_settlePort _ p⟩
  case arrived =>
    rintro j rfl hjob hok skip line
    rw [lineAnswered_current (s := t) hjob, hok, if_pos rfl, lineArrives_padTo] at hexec
    exact ⟨_, hexec, settledAt_settlePort _ p⟩
  case failed =>
    rintro j m rfl hjob hbad hm hown hnewest k isOpen entries fetches drained
    rw [lineAnswered_current (s := t) hjob, hbad, if_neg Bool.false_ne_true, memoryFailure_eq] at hexec
    have hmirror : ((t.fetchDone k).ticket k).mirror = some m := by rw [fetchDone_ticket_self]; exact hm
    rw [drainTest_halted_failing (s := t.fetchDone k) hmirror hown rfl rfl rfl, withdrawOpen_frame, withdrawOpen_accounts,
      withdrawOpen_global (s := t.fetchDone k) hnewest, withdrawOpen_out] at hexec
    simp only [fetchDone_tickets, fetchDone_ticket_self, fetchDone_withJobAlert, tset_tset] at hexec
    exact ⟨_, hexec, settled_settle _⟩

end Sys2Proof.Machine

/-! ## Where a frame ends, and the bytes it is formed from (R92, R94, R96, R98, R99) -/

namespace Sys2Proof.Machine

/-! ### The mark search over several bytes (R98, R99) -/

/-- A byte matches the mark when every bit that is not don't-care is the mark's (R98). -/
theorem matches_eq_all (r : MarkRule) (b : Byte) : r.matches b =
    (List.finRange 8).all fun i => r.dontCare.getLsbD i || b.getLsbD i == r.mark.getLsbD i := by
  have hbit (i : Fin 8) : ((b ^^^ r.mark) &&& ~~~r.dontCare).getLsbD i = false ↔
      (r.dontCare.getLsbD i || b.getLsbD i == r.mark.getLsbD i) = true := by
    simp only [BitVec.getLsbD_and, BitVec.getLsbD_not, BitVec.getLsbD_xor, i.isLt, decide_true, Bool.true_and]
    cases r.dontCare.getLsbD i <;> cases b.getLsbD i <;> cases r.mark.getLsbD i <;> decide
  rw [MarkRule.matches, Bool.eq_iff_iff, beq_iff_eq, List.all_eq_true]
  simp only [List.mem_finRange, true_imp_iff, ← hbit]
  exact ⟨fun h i => by rw [h]; exact BitVec.getLsbD_zero, fun h => BitVec.eq_of_getLsbD_eq fun i hi =>
    (h ⟨i, hi⟩).trans BitVec.getLsbD_zero.symm⟩

/-- The search after bytes none of which completes a mark; none when one does (R99). -/
def searchThrough (rule : Option MarkRule) : Bool → List Byte → Option Bool
  | lead, [] => some lead
  | lead, b :: bs =>
    if (markStep rule lead b).1 then none else searchThrough rule (markStep rule lead b).2 bs

theorem searchThrough_cons {rule : Option MarkRule} {lead found : Bool} {b : Byte} {bs : List Byte}
    (h : searchThrough rule lead (b :: bs) = some found) :
    (markStep rule lead b).1 = false ∧ searchThrough rule (markStep rule lead b).2 bs = some found := by
  rw [searchThrough] at h
  split at h
  case isTrue => nomatch h
  case isFalse hno => exact ⟨Bool.eq_false_iff.2 hno, h⟩

/-- No mark is found under "no marks". -/
theorem searchThrough_noMarks (lead : Bool) (bytes : List Byte) : ∃ found, searchThrough none lead bytes = some found := by
  induction bytes generalizing lead with
  | nil => exact ⟨lead, rfl⟩
  | cons b bs ih => exact ih false

theorem searchThrough_append (rule : Option MarkRule) (lead : Bool) (before after : List Byte) :
    searchThrough rule lead (before ++ after) =
      (searchThrough rule lead before).bind fun found => searchThrough rule found after := by
  induction before generalizing lead with
  | nil => rfl
  | cons b bs ih =>
    rw [List.cons_append, searchThrough, searchThrough]
    split
    · rfl
    · exact ih _

/-- Bytes with no lead leave none pending. -/
theorem searchThrough_of_noLead {r : MarkRule} {bytes : List Byte} (h : r.lead ∉ bytes) :
    searchThrough (some r) false bytes = some false := by
  induction bytes with
  | nil => rfl
  | cons b bs ih =>
    obtain ⟨hb, hbs⟩ := not_or.1 fun hmem => h (List.mem_cons.2 hmem)
    have hother : (b == r.lead) = false := beq_eq_false_iff_ne.2 (Ne.symm hb)
    simp only [searchThrough, markStep, Bool.false_and, Bool.false_eq_true, if_false, hother]
    exact ih hbs

/-- A search stated byte by byte: `pend k` says whether a lead is pending before byte `k`. -/
structure Pends (r : MarkRule) (bytes : List Byte) (pend : Nat → Bool) : Prop where
  step : ∀ k b, bytes[k]? = some b → pend (k + 1) = (b == r.lead && !(pend k && r.matches b))

theorem Pends.tail {r : MarkRule} {b : Byte} {bs : List Byte} {pend : Nat → Bool} (h : Pends r (b :: bs) pend) :
    Pends r bs fun k => pend (k + 1) :=
  ⟨fun k c hc => h.step (k + 1) c (by rwa [List.getElem?_cons_succ])⟩

/-- What one byte does to the search. -/
theorem Pends.markStep_eq {r : MarkRule} {bytes : List Byte} {pend : Nat → Bool} (h : Pends r bytes pend) {k : Nat}
    {b : Byte} (hb : bytes[k]? = some b) :
    markStep (some r) (pend k) b = (pend k && r.matches b, pend (k + 1)) := by
  rw [h.step k b hb, markStep]
  cases pend k && r.matches b <;> simp

/-- The search through the first bytes, when none of them completes a mark. -/
theorem Pends.searchThrough_take {r : MarkRule} {bytes : List Byte} {pend : Nat → Bool} (h : Pends r bytes pend) {n : Nat}
    (hn : n ≤ bytes.length) (hno : ∀ k < n, ∀ b, bytes[k]? = some b → (pend k && r.matches b) = false) :
    searchThrough (some r) (pend 0) (bytes.take n) = some (pend n) := by
  induction bytes generalizing pend n with
  | nil =>
    obtain rfl := Nat.le_zero.1 hn
    rfl
  | cons b bs ih =>
    cases n with
    | zero => rfl
    | succ n =>
      have hstep := h.markStep_eq (k := 0) (b := b) rfl
      rw [List.take_succ_cons, searchThrough, hstep, hno 0 (Nat.succ_pos n) b rfl, if_neg Bool.false_ne_true]
      exact ih h.tail (Nat.le_of_succ_le_succ hn) fun k hk c hc =>
        hno (k + 1) (Nat.succ_lt_succ hk) c (by rwa [List.getElem?_cons_succ])

/-! ### The end of a frame (R96, R98, R99) -/

/-- Bytes that neither complete a mark nor fill the frame nor end the copy go into it, and the frame goes on. -/
theorem formFrame_append {rule : Option MarkRule} {lead found : Bool} {before : List Byte}
    (h : searchThrough rule lead before = some found) {room left : Nat} (hroom : before.length < room)
    (hleft : before.length < left) (rest : List Byte) :
    formFrame rule room left lead (before ++ rest) =
      (formFrame rule (room - before.length) (left - before.length) found rest).map
        fun f => { f with payload := before ++ f.payload } := by
  induction before generalizing room left lead with
  | nil =>
    cases h
    simp
  | cons b bs ih =>
    obtain ⟨hno, hrest⟩ := searchThrough_cons h
    rw [List.length_cons] at hroom hleft ⊢
    have hmore : ¬left ≤ 1 ∧ ¬room ≤ 1 := by omega
    have hnext : room - (bs.length + 1) = room - 1 - bs.length ∧ left - (bs.length + 1) = left - 1 - bs.length := by
      omega
    simp only [List.cons_append, formFrame, hno, hmore.1, hmore.2, decide_false, Bool.or_self, Bool.false_eq_true, if_false]
    rw [ih hrest (by omega) (by omega), hnext.1, hnext.2, Option.map_map]
    rfl

/-- The byte that ends a frame: it completes a mark, is the copy's last, or fills the frame. -/
theorem formFrame_ends {rule : Option MarkRule} {lead found : Bool} {before : List Byte}
    (h : searchThrough rule lead before = some found) {room left : Nat} (hroom : before.length < room)
    (hleft : before.length < left) {b : Byte} (rest : List Byte)
    (hend : (markStep rule found b).1 = true ∨ before.length + 1 = min room left) :
    formFrame rule room left lead (before ++ b :: rest) =
      some ⟨before ++ [b], (markStep rule found b).1 || decide (left = before.length + 1),
        decide (left = before.length + 1), (markStep rule found b).2⟩ := by
  have hlast : left - before.length ≤ 1 ↔ left = before.length + 1 := by omega
  rw [formFrame_append h hroom hleft]
  simp only [formFrame, hlast]
  cases hmark : (markStep rule found b).1 with
  | true => simp
  | false =>
    by_cases hcopy : left = before.length + 1
    · simp [hcopy]
    · have hfull : room - before.length ≤ 1 := by
        have := hend.resolve_left (by rw [hmark]; exact Bool.false_ne_true)
        omega
      simp [hcopy, hfull]

/-- Bytes that neither complete a mark nor reach the frame's end form no frame. -/
theorem formFrame_waits {rule : Option MarkRule} {lead found : Bool} {bytes : List Byte}
    (h : searchThrough rule lead bytes = some found) {room left : Nat} (hshort : bytes.length < min room left) :
    formFrame rule room left lead bytes = none := by
  have hform := formFrame_append h (room := room) (left := left) (by omega) (by omega) []
  rw [List.append_nil] at hform
  rw [hform]
  rfl

/-- A list cut behind its byte `k`. -/
theorem take_append_cons {bytes : List Byte} {k : Nat} {b : Byte} (h : bytes[k]? = some b) :
    bytes.take k ++ b :: bytes.drop (k + 1) = bytes ∧ bytes.take k ++ [b] = bytes.take (k + 1) ∧
      (bytes.take k).length = k := by
  obtain ⟨hk, hb⟩ := List.getElem?_eq_some_iff.1 h
  refine ⟨?_, ?_, List.length_take_of_le (Nat.le_of_lt hk)⟩
  · rw [← hb, ← List.drop_eq_getElem_cons hk, List.take_append_drop]
  · rw [List.take_add_one, h]
    rfl

/-- The frame ended by byte `k`, in the bytes' own terms. -/
theorem formFrame_ends_at {rule : Option MarkRule} {lead found : Bool} {bytes : List Byte} {k : Nat} {b : Byte}
    (hb : bytes[k]? = some b) (h : searchThrough rule lead (bytes.take k) = some found) {room left : Nat}
    (hroom : k < room) (hleft : k < left) (hend : (markStep rule found b).1 = true ∨ k + 1 = min room left) :
    formFrame rule room left lead bytes =
      some ⟨bytes.take (k + 1), (markStep rule found b).1 || decide (left = k + 1), decide (left = k + 1),
        (markStep rule found b).2⟩ := by
  obtain ⟨hall, htake, hlen⟩ := take_append_cons hb
  rw [← hlen] at hroom hleft hend
  have hform := formFrame_ends h hroom hleft (bytes.drop (k + 1)) hend
  rwa [hall, htake, hlen] at hform

/-- The place of a frame's last byte when no mark ends it before. -/
theorem exists_lastByte {bytes : List Byte} {room left : Nat} (hroom : 1 ≤ room) (hleft : 1 ≤ left)
    (hlen : min room left ≤ bytes.length) :
    ∃ k b, bytes[k]? = some b ∧ k + 1 = min room left ∧ (left = k + 1 ↔ left ≤ room) := by
  have hlt : min room left - 1 < bytes.length := by omega
  exact ⟨min room left - 1, bytes[min room left - 1], List.getElem?_eq_getElem hlt, by omega, by omega⟩

/-- Under "no marks" a frame takes the bytes up to its size or the copy's end, and waits for them (R96). -/
theorem formFrame_noMarks {room left : Nat} (hroom : 1 ≤ room) (hleft : 1 ≤ left) (lead : Bool) (bytes : List Byte) :
    (bytes.length < min room left → formFrame none room left lead bytes = none) ∧
      (min room left ≤ bytes.length → formFrame none room left lead bytes =
        some ⟨bytes.take (min room left), decide (left ≤ room), decide (left ≤ room), false⟩) := by
  refine ⟨fun hshort => ?_, fun hlen => ?_⟩
  · obtain ⟨found, h⟩ := searchThrough_noMarks lead bytes
    exact formFrame_waits h hshort
  · obtain ⟨k, b, hb, hk, hlast⟩ := exists_lastByte hroom hleft hlen
    obtain ⟨found, h⟩ := searchThrough_noMarks lead (bytes.take k)
    rw [← hk, formFrame_ends_at hb h (by omega) (by omega) (.inr hk)]
    simp only [markStep, Bool.false_or, hlast]

/-- Under a mark rule the first lead byte that a matching byte follows ends the frame and its page (R98, R99). -/
theorem formFrame_firstMark {r : MarkRule} {before : List Byte} {mark : Byte} (hlead : r.lead ∉ before)
    (hmark : r.matches mark = true) {room left : Nat} (hlen : before.length + 2 ≤ min room left) (after : List Byte) :
    formFrame (some r) room left false (before ++ r.lead :: mark :: after) =
      some ⟨before ++ [r.lead, mark], true, decide (left = before.length + 2), false⟩ := by
  have hpending : searchThrough (some r) false (before ++ [r.lead]) = some true := by
    rw [searchThrough_append, searchThrough_of_noLead hlead]
    simp [searchThrough, markStep]
  have hstep : markStep (some r) true mark = (true, false) := by simp [markStep, hmark]
  have hcount : (before ++ [r.lead]).length = before.length + 1 := List.length_append
  have hform := formFrame_ends hpending (room := room) (left := left) (by omega) (by omega) after
    (.inl (congrArg Prod.fst hstep))
  rw [hstep, hcount] at hform
  simpa using hform

section Searched
variable {r : MarkRule} {bytes : List Byte} {pend : Nat → Bool} {room left : Nat}

/-- The first byte that finds a lead pending and matches ends the frame and its page (R98, R99). -/
theorem Pends.formFrame_mark (h : Pends r bytes pend) {k : Nat} {b : Byte} (hk : k < min room left)
    (hb : bytes[k]? = some b) (hmark : (pend k && r.matches b) = true)
    (hfirst : ∀ i < k, ∀ c, bytes[i]? = some c → (pend i && r.matches c) = false) :
    formFrame (some r) room left (pend 0) bytes = some ⟨bytes.take (k + 1), true, decide (left = k + 1), false⟩ := by
  obtain ⟨hlt, -⟩ := List.getElem?_eq_some_iff.1 hb
  have hsearch := h.searchThrough_take (Nat.le_of_lt hlt) hfirst
  have hafter : pend (k + 1) = false := by rw [h.step k b hb, hmark, Bool.not_true, Bool.and_false]
  have hstep := h.markStep_eq hb
  rw [hmark, hafter] at hstep
  rw [formFrame_ends_at hb hsearch (by omega) (by omega) (.inl (congrArg Prod.fst hstep)), hstep, Bool.true_or]

/-- With no mark in it a frame ends at its size or the copy's end, with the search as it then stands, and waits for its
bytes (R96, R99). -/
theorem Pends.formFrame_noMark (h : Pends r bytes pend) (hroom : 1 ≤ room) (hleft : 1 ≤ left)
    (hno : ∀ k < min room left, ∀ b, bytes[k]? = some b → (pend k && r.matches b) = false) :
    (min room left ≤ bytes.length → formFrame (some r) room left (pend 0) bytes =
      some ⟨bytes.take (min room left), decide (left ≤ room), decide (left ≤ room), pend (min room left)⟩) ∧
    (bytes.length < min room left → formFrame (some r) room left (pend 0) bytes = none) := by
  refine ⟨fun hlen => ?_, fun hshort => ?_⟩
  · obtain ⟨k, b, hb, hk, hlast⟩ := exists_lastByte hroom hleft hlen
    rw [← hk] at hno hlen ⊢
    have hsearch := h.searchThrough_take (n := k) (by omega) fun i hi => hno i (by omega)
    rw [formFrame_ends_at hb hsearch (by omega) (by omega) (.inr hk), h.markStep_eq hb, hno k (Nat.lt_succ_self k) b hb,
      Bool.false_or]
    simp only [hlast]
  · have hsearch := h.searchThrough_take (Nat.le_refl _) fun i hi => hno i (by omega)
    rw [List.take_length] at hsearch
    exact formFrame_waits hsearch hshort

end Searched

/-! ### The frame size (R96) -/

theorem portFrameSize_eq (w : Word) :
    portFrameSize w = 64 * (2 * (w.getLsbD 9).toNat + (w.getLsbD 8).toNat + 1) := by
  simp only [portFrameSize, bits, BitVec.getLsbD, Nat.toNat_testBit, Nat.shiftRight_eq_div_pow]
  omega

/-! ### The buffer (R92, R94) -/

/-- A buffered line holds byte `i` of a copy. -/
def BufferLine.holds (l : BufferLine) (copy i : Nat) : Prop :=
  l.copy = copy ∧ l.offset ≤ i ∧ i < l.offset + l.bytes.length

/-- One line lies wholly before another in the sequence. -/
def BufferLine.precedes (a b : BufferLine) : Prop :=
  a.copy < b.copy ∨ (a.copy = b.copy ∧ a.offset + a.bytes.length ≤ b.offset)

/-- A line has a byte left to be framed. -/
def BufferLine.unframed (l : BufferLine) (copy next : Nat) : Prop :=
  copy < l.copy ∨ (l.copy = copy ∧ next < l.offset + l.bytes.length)

/-- One line begins before another in the sequence. -/
def BufferLine.beginsBefore (a b : BufferLine) : Prop :=
  a.copy < b.copy ∨ (a.copy = b.copy ∧ a.offset < b.offset)

/-- The bytes of a line from a place on, when the copy's byte at each place is `byteAt`'s. -/
theorem drop_eq_map_range {l : BufferLine} {byteAt : Nat → Byte}
    (hbytes : ∀ i b, l.bytes[i]? = some b → byteAt (l.offset + i) = b) {next : Nat} (hfrom : l.offset ≤ next) :
    l.bytes.drop (next - l.offset) =
      (List.range (l.offset + l.bytes.length - next)).map fun i => byteAt (next + i) := by
  refine List.ext_getElem ?_ fun i hi _ => ?_
  · simp only [List.length_drop, List.length_map, List.length_range]
    omega
  · rw [List.length_drop] at hi
    rw [List.getElem_drop, List.getElem_map, List.getElem_range]
    have hplace : l.offset + (next - l.offset + i) = next + i := by omega
    rw [← hplace]
    exact (hbytes _ _ (List.getElem?_eq_getElem (by omega))).symm

/-- The bytes at hand are the copy's, from the next byte to the first that no line holds (R94). -/
theorem availableBytes_eq {copy stop : Nat} {byteAt : Nat → Byte} {ls : List BufferLine} {next : Nat}
    (horder : ls.Pairwise BufferLine.precedes) (hlines : ∀ l ∈ ls, l.bytes ≠ [] ∧ l.unframed copy next)
    (hbytes : ∀ l ∈ ls, l.copy = copy → ∀ i b, l.bytes[i]? = some b → byteAt (l.offset + i) = b)
    (hstop : next ≤ stop) (hheld : ∀ i, next ≤ i → i < stop → ∃ l ∈ ls, l.holds copy i)
    (hgap : ∀ l ∈ ls, ¬l.holds copy stop) :
    availableBytes copy next ls = (List.range (stop - next)).map fun i => byteAt (next + i) := by
  induction ls generalizing next with
  | nil =>
    have hend : stop - next = 0 := by
      by_contra hmore
      obtain ⟨l, hl, -⟩ := hheld next (Nat.le_refl _) (by omega)
      nomatch hl
    rw [hend]
    rfl
  | cons l ls ih =>
    obtain ⟨hbehind, horder⟩ := List.pairwise_cons.1 horder
    obtain ⟨⟨-, hfirst⟩, hlines⟩ := List.forall_mem_cons.1 hlines
    obtain ⟨hhere, hbytes⟩ := List.forall_mem_cons.1 hbytes
    obtain ⟨hnot, hgap⟩ := List.forall_mem_cons.1 hgap
    unfold availableBytes
    split
    case isTrue hholds =>
      obtain ⟨hcopy, hfrom, hto⟩ := hholds
      have hend : l.offset + l.bytes.length ≤ stop := by
        by_contra hover
        exact hnot ⟨hcopy, by omega, by omega⟩
      have hrest := ih (next := l.offset + l.bytes.length) horder (fun x hx => ?_) hbytes hend (fun i hi hlt => ?_) hgap
      · rw [hrest, drop_eq_map_range (hhere hcopy) hfrom]
        have hsum : stop - next = (l.offset + l.bytes.length - next) + (stop - (l.offset + l.bytes.length)) := by omega
        rw [hsum, List.range_add, List.map_append, List.map_map]
        congr 1
        refine List.map_congr_left fun i _ => congrArg byteAt ?_
        dsimp only
        omega
      · obtain ⟨hsome, hx'⟩ := hlines x hx
        have hlen := List.length_pos_of_ne_nil hsome
        refine ⟨hsome, ?_⟩
        have hpre := hbehind x hx
        unfold BufferLine.unframed BufferLine.precedes at *
        omega
      · obtain ⟨x, hx, hholds⟩ := hheld i (by omega) hlt
        obtain rfl | hx := List.mem_cons.1 hx
        · obtain ⟨-, -, hlt'⟩ := hholds
          omega
        · exact ⟨x, hx, hholds⟩
    case isFalse hno =>
      have hend : stop - next = 0 := by
        by_contra hmore
        obtain ⟨x, hx, hholds⟩ := hheld next (Nat.le_refl _) (by omega)
        obtain rfl | hx := List.mem_cons.1 hx
        · exact hno hholds
        · have hpre := hbehind x hx
          unfold BufferLine.unframed BufferLine.precedes BufferLine.holds at *
          omega
      rw [hend]
      rfl

/-- A line takes its place by its position in the sequence (R94). -/
theorem insertLine_pairwise {x : BufferLine} {ls : List BufferLine} (horder : ls.Pairwise BufferLine.beginsBefore)
    (hnew : ∀ l ∈ ls, l.copy ≠ x.copy ∨ l.offset ≠ x.offset) : (insertLine x ls).Pairwise BufferLine.beginsBefore := by
  induction ls with
  | nil => exact List.pairwise_singleton _ x
  | cons l ls ih =>
    obtain ⟨hbehind, hrest⟩ := List.pairwise_cons.1 horder
    obtain ⟨hl, hls⟩ := List.forall_mem_cons.1 hnew
    unfold insertLine
    split
    case isTrue hlt =>
      refine List.pairwise_cons.2 ⟨fun y hy => ?_, horder⟩
      obtain rfl | hy := List.mem_cons.1 hy
      · exact hlt
      · have hly := hbehind y hy
        unfold BufferLine.beginsBefore at *
        omega
    case isFalse hge =>
      refine List.pairwise_cons.2 ⟨fun y hy => ?_, ih hrest hls⟩
      obtain rfl | hy := List.mem_cons.1 ((insertLine_perm x ls).mem_iff.1 hy)
      · unfold BufferLine.beginsBefore
        omega
      · exact hbehind y hy

/-- A line leaves the buffer when its last byte has been framed (R94). -/
theorem dropFramed_eq_filter (copy next : Nat) (ls : List BufferLine) : dropFramed copy next ls =
    ls.filter fun l => decide (copy < l.copy ∨ (l.copy = copy ∧ next < l.offset + l.bytes.length)) := by
  refine List.filter_congr fun l _ => ?_
  rw [Bool.eq_iff_iff, decide_eq_true_iff]
  simp only [Bool.not_eq_true', Bool.or_eq_false_iff, Bool.and_eq_false_iff, decide_eq_false_iff_not,
    beq_eq_false_iff_ne]
  omega

/-- Settles O45: the search through the bytes before a frame's last gives the frame, and the bytes are those of the lines in
sequence order. -/
theorem framesEndAtTheRightByte : Obligations.FramesEndAtTheRightByte := by
  refine ⟨?noMarks, ?marks, ?size, ?available, ?inserted, dropFramed_eq_filter⟩
  case noMarks =>
    intro room left lead bytes hroom hleft n
    obtain ⟨hshort, hfull⟩ := formFrame_noMarks hroom hleft lead bytes
    exact ⟨hshort, hfull, fun r before mark after hlead hmark hlen => formFrame_firstMark hlead hmark hlen after⟩
  case marks =>
    intro r room left lead bytes pend hroom hleft n marked completes hstart hpend
    have hmarked : r.matches = marked := funext (matches_eq_all r)
    have hcompletes (k : Nat) : ¬completes k ↔ ∀ b, bytes[k]? = some b → (pend k && r.matches b) = false := by
      rw [hmarked]
      refine ⟨fun hno b hb => Bool.eq_false_iff.2 fun h => ?_, fun hno hcomplete => ?_⟩
      · obtain ⟨hlead, hmark⟩ := Bool.and_eq_true_iff.1 h
        exact hno ⟨hlead, b, hb, hmark⟩
      · obtain ⟨hlead, b, hb, hmark⟩ := hcomplete
        exact Bool.eq_false_iff.1 (hno b hb) (Bool.and_eq_true_iff.2 ⟨hlead, hmark⟩)
    have hsearch : Pends r bytes pend := ⟨by rw [hmarked]; exact hpend⟩
    rw [← hstart]
    simp only [hcompletes]
    refine ⟨fun k hk hcomplete hfirst => ?_, hsearch.formFrame_noMark hroom hleft⟩
    obtain ⟨hlead, b, hb, hmark⟩ := hcomplete
    exact hsearch.formFrame_mark hk hb (by rw [hlead, hmarked, hmark]; rfl) hfirst
  case size =>
    intro p j s size
    have hsize : portFrameSize (s.portWord p) = size := by
      rw [portFrameSize_eq]
      dsimp only [size]
      cases (s.portWord p).getLsbD 9 <;> cases (s.portWord p).getLsbD 8 <;> rfl
    rw [State.nextFrame, hsize]
  case available =>
    intro copy next stop byteAt ls holds horder hlines hbytes
    exact availableBytes_eq horder hlines hbytes
  case inserted =>
    intro x ls before horder hnew
    exact ⟨insertLine_perm x ls, insertLine_pairwise horder hnew⟩

end Sys2Proof.Machine

/-! ## TRAIN_ACK and CREDIT (R114, R117 to R119, R145 to R147) -/

namespace Sys2Proof.Machine

section LinkFrames
variable {s : State} {p : PortId} {n : Byte}

/-- Only what an update makes of the link that is there counts. -/
theorem modLink_congr {f g : Link → Link} (h : f (s.port p).link = g (s.port p).link) :
    s.modLink p f = s.modLink p g := by
  simp only [State.modLink, State.modPort, h]

theorem modLink_modLink (s : State) (p : PortId) (f g : Link → Link) :
    (s.modLink p f).modLink p g = s.modLink p fun l => g (f l) := by
  simp only [State.modLink, State.modPort, State.setPort, State.port, tget_tset_self, tset_tset]

theorem startSilence_modLink (s : State) (p : PortId) (f : Link → Link) : (s.modLink p f).startSilence p =
    s.modLink p fun l => { f l with
      silence := .running s.milliseconds s.microseconds (portSilenceMs (s.portWord p)) } := by
  rw [State.startSilence, modLink_modLink]
  rfl

/-! ### TRAIN_ACK (R117, R118, R125) -/

theorem exec_trainAck (hup : (s.port p).link.state ≠ .disabled) (hlow : 1 ≤ n.toNat) (hhigh : n.toNat ≤ 32) :
    exec (.trainAck p n) s = .next ((s.heard p).takeTrainAck p n.toNat) := by
  rw [← heard_eq]
  exact congrArg Host.Outcome.next (receive_trainAck (s := s.clearOut) hup hlow hhigh)

theorem takeTrainAck_trained (h : (s.port p).link.state = .ready ∨ (s.port p).link.state = .waking ∨
    (s.port p).link.state = .drowsy) (k : Nat) : s.takeTrainAck p k = s := by
  unfold State.takeTrainAck
  obtain h | h | h := h <;> rw [h]

/-- A TRAINING or OFFLINE link is READY with the credits, and the jam stop may end (R117, R118, R146). -/
theorem becameReady_takeTrainAck (h : (s.port p).link.state = .training ∨ (s.port p).link.state = .offline) (k : Nat) :
    becameReady (· = p) (s.modLink p fun l =>
      { l with state := .ready, credits := k, training := .stopped,
               silence := .running s.milliseconds s.microseconds (portSilenceMs (s.portWord p)) })
      (s.takeTrainAck p k) p := by
  have htaken : s.takeTrainAck p k =
      ((s.modLink p fun l => { l with credits := k, training := .stopped }).startSilence p).becomeReady p := by
    unfold State.takeTrainAck
    obtain h | h := h <;> rw [h]
  have hready := becameReady_becomeReady
    ((s.modLink p fun l => { l with credits := k, training := .stopped }).startSilence p) p
  rw [htaken]
  rw [startSilence_modLink] at hready ⊢
  rw [modLink_modLink] at hready
  exact hready

/-- Credits out of range make a bad frame (R114, R117). -/
theorem judgeFrame_creditsOutOfRange (h : n.toNat = 0 ∨ 32 < n.toNat) : judgeFrame (closeFrame [0x81#8, n]) = .bad := by
  rw [judgeFrame_closeFrame, judgeBody_bad_iff]
  rintro (⟨k, hk, hlow, hhigh⟩ | ⟨k, hk⟩ | ⟨lo, hi, k, hk⟩)
  · obtain rfl : n = k := List.head_eq_of_cons_eq (List.tail_eq_of_cons_eq hk)
    omega
  · exact absurd (List.head_eq_of_cons_eq hk) (by decide)
  · exact absurd (List.head_eq_of_cons_eq hk) (by decide)

/-! ### CREDIT (R119) -/

theorem exec_credit (hup : (s.port p).link.state ≠ .disabled) :
    exec (.credit p n) s = .next ((s.heard p).takeCredit p (n.toNat % 16)) := by
  rw [← heard_eq]
  exact congrArg Host.Outcome.next (receive_credit (s := s.clearOut) hup)

theorem takeCredit_untrained (h : (s.port p).link.state = .training ∨ (s.port p).link.state = .offline) (k : Nat) :
    s.takeCredit p k = s := by
  unfold State.takeCredit
  obtain h | h := h <;> rw [h]

/-- A grant raises the credits to 32 at most, and counts an overflow above (R119). -/
theorem Link.granted_eq (l : Link) (k : Nat) : l.granted k = { l with
    credits := min (l.credits + k) 32
    overflows := if 32 < l.credits + k then l.overflows + 1 else l.overflows } := by
  unfold Link.granted
  split
  case isTrue h =>
    have h : 32 < l.credits + k := h
    rw [if_pos h, Nat.min_eq_right h.le]
    rfl
  case isFalse h =>
    have h : ¬32 < l.credits + k := h
    rw [if_neg h, Nat.min_eq_left (Nat.not_lt.1 h)]

theorem settledAt_takeCredit (h : (s.port p).link.state = .ready ∨ (s.port p).link.state = .waking ∨
    (s.port p).link.state = .drowsy) (k : Nat) :
    settledAt p (s.modLink p fun l => { l with
      credits := min ((s.port p).link.credits + k) 32
      overflows := if 32 < (s.port p).link.credits + k then l.overflows + 1 else l.overflows }) (s.takeCredit p k) := by
  have htaken : s.takeCredit p k = (s.modLink p fun l => l.granted k).settlePort p := by
    unfold State.takeCredit
    obtain h | h | h := h <;> rw [h]
  rw [htaken, ← modLink_congr (f := fun l => l.granted k) (Link.granted_eq _ k)]
  exact settledAt_settlePort _ p

end LinkFrames

/-- Settles O46: a frame is heard, and then taken by the state of the link. -/
theorem trainAcksAndCreditsAreServed : Obligations.TrainAcksAndCreditsAreServed := by
  refine ⟨fun p n s => ⟨fun hlow hhigh => ⟨fun hst => ?_, fun hst => ?_⟩, fun hdown => ?_, fun hrange => ?_⟩,
    fun p n s => ⟨fun hst => ?_, fun hst => ?_, fun hdown => ?_⟩⟩
  all_goals have hheard : ((s.heard p).port p).link.state = (s.port p).link.state := by rw [heard_port]; rfl
  · refine ⟨_, exec_trainAck (by obtain e | e := hst <;> exact e ▸ nofun) hlow hhigh, ?_⟩
    exact becameReady_takeTrainAck (by rw [hheard]; exact hst) n.toNat
  · rw [exec_trainAck (by obtain e | e | e := hst <;> exact e ▸ nofun) hlow hhigh,
      takeTrainAck_trained (by rw [hheard]; exact hst)]
  · exact congrArg Host.Outcome.next (receive_closed s.clearOut p _ hdown)
  · exact ⟨rfl, judgeFrame_creditsOutOfRange hrange⟩
  · refine ⟨_, exec_credit (by obtain e | e | e := hst <;> exact e ▸ nofun), ?_⟩
    have hu := settledAt_takeCredit (s := s.heard p) (p := p) (by rw [hheard]; exact hst) (n.toNat % 16)
    rw [show ((s.heard p).port p).link.credits = (s.port p).link.credits by rw [heard_port]; rfl] at hu
    exact hu
  · rw [exec_credit (by obtain e | e := hst <;> exact e ▸ nofun), takeCredit_untrained (by rw [hheard]; exact hst)]
  · exact congrArg Host.Outcome.next (receive_closed s.clearOut p _ hdown)

end Sys2Proof.Machine

/-! ## The capture of a port's enable and disable (R25, R116, R130, R132) -/

namespace Sys2Proof.Machine

section PortEnable
variable {s u : State} {x : WordBytes} {p : PortId}

/-- What the capture of a port's word brings about is by the word before it and the word it captures (R25). -/
theorem capture_port (s : State) (x : WordBytes) (p : PortId) : s.clearOut.capture [x.part (.port p)] =
    ((s.captured x (.port p)).portCaptured p (s.portWord p) (x.result s (.port p))).settle := by
  have hafter : (s.captured x (.port p)).image.get (.port p) = x.result s (.port p) := Image.get_put s.image (.port p) _
  rw [← hafter]
  rfl

theorem portCaptured_enable (s : State) (p : PortId) {before after : Word} (hoff : portOn before = false)
    (hon : portOn after = true) : s.portCaptured p before after = s.enablePort p := by
  rw [State.portCaptured, hoff, hon]
  rfl

theorem portCaptured_disable (s : State) (p : PortId) {before after : Word} (hon : portOn before = true)
    (hoff : portOn after = false) : s.portCaptured p before after = s.disablePort p := by
  rw [State.portCaptured, hon, hoff]
  rfl

/-- An enable's link is in TRAINING, with TRAIN handed and its timer started (R116). -/
theorem enablePort_eq (h : s.out = []) (p : PortId) : s.enablePort p =
    { s.modLink p fun l =>
        { l with state := .training, credits := 0, badRun := 0, training := .running s.milliseconds s.microseconds 250 }
      with out := [.frame p Frame.train.wire] } := by
  rw [State.enablePort, State.handTrain, modLink_modLink, State.hand, State.emit, State.modLink_out, h]
  rfl

/-- A disabled port settles with its engine IDLE, held or not, and its idle timer stopped (R71, R123, R130). -/
theorem settled_disabled (h : settled (s.disablePort p) u) (hoff : portOn (s.portWord p) = false) :
    (u.port p).engine.state = .idle ∧ (u.port p).link.idle = .stopped := by
  have hport : (s.disablePort p).port p = _ := State.port_modPort_self s p _
  have hword : (s.disablePort p).portWord p = s.portWord p := rfl
  obtain ⟨hstate, hidle⟩ := (h.2.2 p).1 trivial
  refine ⟨?_, hidle.2 (awake_of_link h (by rw [hport]; nofun))⟩
  rw [hstate, judged_idle (by rw [hport]; nofun) (by rw [hport]), hword, hoff]
  rfl

end PortEnable

/-- Settles O15. -/
theorem enablesTrainAndDisablesTurnOff : Obligations.EnablesTrainAndDisablesTurnOff := by
  refine ⟨?enable, ?disable⟩
  case enable =>
    intro x p s h hx v hoff hon hzero hsilence
    have hrow : Instr.portEnable (x.write (.port p)) ∈ settingRows (x.write (.port p)) s := by simp [settingRows]
    have hlock : ¬s.clearOut.lockHolds v (.port p) := fun hl => Bool.noConfusion (hoff.symm.trans hl.1)
    have hj := judgeSettings_word (s := s.clearOut) rfl hlock hzero hsilence nofun
    refine forwards_captured hrow h hx hj ((capture_port s x p).trans ?_)
    rw [portCaptured_enable _ p hoff hon, enablePort_eq (s := s.captured x (.port p)) rfl]
    rfl
  case disable =>
    intro x p s h hx v hon hoff hzero hsilence hfree
    have hrow : Instr.portDisable (x.write (.port p)) ∈ settingRows (x.write (.port p)) s := by simp [settingRows]
    have hlock : ¬s.clearOut.lockHolds v (.port p) := fun ⟨_, _, t, huses⟩ => hfree t huses
    have hj := judgeSettings_word (s := s.clearOut) rfl hlock hzero hsilence nofun
    have hcapture : s.clearOut.capture [x.part (.port p)] = ((s.captured x (.port p)).disablePort p).settle := by
      rw [capture_port, portCaptured_disable _ p hon hoff]
    refine ⟨⟨_, exec_setting_captured hrow h hx hj hcapture, ?_⟩, forwards_captured hrow h hx hj hcapture⟩
    rw [port_forwardWrite _ (x.write_line s (.port p))]
    have hword : (s.captured x (.port p)).portWord p = v := Image.get_put s.image (.port p) _
    exact settled_disabled (settled_settle _) (by rw [hword]; exact hoff)

end Sys2Proof.Machine

/-! ## A STATUS with no JAM edge (R114, R120, R125 to R127, R134 to R136, R145 to R147) -/

namespace Sys2Proof.Machine

/-! ### A STATUS with no JAM edge, served (R120, R134 to R136) -/

section NoJam
variable {s d : State} {p : PortId}

theorem Link.heard_heard (l : Link) (now : BitVec 32) (us ms : Nat) :
    (l.heard now us ms).heard now us ms = l.heard now us ms := by
  by_cases h : l.silence = .stopped <;> simp [Link.heard, h]

/-- Once a STATUS is heard and its sheets are matched, to hear it again changes nothing. -/
theorem heard_sheetsMatched (h : SheetsFrame (s.heard p) d p) : d.heard p = d := by
  have hword : d.portWord p = s.portWord p := by rw [State.portWord, h.image]; rfl
  have hlink : (d.port p).link.heard d.milliseconds d.microseconds (portSilenceMs (d.portWord p)) = (d.port p).link := by
    rw [h.link, heard_port, h.milliseconds, h.microseconds, hword]
    exact Link.heard_heard _ _ _ _
  have hports : (d.heard p).ports = d.ports := by
    have hself : (d.heard p).ports = tset d.ports p { d.port p with
        link := (d.port p).link.heard d.milliseconds d.microseconds (portSilenceMs (d.portWord p)) } := rfl
    rw [hself, hlink]
    exact tset_tget d.ports p
  have hout : (d.heard p).out = d.out := h.out.symm
  have hframe : d.heard p = { d with ports := (d.heard p).ports, out := (d.heard p).out } := rfl
  rw [hframe, hports, hout]

theorem truths_of_image {t : State} (h : t.image = s.image) (p : PortId) (bits : BitVec 16) :
    t.truths p bits = s.truths p bits := by
  rw [State.truths, h, State.truths]

/-- The state that the statements name after a STATUS with no JAM edge is the one with its alerts raised. -/
theorem watched_eq_alerted (s : State) (p : PortId) (bits : BitVec 16) (n : Byte) (order : List CondId) :
    { (s.sheetsMatched p n).watched p bits with
      relay := { (s.sheetsMatched p n).relay with
        backlog := order.foldl (s.withEdge p bits) (s.sheetsMatched p n).relay.backlog } } =
    s.alerted p bits n order ((s.sheetsMatched p n).draws + 1) := by
  have hframe : SheetsFrame (s.heard p) (s.sheetsMatched p n) p := sheetsFrame_deliverSheets (s.heard p) p _
  rw [State.watched, heard_sheetsMatched hframe, truths_of_image (s := s) hframe.image]
  rfl

theorem raiseEdges_draws (p : PortId) (after : Vector HeldCondition 4) (bits : BitVec 16) (hand : Option Slot)
    (order : List CondId) (s : State) : (order.foldl (State.raiseEdge p after bits hand) s).draws = s.draws := by
  induction order generalizing s with
  | nil => rfl
  | cons c cs ih => exact ih _

/-- One evaluation takes one free value (log entry 11). -/
theorem watchStatus_draws (s : State) (p : PortId) (bits : BitVec 16) :
    (s.watchStatus p bits).draws = s.draws + 1 := by
  unfold State.watchStatus
  dsimp only
  split
  case isTrue =>
    rw [rewind_frame]
    exact raiseEdges_draws ..
  case isFalse => exact raiseEdges_draws ..

/-- A STATUS with no JAM edge, served. -/
theorem serveStatus_noJam {bits : BitVec 16} (n : Byte)
    (h : ∀ c, s.edge p bits c → (tget (s.truths p bits) c).cls ≠ .jam) : ∃ order, s.edgeOrder p bits order ∧
      (s.heard p).serveStatus p bits (n.toNat % 16) = s.alerted p bits n order ((s.sheetsMatched p n).draws + 1) := by
  obtain ⟨order, draws, horder, hserve⟩ := serveStatus_eq s p bits n
  have hnone : ¬(order.any fun c => (tget (s.truths p bits) c).cls == .jam) = true := by
    rw [List.any_eq_true]
    rintro ⟨c, hc, hjam⟩
    exact h c ((horder.2 c).1 hc) (beq_iff_eq.1 hjam)
  rw [if_neg hnone] at hserve
  have hdraws : (s.sheetsMatched p n).draws + 1 = draws :=
    (watchStatus_draws (s.sheetsMatched p n) p bits).symm.trans (congrArg State.draws hserve)
  exact ⟨order, horder, hdraws ▸ hserve⟩

/-! ### What follows at the link (R125 to R127, R146) -/

theorem judgeJamStop_asleep (h : (s.port p).link.state ≠ .ready) : s.judgeJamStop p = s := by
  refine judgeJamStop_stays fun hover => h ?_
  simp only [Port.jamStopOver, Bool.and_eq_true, beq_iff_eq] at hover
  exact hover.1.1.2

/-- The end condition of the jam stop reads nothing that settling moves. -/
theorem jamStopOver_of_still {x y : Port} (h : y.still = x.still) : y.jamStopOver = x.jamStopOver := by
  have hjam : (y.engine.state == .jamStop) = (x.engine.state == .jamStop) := by
    rw [Bool.eq_iff_iff, beq_iff_eq, beq_iff_eq]
    exact Port.jamStop_of_still h
  simp only [Port.jamStopOver, hjam, Port.state_of_still h, Port.watch_of_still h, Port.recordedMode_of_still h,
    Port.consent_of_still h]

/-- Once the jam stop is judged and the port has settled, it is not over again. -/
theorem judgeJamStop_settled (s : State) (p : PortId) :
    ((s.judgeJamStop p).settlePort p).judgeJamStop p = (s.judgeJamStop p).settlePort p := by
  refine judgeJamStop_stays ?_
  rw [jamStopOver_of_still (State.port_still (still_settlePort (s.judgeJamStop p) p) p)]
  by_cases h : (s.port p).jamStopOver = true
  · rw [judgeJamStop_over h, State.port_modEngine_self]
    exact nofun
  · rw [judgeJamStop_stays h]
    exact h

theorem becameReady_atWake (h : (s.port p).link.state = .ready) :
    becameReady (fun _ => True) s ((((s.judgeJamStop p).settlePort p).judgeJamStop p).settle) p := by
  rw [judgeJamStop_settled]
  exact becameReady_of_settles h (settled_settlePort_settle _ p)

end NoJam

/-! ### A STATUS taken, by the state of the link (R120, R125, R127) -/

section Taken
variable {s v : State} {p : PortId} {bits : BitVec 16} {n : Nat}

theorem takeStatus_untrained (h : (s.port p).link.state = .training ∨ (s.port p).link.state = .offline)
    (bits : BitVec 16) (n : Nat) : s.takeStatus p bits n = s := by
  unfold State.takeStatus
  obtain h | h := h <;> rw [h]

theorem takeStatus_ready (h : (s.port p).link.state = .ready) (hv : s.serveStatus p bits n = v) :
    s.takeStatus p bits n = (v.judgeJamStop p).settle := by
  simp only [State.takeStatus, h, hv]

theorem takeStatus_waking (h : (s.port p).link.state = .waking) (hv : s.serveStatus p bits n = v) :
    s.takeStatus p bits n = ((v.statusInWaking p bits).judgeJamStop p).settle := by
  simp only [State.takeStatus, h, hv]

theorem takeStatus_drowsy (h : (s.port p).link.state = .drowsy) (hv : s.serveStatus p bits n = v) :
    s.takeStatus p bits n = (if portWakeOnStatus (v.portWord p) then v.wake p else v).settle := by
  simp only [State.takeStatus, h, hv]

theorem statusInWaking_offline (h : bits.getLsbD 0 = false) : v.statusInWaking p bits = v := by
  rw [State.statusInWaking, onlineBit, h]
  rfl

theorem statusInWaking_seen (h : bits.getLsbD 0 = true) (hwarm : (v.port p).link.warm ≠ .expired) :
    v.statusInWaking p bits = v.modLink p fun l => { l with onlineSeen := true } := by
  rw [State.statusInWaking, onlineBit, h, if_pos rfl]
  exact if_neg (by rw [State.port_modLink_self]; exact hwarm)

theorem statusInWaking_completes (h : bits.getLsbD 0 = true) (hwarm : (v.port p).link.warm = .expired) :
    v.statusInWaking p bits =
      ((v.modLink p fun l => { l with state := .ready, onlineSeen := true }).judgeJamStop p).settlePort p := by
  have hready : ((v.modLink p fun l => { l with onlineSeen := true }).modLink p fun l => { l with state := .ready }) =
      v.modLink p fun l => { l with state := .ready, onlineSeen := true } := modLink_modLink v p _ _
  rw [State.statusInWaking, onlineBit, h, if_pos rfl, ← hready]
  exact if_pos (by rw [State.port_modLink_self]; exact hwarm)

/-- A WAKING link with ONLINE seen and the warm timer expired becomes READY (R127, R146). -/
theorem becameReady_statusInWaking (h : bits.getLsbD 0 = true) (hwarm : (v.port p).link.warm = .expired) :
    becameReady (fun _ => True) (v.modLink p fun l => { l with state := .ready, onlineSeen := true })
      ((v.statusInWaking p bits).judgeJamStop p).settle p := by
  rw [statusInWaking_completes h hwarm]
  exact becameReady_atWake (by rw [State.port_modLink_self])

/-- A WAKING link that waits for its warm timer has seen ONLINE (R127). -/
theorem settled_statusInWaking_seen (hst : (v.port p).link.state = .waking) (h : bits.getLsbD 0 = true)
    (hwarm : (v.port p).link.warm ≠ .expired) : settled (v.modLink p fun l => { l with onlineSeen := true })
      ((v.statusInWaking p bits).judgeJamStop p).settle := by
  rw [statusInWaking_seen h hwarm, judgeJamStop_asleep (by rw [State.port_modLink_self]; exact hst ▸ nofun)]
  exact settled_settle _

theorem settled_statusInWaking_offline (hst : (v.port p).link.state = .waking) (h : bits.getLsbD 0 = false) :
    settled v ((v.statusInWaking p bits).judgeJamStop p).settle := by
  rw [statusInWaking_offline h, judgeJamStop_asleep (hst ▸ nofun)]
  exact settled_settle v

/-- The link WAKING, WAKE handed and the warm timer started (R126). -/
def State.waked (s : State) (p : PortId) : State :=
  (s.modLink p fun l => { l with
    state := .waking, warm := .running s.milliseconds s.microseconds (portWarmMs (s.portWord p)), onlineSeen := false }).hand
      p .wake

theorem wake_eq (s : State) (p : PortId) : s.wake p = (s.waked p).settlePort p := rfl

theorem waked_eq (h : v.out = []) (p : PortId) : v.waked p =
    { v.modLink p fun l => { l with
        state := .waking, warm := .running v.milliseconds v.microseconds (portWarmMs (v.portWord p)), onlineSeen := false }
      with out := [.frame p Frame.wake.wire] } := by
  rw [State.waked, State.hand, State.emit, State.modLink_out, h]
  rfl

/-- A DROWSY link with wake-on-status on hands WAKE and is WAKING (R125, R126). -/
theorem settled_statusWakes (v : State) (p : PortId) :
    settled (if portWakeOnStatus (v.portWord p) then v.waked p else v)
      (if portWakeOnStatus (v.portWord p) then v.wake p else v).settle := by
  split
  case isTrue =>
    rw [wake_eq]
    exact settled_settlePort_settle (v.waked p) p
  case isFalse => exact settled_settle v

end Taken

/-- Settles O48: with no JAM edge the statement's state is the one with the edges' alerts raised, and what follows is by the
state of the link. -/
theorem statusEvaluatesTheConditions : Obligations.StatusEvaluatesTheConditions := by
  intro p bits n s d l
  refine ⟨fun hst => congrArg Host.Outcome.next (receive_closed s.clearOut p _ hst), fun hst => ?_,
    fun hst hjam => ?_⟩
  · have hheard : ((s.heard p).port p).link.state = .training ∨ ((s.heard p).port p).link.state = .offline := by
      rw [heard_port]
      exact hst
    rw [exec_status (by obtain e | e := hst <;> exact e ▸ nofun), takeStatus_untrained hheard]
  obtain ⟨order, horder, hserve⟩ := serveStatus_noJam n hjam
  have hup : (s.port p).link.state ≠ .disabled := by obtain e | e | e := hst <;> exact e ▸ nofun
  refine ⟨order, horder, ?_⟩
  have hv := watched_eq_alerted s p bits n order
  have hframe : SheetsFrame (s.heard p) d p := sheetsFrame_deliverSheets (s.heard p) p _
  intro v
  change v = _ at hv
  rw [← hv] at hserve
  have hout : v.out = [] := by rw [hv]; exact hframe.out
  have hlink : (v.port p).link = ((s.heard p).port p).link := by rw [hv, alerted_port]; exact hframe.link
  have hword : v.portWord p = s.portWord p := by
    rw [State.portWord, hv, show (s.alerted p bits n order _).image = s.image from hframe.image, State.portWord]
  have hms : v.milliseconds = s.milliseconds := by rw [hv]; exact hframe.milliseconds
  have hus : v.microseconds = s.microseconds := by rw [hv]; exact hframe.microseconds
  clear_value v
  have hheard : ((s.heard p).port p).link.state = l.state := by rw [heard_port]; rfl
  have hstate : (v.port p).link.state = l.state := by rw [hlink, hheard]
  have hwarm : (v.port p).link.warm = l.warm := by rw [hlink, heard_port]; rfl
  refine ⟨_, exec_status hup bits n, fun hready => ?_, fun hwaking => ⟨fun hon hexp => ?_, fun hon hexp => ?_, fun hoff => ?_⟩,
    fun hdrowsy => ?_⟩
  · rw [takeStatus_ready (hheard.trans hready) hserve]
    exact becameReady_of_settles (hstate.trans hready) (settled_settle _)
  · rw [takeStatus_waking (hheard.trans hwaking) hserve]
    exact becameReady_statusInWaking hon (hwarm.trans hexp)
  · rw [takeStatus_waking (hheard.trans hwaking) hserve]
    exact settled_statusInWaking_seen (hstate.trans hwaking) hon (hwarm ▸ hexp)
  · rw [takeStatus_waking (hheard.trans hwaking) hserve]
    exact settled_statusInWaking_offline (hstate.trans hwaking) hoff
  · rw [takeStatus_drowsy (hheard.trans hdrowsy) hserve, ← hword, ← hms, ← hus, ← waked_eq hout]
    exact settled_statusWakes v p

end Sys2Proof.Machine

/-! ## PORT_WAKE (R123, R126, R128) -/

namespace Sys2Proof.Machine

section Wake
variable {s X : State} {p : PortId} {c : CommandWrite} {r : CommandResult}

theorem perform_portWake (hp : c.argument.toNat = p.val) :
    s.perform 0x13 c.argument c.value.toNat = s.portWake p := by
  show s.onPort c.argument s.portWake = s.portWake p
  rw [State.onPort, portArg_eq hp]

/-- A PORT_WAKE taken with a port argument. -/
theorem exec_portWake (ht : s.takes 0x13 c) : exec (.portWake c) s =
    .next ((s.clearOut.takeCommand 0x13 c.argument c.value.toNat).ack c.tag .ok) := by
  obtain ⟨⟨⟨hopen, hheld⟩, hfree⟩, hcomp⟩ := ht
  exact congrArg Host.Outcome.next (commandWrite_taken (s := s.clearOut) hopen hheld hfree hcomp)

/-- A PORT_WAKE that leaves the port as it is. -/
theorem exec_portWake_unmoved (ht : s.takes 0x13 c) (hp : c.argument.toNat = p.val)
    (h : s.clearOut.portWake p = (s.clearOut, r)) : exec (.portWake c) s = .next (s.commanded 0x13 r c.tag) := by
  rw [exec_portWake ht, takeCommand_eq ((perform_portWake hp).trans h)]
  rfl

/-- A PORT_WAKE that moves the port's link, which then settles. -/
theorem exec_portWake_settled (ht : s.takes 0x13 c) (hp : c.argument.toNat = p.val)
    (h : s.clearOut.portWake p = (X.settlePort p, r)) : ∃ t, exec (.portWake c) s = .next t ∧
      settledAt p ((X.modCtl (Control.recorded 0x13 r)).ack c.tag .ok) t :=
  ⟨_, exec_portWake ht, takeCommand_settledPort p c.tag ((perform_portWake hp).trans h)⟩

end Wake

/-- Settles O22: by the state of the link. -/
theorem portWakeByLinkState : Obligations.PortWakeByLinkState := by
  refine fun c p s hp ht => ⟨fun hdrowsy => ?_, fun hready => ?_, fun hwaking => ?_, fun hst => ?_⟩
  · have hdrowsy : (s.clearOut.port p).link.state = .drowsy := hdrowsy
    refine exec_portWake_settled (X := s.clearOut.waked p) ht hp ?_
    simp only [State.portWake, hdrowsy]
    rfl
  · have hready : (s.clearOut.port p).link.state = .ready := hready
    have hmoved : s.clearOut.portWake p =
        ((s.clearOut.modLink p fun l => { l with idle := .stopped }).settlePort p, .done) := by
      simp only [State.portWake, hready]
    obtain ⟨t, hexec, hu⟩ := exec_portWake_settled ht hp hmoved
    refine ⟨t, hexec, hu, fun hd => ?_⟩
    have hidle := ((hu.2.2 p).1 rfl).2.1 hd
    rw [if_pos (by rw [State.ack, State.port_emit, State.port_modCtl, State.port_modLink_self])] at hidle
    exact hidle
  · have hwaking : (s.clearOut.port p).link.state = .waking := hwaking
    refine exec_portWake_unmoved ht hp ?_
    simp only [State.portWake, hwaking]
  · have hst : (s.clearOut.port p).link.state = .disabled ∨ (s.clearOut.port p).link.state = .training ∨
        (s.clearOut.port p).link.state = .offline := hst
    refine exec_portWake_unmoved ht hp ?_
    unfold State.portWake
    obtain e | e | e := hst <;> rw [e]

end Sys2Proof.Machine

/-! ## PORT_RESUME (R145 to R149) -/

namespace Sys2Proof.Machine

section Resume
variable {s : State} {p : PortId} {c : CommandWrite} {code : Byte}

/-- A command taken by its row with a port argument (R33). -/
theorem exec_portCommand {i : Instr} {f : PortId → State × CommandResult}
    (hi : exec i s = .next (s.clearOut.commandWrite code c)) (ht : s.takes code c) (hp : c.argument.toNat = p.val)
    (hperform : s.clearOut.perform code c.argument c.value.toNat = s.clearOut.onPort c.argument f) :
    exec i s = .next ((s.clearOut.takeCommand code c.argument c.value.toNat).ack c.tag .ok) ∧
      s.clearOut.perform code c.argument c.value.toNat = f p := by
  obtain ⟨⟨⟨hopen, hheld⟩, hfree⟩, hcomp⟩ := ht
  rw [State.onPort, portArg_eq hp] at hperform
  exact ⟨hi.trans (congrArg Host.Outcome.next (commandWrite_taken (s := s.clearOut) hopen hheld hfree hcomp)), hperform⟩

theorem modEngine_modEngine (s : State) (p : PortId) (f g : Engine → Engine) :
    (s.modEngine p f).modEngine p g = s.modEngine p fun e => g (f e) := by
  simp only [State.modEngine, State.modPort, State.setPort, State.port, tget_tset_self, tset_tset]

/-- A port's engine with the consent given: at a READY link the jam stop ends, at any other the consent waits
(R148, R149). -/
def State.resumed (s : State) (p : PortId) : State :=
  s.modEngine p fun e =>
    if (s.port p).link.state = .ready then { e with state := .idle, consent := false } else { e with consent := true }

theorem resumed_ready (h : (s.port p).link.state = .ready) :
    s.resumed p = s.modEngine p fun e => { e with state := .idle, consent := false } := by
  simp only [State.resumed, if_pos h]

theorem resumed_waits (h : (s.port p).link.state ≠ .ready) :
    s.resumed p = s.modEngine p fun e => { e with consent := true } := by
  simp only [State.resumed, if_neg h]

/-- The consent given and the jam stop judged: under either mode the consent ends it at a READY link (R146 to R149). -/
theorem judgeJamStop_consent (hjam : (s.port p).engine.state = .jamStop) (htruth : (s.port p).watch.holds .jam = false) :
    (s.modEngine p fun e => { e with consent := true }).judgeJamStop p = s.resumed p := by
  by_cases h : (s.port p).link.state = .ready
  · have hover : ((s.modEngine p fun e => { e with consent := true }).port p).jamStopOver = true := by
      rw [State.port_modEngine_self]
      exact (jamStopOver_iff (by exact h)).2 ⟨hjam, htruth, .inr rfl⟩
    rw [judgeJamStop_over hover, modEngine_modEngine, resumed_ready h]
  · rw [judgeJamStop_asleep (by rw [State.port_modEngine_self]; exact h), resumed_waits h]

/-- Outside JAM_STOP, or with a JAM truth held, PORT_RESUME does nothing (R148). -/
theorem portResume_refused (h : (s.port p).engine.state ≠ .jamStop ∨ (s.port p).watch.holds .jam = true) :
    s.portResume p = (s, .state) := by
  refine if_neg fun ⟨hjam, htruth⟩ => ?_
  obtain hout | hheld := h
  · exact hout hjam
  · exact Bool.noConfusion (htruth.symm.trans hheld)

theorem portResume_done (hjam : (s.port p).engine.state = .jamStop) (htruth : (s.port p).watch.holds .jam = false) :
    s.portResume p = ((s.resumed p).settlePort p, .done) := by
  rw [State.portResume, if_pos ⟨hjam, htruth⟩, judgeJamStop_consent hjam htruth]

/-- While the consent waits the engine is judged to stay in JAM_STOP (R145). -/
theorem judged_resumed_waits (hjam : (s.port p).engine.state = .jamStop) (h : (s.port p).link.state ≠ .ready) :
    (s.resumed p).judged p = .jamStop := by
  rw [judged_jamStop, resumed_waits h, State.port_modEngine_self]
  exact hjam

/-- An engine out of its jam stop, with no ticket in hand, is judged HELD or IDLE by the hold (R71, R149). -/
theorem judged_resumed_ready (h : (s.port p).link.state = .ready) (hnone : (s.port p).engine.job = none) :
    (s.resumed p).judged p = if portOn (s.portWord p) && (s.port p).onHold then .held else .idle := by
  have hself : (s.resumed p).port p =
      { s.port p with engine := { (s.port p).engine with state := .idle, consent := false } } := by
    rw [resumed_ready h, State.port_modEngine_self]
  rw [judged_idle (by rw [hself]; exact nofun) (by rw [hself]; exact hnone), hself]
  rfl

end Resume

/-- Settles O23: the consent is given and the jam stop judged; the engine then takes the state it is judged to have. -/
theorem portResumeEndsTheJamStop : Obligations.PortResumeEndsTheJamStop := by
  intro c p s hp ht
  obtain ⟨hexec, hperform⟩ := exec_portCommand (i := .portResume c) (f := s.clearOut.portResume) rfl ht hp rfl
  refine ⟨fun hrefused => ?_, fun hjam htruth => ?_⟩
  · rw [hexec, takeCommand_eq (hperform.trans (portResume_refused (s := s.clearOut) hrefused))]
    rfl
  · have hsettled : settledAt p ((s.commanded 0x15 .done c.tag).resumed p) _ :=
      takeCommand_settledPort p c.tag (hperform.trans (portResume_done (s := s.clearOut) hjam htruth))
    have hjudged := ((hsettled.2.2 p).1 rfl).1
    exact ⟨_, hexec, hsettled,
      fun hlink => hjudged.trans (judged_resumed_waits (s := s.commanded 0x15 .done c.tag) hjam hlink),
      fun hlink hnone => hjudged.trans (judged_resumed_ready (s := s.commanded 0x15 .done c.tag) hlink hnone)⟩

end Sys2Proof.Machine

/-! ## Account settings, the quota commands and METER_CLEAR (R157, R160 to R167) -/

namespace Sys2Proof.Machine

/-- Settles O17. -/
theorem accountSettingsAreCaptured : Obligations.AccountSettingsAreCaptured := fun _ _ _ h hx hzero hlock hrange =>
  forwards_one (by simp [settingRows]) h hx trivial (fun _ => hlock) hzero hrange nofun

section AccountCommands
variable {s : State} {a : AccountId} {c : CommandWrite} {code : Byte}

/-- A taken command goes to its owner, and is answered ACK OK (R9, R33). -/
theorem exec_taken {i : Instr} (hi : exec i s = .next (s.clearOut.commandWrite code c)) (ht : s.takes code c) :
    exec i s = .next ((s.clearOut.takeCommand code c.argument c.value.toNat).ack c.tag .ok) := by
  obtain ⟨⟨⟨hopen, hheld⟩, hfree⟩, hcomp⟩ := ht
  exact hi.trans (congrArg Host.Outcome.next (commandWrite_taken (s := s.clearOut) hopen hheld hfree hcomp))

/-- The value that QUOTA_SET may give `remaining`, by the account's policy (R161). -/
theorem quotaSetAllowed_iff (s : State) (a : AccountId) (v : Nat) : s.quotaSetAllowed a v = true ↔
    s.policy a = .none ∨ (s.policy a = .hold ∧ (s.account a).reserved ≤ v) ∨ (s.policy a = .reload ∧ 1 ≤ v) := by
  unfold State.quotaSetAllowed
  cases s.policy a <;> simp

theorem quotaSet_allowed {v : Nat} (h : s.quotaSetAllowed a v = true) :
    s.quotaSet a v = (s.modAccount a fun x => { x with remaining := v }, .done) := if_pos h

theorem quotaSet_refused {v : Nat} (h : ¬s.quotaSetAllowed a v = true) : s.quotaSet a v = (s, .state) := if_neg h

theorem onAccount_eq {arg : Byte} (ha : arg.toNat = a.val) (f : AccountId → State × CommandResult) :
    s.onAccount arg f = f a := by
  rw [State.onAccount, accountArg_eq ha]

theorem onQuota_eq {arg : Byte} {value : Nat} (ha : arg.toNat = a.val) (hv : value ≤ 16777215)
    (f : AccountId → State × CommandResult) : s.onQuota arg value f = ((f a).1.settle, (f a).2) := by
  rw [State.onQuota, onAccount_eq ha]
  exact if_neg (Nat.not_lt.2 hv)

/-- A quota command, performed on the account's record: the ports then settle (R157, R160). -/
theorem exec_quotaCommand {i : Instr} {X : State} {r : CommandResult} {f : AccountId → State × CommandResult}
    (hi : exec i s = .next (s.clearOut.commandWrite code c)) (ht : s.takes code c) (ha : c.argument.toNat = a.val)
    (hv : c.value.toNat ≤ 16777215)
    (hperform : s.clearOut.perform code c.argument c.value.toNat = s.clearOut.onQuota c.argument c.value.toNat f)
    (hf : f a = (X, r)) :
    ∃ t, exec i s = .next t ∧ settled ((X.modCtl (Control.recorded code r)).ack c.tag .ok) t := by
  rw [onQuota_eq ha hv, hf] at hperform
  exact ⟨_, exec_taken hi ht, takeCommand_settled c.tag hperform⟩

end AccountCommands

/-- Settles O24. -/
theorem quotaCommandsSetRemaining : Obligations.QuotaCommandsSetRemaining := by
  refine ⟨fun c a s ha hv ht => ⟨fun hset => ?_, fun hstate => ?_⟩, fun c a s ha hv ht => ?_⟩
  · exact exec_quotaCommand (i := .quotaSet c) rfl ht ha hv rfl
      (quotaSet_allowed (s := s.clearOut) ((quotaSetAllowed_iff _ a _).2 hset))
  · refine exec_quotaCommand (i := .quotaSet c) rfl ht ha hv rfl (quotaSet_refused (s := s.clearOut) fun hallowed => ?_)
    have hcases := (quotaSetAllowed_iff s a _).1 hallowed
    rcases hstate with ⟨hpol, hlt⟩ | ⟨hpol, hzero⟩
    · simp only [hpol, reduceCtorEq, true_and, false_and, false_or, or_false] at hcases
      omega
    · simp only [hpol, reduceCtorEq, true_and, false_and, false_or] at hcases
      omega
  · exact exec_quotaCommand (i := .quotaAdd c) rfl ht ha hv rfl rfl

/-- Settles O25. -/
theorem meterClearZeroesTheMeters : Obligations.MeterClearZeroesTheMeters := by
  intro c s ht
  have htaken := exec_taken (i := .meterClear c) rfl ht
  refine ⟨fun a ha => ?_, fun hall => ?_⟩
  · have hne : c.argument ≠ 0xFF#8 := fun h => by
      rw [h] at ha
      exact absurd a.isLt (by rw [← ha]; decide)
    have hperform : s.clearOut.perform 0x22#8 c.argument c.value.toNat = s.clearOut.meterClear a :=
      (if_neg hne).trans (onAccount_eq ha _)
    rw [htaken, takeCommand_eq hperform]
    rfl
  · have hperform : s.clearOut.perform 0x22#8 c.argument c.value.toNat = s.clearOut.meterClearAll := if_pos hall
    rw [htaken, takeCommand_eq hperform]
    rfl

end Sys2Proof.Machine

/-! ## What the claims and the quotas look at: an account's standing (R155 to R157) -/

namespace Sys2Proof.Machine

/-- What claims and quotas look at in an account: its pages remaining and reserved, the page-list entries that carry it, and
its setting word (R155, R156). -/
structure Standing where
  remaining : Nat
  reserved : Nat
  entries : Nat
  word : Word

def State.standing (s : State) (a : AccountId) : Standing where
  remaining := (s.account a).remaining
  reserved := (s.account a).reserved
  entries := s.entriesOf a
  word := s.accountWord a

/-- The reservations of an account match its page-list entries (R156). -/
def Standing.matched (x : Standing) : Prop := x.reserved = x.entries

/-- An account is not overdrawn (R157). -/
def Standing.sound (x : Standing) : Prop :=
  x.remaining ≤ Config.maxPages ∧ (accountPolicy x.word = .hold → x.reserved ≤ x.remaining) ∧
    (accountPolicy x.word = .reload → 1 ≤ x.remaining ∧ reloadConstant x.word ≠ 0)

theorem reservationsMatch_iff (s : State) : s.reservationsMatch ↔ ∀ a, (s.standing a).matched := Iff.rfl

theorem quotaSound_iff (s : State) : s.quotaSound ↔ ∀ a, (s.standing a).sound := Iff.rfl

/-- An account at assertion of RESET_N: no pages, no entries, no policy (R155, R188). -/
def Standing.reset : Standing := ⟨0, 0, 0, 0x0000000100000000#64⟩

/-! ### How an account's standing may move -/

/-- What may happen to one account: a reserve that is granted; `n` reservations released with their entries, by a withdrawal
or spoiled pages; a delivery (R156 to R159); the quota commands (R161, R162); a change of its settings (R164 to R167); the
reset. -/
inductive Standing.Move : Standing → Standing → Prop
  | reserve (x : Standing) (granted : accountPolicy x.word = .hold → x.reserved < x.remaining) :
    Move x { x with reserved := x.reserved + 1, entries := x.entries + 1 }
  | release (x : Standing) (n : Nat) : Move x { x with reserved := x.reserved - n, entries := x.entries - n }
  | deliver (x : Standing) :
    Move x { x with
      remaining := chargedRemaining (accountPolicy x.word) (reloadConstant x.word) x.remaining
      reserved := x.reserved - 1
      entries := x.entries - 1 }
  | quotaSet (x : Standing) (v : Nat) (range : v ≤ Config.maxPages)
    (hold : accountPolicy x.word = .hold → x.reserved ≤ v) (reload : accountPolicy x.word = .reload → 1 ≤ v) :
    Move x { x with remaining := v }
  | quotaAdd (x : Standing) (v : Nat) : Move x { x with remaining := min (x.remaining + v) Config.maxPages }
  | setting (x : Standing) (w : Word)
    (hold : accountPolicy w = .hold → accountPolicy x.word = .hold ∨ x.reserved ≤ x.remaining)
    (reload : accountPolicy w = .reload → accountPolicy x.word = .reload ∨ 1 ≤ x.remaining)
    (constant : accountPolicy w = .reload → reloadConstant w ≠ 0 ∨
      (accountPolicy x.word = .reload ∧ reloadConstant w = reloadConstant x.word)) : Move x { x with word := w }
  | reset (x : Standing) : Move x .reset

/-- Reservations and entries rise and fall together. -/
theorem Standing.Move.keeps_matched {x y : Standing} (h : x.Move y) (hx : x.matched) : y.matched := by
  unfold Standing.matched at hx ⊢
  cases h with
  | reserve | release | deliver => simp only [hx]
  | quotaSet | quotaAdd | setting => exact hx
  | reset => rfl

theorem chargedRemaining_le {pol : Policy} {reload n : Nat} (hreload : reload ≤ Config.maxPages)
    (hn : n ≤ Config.maxPages) : chargedRemaining pol reload n ≤ Config.maxPages := by
  unfold chargedRemaining
  split
  · exact hn
  · omega
  · split <;> omega

theorem reloadConstant_le (w : Word) : reloadConstant w ≤ Config.maxPages :=
  Nat.le_of_lt_succ (Nat.mod_lt _ (by decide))

/-- A granted reserve finds headroom, a charge is paid by its own reservation, and a counter at 1 is loaded again. -/
theorem Standing.Move.keeps_sound {x y : Standing} (h : x.Move y) (hx : x.sound) : y.sound := by
  obtain ⟨hmax, hhold, hreload⟩ := hx
  cases h with
  | reserve granted => exact ⟨hmax, granted, hreload⟩
  | release n => exact ⟨hmax, fun h => (Nat.sub_le _ _).trans (hhold h), hreload⟩
  | deliver =>
    refine ⟨chargedRemaining_le (reloadConstant_le _) hmax, fun h => ?_, fun h => ?_⟩
    · have := hhold h
      simp only [h, chargedRemaining]
      omega
    · obtain ⟨hone, hconstant⟩ := hreload h
      refine ⟨?_, hconstant⟩
      simp only [h, chargedRemaining]
      split <;> omega
  | quotaSet v range hold reload => exact ⟨range, hold, fun h => ⟨reload h, (hreload h).2⟩⟩
  | quotaAdd v =>
    refine ⟨Nat.min_le_right _ _, fun h => ?_, fun h => ⟨?_, (hreload h).2⟩⟩
    · exact le_min ((hhold h).trans (Nat.le_add_right _ _)) ((hhold h).trans hmax)
    · exact le_min ((hreload h).1.trans (Nat.le_add_right _ _)) (by decide)
  | setting w hold reload constant =>
    refine ⟨hmax, fun h => (hold h).elim hhold id, fun h => ⟨(reload h).elim (fun h => (hreload h).1) id, ?_⟩⟩
    rcases constant h with hne | ⟨hpol, heq⟩
    · exact hne
    · exact heq ▸ (hreload hpol).2
  | reset => exact ⟨by decide, by decide, by decide⟩

/-! ### What every account may have gone through -/

/-- From `s` to `t` every account's standing goes through moves as the rules have them. -/
def AccountsMove (s t : State) : Prop := ∀ a, Relation.ReflTransGen Standing.Move (s.standing a) (t.standing a)

/-- What every move keeps holds of the accounts when it held before. -/
theorem AccountsMove.keeps {s t : State} (h : AccountsMove s t) {P : Standing → Prop}
    (hP : ∀ {x y : Standing}, x.Move y → P x → P y) (a : AccountId) (hs : P (s.standing a)) : P (t.standing a) := by
  have hmoves := h a
  generalize t.standing a = y at hmoves ⊢
  induction hmoves with
  | refl => exact hs
  | tail _ hmove ih => exact hP hmove ih

section Moving
variable {s t u : State}

theorem AccountsMove.of_standing (h : t.standing = s.standing) : AccountsMove s t := fun a => by rw [h]

theorem AccountsMove.refl (s : State) : AccountsMove s s := .of_standing rfl

theorem AccountsMove.trans (h : AccountsMove s t) (k : AccountsMove t u) : AccountsMove s u := fun a => (h a).trans (k a)

/-- What leaves the standings alone may follow a move. -/
theorem AccountsMove.of_standing_trans (h : AccountsMove s t) (k : u.standing = t.standing) : AccountsMove s u :=
  h.trans (.of_standing k)

theorem AccountsMove.of_moves (h : ∀ a, (s.standing a).Move (t.standing a)) : AccountsMove s t := fun a => .single (h a)

/-- One account moves, and the others stand. -/
theorem AccountsMove.one (a : AccountId) (h : (s.standing a).Move (t.standing a))
    (hothers : ∀ b, b ≠ a → t.standing b = s.standing b) : AccountsMove s t := fun b => by
  by_cases hb : b = a
  · subst hb
    exact .single h
  · rw [hothers b hb]

theorem AccountsMove.ite {c : Prop} [Decidable c] (ht : c → AccountsMove s t) (hu : ¬c → AccountsMove s u) :
    AccountsMove s (if c then t else u) := by
  split
  · exact ht ‹_›
  · exact hu ‹_›

end Moving

end Sys2Proof.Machine

/-! ## What leaves the accounts' standings alone -/

namespace Sys2Proof.Machine

/-! ### The parts of the state -/

section Parts
variable {s t : State}

/-- The standings follow the page lists, the account records and the setting words. -/
theorem standing_of (hpages : ∀ p, (t.port p).pages = (s.port p).pages) (haccounts : t.accounts = s.accounts)
    (himage : t.image = s.image) : t.standing = s.standing := by
  have hentries : ∀ a, t.entriesOf a = s.entriesOf a := fun a => by
    simp only [State.entriesOf, Port.entriesOf, hpages]
  funext a
  simp only [State.standing, hentries, State.account, haccounts, State.accountWord, himage]

theorem standing_of_still (h : t.still = s.still) : t.standing = s.standing :=
  standing_of (fun p => Port.pages_of_still (State.port_still h p)) (State.accounts_of_still h) (State.image_of_still h)

end Parts

/-- A port may change in all but the accounts of its entries. -/
theorem modPort_standing (s : State) (p : PortId) {f : Port → Port}
    (h : ∀ a, (f (s.port p)).entriesOf a = (s.port p).entriesOf a) : (s.modPort p f).standing = s.standing := by
  have hport : ∀ a q, ((s.modPort p f).port q).entriesOf a = (s.port q).entriesOf a := fun a q => by
    rw [State.port_modPort]
    split
    case isTrue hq => rw [h, hq]
    case isFalse => rfl
  funext a
  simp only [State.standing, State.entriesOf, hport]
  rfl

/-- An account's meters may change (R155). -/
theorem modAccount_standing (s : State) (a : AccountId) {f : Account → Account}
    (hremaining : (f (s.account a)).remaining = (s.account a).remaining)
    (hreserved : (f (s.account a)).reserved = (s.account a).reserved) : (s.modAccount a f).standing = s.standing := by
  funext b
  have hb : ((s.modAccount a f).account b).remaining = (s.account b).remaining ∧
      ((s.modAccount a f).account b).reserved = (s.account b).reserved := by
    rw [State.account_modAccount]
    split
    case isTrue h => rw [h]; exact ⟨hremaining, hreserved⟩
    case isFalse => exact ⟨rfl, rfl⟩
  simp only [State.standing, hb]
  rfl

section Updates
variable (s : State) (p : PortId)

@[simp] theorem modEngine_standing (f : Engine → Engine) : (s.modEngine p f).standing = s.standing :=
  modPort_standing s p fun _ => rfl

@[simp] theorem modLink_standing (f : Link → Link) : (s.modLink p f).standing = s.standing :=
  modPort_standing s p fun _ => rfl

@[simp] theorem modWatch_standing (f : Watch → Watch) : (s.modWatch p f).standing = s.standing :=
  modPort_standing s p fun _ => rfl

@[simp] theorem setQueue_standing (q : List QueueEntry) : (s.setQueue p q).standing = s.standing :=
  modPort_standing s p fun _ => rfl

@[simp] theorem setJob_standing (j : Option Job) : (s.setJob p j).standing = s.standing := modEngine_standing s p _

@[simp] theorem setHold_standing (b : Bool) : (s.setHold p b).standing = s.standing := modPort_standing s p fun _ => rfl

@[simp] theorem straySheets_standing (n : Nat) : (s.straySheets p n).standing = s.standing :=
  modPort_standing s p fun _ => rfl

@[simp] theorem modTicket_standing (k : Slot) (f : Ticket → Ticket) : (s.modTicket k f).standing = s.standing := rfl

@[simp] theorem setRecord_standing (tag : Tag) (r : Option PspRecord) : (s.setRecord tag r).standing = s.standing := rfl

@[simp] theorem setHeld_standing (rs : List HostRequest) : (s.setHeld rs).standing = s.standing := rfl

@[simp] theorem modMsp_standing (f : Msp → Msp) : (s.modMsp f).standing = s.standing := rfl

@[simp] theorem modRelay_standing (f : Relay → Relay) : (s.modRelay f).standing = s.standing := rfl

@[simp] theorem modCtl_standing (f : Control → Control) : (s.modCtl f).standing = s.standing := rfl

@[simp] theorem emit_standing (o : Output) : (s.emit o).standing = s.standing := rfl

@[simp] theorem clearOut_standing : s.clearOut.standing = s.standing := rfl

@[simp] theorem raise_standing (c : AlertClass) (n : Nat) (d : Detail) : (s.raise c n d).standing = s.standing := rfl

@[simp] theorem judgeAttn_standing : s.judgeAttn.standing = s.standing := rfl

@[simp] theorem settlePort_standing : (s.settlePort p).standing = s.standing := standing_of_still (still_settlePort s p)

@[simp] theorem settle_standing : s.settle.standing = s.standing := standing_of_still (still_settle s)

@[simp] theorem pageEnded_standing : s.pageEnded.standing = s.standing := by
  rw [pageEnded_frame]
  rfl

@[simp] theorem setQuiesceHolds_standing (b : Bool) : (s.setQuiesceHolds b).standing = s.standing :=
  standing_of (fun p => by rw [setQuiesceHolds_port]) rfl rfl

end Updates

/-- A fold leaves the standings alone when each of its steps does. -/
theorem foldl_standing {α : Type} (f : State → α → State) (h : ∀ s x, (f s x).standing = s.standing) (xs : List α)
    (s : State) : (xs.foldl f s).standing = s.standing := by
  induction xs generalizing s with
  | nil => rfl
  | cons x xs ih => rw [List.foldl_cons, ih, h]

/-! ### Tickets and the posting fetches (R45 to R50, R55 to R57) -/

section Tickets
variable (s : State) (k : Slot)

@[simp] theorem endTicket_standing (st : TicketState) (r : Reason) : (s.endTicket k st r).standing = s.standing := by
  rw [endTicket_frame]
  rfl

@[simp] theorem drainTest_standing : (s.drainTest k).standing = s.standing := by
  rw [drainTest_frame]
  rfl

@[simp] theorem deliveryTest_standing : (s.deliveryTest k).standing = s.standing := by
  rw [deliveryTest_frame]
  rfl

@[simp] theorem presentTicketFetch_standing : s.presentTicketFetch.standing = s.standing := by
  unfold State.presentTicketFetch
  split
  case h_1 => rfl
  case h_2 => split <;> rfl

@[simp] theorem ticketFetchGranted_standing : s.ticketFetchGranted.standing = s.standing := by
  unfold State.ticketFetchGranted
  split
  case h_1 => rfl
  case h_2 => exact presentTicketFetch_standing _

@[simp] theorem postTicket_standing : (s.postTicket k).standing = s.standing := presentTicketFetch_standing _

@[simp] theorem acceptTicket_standing (m : Mirror) : (s.acceptTicket k m).standing = s.standing :=
  modPort_standing _ _ fun _ => rfl

@[simp] theorem judgeTicket_standing (a : KeptAnswer) : (s.judgeTicket k a).standing = s.standing := by
  unfold State.judgeTicket
  split
  case h_1 => rfl
  case h_2 => exact acceptTicket_standing s k _

@[simp] theorem activate_standing (p : PortId) : (s.activate p k).standing = s.standing := by
  unfold State.activate
  dsimp only
  split
  case h_1 => rfl
  case h_2 => exact (settlePort_standing _ p).trans (modPort_standing _ p fun _ => rfl)

@[simp] theorem dispatch_standing (p : PortId) : (s.dispatch p).standing = s.standing := by
  unfold State.dispatch
  split <;> simp

@[simp] theorem dispatchAccepted_standing : (s.dispatchAccepted k).standing = s.standing := by
  unfold State.dispatchAccepted
  split <;> simp

@[simp] theorem judgeHead_standing (a : KeptAnswer) (rest : List InFlight) :
    (s.judgeHead k a rest).standing = s.standing := judgeTicket_standing s k a

@[simp] theorem judgeHeads_standing (xs : List InFlight) : (s.judgeHeads xs).standing = s.standing := by
  induction xs generalizing s with
  | nil => rfl
  | cons x xs ih =>
    unfold State.judgeHeads
    split
    case h_1 => rfl
    case h_2 =>
      rw [ih]
      split <;> simp

@[simp] theorem ticketFetchAnswered_standing (a : KeptAnswer) : (s.ticketFetchAnswered k a).standing = s.standing :=
  (settle_standing _).trans (judgeHeads_standing _ _)

@[simp] theorem cancelQueued_standing : (s.cancelQueued k).standing = s.standing := by
  unfold State.cancelQueued
  split
  case h_1 => exact ((settlePort_standing _ _).trans (endTicket_standing _ k _ _)).trans (modPort_standing _ _ fun _ => rfl)
  case h_2 => exact endTicket_standing s k _ _

end Tickets

/-! ### Engines and the rewind (R94, R95, R107, R112, R139, R141, R142) -/

section Engines
variable (s : State) (p : PortId)

@[simp] theorem handData_standing (payload : List Byte) : (s.handData p payload).standing = s.standing := by
  simp [State.handData, State.hand]

@[simp] theorem takeBackFetch_standing (k : Slot) : (s.takeBackFetch p k).standing = s.standing := rfl

@[simp] theorem remarkFetches_standing (mark : FetchMark) : (s.remarkFetches p mark).standing = s.standing := rfl

@[simp] theorem dropJob_standing (k : Slot) : (s.dropJob p k).standing = s.standing := by simp [State.dropJob]

@[simp] theorem fetchDone_standing (k : Slot) : (s.fetchDone k).standing = s.standing := rfl

@[simp] theorem rewindTickets_standing (pages : List Entry) (job : Option Job) (ts : List Slot) :
    (ts.foldl (State.rewindTicket pages job) s).standing = s.standing := by
  rw [rewindTickets_frame]
  rfl

@[simp] theorem judgeJamStop_standing : (s.judgeJamStop p).standing = s.standing := by
  unfold State.judgeJamStop
  split <;> simp

@[simp] theorem endWindow_standing : (s.endWindow p).standing = s.standing := by
  unfold State.endWindow
  split <;> simp

end Engines

/-! ### Links and timers (R69, R114 to R129) -/

section Links
variable (s : State) (p : PortId)

@[simp] theorem hand_standing (f : Frame) : (s.hand p f).standing = s.standing := rfl

@[simp] theorem handTrain_standing : (s.handTrain p).standing = s.standing := by simp [State.handTrain]

@[simp] theorem enablePort_standing : (s.enablePort p).standing = s.standing := by simp [State.enablePort]

@[simp] theorem disablePort_standing : (s.disablePort p).standing = s.standing := modPort_standing s p fun _ => rfl

@[simp] theorem resetLink_standing : (s.resetLink p).standing = s.standing :=
  (handTrain_standing _ p).trans (modPort_standing s p fun _ => rfl)

@[simp] theorem raiseLinkDown_standing : (s.raiseLinkDown p).standing = s.standing := rfl

@[simp] theorem trainingFailure_standing : (s.trainingFailure p).standing = s.standing := by simp [State.trainingFailure]

@[simp] theorem wake_standing : (s.wake p).standing = s.standing := by simp [State.wake]

@[simp] theorem wakeCause_standing : (s.wakeCause p).standing = s.standing := by
  unfold State.wakeCause
  split <;> simp

@[simp] theorem startSilence_standing : (s.startSilence p).standing = s.standing := by simp [State.startSilence]

@[simp] theorem becomeReady_standing : (s.becomeReady p).standing = s.standing := by simp [State.becomeReady]

@[simp] theorem goodFrame_standing : (s.goodFrame p).standing = s.standing := modLink_standing s p _

@[simp] theorem takeTrainAck_standing (n : Nat) : (s.takeTrainAck p n).standing = s.standing := by
  unfold State.takeTrainAck
  split <;> simp

@[simp] theorem takeCredit_standing (n : Nat) : (s.takeCredit p n).standing = s.standing := by
  unfold State.takeCredit
  split <;> simp

@[simp] theorem statusInWaking_standing (bits : BitVec 16) : (s.statusInWaking p bits).standing = s.standing := by
  unfold State.statusInWaking
  dsimp only
  split_ifs <;> simp

@[simp] theorem raiseEdges_standing (after : Vector HeldCondition 4) (bits : BitVec 16) (hand : Option Slot)
    (edges : List CondId) : (edges.foldl (State.raiseEdge p after bits hand) s).standing = s.standing :=
  foldl_standing (State.raiseEdge p after bits hand) (fun _ _ => rfl) edges s

@[simp] theorem trainingTimer_standing : (s.trainingTimer p).standing = s.standing := by
  unfold State.trainingTimer State.trainingExpires
  split
  case isTrue => split <;> simp
  case isFalse => rfl

@[simp] theorem idleTimer_standing : (s.idleTimer p).standing = s.standing := by
  unfold State.idleTimer State.idleExpires
  split_ifs <;> simp

@[simp] theorem warmTimer_standing : (s.warmTimer p).standing = s.standing := by
  unfold State.warmTimer State.warmExpires
  dsimp only
  split_ifs <;> simp

end Links

/-! ### The alert ring, the traffic path, the sweep and the time base (R3, R5, R13 to R23, R31, R174 to R178) -/

section Traffic
variable (s : State)

@[simp] theorem pickRecord_standing : s.pickRecord.standing = s.standing := by
  unfold State.pickRecord
  split
  case h_1 => rfl
  case h_2 => split <;> rfl

@[simp] theorem restartRing_standing : s.restartRing.standing = s.standing := by
  unfold State.restartRing State.dropRecordWrite
  rw [judgeAttn_standing, modRelay_standing]
  split
  case h_1 => rfl
  case h_2 => split <;> rfl

@[simp] theorem consumeTo_standing (v : BitVec 16) : (s.consumeTo v).standing = s.standing := rfl

@[simp] theorem recordAnswered_standing (ok : Bool) : (s.recordAnswered ok).standing = s.standing := by
  unfold State.recordAnswered
  split <;> rfl

@[simp] theorem pass_standing (tag : Tag) (w : Bool) (addr size : Nat) (es : List Bool) (ds : List Byte) :
    (s.pass tag w addr size es ds).standing = s.standing := by
  unfold State.pass
  split <;> rfl

@[simp] theorem forwardWrite_standing (w : WriteRequest) : (s.forwardWrite w).standing = s.standing := pass_standing ..

@[simp] theorem refuse_standing (w : WriteRequest) (reason : RefusalReason) : (s.refuse w reason).standing = s.standing :=
  rfl

@[simp] theorem ack_standing (tag : Tag) (status : AckStatus) : (s.ack tag status).standing = s.standing := rfl

@[simp] theorem takeRead_standing (r : ReadRequest) : (s.takeRead r).standing = s.standing := by
  unfold State.takeRead State.classifyRead
  dsimp only
  split_ifs
  case pos | pos | pos => rfl
  case neg => exact pass_standing ..

@[simp] theorem passingAnswered_standing (tag : Tag) (half : Half) (a : KeptAnswer) :
    (s.passingAnswered tag half a).standing = s.standing := by
  unfold State.passingAnswered
  split
  case h_1 => rfl
  case h_2 =>
    dsimp only
    split <;> rfl

@[simp] theorem sweepAnswered_standing (ok : Bool) : (s.sweepAnswered ok).standing = s.standing := by
  unfold State.sweepAnswered
  dsimp only
  split <;> rfl

@[simp] theorem presentSweep_standing : s.presentSweep.standing = s.standing := by
  unfold State.presentSweep
  split <;> rfl

@[simp] theorem grantNext_standing : s.grantNext.standing = s.standing := by
  unfold State.grantNext State.afterGrant
  split
  case h_1 => rfl
  case h_2 => split <;> simp

@[simp] theorem releaseReset_standing (anchor : BitVec 8) : (s.releaseReset anchor).standing = s.standing := by
  unfold State.releaseReset
  split
  case isTrue => exact presentSweep_standing _
  case isFalse => rfl

@[simp] theorem tick_standing : s.tick.standing = s.standing := by
  unfold State.tick
  split <;> rfl

@[simp] theorem idle_standing : s.idle.standing = s.standing := by
  rw [idle_frame]
  rfl

end Traffic

/-! ### Commands that no account is touched by (R36, R37, R71 to R74, R128, R148, R180, R181) -/

section Commands
variable (s : State) (p : PortId)

@[simp] theorem commandStart_standing : s.commandStart.1.standing = s.standing := by simp [State.commandStart]

@[simp] theorem commandStop_standing : s.commandStop.1.standing = s.standing := by
  unfold State.commandStop
  split <;> simp

@[simp] theorem portHold_standing : (s.portHold p).1.standing = s.standing := by simp [State.portHold]

@[simp] theorem portRelease_standing : (s.portRelease p).1.standing = s.standing := by simp [State.portRelease]

@[simp] theorem portFlush_standing : (s.portFlush p).1.standing = s.standing := by
  unfold State.portFlush
  split
  case h_1 => rfl
  case h_2 =>
    rw [settlePort_standing, foldl_standing _ fun v (e : QueueEntry) => endTicket_standing v e.slot .cancelled .flush,
      setQueue_standing]

@[simp] theorem portWake_standing : (s.portWake p).1.standing = s.standing := by
  unfold State.portWake
  split <;> simp

@[simp] theorem portResume_standing : (s.portResume p).1.standing = s.standing := by
  unfold State.portResume
  split <;> simp

@[simp] theorem alertTake_standing : s.alertTake.1.standing = s.standing := by
  unfold State.alertTake
  split
  case h_1 => rfl
  case h_2 =>
    split
    case h_1 => rfl
    case h_2 => split <;> rfl

@[simp] theorem alertDone_standing : s.alertDone.1.standing = s.standing := by
  unfold State.alertDone
  split <;> rfl

end Commands

end Sys2Proof.Machine

/-! ## What the claims do to the accounts (R101 to R103, R106, R140, R152, R156 to R159) -/

namespace Sys2Proof.Machine

/-! ### One port's entries -/

section Entries
variable {s t : State} {p : PortId}

/-- Where one port's page list moves, an account's entries in all move as they do there. -/
theorem entriesOf_moved (hothers : ∀ q, q ≠ p → (t.port q).pages = (s.port q).pages) (a : AccountId) :
    t.entriesOf a + (s.port p).entriesOf a = s.entriesOf a + (t.port p).entriesOf a := by
  rw [State.entriesOf, State.entriesOf, sum_allPorts, sum_allPorts]
  refine sum_differ_at (f := fun q => (t.port q).entriesOf a) (g := fun q => (s.port q).entriesOf a) p fun q hq => ?_
  rw [Port.entriesOf, hothers q hq]
  rfl

/-- Entries leave one port's page list, with a reservation of its account each. -/
theorem AccountsMove.released (gone : List Entry)
    (hpages : ∀ f, (s.port p).pages.countP f = gone.countP f + (t.port p).pages.countP f)
    (hothers : ∀ q, q ≠ p → (t.port q).pages = (s.port q).pages) (himage : t.image = s.image)
    (hremaining : ∀ a, (t.account a).remaining = (s.account a).remaining)
    (hreserved : ∀ a, (t.account a).reserved = (s.account a).reserved - gone.countP fun e => e.account == a) :
    AccountsMove s t := by
  refine .of_moves fun a => ?_
  have hentries : t.entriesOf a = s.entriesOf a - gone.countP fun e => e.account == a := by
    have hmoved := entriesOf_moved hothers a
    have hcount := hpages fun e => e.account == a
    unfold Port.entriesOf at hmoved
    omega
  have hstanding : t.standing a = { s.standing a with
      reserved := (s.standing a).reserved - gone.countP fun e => e.account == a
      entries := (s.standing a).entries - gone.countP fun e => e.account == a } := by
    simp only [State.standing, hremaining, hreserved, hentries, State.accountWord, himage]
  rw [hstanding]
  exact .release _ _

/-- A claim on one account, with the entry it is for: the other accounts stand. -/
theorem AccountsMove.claimed (a : AccountId) (hothers : ∀ q, q ≠ p → (t.port q).pages = (s.port q).pages)
    (himage : t.image = s.image) (haccounts : ∀ b, b ≠ a → t.account b = s.account b)
    (hentries : ∀ b, b ≠ a → (t.port p).entriesOf b = (s.port p).entriesOf b)
    (hmove : t.entriesOf a + (s.port p).entriesOf a = s.entriesOf a + (t.port p).entriesOf a →
      (s.standing a).Move ⟨(t.account a).remaining, (t.account a).reserved, t.entriesOf a, s.accountWord a⟩) :
    AccountsMove s t := by
  have hword (b : AccountId) : t.accountWord b = s.accountWord b := by
    rw [State.accountWord, himage]
    rfl
  refine .one a ?_ fun b hb => ?_
  · rw [show t.standing a = _ from congrArg (Standing.mk _ _ _) (hword a)]
    exact hmove (entriesOf_moved hothers a)
  · have hsame : t.entriesOf b = s.entriesOf b := by
      have hmoved := entriesOf_moved hothers b
      rw [hentries b hb] at hmoved
      omega
    simp only [State.standing, haccounts b hb, hsame, hword]

end Entries

/-! ### A page opens, and closes (R97, R101 to R103) -/

section Pages
variable {s : State} {p : PortId} {j : Job}

/-- The gates let a page begin only where its reserve is granted (R97, R156). -/
theorem grants_of_passes {f : FramePlan} (h : s.gates p j = .passes f) (hnone : (s.port p).hasOpenPage = false) :
    s.grants j.account = true := by
  by_contra hno
  rw [Bool.not_eq_true] at hno
  simp only [State.gates, hnone, hno, Bool.not_false, if_true, Bool.false_eq_true, if_false] at h
  repeat' split at h
  all_goals nomatch h

theorem openPage_port (q : PortId) : (s.openPage p j).port q =
    if q = p then { s.port p with
      pages := (s.port p).pages ++ [⟨j.slot, j.account, j.copy, j.page, j.offset, .opened⟩] } else s.port q :=
  State.port_modPort (s.claimReserve j.account) p
    (fun x => { x with pages := x.pages ++ [⟨j.slot, j.account, j.copy, j.page, j.offset, .opened⟩] }) q

theorem openPage_account (a : AccountId) : (s.openPage p j).account a = (s.claimReserve j.account).account a := rfl

theorem openPage_entriesOf (a : AccountId) : ((s.openPage p j).port p).entriesOf a =
    (s.port p).entriesOf a + if j.account = a then 1 else 0 := by
  rw [openPage_port, if_pos rfl, Port.entriesOf, List.countP_append, List.countP_singleton]
  simp only [beq_iff_eq]
  rfl

/-- A page opens with a reserve that is granted (R101, R102, R156). -/
theorem AccountsMove.openPage (h : s.grants j.account = true) : AccountsMove s (s.openPage p j) := by
  refine .claimed (p := p) j.account (fun q hq => by rw [openPage_port, if_neg hq]) rfl
    (fun b hb => ?_) (fun b hb => ?_) fun hmoved => ?_
  · rw [openPage_account, State.claimReserve, State.account_modAccount_ne _ _ _ hb]
  · rw [openPage_entriesOf, if_neg (Ne.symm hb)]
    rfl
  · rw [openPage_entriesOf, if_pos rfl] at hmoved
    have hentries : (s.openPage p j).entriesOf j.account = s.entriesOf j.account + 1 := by omega
    rw [hentries, openPage_account, State.claimReserve, State.account_modAccount_self]
    exact .reserve (s.standing j.account) ((grants_iff s j.account).1 h)

theorem closeLast_countP (es : List Entry) (a : AccountId) :
    (closeLast es).countP (fun e => e.account == a) = es.countP fun e => e.account == a := by
  unfold closeLast
  split
  case h_1 h => rw [List.getLast?_eq_none_iff.1 h]
  case h_2 e h =>
    obtain ⟨before, rfl⟩ := List.getLast?_eq_some_iff.1 h
    rw [List.dropLast_concat, List.countP_append, List.countP_append]
    rfl

/-- A page that closes keeps its entry and its reservation (R103). -/
@[simp] theorem closePage_standing (s : State) (p : PortId) (j : Job) (f : FramePlan) :
    (s.closePage p j f).standing = s.standing := by
  have hclosed : ((s.modPort p fun x => { x with pages := closeLast x.pages }).claimClose j.account).pageEnded.standing =
      s.standing := by
    rw [pageEnded_standing, State.claimClose, modAccount_standing _ _ rfl rfl]
    exact modPort_standing s p fun a => closeLast_countP _ a
  unfold State.closePage
  dsimp only
  split
  case h_1 => rw [modTicket_standing, setJob_standing, hclosed]
  case h_2 => rw [modTicket_standing, modEngine_standing, hclosed]

/-- A frame moves an account only by the page it begins (R97, R101, R156). -/
theorem AccountsMove.sendFrame (s : State) (p : PortId) : AccountsMove s (s.sendFrame p) := by
  unfold State.sendFrame
  split
  case h_1 => exact .refl s
  case h_2 j _ =>
    split
    case h_1 => exact .of_standing (modEngine_standing s p _)
    case h_2 f hpass =>
      have hopened : AccountsMove s (if (s.port p).hasOpenPage then s else s.openPage p j) :=
        .ite (fun _ => .refl s) fun hno => .openPage (grants_of_passes hpass (Bool.not_eq_true _ ▸ hno))
      refine hopened.of_standing_trans ?_
      dsimp only
      split <;> simp

end Pages

/-! ### Pages withdrawn and spoiled (R106, R139, R140) -/

section Released
variable (s : State) (p : PortId)

theorem AccountsMove.withdrawOpen : AccountsMove s (s.withdrawOpen p) := by
  refine .released (p := p) (s.port p).openEntry.toList (fun f => ?_) (fun q hq => ?_) (withdrawOpen_image s p)
    (fun a => ?_) fun a => ?_
  · rw [withdrawOpen_port, if_pos rfl, countP_pages]
  · rw [withdrawOpen_port, if_neg hq]
  · rw [withdrawOpen_account]
  · rw [withdrawOpen_account]

theorem AccountsMove.spoilAll : AccountsMove s (s.spoilAll p) := by
  have haccount (a : AccountId) : (s.spoilAll p).account a = _ := spoilEntries_account (s.port p).pages s a
  have hport (q : PortId) : (s.spoilAll p).port q = if q = p then { s.port p with pages := [] } else s.port q := by
    rw [spoilAll_frame]
    exact tget_tset _ _ _ _
  refine .released (p := p) (s.port p).pages (fun f => ?_) (fun q hq => ?_) (by rw [spoilAll_frame]) (fun a => ?_)
    fun a => ?_
  · rw [hport, if_pos rfl]
    rfl
  · rw [hport, if_neg hq]
  · rw [haccount]
  · rw [haccount]

theorem AccountsMove.stopEngine (k : Slot) : AccountsMove s (s.stopEngine p k) :=
  (AccountsMove.withdrawOpen s p).of_standing_trans (by simp [State.stopEngine])

theorem AccountsMove.rewindStop : AccountsMove s (s.rewindStop p) := by
  unfold State.rewindStop
  split
  case h_1 => exact .refl s
  case h_2 => exact (AccountsMove.withdrawOpen s p).of_standing_trans (by simp)

theorem AccountsMove.rewind : AccountsMove s (s.rewind p) := by
  refine ((AccountsMove.rewindStop s p).trans (.spoilAll _ p)).of_standing_trans ?_
  unfold State.rewind
  dsimp only
  rw [State.enterJamStop, modEngine_standing, modPort_standing _ _ fun _ => rfl, rewindTickets_standing]

end Released

/-! ### Pages delivered (R151 to R153, R157 to R159) -/

section Delivered
variable {s : State} {p : PortId} {e : Entry} {rest : List Entry}

theorem claimDeliver_account (s : State) (a b : AccountId) : (s.claimDeliver a).account b = if b = a then
    { s.account a with
      reserved := (s.account a).reserved - 1
      delivered := (s.account a).delivered + 1
      remaining := chargedRemaining (s.policy a) (reloadConstant (s.accountWord a)) (s.account a).remaining }
    else s.account b := by
  rw [claimDeliver_eq]
  exact tget_tset _ _ _ _

theorem claimDeliver_port (s : State) (a : AccountId) (q : PortId) : (s.claimDeliver a).port q = s.port q := by
  rw [claimDeliver_frame]
  rfl

theorem claimDeliver_image (s : State) (a : AccountId) : (s.claimDeliver a).image = s.image := by rw [claimDeliver_frame]

/-- The oldest entry leaves its page list, and its account is charged (R151, R152, R157). -/
theorem AccountsMove.headDelivered (h : (s.port p).pages = e :: rest) :
    AccountsMove s ((s.setPages p rest).claimDeliver e.account) := by
  have hentries (a : AccountId) : (s.port p).entriesOf a =
      (((s.setPages p rest).claimDeliver e.account).port p).entriesOf a + if e.account = a then 1 else 0 := by
    rw [claimDeliver_port, State.port_setPages_self, Port.entriesOf, h, List.countP_cons]
    simp only [beq_iff_eq]
    rfl
  refine .claimed (p := p) e.account (fun q hq => ?_) (claimDeliver_image _ _) (fun b hb => ?_) (fun b hb => ?_)
    fun hmoved => ?_
  · rw [claimDeliver_port, State.port_setPages_ne _ _ _ hq]
  · rw [claimDeliver_account, if_neg hb]
    rfl
  · rw [hentries, if_neg (Ne.symm hb)]
    rfl
  · rw [hentries, if_pos rfl] at hmoved
    have hless : ((s.setPages p rest).claimDeliver e.account).entriesOf e.account = s.entriesOf e.account - 1 := by omega
    rw [hless, claimDeliver_account, if_pos rfl]
    exact .deliver (s.standing e.account)

theorem AccountsMove.deliverEntry (h : (s.port p).pages = e :: rest) : AccountsMove s (s.deliverEntry p e rest) := by
  refine (AccountsMove.headDelivered h).of_standing_trans ?_
  rw [State.deliverEntry, deliveryTest_standing, modTicket_standing]

theorem AccountsMove.deliverSheets (s : State) (p : PortId) (n : Nat) : AccountsMove s (s.deliverSheets p n) := by
  induction n generalizing s with
  | zero => exact .refl s
  | succ n ih =>
    unfold State.deliverSheets
    split
    case h_1 => exact .of_standing (straySheets_standing s p _)
    case h_2 h =>
      exact .ite (fun _ => (AccountsMove.deliverEntry h).trans (ih _)) fun _ => .of_standing (straySheets_standing s p _)

end Delivered

end Sys2Proof.Machine

/-! ## What the quota commands and the settings do to the accounts (R24, R155 to R167) -/

namespace Sys2Proof.Machine

/-! ### The quota commands (R160 to R163) -/

section Commands
variable {s : State} (a : AccountId)

/-- A command sets an account's `remaining`. -/
theorem AccountsMove.setRemaining {f : Account → Account} (hreserved : (f (s.account a)).reserved = (s.account a).reserved)
    (hmove : (s.standing a).Move { s.standing a with remaining := (f (s.account a)).remaining }) :
    AccountsMove s (s.modAccount a f) := by
  refine .one a ?_ fun b hb => ?_
  · have hstanding : (s.modAccount a f).standing a = { s.standing a with remaining := (f (s.account a)).remaining } := by
      rw [State.standing, State.account_modAccount_self, hreserved]
      rfl
    rw [hstanding]
    exact hmove
  · rw [State.standing, State.account_modAccount_ne _ _ _ hb]
    rfl

theorem AccountsMove.quotaSet {v : Nat} (hv : v ≤ Config.maxPages) : AccountsMove s (s.quotaSet a v).1 := by
  by_cases hallowed : s.quotaSetAllowed a v = true
  · rw [quotaSet_allowed hallowed]
    have hcases := (quotaSetAllowed_iff s a v).1 hallowed
    refine .setRemaining a rfl (.quotaSet _ v hv (fun hpol => ?_) fun hpol => ?_)
    · have hpol : s.policy a = .hold := hpol
      simp only [hpol, reduceCtorEq, true_and, false_and, false_or, or_false] at hcases
      exact hcases
    · have hpol : s.policy a = .reload := hpol
      simp only [hpol, reduceCtorEq, true_and, false_and, false_or] at hcases
      exact hcases
  · rw [quotaSet_refused hallowed]
    exact .refl s

theorem AccountsMove.quotaAdd (v : Nat) : AccountsMove s (s.quotaAdd a v).1 := .setRemaining a rfl (.quotaAdd _ v)

/-- The meters are no part of an account's standing (R163). -/
theorem commandMeterClear_standing (s : State) (arg : Byte) : (s.commandMeterClear arg).1.standing = s.standing := by
  unfold State.commandMeterClear
  split
  case isTrue =>
    funext a
    have haccount : s.meterClearAll.1.account a = (s.account a).cleared := tget_map _ _ _
    rw [State.standing, haccount]
    rfl
  case isFalse =>
    unfold State.onAccount
    split
    case h_1 a _ => exact modAccount_standing s a rfl rfl
    case h_2 => rfl

end Commands

/-! ### The settings (R24, R164 to R167) -/

section Settings

theorem accountPolicy_hold (w : Word) : accountPolicy w = .hold ↔ policyCode w = 1 := by
  unfold accountPolicy
  split <;> simp_all

theorem accountPolicy_reload (w : Word) : accountPolicy w = .reload ↔ policyCode w = 2 := by
  unfold accountPolicy
  split <;> simp_all

theorem put_account_ne {im : Image} {loc : SettingLoc} {a : AccountId} (h : loc ≠ .account a) (w : Word) :
    (im.put loc w).get (.account a) = im.get (.account a) := by
  cases loc with
  | account b => exact tget_tset_ne _ _ fun e => h (congrArg SettingLoc.account e.symm)
  | _ => rfl

/-- A write that touches no word of an account leaves its settings. -/
theorem resultingImage_account {parts : List SettingPart} {a : AccountId} (h : ∀ x ∈ parts, x.loc ≠ .account a)
    (im : Image) : (resultingImage im parts).get (.account a) = im.get (.account a) := by
  unfold resultingImage
  induction parts generalizing im with
  | nil => rfl
  | cons x xs ih =>
    rw [List.foldl_cons, ih (fun y hy => h y (List.mem_cons_of_mem _ hy)), put_account_ne (h x List.mem_cons_self)]

theorem unchanged_account {old new : Image} {a : AccountId} (h : ¬isChanged old new (.account a) = true) :
    policyCode (new.get (.account a)) = policyCode (old.get (.account a)) ∧
      reloadConstant (new.get (.account a)) = reloadConstant (old.get (.account a)) := by
  rw [isChanged_iff, not_not] at h
  have hmask : (old.get (.account a) ^^^ new.get (.account a)) &&& 0x00FFFFFF00000301#64 = 0 := h
  exact ⟨(bits_eq_of_unchanged hmask (by decide)).symm, (bits_eq_of_unchanged hmask (by decide)).symm⟩

variable {s : State} {parts : List SettingPart}

theorem inRange_of_judged (h : s.judgeSettings parts = none) :
    ∀ x ∈ parts, isChanged s.image (resultingImage s.image parts) x.loc = true →
      inRange x.loc ((resultingImage s.image parts).get x.loc) = true := by
  unfold State.judgeSettings at h
  dsimp only at h
  split at h
  case isTrue => cases h
  case isFalse =>
    split at h
    case isTrue hvalid =>
      simp only [State.settingsValid, Bool.and_eq_true, List.all_eq_true] at hvalid
      intro x hx hchanged
      have hpart := hvalid.1.1 x hx
      rw [partInRange, hchanged] at hpart
      simpa using (Bool.and_eq_true_iff.1 hpart).2
    case isFalse => cases h

/-- An account's settings change only as its locks and ranges let them (R24, R165 to R167). -/
theorem Standing.Move.ofSettings (h : s.judgeSettings parts = none) (a : AccountId) :
    (s.standing a).Move { s.standing a with word := (resultingImage s.image parts).get (.account a) } := by
  by_cases hpart : ∃ x ∈ parts, x.loc = .account a
  · obtain ⟨x, hx, hloc⟩ := hpart
    have hlock := unlocked_of_judged h x hx
    have hrange := inRange_of_judged h x hx
    rw [hloc] at hlock hrange
    simp only [State.isLocked, Bool.or_eq_false_iff] at hlock
    obtain ⟨-, hlock⟩ := hlock
    rw [← Bool.not_eq_true, policyLocked_iff] at hlock
    generalize resultingImage s.image parts = new at hlock hrange ⊢
    refine .setting _ _ (fun hpol => ?_) (fun hpol => ?_) fun hpol => ?_
    · rw [accountPolicy_hold] at hpol ⊢
      by_contra hno
      rw [not_or, Nat.not_le] at hno
      exact hlock ⟨hpol ▸ hno.1, .inl ⟨hpol, hno.2⟩⟩
    · rw [accountPolicy_reload] at hpol ⊢
      by_contra hno
      rw [not_or, Nat.not_le, Nat.lt_one_iff] at hno
      exact hlock ⟨hpol ▸ hno.1, .inr ⟨hpol, hno.2⟩⟩
    · rw [accountPolicy_reload] at hpol ⊢
      by_cases hchanged : isChanged s.image new (.account a) = true
      · have hout := (inRange_iff _ _).1 (hrange hchanged)
        exact .inl fun hzero => hout (.inr ⟨hpol, hzero⟩)
      · obtain ⟨hcode, hconstant⟩ := unchanged_account hchanged
        exact .inr ⟨hcode.symm.trans hpol, hconstant⟩
  · simp only [not_exists, not_and] at hpart
    rw [resultingImage_account hpart]
    exact .setting _ _ .inl .inl fun hpol => .inr ⟨hpol, rfl⟩

theorem partCaptured_standing (old : Image) (s : State) (x : SettingPart) :
    (s.partCaptured old x).standing = s.standing := by
  unfold State.partCaptured
  split
  case h_1 =>
    unfold State.portCaptured
    split_ifs <;> simp
  case h_2 => rfl

theorem imaged_standing (s : State) (parts : List SettingPart) :
    (s.imaged parts).standing = ({ s with image := resultingImage s.image parts } : State).standing := by
  unfold State.imaged
  dsimp only
  split_ifs <;> simp

/-- A captured write moves the settings of the accounts whose words it touches (R25). -/
theorem AccountsMove.capture (h : s.judgeSettings parts = none) : AccountsMove s (s.capture parts) := by
  have himaged : AccountsMove s { s with image := resultingImage s.image parts } := .of_moves (.ofSettings h)
  refine himaged.of_standing_trans ?_
  rw [capture_eq, settle_standing, foldl_standing _ (partCaptured_standing s.image), imaged_standing]

end Settings

end Sys2Proof.Machine

/-! ## What a step does to the accounts (R156, R157) -/

namespace Sys2Proof.Machine

/-! ### Rewinds, links and inbound frames (R107, R109, R114, R120 to R122, R129, R134 to R143, R151) -/

section Ports
variable (s : State) (p : PortId)

theorem AccountsMove.memoryFailure (k : Slot) : AccountsMove s (s.memoryFailure p k) :=
  AccountsMove.of_standing_trans
    (.stopEngine (s.modTicket k fun x => { x with state := .failing, reason := .memoryEnd }) p k) (settle_standing _)

theorem AccountsMove.lineAnswered (mark : FetchMark) (copy offset : Nat) (ok : Bool) (data : List Byte) :
    AccountsMove s (s.lineAnswered p mark copy offset ok data) := by
  unfold State.lineAnswered
  split
  case h_1 => exact .of_standing (settlePort_standing s p)
  case h_2 => exact .of_standing (by simp)
  case h_3 =>
    split
    case h_1 => exact .of_standing (settlePort_standing s p)
    case h_2 j _ =>
      exact .ite (fun _ => .of_standing (by simp [State.lineArrives])) fun _ => .memoryFailure (s.fetchDone j.slot) p j.slot

theorem AccountsMove.linkLoss : AccountsMove s (s.linkLoss p) := by
  have hlost := AccountsMove.rewind
    (((s.modLink p fun l => { l with state := .offline, credits := 0, silence := .stopped, idle := .stopped,
                                     warm := .stopped, onlineSeen := false }).handTrain p).raiseLinkDown p) p
  exact ((AccountsMove.of_standing (by simp)).trans hlost).of_standing_trans (settle_standing _)

theorem AccountsMove.silenceTimer : AccountsMove s (s.silenceTimer p) := .ite (fun _ => .linkLoss s p) fun _ => .refl s

theorem AccountsMove.watchStatus (bits : BitVec 16) : AccountsMove s (s.watchStatus p bits) := by
  have hraised : AccountsMove s ((edgesInOrder s.draws (s.port p).watch.conditions (s.evaluated p bits)).foldl
      (State.raiseEdge p (s.evaluated p bits) bits (s.inHand p))
      (({ s with draws := s.draws + 1 } : State).modWatch p fun _ => { bits := bits, conditions := s.evaluated p bits })) :=
    .of_standing ((raiseEdges_standing _ p _ _ _ _).trans (modWatch_standing _ p _))
  exact .ite (fun _ => hraised.trans (.rewind _ p)) fun _ => hraised

theorem AccountsMove.serveStatus (bits : BitVec 16) (n : Nat) : AccountsMove s (s.serveStatus p bits n) :=
  (AccountsMove.deliverSheets s p n).trans (.watchStatus _ p bits)

theorem AccountsMove.takeStatus (bits : BitVec 16) (n : Nat) : AccountsMove s (s.takeStatus p bits n) := by
  have hserved := AccountsMove.serveStatus s p bits n
  unfold State.takeStatus
  split
  case h_1 => exact hserved.of_standing_trans (by simp)
  case h_2 => exact hserved.of_standing_trans (by simp)
  case h_3 =>
    refine hserved.of_standing_trans ?_
    rw [settle_standing]
    split <;> simp
  case h_4 => exact .refl s

theorem AccountsMove.takeBadFrame : AccountsMove s (s.takeBadFrame p) := by
  unfold State.takeBadFrame
  extract_lets run v
  have hcounted : AccountsMove s v := .of_standing (modLink_standing s p _)
  refine .ite (fun _ => hcounted.trans ?_) fun _ => hcounted
  split
  case h_1 | h_2 | h_3 => exact .linkLoss v p
  case h_4 => exact .of_standing (by simp)
  case h_5 => exact .refl v

theorem AccountsMove.receive (bytes : List Byte) : AccountsMove s (s.receive p bytes) := by
  have hgood : AccountsMove s (s.goodFrame p) := .of_standing (goodFrame_standing s p)
  refine .ite (fun _ => .refl s) fun _ => ?_
  split
  case h_1 => exact hgood.of_standing_trans (takeTrainAck_standing _ p _)
  case h_2 => exact hgood.of_standing_trans (takeCredit_standing _ p _)
  case h_3 => exact hgood.trans (.takeStatus _ p _ _)
  case h_4 => exact .takeBadFrame s p

theorem AccountsMove.portReset : AccountsMove s (s.portReset p).1 := by
  unfold State.portReset
  split
  case isTrue => exact .refl s
  case isFalse => exact (AccountsMove.rewind s p).of_standing_trans (by simp)

end Ports

/-! ### Commands (R32 to R37, R44, R53) -/

section Commands
variable {s : State} {arg : Byte}

theorem AccountsMove.onPort {f : PortId → State × CommandResult} (h : ∀ p, AccountsMove s (f p).1) :
    AccountsMove s (s.onPort arg f).1 := by
  unfold State.onPort
  split
  case h_1 => exact h _
  case h_2 => exact .refl s

/-- A quota command's value is in range (R160). -/
theorem AccountsMove.onQuota {v : Nat} {f : AccountId → State × CommandResult}
    (h : v ≤ Config.maxPages → ∀ a, AccountsMove s (f a).1) : AccountsMove s (s.onQuota arg v f).1 := by
  unfold State.onQuota State.onAccount
  split
  case h_1 a _ =>
    dsimp only
    split
    case isTrue => exact .refl s
    case isFalse hv => exact (h (Nat.not_lt.1 hv) a).of_standing_trans (settle_standing _)
  case h_2 => exact .refl s

theorem AccountsMove.fst_ite {c : Prop} [Decidable c] {x y : State × CommandResult} (hx : AccountsMove s x.1)
    (hy : AccountsMove s y.1) : AccountsMove s (if c then x else y).1 := by
  split
  case isTrue => exact hx
  case isFalse => exact hy

theorem AccountsMove.perform (s : State) (code arg : Byte) (v : Nat) : AccountsMove s (s.perform code arg v).1 := by
  refine .fst_ite (.of_standing (commandStart_standing s)) ?_
  refine .fst_ite (.of_standing (commandStop_standing s)) ?_
  refine .fst_ite (.onPort fun p => .of_standing (portHold_standing s p)) ?_
  refine .fst_ite (.onPort fun p => .of_standing (portRelease_standing s p)) ?_
  refine .fst_ite (.onPort fun p => .of_standing (portFlush_standing s p)) ?_
  refine .fst_ite (.onPort fun p => .of_standing (portWake_standing s p)) ?_
  refine .fst_ite (.onPort fun p => .portReset s p) ?_
  refine .fst_ite (.onPort fun p => .of_standing (portResume_standing s p)) ?_
  refine .fst_ite (.onQuota fun hv a => .quotaSet a hv) ?_
  refine .fst_ite (.onQuota fun _ a => .quotaAdd a v) ?_
  refine .fst_ite (.of_standing (commandMeterClear_standing s arg)) ?_
  refine .fst_ite (.of_standing (alertTake_standing s)) ?_
  exact .fst_ite (.of_standing (alertDone_standing s)) (.refl s)

theorem AccountsMove.takeCommand (s : State) (code arg : Byte) (v : Nat) : AccountsMove s (s.takeCommand code arg v) :=
  (AccountsMove.perform s code arg v).of_standing_trans (modCtl_standing _ _)

theorem AccountsMove.cancelSent (s : State) (k : Slot) : AccountsMove s (s.cancelSent k) := by
  unfold State.cancelSent
  extract_lets v
  have hmarked : AccountsMove s v := .of_standing (modTicket_standing s k _)
  split
  case h_1 m _ =>
    have hstopped : AccountsMove v (if v.inHand m.port = some k then v.stopEngine m.port k else v.drainTest k) :=
      .ite (fun _ => .stopEngine v m.port k) fun _ => .of_standing (drainTest_standing v k)
    exact (hmarked.trans hstopped).of_standing_trans (settle_standing _)
  case h_2 => exact hmarked.of_standing_trans (drainTest_standing v k)

theorem AccountsMove.takeJob (s : State) (k : Slot) (addr : Addr) (code : Byte) :
    AccountsMove s (s.takeJob k addr code) := by
  have hfault (r : RefusalReason) : AccountsMove s (s.postFault addr r) := .of_standing rfl
  refine .ite (fun _ => ?_) fun _ => .ite (fun _ => ?_) fun _ => .ite (fun _ => ?_) fun _ => hfault _
  · split
    case h_1 => exact .of_standing (postTicket_standing s k)
    case h_2 => exact hfault _
  · split
    case h_1 => exact .of_standing (cancelQueued_standing s k)
    case h_2 | h_3 => exact .cancelSent s k
    case h_4 => exact hfault _
  · split
    case h_1 | h_2 | h_3 => exact .of_standing rfl
    case h_4 => exact hfault _

end Commands

/-! ### The host's requests and memory's answers (R1 to R18) -/

section Requests
variable (s : State)

theorem AccountsMove.absorbCommand (w : WriteRequest) : AccountsMove s (s.absorbCommand w) :=
  .ite (fun _ => (AccountsMove.takeCommand s _ _ _).of_standing_trans (ack_standing _ _ _)) fun _ => .of_standing rfl

theorem AccountsMove.absorbPost (k : Slot) (w : WriteRequest) : AccountsMove s (s.absorbPost k w) :=
  .ite (fun _ => (AccountsMove.takeJob s k _ _).of_standing_trans (ack_standing _ _ _)) fun _ =>
    .of_standing (refuse_standing s w _)

theorem AccountsMove.proceed {w : WriteRequest} (h : s.judgeWrite w = none) : AccountsMove s (s.proceed w) := by
  unfold State.proceed
  split
  case h_1 => exact .absorbCommand s w
  case h_2 => exact .absorbPost s _ w
  case h_3 =>
    split
    case h_1 => exact .of_standing (forwardWrite_standing s w)
    case h_2 hparts =>
      exact (AccountsMove.capture (judgeSettings_of_judgeWrite h hparts)).of_standing_trans (forwardWrite_standing _ w)

theorem AccountsMove.classifyWrite (w : WriteRequest) : AccountsMove s (s.classifyWrite w) := by
  unfold State.classifyWrite
  split
  case h_1 => exact .of_standing (refuse_standing s w _)
  case h_2 h => exact .proceed s h

theorem AccountsMove.takeWrite (w : WriteRequest) : AccountsMove s (s.takeWrite w) := by
  have hack (status : AckStatus) : AccountsMove s (s.ack w.tag status) := .of_standing rfl
  have hforward : AccountsMove s (s.forwardWrite w) := .of_standing (forwardWrite_standing s w)
  refine .ite (fun _ => hack _) fun _ => .ite (fun _ => .ite (fun _ => hack _) fun _ => ?_) fun _ => ?_
  · exact .ite (fun _ => hforward) fun _ => hack _
  · exact .ite (fun _ => .classifyWrite s w) fun _ => hack _

theorem AccountsMove.takeRequest (r : HostRequest) : AccountsMove s (s.takeRequest r) := by
  cases r with
  | read r => exact .of_standing (takeRead_standing s r)
  | write w => exact .takeWrite s w

theorem AccountsMove.hostRequest (r : HostRequest) : AccountsMove s (s.hostRequest r) :=
  .ite (fun _ => .takeRequest s r) fun _ => .of_standing rfl

theorem AccountsMove.unprompted : AccountsMove s s.unprompted := by
  unfold State.unprompted
  split
  case h_1 r _ => exact AccountsMove.of_standing_trans (.takeRequest (s.setHeld []) r) (setHeld_standing _ _)
  case h_2 => exact .of_standing (idle_standing s)

theorem AccountsMove.answered (owner : Owner) (a : KeptAnswer) : AccountsMove s (s.answered owner a) := by
  cases owner with
  | passing tag half => exact .of_standing (passingAnswered_standing s tag half a)
  | record dropped => exact .ite (fun _ => .refl s) fun _ => .of_standing (recordAnswered_standing s a.ok)
  | ticketFetch k => exact .of_standing (ticketFetchAnswered_standing s k a)
  | lineFetch p mark copy offset => exact .lineAnswered s p mark copy offset a.ok a.data
  | sweep => exact .of_standing (sweepAnswered_standing s a.ok)

theorem AccountsMove.memoryAnswers (kind : Owner → Bool) (grant : Nat) (ok : Bool) (data : List Byte) :
    AccountsMove s (s.memoryAnswers kind grant ok data) := by
  unfold State.memoryAnswers
  split
  case h_1 => exact .refl s
  case h_2 g _ =>
    exact AccountsMove.answered (s.modMsp fun m => { m with outstanding := m.outstanding.filter fun x => x.id != grant }) _ _

/-- The reset empties the page lists and the accounts (R20, R150, R155). -/
theorem AccountsMove.assertReset : AccountsMove s s.assertReset := .of_moves fun a => by
  have hreset : s.assertReset.standing a = .reset := by
    have hentries : State.reset.entriesOf a = 0 := (reset_reservationsMatch a).symm.trans (by rw [reset_account]; rfl)
    have hword : State.reset.accountWord a = 0x0000000100000000#64 := by
      simp [State.accountWord, tget, State.reset, defaultImage]
    show State.reset.standing a = .reset
    rw [State.standing, reset_account, hentries, hword]
    rfl
  rw [hreset]
  exact .reset _

end Requests

/-! ### A step -/

theorem AccountsMove.of_outcome {s t u : State} (h : AccountsMove s.clearOut u)
    (hu : (.next u : Host.Outcome State Fault Refusal) = .next t) : AccountsMove s t := by
  cases hu
  exact h

theorem AccountsMove.exec {i : Instr} {s t : State} (h : exec i s = .next t) : AccountsMove s t := by
  cases i with
  | resetNAssertion => exact .of_outcome (.assertReset _) h
  | resetNRelease anchor => exact .of_outcome (.of_standing (releaseReset_standing _ anchor)) h
  | millisecondCountTick => exact .of_outcome (.of_standing (tick_standing _)) h
  | read r => exact .of_outcome (.hostRequest _ (.read r)) h
  | write w => exact .of_outcome (.hostRequest _ (.write w)) h
  | windowSettingWrite | ringRestart | consumeIndexWrite | portEnable | portDisable | portSettingWrite
  | accountSettingWrite => exact .of_outcome (.hostRequest _ _) h
  | start | stop | portHold | portRelease | portFlush | portWake | portReset | portResume | quotaSet | quotaAdd
  | meterClear | alertTake | alertDone => exact .of_outcome (.hostRequest _ _) h
  | post | cancel | release => exact .of_outcome (.hostRequest _ _) h
  | memoryGrant => exact .of_outcome (.of_standing (grantNext_standing _)) h
  | recordWritePick => exact .of_outcome (.of_standing (pickRecord_standing _)) h
  | sweepWriteAnswer | passingResponse | ticketFetchAnswer | lineFetchAnswer | alertWriteAnswer =>
    exact .of_outcome (.memoryAnswers _ _ _ _ _) h
  | activation p => exact .of_outcome (.of_standing (dispatch_standing _ p)) h
  | wakeCause p => exact .of_outcome (.of_standing (wakeCause_standing _ p)) h
  | dataFrame p => exact .of_outcome (.sendFrame _ p) h
  | pacingWindowEnd p => exact .of_outcome (.of_standing (endWindow_standing _ p)) h
  | trainAck p | credit p | status p | badFrame p => exact .of_outcome (.receive _ p _) h
  | trainingTimerExpiry p => exact .of_outcome (.of_standing (trainingTimer_standing _ p)) h
  | silenceTimerExpiry p => exact .of_outcome (.silenceTimer _ p) h
  | idleTimerExpiry p => exact .of_outcome (.of_standing (idleTimer_standing _ p)) h
  | warmTimerExpiry p => exact .of_outcome (.of_standing (warmTimer_standing _ p)) h

/-- A step moves every account only as the rules of the claims, the quota commands, the settings and the reset have it. -/
theorem AccountsMove.step {s t : State} (h : step s = .next t) : AccountsMove s t := by
  unfold Machine.step at h
  split at h
  case h_1 => exact .of_outcome (.unprompted _) h
  case h_2 rest _ => exact AccountsMove.exec (s := s.withPending rest) h

/-- Settles O54: what a claim does to `reserved` it does to the entries. -/
theorem stepsKeepReservationsMatched : Obligations.StepsKeepReservationsMatched := by
  intro s t hs hstep
  rw [reservationsMatch_iff] at hs ⊢
  exact fun a => (AccountsMove.step hstep).keeps Standing.Move.keeps_matched a (hs a)

/-- Settles O55: every move of an account keeps it from being overdrawn. -/
theorem stepsKeepQuotaSound : Obligations.StepsKeepQuotaSound := by
  intro s t hs hstep
  rw [quotaSound_iff] at hs ⊢
  exact fun a => (AccountsMove.step hstep).keeps Standing.Move.keeps_sound a (hs a)

end Sys2Proof.Machine

/-! ## How the alert relay may move (R170 to R183) -/

namespace Sys2Proof.Machine

/-- The relay with ATTN_N judged again (R182). -/
def Relay.judged (r : Relay) : Relay := { r with attn := r.attnLevel }

@[simp] theorem judgeAttn_relay (s : State) : s.judgeAttn.relay = s.relay.judged := rfl

/-- What may happen to the relay: a raise at a source of its class (R170, R171); the ring writer's pick, where the ring has
room (R175); the ring's restart, the latch in flight lost or returned (R174, R176); an accepted consume index (R178); the
record write answered OK or ERROR (R176, R177, R179); ALERT_TAKE and ALERT_DONE (R180, R181); the reset (R183). -/
inductive Relay.Move : Relay → Relay → Prop
  | raise (r : Relay) (new : Latch) (source : new.source < new.cls.sources) :
    Move r { r with backlog := addRaise new r.backlog }
  | pick (r : Relay) (l : Latch) (rest : List Latch) (first : r.backlog = l :: rest) (room : r.unconsumed < 65535) :
    Move r { r with backlog := rest, inFlight := some l }
  | restart (r : Relay) (ls : List Latch)
    (latch : ls = r.backlog ∨ ∃ l, r.inFlight = some l ∧ ls = putBack l r.backlog) :
    Move r ({ r with backlog := ls, inFlight := none } : Relay).cleared
  | consume (r : Relay) (v : BitVec 16) (accepted : (v - r.consumed).toNat ≤ r.unconsumed) :
    Move r ({ r with consumed := v, shadow := r.shadow.drop (v - r.consumed).toNat } : Relay).judged
  | written (r : Relay) (l : Latch) (flying : r.inFlight = some l) :
    Move r ({ r with
      inFlight := none, produced := r.produced + 1, shadow := r.shadow ++ [l.cls] } : Relay).judged
  | failed (r : Relay) (l : Latch) (flying : r.inFlight = some l) :
    Move r ({ r with inFlight := none, ringState := .faulted, backlog := putBack l r.backlog } : Relay).judged
  | push (r : Relay) (c : AlertClass) (urgent : ∀ top, r.stack.head? = some top → c.rank < top.rank) :
    Move r ({ r with stack := c :: r.stack } : Relay).judged
  | pop (r : Relay) : Move r ({ r with stack := r.stack.tail } : Relay).judged
  | reset (r : Relay) : Move r .reset

/-! ### The service stack (R180, R181) -/

/-- Each class of the service stack is more urgent than the one below it (R180). -/
def Relay.nested (r : Relay) : Prop := r.stack.Pairwise fun above below => above.rank < below.rank

/-- A class more urgent than the top of a nested stack is more urgent than all of it. -/
theorem nested_cons {c : AlertClass} {stack : List AlertClass} (h : stack.Pairwise fun a b => a.rank < b.rank)
    (htop : ∀ top, stack.head? = some top → c.rank < top.rank) :
    (c :: stack).Pairwise fun a b => a.rank < b.rank := by
  refine List.pairwise_cons.2 ⟨fun d hd => ?_, h⟩
  cases stack with
  | nil => cases hd
  | cons top below =>
    have hc := htop top rfl
    rcases List.mem_cons.1 hd with rfl | hd
    · exact hc
    · exact hc.trans ((List.pairwise_cons.1 h).1 d hd)

theorem Relay.Move.keeps_nested {x y : Relay} (h : x.Move y) (hx : x.nested) : y.nested := by
  cases h with
  | raise | pick | restart | consume | written | failed => exact hx
  | push c urgent => exact nested_cons hx urgent
  | pop => exact hx.sublist (List.tail_sublist _)
  | reset => exact List.Pairwise.nil

/-! ### The backlog's order (R171, R175) -/

/-- The backlog holds at most one latch for each class and source, in the order of the writer's picks (R171, R175). -/
def Relay.ordered (r : Relay) : Prop := r.backlog.Pairwise fun a b => a.key < b.key

/-- A latch takes its place in a backlog, or is merged with the latch that holds it (R171, R177). -/
def placed (new : Latch) (merge : Latch → Latch) : List Latch → List Latch
  | [] => [new]
  | l :: ls =>
    if new.key < l.key then new :: l :: ls
    else if new.key = l.key then merge l :: ls
    else l :: placed new merge ls

theorem addRaise_eq_placed (new : Latch) (ls : List Latch) : addRaise new ls =
    placed new (fun l => { l with occurrences := min (l.occurrences + 1) Config.maxSpoiled }) ls := by
  induction ls with
  | nil => rfl
  | cons l ls ih => rw [addRaise, placed, ih]

theorem putBack_eq_placed (new : Latch) (ls : List Latch) : putBack new ls =
    placed new (fun l => { new with occurrences := min (new.occurrences + l.occurrences) Config.maxSpoiled }) ls := by
  induction ls with
  | nil => rfl
  | cons l ls ih => rw [putBack, placed, ih]

section Order
variable {new : Latch} {merge : Latch → Latch} {ls : List Latch}

theorem key_of_mem_placed (hmerge : ∀ l, new.key = l.key → (merge l).key = l.key) {x : Latch}
    (h : x ∈ placed new merge ls) : x.key = new.key ∨ ∃ l ∈ ls, x.key = l.key := by
  induction ls with
  | nil => exact .inl (congrArg Latch.key (List.mem_singleton.1 h))
  | cons l ls ih =>
    simp only [placed] at h
    split at h
    case isTrue =>
      rcases List.mem_cons.1 h with rfl | hx
      · exact .inl rfl
      · exact .inr ⟨x, hx, rfl⟩
    case isFalse =>
      split at h
      case isTrue heq =>
        rcases List.mem_cons.1 h with rfl | hx
        · exact .inr ⟨l, List.mem_cons_self, hmerge l heq⟩
        · exact .inr ⟨x, List.mem_cons_of_mem _ hx, rfl⟩
      case isFalse =>
        rcases List.mem_cons.1 h with rfl | hx
        · exact .inr ⟨x, List.mem_cons_self, rfl⟩
        · exact (ih hx).imp_right fun ⟨k, hk, hkey⟩ => ⟨k, List.mem_cons_of_mem _ hk, hkey⟩

/-- In an ordered backlog every latch behind one that goes after `k` goes after `k` too. -/
theorem key_lt_of_head {k l : Latch} (h : (l :: ls).Pairwise fun a b => a.key < b.key) (hlt : k.key < l.key) :
    ∀ x ∈ l :: ls, k.key < x.key := by
  rintro x (_ | ⟨_, hx⟩)
  · exact hlt
  · exact hlt.trans ((List.pairwise_cons.1 h).1 x hx)

theorem placed_ordered (hmerge : ∀ l, new.key = l.key → (merge l).key = l.key)
    (h : ls.Pairwise fun a b => a.key < b.key) : (placed new merge ls).Pairwise fun a b => a.key < b.key := by
  induction ls with
  | nil => exact List.pairwise_singleton _ _
  | cons l ls ih =>
    obtain ⟨hhead, htail⟩ := List.pairwise_cons.1 h
    simp only [placed]
    split
    case isTrue hlt => exact List.pairwise_cons.2 ⟨key_lt_of_head h hlt, h⟩
    case isFalse hge =>
      split
      case isTrue heq =>
        refine List.pairwise_cons.2 ⟨fun x hx => ?_, htail⟩
        rw [hmerge l heq]
        exact hhead x hx
      case isFalse hne =>
        refine List.pairwise_cons.2 ⟨fun x hx => ?_, ih htail⟩
        obtain hx | ⟨k, hk, hx⟩ := key_of_mem_placed hmerge hx
        · omega
        · rw [hx]
          exact hhead k hk

theorem ordered_addRaise (h : ls.Pairwise fun a b => a.key < b.key) :
    (addRaise new ls).Pairwise fun a b => a.key < b.key := by
  rw [addRaise_eq_placed]
  exact placed_ordered (fun _ _ => rfl) h

theorem ordered_putBack (h : ls.Pairwise fun a b => a.key < b.key) :
    (putBack new ls).Pairwise fun a b => a.key < b.key := by
  rw [putBack_eq_placed]
  exact placed_ordered (fun _ heq => heq) h

end Order

theorem Relay.Move.keeps_ordered {x y : Relay} (h : x.Move y) (hx : x.ordered) : y.ordered := by
  cases h with
  | raise => exact ordered_addRaise hx
  | pick l rest first => exact (List.pairwise_cons.1 (first ▸ hx : (l :: rest).Pairwise _)).2
  | restart ls latch =>
    obtain rfl | ⟨l, -, rfl⟩ := latch
    · exact hx
    · exact ordered_putBack hx
  | failed => exact ordered_putBack hx
  | consume | written | push | pop => exact hx
  | reset => exact List.Pairwise.nil

/-! ### The sources (R170) -/

/-- Every latch of the backlog, and the latch in flight, names one of its class's sources (R170). -/
def Relay.sourced (r : Relay) : Prop :=
  (∀ l ∈ r.backlog, l.source < l.cls.sources) ∧ ∀ l, r.inFlight = some l → l.source < l.cls.sources

section Sources
variable {new : Latch} {ls : List Latch}

theorem sourced_addRaise (hnew : new.source < new.cls.sources) (h : ∀ l ∈ ls, l.source < l.cls.sources) :
    ∀ l ∈ addRaise new ls, l.source < l.cls.sources := by
  intro x hx
  obtain rfl | ⟨l, hl, hcls, hsource⟩ := mem_addRaise hx
  · exact hnew
  · rw [hcls, hsource]
    exact h l hl

theorem sourced_putBack (hnew : new.source < new.cls.sources) (h : ∀ l ∈ ls, l.source < l.cls.sources) :
    ∀ l ∈ putBack new ls, l.source < l.cls.sources := by
  intro x hx
  obtain ⟨hcls, hsource⟩ | hx := mem_putBack hx
  · rw [hcls, hsource]
    exact hnew
  · exact h x hx

end Sources

theorem Relay.Move.keeps_sourced {x y : Relay} (h : x.Move y) (hx : x.sourced) : y.sourced := by
  obtain ⟨hbacklog, hflying⟩ := hx
  cases h with
  | raise new source => exact ⟨sourced_addRaise source hbacklog, hflying⟩
  | pick l rest first =>
    rw [first] at hbacklog
    refine ⟨fun k hk => hbacklog k (List.mem_cons_of_mem _ hk), ?_⟩
    rintro _ ⟨⟩
    exact hbacklog l List.mem_cons_self
  | restart ls latch =>
    refine ⟨?_, nofun⟩
    obtain rfl | ⟨l, hl, rfl⟩ := latch
    · exact hbacklog
    · exact sourced_putBack (hflying l hl) hbacklog
  | written => exact ⟨hbacklog, nofun⟩
  | failed l hl => exact ⟨sourced_putBack (hflying l hl) hbacklog, nofun⟩
  | consume | push | pop => exact ⟨hbacklog, hflying⟩
  | reset => exact ⟨nofun, nofun⟩

/-! ### ATTN_N (R182) -/

/-- ATTN_N stands at its level. -/
def Relay.attentive (r : Relay) : Prop := r.attn = r.attnLevel

/-- ATTN_N's level in words (R182). -/
theorem attnLevel_iff (r : Relay) : r.attnLevel = true ↔
    r.ringState = .faulted ∨ ∃ c ∈ r.shadow, ∀ top, r.stack.head? = some top → c.rank < top.rank := by
  unfold Relay.attnLevel
  rw [Bool.or_eq_true, beq_iff_eq]
  refine or_congr_right ?_
  cases r.stack with
  | nil => simp [List.eq_nil_iff_forall_not_mem]
  | cons top below => simp [AlertClass.moreUrgent]

theorem attnJudged_iff (s : State) : s.attnJudged ↔ s.relay.attentive := by
  rw [State.attnJudged, ← attnLevel_iff, ← Bool.eq_iff_iff]
  rfl

theorem attentive_judged (r : Relay) : r.judged.attentive := rfl

theorem Relay.Move.keeps_attentive {x y : Relay} (h : x.Move y) (hx : x.attentive) : y.attentive := by
  cases h with
  | raise | pick => exact hx
  | restart => exact (attnLevel_restarted rfl rfl).symm
  | consume | written | failed | push | pop => exact attentive_judged _
  | reset => rfl

/-! ### The class shadow (R175, R178, R179) -/

/-- The shadow holds one class for each record not consumed, and a record write in flight has room (R175, R179). -/
def Relay.shadowed (r : Relay) : Prop :=
  r.shadow.length = r.unconsumed ∧ (r.inFlight.isSome = true → r.unconsumed < 65535)

/-- A consume index within the records not consumed leaves that many fewer (R178). -/
theorem unconsumed_consume {r : Relay} {v : BitVec 16} (h : (v - r.consumed).toNat ≤ r.unconsumed) :
    (r.produced - v).toNat = r.unconsumed - (v - r.consumed).toNat := by
  unfold Relay.unconsumed at h ⊢
  bv_omega

/-- One more record is one more not consumed, unless the counts would meet (R176). -/
theorem unconsumed_written {r : Relay} (h : r.unconsumed < 65535) :
    (r.produced + 1 - r.consumed).toNat = r.unconsumed + 1 := by
  unfold Relay.unconsumed at h ⊢
  bv_omega

theorem Relay.Move.keeps_shadowed {x y : Relay} (h : x.Move y) (hx : x.shadowed) : y.shadowed := by
  obtain ⟨hlength, hroom⟩ := hx
  cases h with
  | raise | push | pop => exact ⟨hlength, hroom⟩
  | pick l rest first room => exact ⟨hlength, fun _ => room⟩
  | restart => exact ⟨(by decide : 0 = ((0 : BitVec 16) - 0).toNat), nofun⟩
  | reset => exact ⟨rfl, nofun⟩
  | consume v accepted =>
    have hless := unconsumed_consume accepted
    refine ⟨?_, fun hflying => ?_⟩
    · exact List.length_drop.trans ((congrArg (· - _) hlength).trans hless.symm)
    · exact lt_of_le_of_lt (hless.trans_le (Nat.sub_le _ _)) (hroom hflying)
  | written l flying =>
    have hmore := unconsumed_written (hroom (by rw [flying]; rfl))
    refine ⟨?_, nofun⟩
    exact List.length_append.trans ((congrArg (· + 1) hlength).trans hmore.symm)
  | failed => exact ⟨hlength, nofun⟩

end Sys2Proof.Machine

/-! ## What the relay may have gone through from one state to another -/

namespace Sys2Proof.Machine

/-- From `s` to `t` the relay goes through moves as the rules have them. -/
def RelayMoves (s t : State) : Prop := Relation.ReflTransGen Relay.Move s.relay t.relay

section Moving
variable {s t u : State}

/-- What every move keeps holds of the relay when it held before. -/
theorem RelayMoves.keeps (h : RelayMoves s t) {P : Relay → Prop} (hP : ∀ {x y : Relay}, x.Move y → P x → P y)
    (hs : P s.relay) : P t.relay := by
  unfold RelayMoves at h
  generalize t.relay = y at h ⊢
  induction h with
  | refl => exact hs
  | tail _ hmove ih => exact hP hmove ih

theorem RelayMoves.of_relay (h : t.relay = s.relay) : RelayMoves s t := by rw [RelayMoves, h]

theorem RelayMoves.refl (s : State) : RelayMoves s s := .of_relay rfl

theorem RelayMoves.trans (h : RelayMoves s t) (k : RelayMoves t u) : RelayMoves s u := Relation.ReflTransGen.trans h k

theorem RelayMoves.of_relay_trans (h : RelayMoves s t) (k : u.relay = t.relay) : RelayMoves s u := h.trans (.of_relay k)

theorem RelayMoves.of_move (h : s.relay.Move t.relay) : RelayMoves s t := .single h

theorem RelayMoves.ite {c : Prop} [Decidable c] (ht : c → RelayMoves s t) (hu : ¬c → RelayMoves s u) :
    RelayMoves s (if c then t else u) := by
  split
  · exact ht ‹_›
  · exact hu ‹_›

theorem RelayMoves.foldl {α : Type} {f : State → α → State} (h : ∀ v x, RelayMoves v (f v x)) (xs : List α) (s : State) :
    RelayMoves s (xs.foldl f s) := by
  induction xs generalizing s with
  | nil => exact .refl s
  | cons x xs ih => exact (h s x).trans (ih _)

end Moving

/-! ### What leaves the relay alone -/

section Engines
variable (s : State) (p : PortId)

@[simp] theorem hand_relay (f : Frame) : (s.hand p f).relay = s.relay := rfl

@[simp] theorem handData_relay (payload : List Byte) : (s.handData p payload).relay = s.relay := rfl

@[simp] theorem pageEnded_relay : s.pageEnded.relay = s.relay := by rw [pageEnded_frame]

@[simp] theorem closePage_relay (j : Job) (f : FramePlan) : (s.closePage p j f).relay = s.relay := by
  unfold State.closePage
  dsimp only
  split <;> simp [State.claimClose]

@[simp] theorem openPage_relay (j : Job) : (s.openPage p j).relay = s.relay := rfl

@[simp] theorem sendFrame_relay : (s.sendFrame p).relay = s.relay := by
  unfold State.sendFrame
  split
  case h_1 => rfl
  case h_2 =>
    split
    case h_1 => rfl
    case h_2 =>
      dsimp only
      rw [State.settle_relay]
      split <;> split <;> simp

@[simp] theorem withdrawOpen_relay : (s.withdrawOpen p).relay = s.relay := by rw [withdrawOpen_frame]

@[simp] theorem takeBackFetch_relay (k : Slot) : (s.takeBackFetch p k).relay = s.relay := rfl

@[simp] theorem remarkFetches_relay (mark : FetchMark) : (s.remarkFetches p mark).relay = s.relay := rfl

@[simp] theorem dropJob_relay (k : Slot) : (s.dropJob p k).relay = s.relay := rfl

@[simp] theorem rewindStop_relay : (s.rewindStop p).relay = s.relay := by rw [rewindStop_frame]

@[simp] theorem spoilAll_relay : (s.spoilAll p).relay = s.relay := by rw [spoilAll_frame]

@[simp] theorem activate_relay (k : Slot) : (s.activate p k).relay = s.relay := by
  unfold State.activate
  dsimp only
  split <;> simp

@[simp] theorem dispatch_relay : (s.dispatch p).relay = s.relay := by
  unfold State.dispatch
  split <;> simp

@[simp] theorem dispatchAccepted_relay (k : Slot) : (s.dispatchAccepted k).relay = s.relay := by
  unfold State.dispatchAccepted
  split <;> simp

@[simp] theorem presentTicketFetch_relay : s.presentTicketFetch.relay = s.relay := by
  unfold State.presentTicketFetch
  split
  case h_1 => rfl
  case h_2 => split <;> rfl

@[simp] theorem ticketFetchGranted_relay : s.ticketFetchGranted.relay = s.relay := by
  unfold State.ticketFetchGranted
  split
  case h_1 => rfl
  case h_2 => exact presentTicketFetch_relay _

@[simp] theorem postTicket_relay (k : Slot) : (s.postTicket k).relay = s.relay := presentTicketFetch_relay _

@[simp] theorem endWindow_relay : (s.endWindow p).relay = s.relay := by
  unfold State.endWindow
  split <;> simp

end Engines

section Links
variable (s : State) (p : PortId)

@[simp] theorem handTrain_relay : (s.handTrain p).relay = s.relay := rfl

@[simp] theorem enablePort_relay : (s.enablePort p).relay = s.relay := rfl

@[simp] theorem disablePort_relay : (s.disablePort p).relay = s.relay := rfl

@[simp] theorem resetLink_relay : (s.resetLink p).relay = s.relay := rfl

@[simp] theorem judgeJamStop_relay : (s.judgeJamStop p).relay = s.relay := by
  unfold State.judgeJamStop
  split <;> rfl

@[simp] theorem becomeReady_relay : (s.becomeReady p).relay = s.relay := by simp [State.becomeReady]

@[simp] theorem wake_relay : (s.wake p).relay = s.relay := by simp [State.wake]

@[simp] theorem wakeCause_relay : (s.wakeCause p).relay = s.relay := by
  unfold State.wakeCause
  split <;> simp

@[simp] theorem startSilence_relay : (s.startSilence p).relay = s.relay := rfl

@[simp] theorem goodFrame_relay : (s.goodFrame p).relay = s.relay := rfl

@[simp] theorem takeTrainAck_relay (n : Nat) : (s.takeTrainAck p n).relay = s.relay := by
  unfold State.takeTrainAck
  split <;> simp

@[simp] theorem takeCredit_relay (n : Nat) : (s.takeCredit p n).relay = s.relay := by
  unfold State.takeCredit
  split <;> simp

@[simp] theorem statusInWaking_relay (bits : BitVec 16) : (s.statusInWaking p bits).relay = s.relay := by
  unfold State.statusInWaking
  dsimp only
  split_ifs <;> simp

@[simp] theorem idleTimer_relay : (s.idleTimer p).relay = s.relay := by
  unfold State.idleTimer State.idleExpires
  split_ifs <;> simp

@[simp] theorem warmTimer_relay : (s.warmTimer p).relay = s.relay := by
  unfold State.warmTimer State.warmExpires
  dsimp only
  split_ifs <;> simp

end Links

section Traffic
variable (s : State)

@[simp] theorem ack_relay (tag : Tag) (status : AckStatus) : (s.ack tag status).relay = s.relay := rfl

@[simp] theorem setHeld_relay (rs : List HostRequest) : (s.setHeld rs).relay = s.relay := rfl

@[simp] theorem pass_relay (tag : Tag) (w : Bool) (addr size : Nat) (es : List Bool) (ds : List Byte) :
    (s.pass tag w addr size es ds).relay = s.relay := by
  unfold State.pass
  split <;> rfl

@[simp] theorem forwardWrite_relay (w : WriteRequest) : (s.forwardWrite w).relay = s.relay := pass_relay ..

@[simp] theorem takeRead_relay (r : ReadRequest) : (s.takeRead r).relay = s.relay := by
  unfold State.takeRead State.classifyRead
  dsimp only
  split_ifs
  case pos | pos | pos => rfl
  case neg => exact pass_relay ..

@[simp] theorem passingAnswered_relay (tag : Tag) (half : Half) (a : KeptAnswer) :
    (s.passingAnswered tag half a).relay = s.relay := by
  unfold State.passingAnswered
  split
  case h_1 => rfl
  case h_2 =>
    dsimp only
    split <;> rfl

@[simp] theorem sweepAnswered_relay (ok : Bool) : (s.sweepAnswered ok).relay = s.relay := by
  unfold State.sweepAnswered
  dsimp only
  split <;> rfl

@[simp] theorem presentSweep_relay : s.presentSweep.relay = s.relay := by
  unfold State.presentSweep
  split <;> rfl

@[simp] theorem grantNext_relay : s.grantNext.relay = s.relay := by
  unfold State.grantNext State.afterGrant
  split
  case h_1 => rfl
  case h_2 => split <;> simp

@[simp] theorem releaseReset_relay (anchor : BitVec 8) : (s.releaseReset anchor).relay = s.relay := by
  unfold State.releaseReset
  split
  case isTrue => exact presentSweep_relay _
  case isFalse => rfl

@[simp] theorem tick_relay : s.tick.relay = s.relay := by
  unfold State.tick
  split <;> rfl

@[simp] theorem idle_relay : s.idle.relay = s.relay := by rw [idle_frame]

end Traffic

section Commands
variable (s : State) (p : PortId)

@[simp] theorem commandStart_relay : s.commandStart.1.relay = s.relay := State.settle_relay _

@[simp] theorem commandStop_relay : s.commandStop.1.relay = s.relay := by
  unfold State.commandStop
  split
  case h_1 => exact State.settle_relay _
  case h_2 | h_3 => rfl

@[simp] theorem portHold_relay : (s.portHold p).1.relay = s.relay := State.settlePort_relay _ p

@[simp] theorem portRelease_relay : (s.portRelease p).1.relay = s.relay := State.settlePort_relay _ p

@[simp] theorem portWake_relay : (s.portWake p).1.relay = s.relay := by
  unfold State.portWake
  split <;> simp

@[simp] theorem portResume_relay : (s.portResume p).1.relay = s.relay := by
  unfold State.portResume
  split <;> simp

@[simp] theorem quotaSet_relay (a : AccountId) (v : Nat) : (s.quotaSet a v).1.relay = s.relay := by
  unfold State.quotaSet
  split <;> rfl

@[simp] theorem commandMeterClear_relay (arg : Byte) : (s.commandMeterClear arg).1.relay = s.relay := by
  unfold State.commandMeterClear State.onAccount
  split
  case isTrue => rfl
  case isFalse => split <;> rfl

end Commands

end Sys2Proof.Machine

/-! ## Raises, and the relay's own operations, are moves of the relay (R170 to R182) -/

namespace Sys2Proof.Machine

/-! ### Raises (R170 to R172) -/

section Raises
variable (s : State) (p : PortId) (k : Slot)

theorem RelayMoves.raise {c : AlertClass} {n : Nat} (h : n < c.sources) (d : Detail) : RelayMoves s (s.raise c n d) :=
  .of_move (.raise s.relay ⟨c, n, s.milliseconds, 1, d⟩ h)

/-- A JOB alert's source is its slot (R170). -/
theorem RelayMoves.raiseJob (jobTag : BitVec 32) (reason : Reason) (delivered spoiled : Nat) :
    RelayMoves s (s.raiseJob k jobTag reason delivered spoiled) := .raise s k.isLt _

theorem RelayMoves.raiseLinkDown : RelayMoves s (s.raiseLinkDown p) := .raise s p.isLt _

theorem CondClass.alert_sources (c : CondClass) : c.alert.sources = 16 := by cases c <;> rfl

/-- A condition's alert is of a class whose sources are the ports (R135, R170). -/
theorem RelayMoves.raiseEdge (after : Vector HeldCondition 4) (bits : BitVec 16) (hand : Option Slot) (c : CondId) :
    RelayMoves s (State.raiseEdge p after bits hand s c) :=
  .raise s (p.isLt.trans_eq (CondClass.alert_sources _).symm) _

theorem RelayMoves.postFault (addr : Addr) (reason : RefusalReason) : RelayMoves s (s.postFault addr reason) :=
  .raise s (by decide) _

theorem RelayMoves.refuse (w : WriteRequest) (reason : RefusalReason) : RelayMoves s (s.refuse w reason) :=
  (RelayMoves.raise (s.modCtl fun c => { c with refusals := c.refusals + 1 }) (by decide) _).of_relay_trans rfl

theorem RelayMoves.claimDeliver (a : AccountId) : RelayMoves s (s.claimDeliver a) := by
  refine .ite (fun _ => ?_) fun _ => .of_relay rfl
  exact (RelayMoves.of_relay rfl).trans (.raise _ a.isLt _)

theorem RelayMoves.endTicket (st : TicketState) (r : Reason) : RelayMoves s (s.endTicket k st r) := by
  unfold State.endTicket
  dsimp only
  split
  case h_1 => exact .of_relay rfl
  case h_2 =>
    exact .ite (fun _ => (RelayMoves.of_relay rfl).trans (.raiseJob _ k _ _ _ _)) fun _ => .of_relay rfl

theorem RelayMoves.drainTest : RelayMoves s (s.drainTest k) := by
  rw [drainTest_eq]
  exact .ite (fun _ => .endTicket s k _ _) fun _ => .refl s

theorem RelayMoves.deliveryTest : RelayMoves s (s.deliveryTest k) := by
  unfold State.deliveryTest
  split
  case h_1 => exact .ite (fun _ => .endTicket s k _ _) fun _ => .refl s
  case h_2 | h_3 => exact .drainTest s k
  case h_4 => exact .refl s

theorem RelayMoves.rewindTicket (pages : List Entry) (job : Option Job) :
    RelayMoves s (State.rewindTicket pages job s k) := .ite (fun _ => .of_relay rfl) fun _ => .drainTest s k

theorem RelayMoves.judgeTicket (a : KeptAnswer) : RelayMoves s (s.judgeTicket k a) := by
  unfold State.judgeTicket
  split
  case h_1 => exact (RelayMoves.of_relay rfl).trans (.raiseJob _ k _ _ _ _)
  case h_2 => exact .of_relay rfl

theorem RelayMoves.judgeHeads (xs : List InFlight) : RelayMoves s (s.judgeHeads xs) := by
  induction xs generalizing s with
  | nil => exact .refl s
  | cons x xs ih =>
    unfold State.judgeHeads
    split
    case h_1 => exact .refl s
    case h_2 a _ =>
      have hjudged : RelayMoves s (s.judgeHead x.slot a xs) := (RelayMoves.judgeTicket s x.slot a).of_relay_trans rfl
      refine RelayMoves.trans ?_ (ih _)
      exact .ite (fun _ => hjudged.of_relay_trans (dispatchAccepted_relay _ _)) fun _ => hjudged

theorem RelayMoves.ticketFetchAnswered (a : KeptAnswer) : RelayMoves s (s.ticketFetchAnswered k a) :=
  RelayMoves.of_relay_trans (.judgeHeads { s with fetcher :=
    { s.fetcher with inFlight := keepAnswer k a s.fetcher.inFlight } } _) (State.settle_relay _)

end Raises

/-! ### The ring (R173 to R179) -/

section Ring
variable (s : State)

/-- No ring holds more than 2048 records (R173, R188). -/
theorem ringRecords_le (w : Word) : ringRecords w ≤ 2048 := by
  have hcode : sizeCode w < 2 ^ 3 := Nat.mod_lt _ (by decide)
  have hpow : 2 ^ sizeCode w ≤ 2 ^ 7 := Nat.pow_le_pow_right (by decide) (Nat.le_of_lt_succ hcode)
  unfold ringRecords
  omega

theorem RelayMoves.pickRecord : RelayMoves s s.pickRecord := by
  unfold State.pickRecord
  split
  case h_1 => exact .refl s
  case h_2 l rest hfirst =>
    refine .ite (fun hpick => ?_) fun _ => .refl s
    have hroom : s.relay.unconsumed < ringRecords s.image.ring := by
      simp only [State.mayPick, Bool.and_eq_true, decide_eq_true_eq] at hpick
      exact hpick.2
    have hring := ringRecords_le s.image.ring
    exact .of_move (.pick s.relay l rest hfirst (by omega))

theorem dropRecordWrite_relay_cases : ∃ ls, s.dropRecordWrite.relay = { s.relay with backlog := ls, inFlight := none } ∧
    (ls = s.relay.backlog ∨ ∃ l, s.relay.inFlight = some l ∧ ls = putBack l s.relay.backlog) := by
  unfold State.dropRecordWrite
  split
  case h_1 h => exact ⟨_, by rw [← h], .inl rfl⟩
  case h_2 l h =>
    split
    case isTrue => exact ⟨_, rfl, .inr ⟨l, h, rfl⟩⟩
    case isFalse => exact ⟨_, rfl, .inl rfl⟩

theorem RelayMoves.restartRing : RelayMoves s s.restartRing := by
  obtain ⟨ls, hdropped, hlatch⟩ := dropRecordWrite_relay_cases s
  have hrelay : s.restartRing.relay = ({ s.relay with backlog := ls, inFlight := none } : Relay).cleared := by
    rw [restartRing_cleared, hdropped]
  exact .of_move (hrelay ▸ .restart s.relay ls hlatch)

theorem RelayMoves.consumeTo {v : BitVec 16} (h : (v - s.relay.consumed).toNat ≤ s.relay.unconsumed) :
    RelayMoves s (s.consumeTo v) := .of_move (.consume s.relay v h)

theorem RelayMoves.recordAnswered (ok : Bool) : RelayMoves s (s.recordAnswered ok) := by
  unfold State.recordAnswered
  split
  case h_1 => exact .refl s
  case h_2 l hflying =>
    cases ok with
    | true => exact .of_move (.written s.relay l hflying)
    | false => exact .of_move (.failed s.relay l hflying)

end Ring

/-! ### The service stack (R180, R181) -/

section Stack
variable (s : State)

theorem RelayMoves.alertTake : RelayMoves s s.alertTake.1 := by
  unfold State.alertTake
  split
  case h_1 => exact .refl s
  case h_2 c _ =>
    split
    case h_1 hempty =>
      exact .of_move (hempty ▸ .push s.relay c (by rw [hempty]; nofun))
    case h_2 top below hstack =>
      split
      case isTrue hurgent =>
        refine .of_move (hstack ▸ .push s.relay c ?_)
        rw [hstack]
        rintro _ ⟨⟩
        exact of_decide_eq_true hurgent
      case isFalse => exact .refl s

theorem RelayMoves.alertDone : RelayMoves s s.alertDone.1 := by
  unfold State.alertDone
  split
  case h_1 => exact .refl s
  case h_2 top below hstack =>
    have hpop := Relay.Move.pop s.relay
    rw [hstack] at hpop
    exact .of_move hpop

end Stack

end Sys2Proof.Machine

/-! ## What a step does to the relay (R170 to R182) -/

namespace Sys2Proof.Machine

/-! ### Rewinds, links and inbound frames (R107, R109, R114, R120 to R122, R129, R134 to R143, R151) -/

section Ports
variable (s : State) (p : PortId)

theorem RelayMoves.stopEngine (k : Slot) : RelayMoves s (s.stopEngine p k) := by
  have hhalted : RelayMoves s ((((s.withdrawOpen p).takeBackFetch p k).remarkFetches p (.stopped k)).dropJob p k) :=
    .of_relay (by simp)
  exact hhalted.trans (.drainTest _ k)

theorem RelayMoves.memoryFailure (k : Slot) : RelayMoves s (s.memoryFailure p k) :=
  RelayMoves.of_relay_trans
    (.stopEngine (s.modTicket k fun x => { x with state := .failing, reason := .memoryEnd }) p k) (State.settle_relay _)

theorem RelayMoves.lineAnswered (mark : FetchMark) (copy offset : Nat) (ok : Bool) (data : List Byte) :
    RelayMoves s (s.lineAnswered p mark copy offset ok data) := by
  unfold State.lineAnswered
  split
  case h_1 => exact .of_relay (State.settlePort_relay s p)
  case h_2 k => exact RelayMoves.of_relay_trans (.drainTest (s.fetchDone k) k) (State.settlePort_relay _ p)
  case h_3 =>
    split
    case h_1 => exact .of_relay (State.settlePort_relay s p)
    case h_2 j _ =>
      refine .ite (fun _ => .of_relay ?_) fun _ => .memoryFailure (s.fetchDone j.slot) p j.slot
      exact State.settlePort_relay _ p

theorem RelayMoves.deliverEntry (e : Entry) (rest : List Entry) : RelayMoves s (s.deliverEntry p e rest) := by
  have hcharged : RelayMoves s ((s.setPages p rest).claimDeliver e.account) := .claimDeliver (s.setPages p rest) e.account
  exact (hcharged.of_relay_trans (State.modTicket_relay _ e.slot _)).trans (.deliveryTest _ e.slot)

theorem RelayMoves.deliverSheets (n : Nat) : RelayMoves s (s.deliverSheets p n) := by
  induction n generalizing s with
  | zero => exact .refl s
  | succ n ih =>
    unfold State.deliverSheets
    split
    case h_1 => exact .of_relay rfl
    case h_2 e rest _ => exact .ite (fun _ => (RelayMoves.deliverEntry s p e rest).trans (ih _)) fun _ => .of_relay rfl

theorem RelayMoves.rewind : RelayMoves s (s.rewind p) := by
  have hspoiled : RelayMoves s ((s.rewindStop p).spoilAll p) := .of_relay (by simp)
  have hdealt := RelayMoves.foldl (fun v k => .rewindTicket v k (s.port p).pages (s.port p).engine.job)
    (rewindSlots (s.port p).pages (s.port p).engine.job) ((s.rewindStop p).spoilAll p)
  exact (hspoiled.trans hdealt).of_relay_trans rfl

theorem RelayMoves.linkLoss : RelayMoves s (s.linkLoss p) := by
  have hdown := RelayMoves.raiseLinkDown ((s.modLink p fun l =>
    { l with state := .offline, credits := 0, silence := .stopped, idle := .stopped, warm := .stopped,
             onlineSeen := false }).handTrain p) p
  exact (RelayMoves.trans hdown (.rewind _ p)).of_relay_trans (State.settle_relay _)

theorem RelayMoves.trainingFailure : RelayMoves s (s.trainingFailure p) :=
  .raiseLinkDown ((s.modLink p fun l => { l with state := .offline, credits := 0 }).handTrain p) p

theorem RelayMoves.trainingTimer : RelayMoves s (s.trainingTimer p) := by
  refine .ite (fun _ => ?_) fun _ => .refl s
  unfold State.trainingExpires
  split
  case h_1 => exact (RelayMoves.trainingFailure s p).of_relay_trans (State.settlePort_relay _ p)
  case h_2 => exact .of_relay (handTrain_relay s p)
  case h_3 => exact .refl s

theorem RelayMoves.silenceTimer : RelayMoves s (s.silenceTimer p) := .ite (fun _ => .linkLoss s p) fun _ => .refl s

theorem RelayMoves.watchStatus (bits : BitVec 16) : RelayMoves s (s.watchStatus p bits) := by
  have hraised : RelayMoves s ((edgesInOrder s.draws (s.port p).watch.conditions (s.evaluated p bits)).foldl
      (State.raiseEdge p (s.evaluated p bits) bits (s.inHand p))
      (({ s with draws := s.draws + 1 } : State).modWatch p fun _ => { bits := bits, conditions := s.evaluated p bits })) :=
    RelayMoves.foldl (f := State.raiseEdge p _ bits _) (fun v c => .raiseEdge v p _ bits _ c) _
      (({ s with draws := s.draws + 1 } : State).modWatch p fun _ => { bits := bits, conditions := s.evaluated p bits })
  exact .ite (fun _ => hraised.trans (.rewind _ p)) fun _ => hraised

theorem RelayMoves.serveStatus (bits : BitVec 16) (n : Nat) : RelayMoves s (s.serveStatus p bits n) :=
  (RelayMoves.deliverSheets s p n).trans (.watchStatus _ p bits)

theorem RelayMoves.takeStatus (bits : BitVec 16) (n : Nat) : RelayMoves s (s.takeStatus p bits n) := by
  have hserved := RelayMoves.serveStatus s p bits n
  unfold State.takeStatus
  split
  case h_1 => exact hserved.of_relay_trans (by simp)
  case h_2 => exact hserved.of_relay_trans (by simp)
  case h_3 =>
    refine hserved.of_relay_trans ?_
    rw [State.settle_relay]
    split <;> simp
  case h_4 => exact .refl s

theorem RelayMoves.takeBadFrame : RelayMoves s (s.takeBadFrame p) := by
  unfold State.takeBadFrame
  extract_lets run v
  have hcounted : RelayMoves s v := .of_relay rfl
  refine .ite (fun _ => hcounted.trans ?_) fun _ => hcounted
  split
  case h_1 | h_2 | h_3 => exact .linkLoss v p
  case h_4 => exact (RelayMoves.trainingFailure v p).of_relay_trans (State.settlePort_relay _ p)
  case h_5 => exact .refl v

theorem RelayMoves.receive (bytes : List Byte) : RelayMoves s (s.receive p bytes) := by
  have hgood : RelayMoves s (s.goodFrame p) := .of_relay (goodFrame_relay s p)
  refine .ite (fun _ => .refl s) fun _ => ?_
  split
  case h_1 => exact hgood.of_relay_trans (takeTrainAck_relay _ p _)
  case h_2 => exact hgood.of_relay_trans (takeCredit_relay _ p _)
  case h_3 => exact hgood.trans (.takeStatus _ p _ _)
  case h_4 => exact .takeBadFrame s p

theorem RelayMoves.portReset : RelayMoves s (s.portReset p).1 := by
  unfold State.portReset
  split
  case isTrue => exact .refl s
  case isFalse => exact (RelayMoves.rewind s p).of_relay_trans (by simp)

theorem RelayMoves.portFlush : RelayMoves s (s.portFlush p).1 := by
  unfold State.portFlush
  split
  case h_1 => exact .refl s
  case h_2 =>
    have hended (q : List QueueEntry) := RelayMoves.foldl
      (f := fun v (e : QueueEntry) => v.endTicket e.slot .cancelled .flush) (fun v e => .endTicket v e.slot _ _) q
      (s.setQueue p [])
    exact RelayMoves.of_relay_trans (hended _) (State.settlePort_relay _ p)

end Ports

/-! ### Settings captured (R24, R25, R174, R178) -/

section Settings
variable {s : State} {parts : List SettingPart}

/-- A write that moves the consumed count was judged against the counts (R24, R178). -/
theorem consumeAccepted_of_judged (h : s.judgeSettings parts = none) (hw : writesConsume parts = true) :
    s.consumeAccepted (resultingImage s.image parts) (touchesRing parts) = true := by
  have htouches : touchesConsume parts = true := by
    simp only [writesConsume, List.any_eq_true, Bool.and_eq_true] at hw
    obtain ⟨x, hx, hloc, -⟩ := hw
    exact List.any_eq_true.2 ⟨x, hx, hloc⟩
  unfold State.judgeSettings at h
  dsimp only at h
  split at h
  case isTrue => cases h
  case isFalse =>
    split at h
    case isTrue hvalid =>
      rw [State.settingsValid, htouches] at hvalid
      exact (Bool.and_eq_true_iff.1 hvalid).2
    case isFalse => cases h

theorem restartRing_consumed (s : State) : s.restartRing.relay.consumed = 0 := by
  rw [restartRing_cleared]
  rfl

/-- The index is within the counts as they stand when it is consumed, after a restart when the write makes one (R178). -/
theorem RelayMoves.imaged (h : s.judgeSettings parts = none) : RelayMoves s (s.imaged parts) := by
  unfold State.imaged
  extract_lets v t
  have hring : RelayMoves s t := .ite (fun _ => .restartRing v) fun _ => .refl s
  refine .ite (fun hw => hring.trans (.consumeTo t ?_)) fun _ => hring
  have himage : t.image = resultingImage s.image parts := by
    unfold t
    split
    case isTrue => exact (restartRing_frame v).2
    case isFalse => rfl
  have haccepted := consumeAccepted_of_judged h hw
  rw [himage]
  unfold t
  cases hrestart : touchesRing parts with
  | true =>
    rw [hrestart] at haccepted
    rw [if_pos rfl, restartRing_consumed, beq_iff_eq.1 haccepted, BitVec.sub_self]
    exact Nat.zero_le _
  | false =>
    rw [hrestart] at haccepted
    exact of_decide_eq_true haccepted

theorem partCaptured_relay (old : Image) (s : State) (x : SettingPart) : (s.partCaptured old x).relay = s.relay := by
  unfold State.partCaptured
  split
  case h_1 =>
    unfold State.portCaptured
    split_ifs <;> simp
  case h_2 => rfl

theorem RelayMoves.capture (h : s.judgeSettings parts = none) : RelayMoves s (s.capture parts) := by
  have hparts := RelayMoves.foldl (fun v x => .of_relay (partCaptured_relay s.image v x)) parts (s.imaged parts)
  rw [capture_eq]
  exact ((RelayMoves.imaged h).trans hparts).of_relay_trans (State.settle_relay _)

end Settings

/-! ### Commands (R32 to R37, R44, R53) -/

section Commands
variable {s : State} {arg : Byte}

theorem RelayMoves.onPort {f : PortId → State × CommandResult} (h : ∀ p, RelayMoves s (f p).1) :
    RelayMoves s (s.onPort arg f).1 := by
  unfold State.onPort
  split
  case h_1 => exact h _
  case h_2 => exact .refl s

theorem onQuota_relay {v : Nat} {f : AccountId → State × CommandResult} (h : ∀ a, (f a).1.relay = s.relay) :
    (s.onQuota arg v f).1.relay = s.relay := by
  unfold State.onQuota State.onAccount
  split
  case h_1 a _ =>
    dsimp only
    split
    case isTrue => rfl
    case isFalse => exact (State.settle_relay _).trans (h a)
  case h_2 => rfl

theorem RelayMoves.fst_ite {c : Prop} [Decidable c] {x y : State × CommandResult} (hx : RelayMoves s x.1)
    (hy : RelayMoves s y.1) : RelayMoves s (if c then x else y).1 := by
  split
  case isTrue => exact hx
  case isFalse => exact hy

theorem RelayMoves.perform (s : State) (code arg : Byte) (v : Nat) : RelayMoves s (s.perform code arg v).1 := by
  refine .fst_ite (.of_relay (commandStart_relay s)) ?_
  refine .fst_ite (.of_relay (commandStop_relay s)) ?_
  refine .fst_ite (.onPort fun p => .of_relay (portHold_relay s p)) ?_
  refine .fst_ite (.onPort fun p => .of_relay (portRelease_relay s p)) ?_
  refine .fst_ite (.onPort fun p => .portFlush s p) ?_
  refine .fst_ite (.onPort fun p => .of_relay (portWake_relay s p)) ?_
  refine .fst_ite (.onPort fun p => .portReset s p) ?_
  refine .fst_ite (.onPort fun p => .of_relay (portResume_relay s p)) ?_
  refine .fst_ite (.of_relay (onQuota_relay fun a => quotaSet_relay s a v)) ?_
  refine .fst_ite (.of_relay (onQuota_relay fun _ => rfl)) ?_
  refine .fst_ite (.of_relay (commandMeterClear_relay s arg)) ?_
  refine .fst_ite (.alertTake s) ?_
  exact .fst_ite (.alertDone s) (.refl s)

theorem RelayMoves.takeCommand (s : State) (code arg : Byte) (v : Nat) : RelayMoves s (s.takeCommand code arg v) :=
  (RelayMoves.perform s code arg v).of_relay_trans rfl

theorem RelayMoves.cancelQueued (s : State) (k : Slot) : RelayMoves s (s.cancelQueued k) := by
  unfold State.cancelQueued
  split
  case h_1 m _ =>
    exact RelayMoves.of_relay_trans
      (.endTicket (s.modPort m.port fun x => { x with queue := leaveQueue k x.queue }) k _ _) (State.settlePort_relay _ _)
  case h_2 => exact .endTicket s k _ _

theorem RelayMoves.cancelSent (s : State) (k : Slot) : RelayMoves s (s.cancelSent k) := by
  unfold State.cancelSent
  extract_lets v
  have hmarked : RelayMoves s v := .of_relay rfl
  split
  case h_1 m _ =>
    have hstopped : RelayMoves v (if v.inHand m.port = some k then v.stopEngine m.port k else v.drainTest k) :=
      .ite (fun _ => .stopEngine v m.port k) fun _ => .drainTest v k
    exact (hmarked.trans hstopped).of_relay_trans (State.settle_relay _)
  case h_2 => exact hmarked.trans (.drainTest v k)

theorem RelayMoves.takeJob (s : State) (k : Slot) (addr : Addr) (code : Byte) : RelayMoves s (s.takeJob k addr code) := by
  refine .ite (fun _ => ?_) fun _ => .ite (fun _ => ?_) fun _ => .ite (fun _ => ?_) fun _ => .postFault s addr _
  · split
    case h_1 => exact .of_relay (postTicket_relay s k)
    case h_2 => exact .postFault s addr _
  · split
    case h_1 => exact .cancelQueued s k
    case h_2 | h_3 => exact .cancelSent s k
    case h_4 => exact .postFault s addr _
  · split
    case h_1 | h_2 | h_3 => exact .of_relay rfl
    case h_4 => exact .postFault s addr _

end Commands

/-! ### The host's requests and memory's answers (R1 to R18) -/

section Requests
variable (s : State)

theorem RelayMoves.absorbCommand (w : WriteRequest) : RelayMoves s (s.absorbCommand w) := by
  refine .ite (fun _ => (RelayMoves.takeCommand s _ _ _).of_relay_trans (ack_relay _ _ _)) fun _ => ?_
  exact .refuse (s.modCtl fun c => { c with lastCode := byteOf w 0, lastResult := .complement }) w _

theorem RelayMoves.absorbPost (k : Slot) (w : WriteRequest) : RelayMoves s (s.absorbPost k w) :=
  .ite (fun _ => (RelayMoves.takeJob s k _ _).of_relay_trans (ack_relay _ _ _)) fun _ => .refuse s w _

theorem RelayMoves.proceed {w : WriteRequest} (h : s.judgeWrite w = none) : RelayMoves s (s.proceed w) := by
  unfold State.proceed
  split
  case h_1 => exact .absorbCommand s w
  case h_2 => exact .absorbPost s _ w
  case h_3 =>
    split
    case h_1 => exact .of_relay (forwardWrite_relay s w)
    case h_2 hparts =>
      exact (RelayMoves.capture (judgeSettings_of_judgeWrite h hparts)).of_relay_trans (forwardWrite_relay _ w)

theorem RelayMoves.classifyWrite (w : WriteRequest) : RelayMoves s (s.classifyWrite w) := by
  unfold State.classifyWrite
  split
  case h_1 => exact .refuse s w _
  case h_2 h => exact .proceed s h

theorem RelayMoves.takeWrite (w : WriteRequest) : RelayMoves s (s.takeWrite w) := by
  have hack (status : AckStatus) : RelayMoves s (s.ack w.tag status) := .of_relay rfl
  have hforward : RelayMoves s (s.forwardWrite w) := .of_relay (forwardWrite_relay s w)
  refine .ite (fun _ => hack _) fun _ => .ite (fun _ => .ite (fun _ => hack _) fun _ => ?_) fun _ => ?_
  · exact .ite (fun _ => hforward) fun _ => hack _
  · exact .ite (fun _ => .classifyWrite s w) fun _ => hack _

theorem RelayMoves.takeRequest (r : HostRequest) : RelayMoves s (s.takeRequest r) := by
  cases r with
  | read r => exact .of_relay (takeRead_relay s r)
  | write w => exact .takeWrite s w

theorem RelayMoves.hostRequest (r : HostRequest) : RelayMoves s (s.hostRequest r) :=
  .ite (fun _ => .takeRequest s r) fun _ => .of_relay rfl

theorem RelayMoves.unprompted : RelayMoves s s.unprompted := by
  unfold State.unprompted
  split
  case h_1 r _ => exact RelayMoves.of_relay_trans (.takeRequest (s.setHeld []) r) (setHeld_relay _ _)
  case h_2 => exact .of_relay (idle_relay s)

theorem RelayMoves.answered (owner : Owner) (a : KeptAnswer) : RelayMoves s (s.answered owner a) := by
  cases owner with
  | passing tag half => exact .of_relay (passingAnswered_relay s tag half a)
  | record dropped => exact .ite (fun _ => .refl s) fun _ => .recordAnswered s a.ok
  | ticketFetch k => exact .ticketFetchAnswered s k a
  | lineFetch p mark copy offset => exact .lineAnswered s p mark copy offset a.ok a.data
  | sweep => exact .of_relay (sweepAnswered_relay s a.ok)

theorem RelayMoves.memoryAnswers (kind : Owner → Bool) (grant : Nat) (ok : Bool) (data : List Byte) :
    RelayMoves s (s.memoryAnswers kind grant ok data) := by
  unfold State.memoryAnswers
  split
  case h_1 => exact .refl s
  case h_2 g _ =>
    exact RelayMoves.answered (s.modMsp fun m => { m with outstanding := m.outstanding.filter fun x => x.id != grant }) _ _

theorem RelayMoves.assertReset : RelayMoves s s.assertReset := .of_move (.reset s.relay)

end Requests

/-! ### A step -/

theorem RelayMoves.of_outcome {s t u : State} (h : RelayMoves s.clearOut u)
    (hu : (.next u : Host.Outcome State Fault Refusal) = .next t) : RelayMoves s t := by
  cases hu
  exact h

theorem RelayMoves.exec {i : Instr} {s t : State} (h : exec i s = .next t) : RelayMoves s t := by
  cases i with
  | resetNAssertion => exact .of_outcome (.assertReset _) h
  | resetNRelease anchor => exact .of_outcome (.of_relay (releaseReset_relay _ anchor)) h
  | millisecondCountTick => exact .of_outcome (.of_relay (tick_relay _)) h
  | read r => exact .of_outcome (.hostRequest _ (.read r)) h
  | write w => exact .of_outcome (.hostRequest _ (.write w)) h
  | windowSettingWrite | ringRestart | consumeIndexWrite | portEnable | portDisable | portSettingWrite
  | accountSettingWrite => exact .of_outcome (.hostRequest _ _) h
  | start | stop | portHold | portRelease | portFlush | portWake | portReset | portResume | quotaSet | quotaAdd
  | meterClear | alertTake | alertDone => exact .of_outcome (.hostRequest _ _) h
  | post | cancel | release => exact .of_outcome (.hostRequest _ _) h
  | memoryGrant => exact .of_outcome (.of_relay (grantNext_relay _)) h
  | recordWritePick => exact .of_outcome (.pickRecord _) h
  | sweepWriteAnswer | passingResponse | ticketFetchAnswer | lineFetchAnswer | alertWriteAnswer =>
    exact .of_outcome (.memoryAnswers _ _ _ _ _) h
  | activation p => exact .of_outcome (.of_relay (dispatch_relay _ p)) h
  | wakeCause p => exact .of_outcome (.of_relay (wakeCause_relay _ p)) h
  | dataFrame p => exact .of_outcome (.of_relay (sendFrame_relay _ p)) h
  | pacingWindowEnd p => exact .of_outcome (.of_relay (endWindow_relay _ p)) h
  | trainAck p | credit p | status p | badFrame p => exact .of_outcome (.receive _ p _) h
  | trainingTimerExpiry p => exact .of_outcome (.trainingTimer _ p) h
  | silenceTimerExpiry p => exact .of_outcome (.silenceTimer _ p) h
  | idleTimerExpiry p => exact .of_outcome (.of_relay (idleTimer_relay _ p)) h
  | warmTimerExpiry p => exact .of_outcome (.of_relay (warmTimer_relay _ p)) h

/-- A step moves the relay only as the rules of the raises, the ring, the service stack and the reset have it. -/
theorem RelayMoves.step {s t : State} (h : step s = .next t) : RelayMoves s t := by
  unfold Machine.step at h
  split at h
  case h_1 => exact .of_outcome (.unprompted _) h
  case h_2 rest _ => exact RelayMoves.exec (s := s.withPending rest) h

/-- Settles O57: every move of the relay keeps each of the five. -/
theorem stepsKeepTheRelaySound : Obligations.StepsKeepTheRelaySound := by
  intro s t hstep
  have hmoves := RelayMoves.step hstep
  refine ⟨hmoves.keeps Relay.Move.keeps_nested, hmoves.keeps Relay.Move.keeps_ordered,
    hmoves.keeps Relay.Move.keeps_sourced, ?_, hmoves.keeps Relay.Move.keeps_shadowed⟩
  rw [attnJudged_iff, attnJudged_iff]
  exact hmoves.keeps Relay.Move.keeps_attentive

end Sys2Proof.Machine

/-! ## ALERT_TAKE and ALERT_DONE (R180 to R182) -/

namespace Sys2Proof.Machine

/-- A rank names its class (R170). -/
theorem AlertClass.rank_injective : Function.Injective AlertClass.rank := by
  intro a b
  cases a <;> cases b <;> decide

theorem mostUrgent_none {cs : List AlertClass} (h : mostUrgent cs = none) : cs = [] := by
  cases cs with
  | nil => rfl
  | cons c cs =>
    unfold mostUrgent at h
    split at h
    case h_1 => cases h
    case h_2 => split at h <;> cases h

theorem mostUrgent_least {cs : List AlertClass} {c : AlertClass} (h : mostUrgent cs = some c) :
    c ∈ cs ∧ ∀ d ∈ cs, c.rank ≤ d.rank := by
  induction cs generalizing c with
  | nil => cases h
  | cons d ds ih =>
    unfold mostUrgent at h
    split at h
    case h_1 hnone =>
      cases h
      rw [mostUrgent_none hnone]
      simp
    case h_2 e he =>
      obtain ⟨hmem, hleast⟩ := ih he
      split at h
      case isTrue hurgent =>
        have hlt : e.rank < d.rank := of_decide_eq_true hurgent
        cases h
        exact ⟨List.mem_cons_of_mem _ hmem, List.forall_mem_cons.2 ⟨hlt.le, hleast⟩⟩
      case isFalse hurgent =>
        cases h
        have hle : d.rank ≤ e.rank := Nat.not_lt.1 fun hlt => hurgent (decide_eq_true hlt)
        exact ⟨List.mem_cons_self, List.forall_mem_cons.2 ⟨le_rfl, fun x hx => hle.trans (hleast x hx)⟩⟩

/-- The most urgent class of a shadow is the one of least rank in it (R170, R180). -/
theorem mostUrgent_eq {cs : List AlertClass} {c : AlertClass} (hmem : c ∈ cs) (hleast : ∀ d ∈ cs, c.rank ≤ d.rank) :
    mostUrgent cs = some c := by
  cases h : mostUrgent cs with
  | none =>
    rw [mostUrgent_none h] at hmem
    cases hmem
  | some d =>
    obtain ⟨hd, hdleast⟩ := mostUrgent_least h
    rw [AlertClass.rank_injective (Nat.le_antisymm (hdleast c hmem) (hleast d hd))]

section Stack
variable {s : State} {c : AlertClass}

/-- ALERT_TAKE finds a class to push: one more urgent than the top, or any when the stack is empty (R180). -/
theorem alertTake_pushes (h : mostUrgent s.relay.shadow = some c)
    (hurgent : s.relay.stack = [] ∨ ∃ top below, s.relay.stack = top :: below ∧ c.rank < top.rank) :
    s.alertTake = ((s.modRelay fun r => { r with stack := c :: r.stack }).judgeAttn, .done) := by
  unfold State.alertTake
  rw [h]
  obtain hempty | ⟨top, below, hstack, hlt⟩ := hurgent
  · simp only [hempty, State.modRelay]
  · have hmore : c.moreUrgent top = true := decide_eq_true hlt
    simp only [hstack, hmore, if_true, State.modRelay]

/-- ALERT_TAKE finds nothing more urgent than the top (R180). -/
theorem alertTake_nothing (h : mostUrgent s.relay.shadow = some c) {top : AlertClass} {below : List AlertClass}
    (hstack : s.relay.stack = top :: below) (hle : top.rank ≤ c.rank) : s.alertTake = (s, .nothing) := by
  have hmore : ¬c.moreUrgent top = true := fun hlt => Nat.not_lt.2 hle (of_decide_eq_true hlt)
  unfold State.alertTake
  rw [h]
  simp only [hstack, if_neg hmore]

theorem alertTake_empty (h : s.relay.shadow = []) : s.alertTake = (s, .nothing) := by
  unfold State.alertTake
  rw [h]
  rfl

theorem alertDone_empty (h : s.relay.stack = []) : s.alertDone = (s, .state) := by
  unfold State.alertDone
  rw [h]

theorem alertDone_pops {top : AlertClass} {below : List AlertClass} (h : s.relay.stack = top :: below) :
    s.alertDone = ((s.modRelay fun r => { r with stack := below }).judgeAttn, .done) := by
  unfold State.alertDone
  rw [h]

end Stack

/-- What a taken control command leaves, by its owner's answer (R9, R33). -/
theorem exec_commanded {i : Instr} {c : CommandWrite} {code : Byte} {s X : State} {r : CommandResult}
    (hi : exec i s = .next (s.clearOut.commandWrite code c)) (ht : s.takes code c)
    (hperform : s.clearOut.perform code c.argument c.value.toNat = (X, r)) :
    exec i s = .next ((X.modCtl (Control.recorded code r)).ack c.tag .ok) := by
  rw [exec_taken hi ht, takeCommand_eq hperform]

/-- Settles O26: the class of least rank is the one that is pushed, or not. -/
theorem alertTakePushesTheMostUrgent : Obligations.AlertTakePushesTheMostUrgent := by
  intro c s ht
  refine ⟨fun hnone => ?_, fun x hx hleast => ⟨fun hurgent => ?_, ?_⟩⟩
  · exact exec_commanded (i := .alertTake c) rfl ht (alertTake_empty (s := s.clearOut) hnone)
  · exact exec_commanded (i := .alertTake c) rfl ht (alertTake_pushes (s := s.clearOut) (mostUrgent_eq hx hleast) hurgent)
  · rintro ⟨top, below, hstack, hle⟩
    exact exec_commanded (i := .alertTake c) rfl ht
      (alertTake_nothing (s := s.clearOut) (mostUrgent_eq hx hleast) hstack hle)

/-- Settles O27. -/
theorem alertDonePopsTheStack : Obligations.AlertDonePopsTheStack := by
  intro c s ht
  refine ⟨fun hempty => ?_, fun top below hstack => ?_⟩
  · exact exec_commanded (i := .alertDone c) rfl ht (alertDone_empty (s := s.clearOut) hempty)
  · exact exec_commanded (i := .alertDone c) rfl ht (alertDone_pops (s := s.clearOut) hstack)

end Sys2Proof.Machine

/-! ## The ring's restart by a write of its word (R173, R174, R176, R182) -/

namespace Sys2Proof.Machine

section RingWord
variable {s : State} {x : WordBytes}

theorem judgeSettings_ringWord (hen : true ∈ x.enables.take 6)
    (hzero : x.result s .ring &&& ~~~(fieldMask .ring) = 0) (hrange : ¬outOfRange (x.result s .ring) .ring)
    (hapart : s.apart (s.image.put .ring (x.result s .ring)) true) : s.judgeSettings [x.part .ring] = none := by
  refine judgeSettings_none (new := s.image.put .ring (x.result s .ring)) rfl ?_ ?_ (fun _ => ?_) fun hc => ?_
  · intro _ hm
    obtain rfl := List.mem_singleton.1 hm
    exact fun _ => id
  · intro _ hm
    obtain rfl := List.mem_singleton.1 hm
    exact ⟨hzero, hrange⟩
  · rw [(touchesRing_part x .ring).2 ⟨rfl, hen⟩]
    exact hapart
  · rw [touchesConsume_one_none (x := x.part .ring) nofun] at hc
    cases hc

/-- The capture of the ring's word is its restart (R174). -/
theorem capture_ringWord (hen : true ∈ x.enables.take 6) : s.clearOut.capture [x.part .ring] =
    (restarted s (s.captured x .ring)).settle := by
  have hrestart : (s.captured x .ring).restartRing = restarted s (s.captured x .ring) := restartRing_eq _
  rw [State.capture, (touchesRing_part x .ring).2 ⟨rfl, hen⟩, if_pos rfl,
    writesConsume_false (by simp [WordBytes.part]), if_neg Bool.false_ne_true, ← hrestart]
  rfl

end RingWord

/-- Settles O13: by the record write in flight, waiting or granted. -/
theorem ringWritesRestartTheRing : Obligations.RingWritesRestartTheRing := by
  intro x s h hx hen v c r isRecord dropped hzero hrange hapart
  have hforwards : s.forwards (.ringRestart (x.write .ring)) (x.write .ring) (restarted s c) :=
    forwards_captured (by simp [settingRows]) h hx (judgeSettings_ringWord (s := s.clearOut) hen hzero hrange hapart)
      (capture_ringWord hen)
  unfold restarted at hforwards
  refine ⟨fun hnone => ?_, fun l hflying => ⟨fun hwaits => ?_, fun hgranted => ?_⟩⟩
  · rw [hnone] at hforwards
    exact hforwards
  · rw [hflying] at hforwards
    dsimp only at hforwards
    rw [if_pos hwaits] at hforwards
    exact hforwards
  · rw [hflying] at hforwards
    dsimp only at hforwards
    rw [if_neg (by rw [hgranted]; decide)] at hforwards
    exact hforwards

end Sys2Proof.Machine

/-! ## The ring writer's pick, and the bytes of a record (R175, R193) -/

namespace Sys2Proof.Machine

section Pick
variable {s : State}

/-- When the ring writer may present a record write (R175). -/
theorem mayPick_iff (s : State) : s.mayPick = true ↔ s.relay.backlog ≠ [] ∧ s.relay.ringState = .running ∧
    s.relay.inFlight = none ∧ s.relay.unconsumed < ringRecords s.image.ring := by
  simp only [State.mayPick, Bool.and_eq_true, Bool.not_eq_true', List.isEmpty_eq_false_iff, beq_iff_eq,
    Option.isNone_iff_eq_none, decide_eq_true_eq, and_assoc]

theorem pickRecord_picks {l : Latch} {rest : List Latch} (hfirst : s.relay.backlog = l :: rest) (hpick : s.mayPick = true) :
    s.pickRecord = (s.modMsp fun m => { m with waiting := m.waiting ++ [s.recordWrite l] }).modRelay fun r =>
      { r with backlog := rest, inFlight := some l } := by
  unfold State.pickRecord
  rw [hfirst]
  exact if_pos hpick

theorem pickRecord_waits (h : ¬s.mayPick = true) : s.pickRecord = s := by
  unfold State.pickRecord
  split
  case h_1 => rfl
  case h_2 => exact if_neg h

/-- In an ordered backlog the first latch has the most urgent class, and of that class the lowest source (R171, R175). -/
theorem first_most_urgent {l : Latch} {rest : List Latch} (h : (l :: rest).Pairwise fun a b => a.key < b.key)
    (hsources : ∀ k ∈ l :: rest, k.source < 256) :
    ∀ k ∈ rest, l.cls.rank < k.cls.rank ∨ (l.cls = k.cls ∧ l.source < k.source) := by
  intro k hk
  have hkey := (List.pairwise_cons.1 h).1 k hk
  have hl := hsources l List.mem_cons_self
  have hks := hsources k (List.mem_cons_of_mem _ hk)
  simp only [Latch.key, latchKey] at hkey
  rcases Nat.lt_trichotomy l.cls.rank k.cls.rank with hlt | heq | hgt
  · exact .inl hlt
  · exact .inr ⟨AlertClass.rank_injective heq, by omega⟩
  · omega

end Pick

/-! ### The detail bytes (R193) -/

theorem printer_bytes (cause : Cause) (bits : BitVec 16) (slot : Option Slot) :
    (Detail.printer cause bits slot).bytes =
      [match cause with | .condition c => BitVec.ofNat 8 c.val | .link => 0xFF#8, 0] ++ leBytes 2 bits.toNat ++
        (match slot with | some k => [BitVec.ofNat 8 k.val, 0#8] | none => [0xFF#8, 0xFF#8]) ++ List.replicate 10 0 := by
  cases slot with
  | none => cases cause <;> rfl
  | some k =>
    have hslot : leBytes 2 k.val = [BitVec.ofNat 8 k.val, 0#8] := by
      have hhigh : k.val / 256 = 0 := Nat.div_eq_of_lt k.isLt
      simp only [leBytes, hhigh]
    show padTo 16 (leBytes 1 cause.code ++ [0#8] ++ leBytes 2 bits.toNat ++ leBytes 2 k.val) = _
    rw [hslot]
    cases cause <;> rfl

theorem quota_bytes (remaining : Nat) (policy : Policy) :
    (Detail.quota remaining policy).bytes = leBytes 3 remaining ++
      [match policy with | .none => 0#8 | .hold => 1#8 | .reload => 2#8] ++ List.replicate 12 0 := by
  cases policy <;> rfl

theorem refusal_bytes (addr : Addr) (reason : RefusalReason) (count : BitVec 32) :
    (Detail.refusal addr reason count).bytes = leBytes 5 addr.toNat ++
      [match reason with
        | .shape => 1#8 | .subst => 2#8 | .ticket => 3#8 | .guard => 4#8 | .locked => 5#8 | .range => 6#8
        | .complement => 7#8 | .arg => 8#8 | .state => 9#8, 0, 0] ++ leBytes 4 count.toNat ++ List.replicate 4 0 := by
  cases reason <;> rfl

theorem job_bytes (k : Slot) (jobTag : BitVec 32) (reason : Reason) (delivered spoiled : Nat) :
    (Detail.job k jobTag reason delivered spoiled).bytes =
      [BitVec.ofNat 8 k.val, match reason with
        | .noReason => 0#8 | .extent => 1#8 | .port => 2#8 | .account => 3#8 | .copies => 4#8 | .rule => 5#8
        | .memoryReject => 6#8 | .complete => 0x81#8 | .cancel => 0x82#8 | .flush => 0x83#8 | .memoryEnd => 0x84#8] ++
        leBytes 2 spoiled ++ leBytes 4 jobTag.toNat ++ leBytes 3 delivered ++ List.replicate 5 0 := by
  cases reason <;> rfl

/-- Settles O40. -/
theorem theWriterPicksTheFirstLatch : Obligations.TheWriterPicksTheFirstLatch := by
  refine ⟨fun s => ?_, printer_bytes, quota_bytes, refusal_bytes, job_bytes⟩
  intro records mayPick
  have hpicks : s.clearOut.mayPick = true ↔ s.relay.backlog ≠ [] ∧ mayPick := mayPick_iff s.clearOut
  refine ⟨fun l rest hfirst hmay => ⟨?_, fun hordered hsources => ?_⟩, fun hno => ?_⟩
  · have hpick : s.clearOut.mayPick = true := hpicks.2 ⟨by rw [hfirst]; exact List.cons_ne_nil _ _, hmay⟩
    exact congrArg Host.Outcome.next (pickRecord_picks (s := s.clearOut) hfirst hpick)
  · exact first_most_urgent (hfirst ▸ hordered) (hfirst ▸ hsources)
  · refine congrArg Host.Outcome.next (pickRecord_waits (s := s.clearOut) fun hpick => ?_)
    obtain ⟨hsome, hmay⟩ := hpicks.1 hpick
    exact hno.elim hsome (· hmay)

end Sys2Proof.Machine

/-! ## Answers to record writes, and how latches join the backlog (R171, R176, R177, R179, R182) -/

namespace Sys2Proof.Machine

/-! ### How latches join the backlog (R171, R177) -/

section Joining
variable {new : Latch} {merge : Latch → Latch} {ls : List Latch}

/-- A latch whose place is free is inserted in order. -/
theorem placed_fresh (h : ∀ l ∈ ls, l.key ≠ new.key) :
    placed new merge ls = ls.orderedInsert (fun a b => a.key < b.key) new := by
  induction ls with
  | nil => rfl
  | cons l ls ih =>
    rw [placed, List.orderedInsert_cons, if_neg (Ne.symm (h l List.mem_cons_self)),
      ih fun k hk => h k (List.mem_cons_of_mem _ hk)]

theorem placed_joins (hmerge : ∀ l, new.key = l.key → (merge l).key = l.key)
    (hordered : ls.Pairwise fun a b => a.key < b.key) (h : ∀ l ∈ ls, l.key ≠ new.key) :
    (placed new merge ls).Perm (new :: ls) ∧ (placed new merge ls).Pairwise fun a b => a.key < b.key := by
  refine ⟨?_, placed_ordered hmerge hordered⟩
  rw [placed_fresh h]
  exact List.perm_orderedInsert _ _ _

/-- A latch whose place is held is merged with the latch there, and no other latch changes. -/
theorem placed_held (hordered : ls.Pairwise fun a b => a.key < b.key) (h : ∃ l ∈ ls, l.key = new.key) :
    placed new merge ls = ls.map fun l => if l.key = new.key then merge l else l := by
  induction ls with
  | nil =>
    obtain ⟨_, hl, -⟩ := h
    cases hl
  | cons l ls ih =>
    obtain ⟨hhead, htail⟩ := List.pairwise_cons.1 hordered
    rw [placed, List.map_cons]
    split
    case isTrue hlt =>
      obtain ⟨k, hk, hkey⟩ := h
      exact absurd hkey (Nat.ne_of_gt (key_lt_of_head hordered hlt k hk))
    case isFalse =>
      split
      case isTrue heq =>
        have hrest : ls.map (fun k => if k.key = new.key then merge k else k) = ls :=
          (List.map_congr_left fun k hk => if_neg (by rw [heq]; exact Nat.ne_of_gt (hhead k hk))).trans (List.map_id ls)
        rw [if_pos heq.symm, hrest]
      case isFalse hne =>
        obtain ⟨k, hk, hkey⟩ := h
        obtain rfl | hk := List.mem_cons.1 hk
        · exact absurd hkey.symm hne
        · rw [if_neg (Ne.symm hne), ih htail ⟨k, hk, hkey⟩]

/-- A place in the backlog is a class and a source, with sources in range (R170, R171). -/
theorem key_eq_iff {a b : Latch} (ha : a.source < 256) (hb : b.source < 256) :
    (a.cls == b.cls && a.source == b.source) = true ↔ a.key = b.key := by
  rw [Bool.and_eq_true, beq_iff_eq, beq_iff_eq]
  refine ⟨fun ⟨hcls, hsource⟩ => ?_, Latch.key_inj ha hb⟩
  rw [Latch.key, hcls, hsource, Latch.key]

/-- R171, R177: what a raise and a returning latch do, by whether the backlog holds their class and source. -/
theorem latches_join {new : Latch} {ls : List Latch} (hordered : ls.Pairwise fun a b => a.key < b.key)
    (hsources : ∀ l ∈ new :: ls, l.source < 256) :
    let same (l : Latch) : Bool := l.cls == new.cls && l.source == new.source
    let joins (result : List Latch) : Prop := result.Perm (new :: ls) ∧ result.Pairwise fun a b => a.key < b.key
    (ls.any same = false → joins (addRaise new ls) ∧ joins (putBack new ls)) ∧
    (ls.any same = true →
      addRaise new ls = ls.map (fun l =>
        if same l then { l with occurrences := min (l.occurrences + 1) 65535 } else l) ∧
      putBack new ls = ls.map fun l =>
        if same l then { new with occurrences := min (new.occurrences + l.occurrences) 65535 } else l) := by
  intro same joins
  have hsame : ∀ l ∈ ls, (same l = true ↔ l.key = new.key) := fun l hl =>
    key_eq_iff (hsources l (List.mem_cons_of_mem _ hl)) (hsources new List.mem_cons_self)
  rw [addRaise_eq_placed, putBack_eq_placed]
  refine ⟨fun hnone => ?_, fun hsome => ?_⟩
  · have hfree : ∀ l ∈ ls, l.key ≠ new.key := fun l hl hkey => List.any_eq_false.1 hnone l hl ((hsame l hl).2 hkey)
    exact ⟨placed_joins (fun _ _ => rfl) hordered hfree, placed_joins (fun _ heq => heq) hordered hfree⟩
  · obtain ⟨l, hl, hheld⟩ := List.any_eq_true.1 hsome
    have hheld : ∃ l ∈ ls, l.key = new.key := ⟨l, hl, (hsame l hl).1 hheld⟩
    rw [placed_held hordered hheld, placed_held hordered hheld]
    exact ⟨List.map_congr_left fun k hk => if_congr (hsame k hk).symm rfl rfl,
      List.map_congr_left fun k hk => if_congr (hsame k hk).symm rfl rfl⟩

end Joining

/-! ### Answers to record writes (R176, R177, R179, R182) -/

section Answers
variable {s : State} {g : Granted} {rest : List Granted} {ok : Bool}

theorem exec_alertWriteAnswer {dropped : Bool} (h : s.awaits g rest) (ho : g.request.owner = .record dropped) :
    exec (.alertWriteAnswer g.id ok) s =
      .next (({ s with msp := { s.msp with outstanding := rest }, out := [] } : State).answered (.record dropped)
        ⟨ok, g.request.answerData []⟩) := by
  have hanswers := memoryAnswers_awaits Owner.isRecord ok [] h (by rw [ho]; rfl)
  rw [ho] at hanswers
  exact congrArg Host.Outcome.next hanswers

theorem recordAnswered_ok {l : Latch} (h : s.relay.inFlight = some l) : s.recordAnswered true =
    (s.modRelay fun r =>
      { r with inFlight := none, produced := r.produced + 1, shadow := r.shadow ++ [l.cls] }).judgeAttn := by
  unfold State.recordAnswered
  rw [h]
  rfl

/-- A ring that becomes FAULTED asks for attention (R177, R182). -/
theorem recordAnswered_error {l : Latch} (h : s.relay.inFlight = some l) : s.recordAnswered false =
    s.modRelay fun r =>
      { r with inFlight := none, ringState := .faulted, backlog := putBack l r.backlog, attn := true } := by
  unfold State.recordAnswered
  rw [h]
  rfl

end Answers

/-- Settles O41: by whether a restart dropped the record write, and how memory answers it. -/
theorem recordAnswersCompleteOrFault : Obligations.RecordAnswersCompleteOrFault := by
  refine ⟨fun g rest ok dropped s hawaits howner => ?_, fun new ls => latches_join⟩
  intro t
  have hexec := exec_alertWriteAnswer (ok := ok) hawaits howner
  refine ⟨fun hdropped => ?_, fun l hkept hflying => ⟨fun hok => ?_, fun herror => ?_⟩⟩
  · rw [hexec, hdropped]
    rfl
  · rw [hexec, hkept, hok]
    exact congrArg Host.Outcome.next (recordAnswered_ok (s := t) hflying)
  · rw [hexec, hkept, herror]
    exact congrArg Host.Outcome.next (recordAnswered_error (s := t) hflying)

end Sys2Proof.Machine
